-- ==== Sys2Proof/Word.lean ====
section
/-! DEFINITION. The data sizes of R6: byte, halfword, word, doubleword, a 64-byte register or line of
sixteen 32-bit lanes (R40), and a 160-bit accumulator element (R275). -/

namespace Sys2Proof

/-- A byte (R6). -/
abbrev Byte := BitVec 8
/-- A halfword, the unit of the instruction stream (R110). -/
abbrev Half := BitVec 16
/-- A word, and one lane of a register (R40). -/
abbrev Lane := BitVec 32
/-- A doubleword: a scalar, an address, a special register (R138). -/
abbrev Dword := BitVec 64
/-- A window register, a queue entry, a message or a line: 64 bytes, lane 0 lowest (R40, R200). -/
abbrev Reg := BitVec 512
/-- A register number of a D, A or B field: the XR nibble over the base nibble (R120). -/
abbrev RegNo := BitVec 8

end Sys2Proof
end

