-- ==== Sys2Proof/Config.lean ====
section
/-! DEFINITION. What the spec leaves open, as constants without a body: open latencies (R4), values no rule
states, and what outside standards fix (FIPS 205). -/

namespace Sys2Proof

/-- An open latency, in cycles after the next (R4): the n-th that a partition draws in a run (R34). -/
opaque Config.delay : Nat → Nat → Nat
/-- A value the spec does not state: the n-th drawn in a run. -/
opaque Config.freeValue : Nat → Dword
/-- An open choice between two permitted outcomes (R5): the n-th that a partition draws in a run (R34). -/
opaque Config.freeBit : Nat → Nat → Bool
/-- Whether a slice in which a partition has a way lacks a line, so that an access needs a DRAM command (R24, R33): open, for each
of the partition's draws. -/
opaque Config.sliceMiss : Nat → Nat → Nat → Bool
/-- SHAKE256's 32-byte digest (R458, FIPS 202), its doublewords lowest first. -/
opaque Config.digest : List Byte → List Dword
/-- Whether a signature over bytes is good under the fused key (R456, FIPS 205). -/
opaque Config.signatureGood : BitVec 256 → List Byte → List Byte → Bool
/-- The check sequence of a frame (R460, IEEE 802.3). -/
opaque Config.fcs : List Byte → BitVec 32
/-- The four bytes of a check sequence, the lowest first. -/
def Config.fcsBytes (frame : List Byte) : List Byte := (List.range 4).map fun i => (Config.fcs frame).extractLsb' (8 * i) 8
/-- Whether a frame with its check sequence is good (R460). -/
def Config.fcsGood (frame : List Byte) : Bool := frame.drop (frame.length - 4) == Config.fcsBytes (frame.take (frame.length - 4))
/-- The length of the firmware image in flash, its signature behind it (R455). -/
opaque Config.imageLength : Nat
/-- The device's signature over bytes (R471). -/
opaque Config.sign : List Byte → List Byte
/-- The device's public key (R471), 64 bytes. -/
opaque Config.publicKey : Nat → Byte
/-- What the sensors read at the hottest junction at the n-th sample, in sixteenths of a degree (R469). -/
opaque Config.junction : Nat → Nat
/-- The mode index that a head's sink names in its EDID (R465). -/
opaque Config.edidMode : Nat → Nat
/-- What a device behind the PCIe port answers to a read: none where the request does not complete (R464). -/
opaque Config.pcieRead : Nat → Nat → Option Dword
/-- Whether a write to a device behind the PCIe port completes (R464). -/
opaque Config.pcieWrite : Nat → Nat → Bool

end Sys2Proof
end

