-- ==== Sys2Proof/Syntax.lean ====
section
/-! DEFINITION. The instructions and events of opcode_table.json: one constructor a row. An instruction
carries its operands as its encoding gives them (R120 to R133); an event carries what arrives with it. -/

namespace Sys2Proof

/-- Layout M, field type (R130). -/
inductive MType where | ub | sb | uh | sh | uw | sw | d
  deriving DecidableEq, Repr
/-- Home policy of layout M (R130, R68). -/
inductive Policy where | pred | remote | migrate
  deriving DecidableEq, Repr
/-- Order of layouts M and A (R130, R228). -/
inductive Order where | plain | acq | rel | sc
  deriving DecidableEq, Repr
/-- Scope (R130, R229). -/
inductive Scope where | core | tile | dev | sys
  deriving DecidableEq, Repr
/-- Layout M (R130). -/
structure MQual where
  ty : MType
  pol : Policy
  ord : Order
  scope : Scope
  deriving DecidableEq, Repr
/-- Layout A, field op (R130, R206). -/
inductive AtomOp where | add | and | or | xor | min | max | minn | maxn | swap
  deriving DecidableEq, Repr
/-- Layout A (R130). -/
structure AQual where
  op : AtomOp
  comb : Bool
  ord : Order
  scope : Scope
  word : Bool
  deriving DecidableEq, Repr
/-- Layout F, field kind (R130). -/
inductive FenceKind where | full | acq | rel
  deriving DecidableEq, Repr
/-- Layout F (R130). -/
structure FQual where
  kind : FenceKind
  scope : Scope
  deriving DecidableEq, Repr
/-- Element of layout VI (R130, R246). -/
inductive VElem where | w | h | b
  deriving DecidableEq, Repr
/-- Condition of layout VI (R130, R252). -/
inductive Cond where | eq | ne | lt | le | gt | ge
  deriving DecidableEq, Repr
/-- Layout VI (R130). -/
structure VIQual where
  el : VElem
  bc : Bool
  sat : Bool
  uns : Bool
  cond : Cond
  deriving DecidableEq, Repr
/-- Type of layouts VF and AR (R130). -/
inductive FType where | fp32 | fp16 | bf16
  deriving DecidableEq, Repr
/-- A rounding field (R133); `dyn` takes the mode from rnd. -/
inductive Rounding where | dyn | rne | rtz | rdn | rup | rna | sr
  deriving DecidableEq, Repr
/-- Layout VF without its op (R130). -/
structure VFQual where
  ty : FType
  bc : Bool
  rm : Rounding
  deriving DecidableEq, Repr
/-- The op of VFCMP (R256). -/
inductive FCmp where | eq | ne | lt | le | gt | ge | uno | ord
  deriving DecidableEq, Repr
/-- The op of VFSGN (R257). -/
inductive SgnOp where | copy | neg | xor | abs
  deriving DecidableEq, Repr
/-- The op of VFCVTI (R258). -/
inductive CvtiOp where | toi | touns | fromi | fromuns
  deriving DecidableEq, Repr
/-- Layout L (R130): the integer operations, and the three float ones with their rounding. -/
inductive LQual where
  | int (op : Fin 8)
  | float (op : Fin 3) (rm : Rounding)
  deriving DecidableEq, Repr
/-- Layout BM (R153). -/
inductive MaskTest where | any | none | all
  deriving DecidableEq, Repr
/-- Layout BO (R146). -/
inductive BitOp where | clz | ctz | popc | brev | bswap
  deriving DecidableEq, Repr
/-- A number format (R132); `b8 uns inf p` is binary8 of precision p + 1. -/
inductive Fmt where
  | fp32 | fp16 | bf16 | e2m1
  | b8 (uns inf : Bool) (p : Fin 7)
  deriving DecidableEq, Repr
/-- Layout C (R130). -/
structure CQual where
  fmt : Fmt
  rm : Rounding
  frm : Bool
  deriving DecidableEq, Repr
/-- Layout X (R130). -/
structure XQual where
  fmt : Fmt
  rm : Rounding
  deriving DecidableEq, Repr
/-- Width of layout PK (R130, R285). -/
inductive PWidth where | x16 | x8 | x4
  deriving DecidableEq, Repr
/-- Layout PK (R130). -/
structure PQual where
  width : PWidth
  sat : Bool
  deriving DecidableEq, Repr
/-- Depth compare of layout Z (R130, R385). -/
inductive ZCmp where | never | lt | eq | le | gt | ne | ge | always
  deriving DecidableEq, Repr
/-- Layout Z (R130). -/
structure ZQual where
  cmp : ZCmp
  nowr : Bool
  deriving DecidableEq, Repr

/-- The fault codes 0x01 to 0x19 (R413). -/
inductive Code where
  | illop | illenc | regwin | regnum | priv | seglim | segrights | align | prot | fewait | qwait | nqwait
  | bwait | chwait | accgone | bankmode | fmt | budget | wdog | memerr | migfail | aperture | brk | accrange
  | noequip
  deriving DecidableEq, Repr

/-- The number of a fault code (R413). -/
def Code.num : Code → Nat
  | .illop => 1 | .illenc => 2 | .regwin => 3 | .regnum => 4 | .priv => 5 | .seglim => 6 | .segrights => 7
  | .align => 8 | .prot => 9 | .fewait => 10 | .qwait => 11 | .nqwait => 12 | .bwait => 13 | .chwait => 14
  | .accgone => 15 | .bankmode => 16 | .fmt => 17 | .budget => 18 | .wdog => 19 | .memerr => 20
  | .migfail => 21 | .aperture => 22 | .brk => 23 | .accrange => 24 | .noequip => 25

/-- Which operand field (R136): D, A, B or none. -/
inductive Field where | D | A | B | none
  deriving DecidableEq, Repr

/-- What R136 reports of a chain that is not a legal instruction: the code, the page and OP reached, the
reason of R135, the field and the register number. -/
structure ChainFault where
  code : Code
  page : Nat
  op : Nat
  reason : Nat
  field : Field
  reg : RegNo
  deriving DecidableEq, Repr

/-- A fault as Fault(code, …) of R9 gives it: the code and its four doublewords (R413). -/
structure Flt where
  code : Code
  dw2 : Dword
  dw3 : Dword
  dw4 : Dword
  dw5 : Dword
  deriving DecidableEq, Repr

/-- What an access does at its home (R184): plain transfers, the synchronising accesses of R179, atomics of
R206 and R207, QWAIT's read of head and tail (R211), ZLINE (R177). Data and compare values travel with it. -/
inductive AccKind where
  | read (n : Nat)
  | write (n : Nat) (v : Reg) (mask : BitVec 64)
  | zline
  | ldf | take | put (v : Dword) | stf (v : Dword) | sete | fetag
  | atom (op : AtomOp) (n : Nat) (v : Dword)
  | cas (n : Nat) (c v : Dword)
  | qwait (cap : Dword)
  deriving DecidableEq, Repr

/-- How the value an access returns enters its instruction's result (R199 to R203, R211). -/
inductive Land where
  | none
  | scalar (ty : MType)
  | lane (l : Nat) (ty : MType)
  | line
  | mx
  | count
  /-- to the front end, for a TAKE of its own (R352) -/
  | frontEnd
  deriving DecidableEq, Repr

/-- A request that an add carries besides its own after combining: its context and instruction, the sum to add to its
old value, the tile it left, its number, what comes before it and the core it is of (R208). -/
structure Merged where
  ctx : Nat
  seq : Nat
  sum : Dword
  src : Nat
  uid : Nat
  floor : Nat
  core : Option Nat := none
  deriving DecidableEq, Repr

/-- An access on its way to its home: who made it, the outstanding instruction it belongs to (0 if none), the number of
its instruction's first access, the home, the tile it left, its place in memory, its unified address and whether its leaf
was watched (R189). Accesses are numbered as they are sent. -/
structure Access where
  uid : Nat
  ctx : Nat
  seq : Nat
  ins : Nat
  kind : AccKind
  land : Land
  src : Nat
  home : Nat
  place : Nat
  uaddr : Nat
  part : Nat
  watched : Bool
  sys : Bool
  deadline : Nat
  parkedAt : Nat
  full : Bool
  /-- since when it has met its home under repair, and the limit of that wait (R85, R185, R429) -/
  repair : Option (Nat × Nat)
  /-- whether it is a release and an acquire (R228) -/
  rel : Bool
  acq : Bool
  /-- the accesses of its context numbered below this come before it: a move, or a fence of core scope, stands between (R226) -/
  floor : Nat
  /-- the requests an add carries after combining (R208) -/
  parts : List Merged
  /-- order and scope of an add with the combine bit (R208) -/
  comb : Option (Order × Scope)
  /-- the core, 16 × tile + core, whose issue it is of; none of an engine's or the front end's (R226) -/
  core : Option Nat := none
  deriving DecidableEq, Repr

/-- A block of A160 elements with its scale exponent and status (R275, R276). -/
structure Accum where
  elems : List (Nat × BitVec 160)
  e : BitVec 10
  count : Nat
  ovf : Bool
  cnt : Bool
  range : Bool
  nan : Bool
  deriving DecidableEq, Repr

/-- A sum packet (R301): who sent it, from where, its destination value and the block it carries. `back` marks
the return of a migrated command (R298). -/
structure SumPacket where
  ctx : Nat
  src : Nat
  sup : Dword
  pc : Dword
  entry : Nat
  d : BitVec 21
  blk : Accum
  back : Bool
  /-- the number of the sender's first access after the CHSEND, which releases those before it (R239, R320) -/
  n : Nat
  /-- the cycle of its send, which ranks it (R301) -/
  sent : Nat := 0
  deriving DecidableEq, Repr

/-- Who sent a message (R213), and the omega port it left (R26): a SEND, whose room counts and which reaches only its
sender's partition where the sender is unprivileged, with the number of the first access after it; the part and its
engines; or a SIGNAL. -/
inductive MsgSrc where
  | send (ctx : Nat) (only : Option Nat) (port n : Nat)
  | part (port : Nat)
  /-- a SIGNAL of a context on its way to wake register k of its partition, behind its earlier accesses (R222) -/
  | signal (ctx part k n : Nat)
  deriving DecidableEq, Repr

/-- The actions of CTXCTL (R441). -/
inductive CtlAct where | stop | resume | swapOut | retire | drop (b : Nat) | bad
  deriving DecidableEq, Repr

/-- An action on a context, performed at the tile that holds it (R435), or a configuration read or write (R448). The lines of an
image area are unified address, place, home and whether the page is watched. -/
inductive Action where
  | ctxwr (sel : Dword) (v : Reg)
  | ctl (a : CtlAct)
  | rqput (core : Nat) (any : Bool)
  | rqtake (tile core : Nat)
  | ksave (lines : List (Nat × Nat × Nat × Bool))
  | kload (lines : List (Nat × Nat × Nat × Bool))
  | topup (ia ma : Nat)
  | ctxrd (sel : Dword)
  | cfgrd (c : Dword)
  | cfgwr (c v : Dword)
  | pgwakeCtx (base k : Nat)
  | pgwakeCopy (tile base k : Nat)
  deriving DecidableEq, Repr

/-- A word that an engine writes for the omega port of its tile or device: its place and home, its value and tag, whether the
page's leaf was watched, and the number of the first access after it was read (R170, R174, R189, R331). -/
structure CopyWord where
  place : Nat
  home : Nat
  value : Dword
  full : Bool
  watched : Bool
  src : Nat
  num : Nat
  deriving DecidableEq, Repr

/-- An instruction of a context whose effect is on its way, with the number of the context's first access after it (R226, R434). -/
structure Issued where
  ctx : Nat
  n : Nat
  deriving DecidableEq, Repr
/-- A write that goes on to its slice: the contexts whose it is and their partition, its number, the home it comes from (R173). -/
structure WriteOf where
  ctxs : List Nat
  part : Nat
  uid : Nat
  home : Nat
  deriving DecidableEq, Repr
/-- What fills a line at a tile's home, or makes it drop one: the home, the partition whose access or write it is, the omega port
that wrote, and the number of the first access after it (R170, R172, R174). -/
structure AtHome where
  tile : Nat
  part : Nat
  src : Nat
  num : Nat
  deriving DecidableEq, Repr
/-- A line of a copy that has landed: its address, how many words, and the port its report leaves (R27, R335). -/
structure Landed where
  line : Nat
  words : Nat
  src : Nat
  deriving DecidableEq, Repr

/-- What the base die finds on power-up (R458, R459): which physical tiles fail their self-test, from which no count
goes on east, whether the memory trains. Physical tile 9r + c stands at column c of row r; the rows of die 1 are 8 to 15. -/
structure BootFindings where
  failed : List Nat
  silent : List Nat
  dramGood : Bool
  deriving DecidableEq, Repr

/-- Where a soft error strikes (R425): a word of memory, doubleword i of a register, doubleword j of an image. -/
inductive ErrSite where
  | word (place : Nat)
  | reg (ctx : Nat) (r i : Nat)
  | image (ctx j : Nat)
  deriving DecidableEq, Repr

/-- The steps of the part. Long instructions carry the lookahead `la` of XP (R56). -/
inductive Instr where
  -- page 0 (R140 to R142)
  | add (d a b : RegNo) | sub (d a b : RegNo) | and (d a b : RegNo) | or (d a b : RegNo) | xor (d a b : RegNo)
  | shl (d a b : RegNo) | shr (d a b : RegNo) | sar (d a b : RegNo)
  | addi (d a : RegNo) (imm : Dword) | li (d : RegNo) (imm : Dword) | mov (d a : RegNo)
  | slt (d a b : RegNo) | sltu (d a b : RegNo) | mul (d a b : RegNo)
  -- page 1 (R140, R143 to R146)
  | mulh (d a b : RegNo) | mulhu (d a b : RegNo)
  | div (la : BitVec 4) (d a b : RegNo) | divu (la : BitVec 4) (d a b : RegNo)
  | rem (la : BitVec 4) (d a b : RegNo) | remu (la : BitVec 4) (d a b : RegNo)
  | min (d a b : RegNo) | max (d a b : RegNo) | minu (d a b : RegNo) | maxu (d a b : RegNo)
  | shli (d a : RegNo) (imm : Dword) | shri (d a : RegNo) (imm : Dword) | sari (d a : RegNo) (imm : Dword)
  | bop (op : BitOp) (d a : RegNo)
  -- page 2 (R148 to R158)
  | bra (off : Dword) | bz (a : RegNo) (off : Dword) | bnz (a : RegNo) (off : Dword)
  | beq (a b : RegNo) (off : Dword) | bne (a b : RegNo) (off : Dword)
  | blt (a b : RegNo) (off : Dword) | bltu (a b : RegNo) (off : Dword)
  | call (d : RegNo) (off : Dword) | jmp (a : RegNo) | bmask (t : MaskTest) (off : Dword)
  | ypoint (off : Dword)
  -- page 3 (R251, R252)
  | vadd (q : VIQual) (d a b : RegNo) | vsub (q : VIQual) (d a b : RegNo) | vmul (q : VIQual) (d a b : RegNo)
  | vmulh (q : VIQual) (d a b : RegNo) | vand (q : VIQual) (d a b : RegNo) | vor (q : VIQual) (d a b : RegNo)
  | vxor (q : VIQual) (d a b : RegNo) | vshl (q : VIQual) (d a b : RegNo) | vshr (q : VIQual) (d a b : RegNo)
  | vsar (q : VIQual) (d a b : RegNo) | vmin (q : VIQual) (d a b : RegNo) | vmax (q : VIQual) (d a b : RegNo)
  | vcmp (q : VIQual) (pd : Fin 4) (a b : RegNo) | vsel (q : VIQual) (d a b : RegNo)
  -- page 4 (R254 to R259)
  | vfadd (q : VFQual) (d a b : RegNo) | vfsub (q : VFQual) (d a b : RegNo) | vfmul (q : VFQual) (d a b : RegNo)
  | vfma (q : VFQual) (d a b : RegNo) | vfmin (q : VFQual) (d a b : RegNo) | vfmax (q : VFQual) (d a b : RegNo)
  | vfdiv (la : BitVec 4) (q : VFQual) (d a b : RegNo) | vfsqrt (la : BitVec 4) (q : VFQual) (d a : RegNo)
  | vfrcp (la : BitVec 4) (q : VFQual) (d a : RegNo) | vfcmp (op : FCmp) (q : VFQual) (pd : Fin 4) (a b : RegNo)
  | vfsgn (op : SgnOp) (q : VFQual) (d a b : RegNo) | vfrnd (q : VFQual) (d a : RegNo)
  | vfcvti (op : CvtiOp) (q : VFQual) (d a : RegNo) | vfdot2 (q : VFQual) (d a b : RegNo)
  -- page 5 (R260 to R263)
  | vbc (d a : RegNo) | vget (d a : RegNo) (imm : Dword) | vput (d a : RegNo) (imm : Dword)
  | vperm (d a b : RegNo) | vrot (d a : RegNo) (imm : Dword) | vred (q : LQual) (d a : RegNo)
  | vscan (q : LQual) (d a : RegNo) | mop (fn : BitVec 4) (pd pa pb : Fin 4) | mget (d : RegNo) (pa : Fin 4)
  | mset (pd : Fin 4) (a : RegNo) | mcnt (d : RegNo) (pa : Fin 4) | vlane (d a : RegNo)
  | vzip (d a b : RegNo) | vuzp (d a b : RegNo)
  -- page 6 (R197 to R203)
  | ld (la : BitVec 4) (q : MQual) (d a : RegNo) (imm : Dword) | st (q : MQual) (d a : RegNo) (imm : Dword)
  | vld (la : BitVec 4) (q : MQual) (d a : RegNo) (imm : Dword) | vst (q : MQual) (d a : RegNo) (imm : Dword)
  | vgath (la : BitVec 4) (q : MQual) (d a b : RegNo) | vscat (q : MQual) (d a b : RegNo)
  | pref (q : MQual) (a : RegNo) (imm : Dword) | lea (d a : RegNo) (imm : Dword)
  | zline (q : MQual) (a : RegNo) (imm : Dword)
  | ldmx (la : BitVec 4) (q : MQual) (d a : RegNo) (imm : Dword)
  -- page 7 (R204 to R211)
  | ldf (la : BitVec 4) (q : MQual) (d a : RegNo) (imm : Dword)
  | take (la : BitVec 4) (q : MQual) (d a : RegNo) (imm : Dword)
  | put (la : BitVec 4) (q : MQual) (d a : RegNo) (imm : Dword)
  | stf (la : BitVec 4) (q : MQual) (d a : RegNo) (imm : Dword)
  | sete (la : BitVec 4) (q : MQual) (a : RegNo) (imm : Dword)
  | fetag (la : BitVec 4) (q : MQual) (d a : RegNo) (imm : Dword)
  | atom (la : BitVec 4) (q : AQual) (d a b : RegNo) | cas (la : BitVec 4) (q : AQual) (d a b : RegNo)
  | fence (q : FQual) | qwait (la : BitVec 4) (d a b : RegNo) (limit : Dword)
  -- page 8 (R214 to R222)
  | send (a b : RegNo) | recv (d : RegNo) | waitm (d : RegNo) (limit : Dword) | spawn (d a b : RegNo)
  | migr (a : RegNo) | gets (d : RegNo) (n : Fin 38) | sets (d : RegNo) (n : Fin 38) | bgive (d a b : RegNo)
  | brk (code : Dword) | signal (a : RegNo)
  -- page 9 (R339 to R346)
  | cpy (k : BitVec 4) (a : RegNo) | cpys (d : RegNo) (a : RegNo) | binit (k : BitVec 4) (a : RegNo)
  | bwait (k : BitVec 4) (limit : Dword) | bpend (d : RegNo) (k : BitVec 4) | cpyq (d : RegNo)
  | bankcfg (a : RegNo) | bankst (d : RegNo)
  -- page 10 (R309 to R316)
  | mfmt (a : RegNo) | mma (blk : RegNo) (a b : RegNo) | mmas (blk : RegNo) (a b : RegNo)
  | acce (blk : RegNo) (a : RegNo) | accz (blk : RegNo) | accrd (t : FType) (d blk b : RegNo)
  | accwr (blk a b : RegNo) | accst (t : FType) (blk a : RegNo) | accstat (d blk : RegNo)
  -- page 11 (R318 to R323)
  | chset (blk a : RegNo) | chsend (blk a : RegNo) | chwait (blk : RegNo) (limit : Dword) | chdrop (blk : RegNo)
  | chstat (d blk : RegNo)
  -- page 12 (R379 to R386)
  | rset (d a : RegNo) | rcov (a b : RegNo) | rbary (d a b : RegNo) | rzt (q : ZQual) (a b : RegNo)
  | rwr (a b : RegNo) | rblk (d a b : RegNo)
  -- page 13 (R399 to R405)
  | trset (d b : RegNo) | trstep (d a : RegNo) | trtri (d a b : RegNo) | trbox (d a b : RegNo)
  | trcmt (d b : RegNo) | trinst (d a : RegNo) | trres (d : RegNo)
  -- page 14 (R281 to R285)
  | cvt (q : CQual) (d a : RegNo) | cvtw (q : CQual) (d a : RegNo) | cvth (q : CQual) (d a : RegNo)
  | mxq (q : XQual) (d a b : RegNo) | mxx (q : XQual) (d a : RegNo) | scalb (q : VFQual) (d a b : RegNo)
  | pack (q : PQual) (d a b : RegNo) | unpk (w : PWidth) (d a b : RegNo)
  -- page 15 (R432 to R453); one word of CTXCTL, TLBINV or CFGWR, whose registers select the row
  | ctxrd (d a : RegNo) | ctxwr (d a b : RegNo)
  | ctxctlStop (d a b : RegNo) | ctxctlResume (d a b : RegNo) | ctxctlSwapOut (d a b : RegNo)
  | ctxctlRetire (d a b : RegNo) | ctxctlDrop (d a b : RegNo)
  | rqput (d a b : RegNo) | rqtake (d a b : RegNo) | ksave (d a b : RegNo) | kload (d a b : RegNo)
  | tlbinvPage (a b : RegNo) | tlbinvAll (a b : RegNo) | pgwake (d a b : RegNo) | topup (d a b : RegNo)
  | cfgrd (d a : RegNo)
  | cfgwrTileMembership (d a b : RegNo) | cfgwrRepairEnter (d a b : RegNo) | cfgwrReturnToService (d a b : RegNo)
  | cfgwrPartitionRegister (d a b : RegNo) | cfgwrSpillRing (d a b : RegNo) | cfgwrWakeRegister (d a b : RegNo)
  | cfgwrWayMap (d a b : RegNo) | cfgwrErrorCounter (d a b : RegNo) | cfgwrPortEntry (d a b : RegNo)
  | cfgwrTransmitTail (d a b : RegNo) | cfgwrPcieMemory (d a b : RegNo) | cfgwrPcieConfig (d a b : RegNo)
  | cfgwrMsiRoute (d a b : RegNo) | cfgwrScanoutHead (d a b : RegNo) | cfgwrVigil (d a b : RegNo)
  | cfgwrStandby (d a b : RegNo) | cfgwrQuoteRequest (d a b : RegNo) | cfgwrPageRegister (d a b : RegNo)
  | cfgwrPageUnregister (d a b : RegNo) | cfgwrReadOnly (d a b : RegNo)
  | almset (a b : RegNo) | fwset (a b : RegNo)
  -- contexts between slots, cores, tiles and the Kennel
  | coreMoveArrival (ctx core : Nat) | migrationArrival (ctx tile : Nat) | swapStart (core : Nat)
  | swapComplete (core : Nat) | kennelWriteBack (tile : Nat) | overflowListMove (tile core : Nat)
  | dispatcherPlace (tile : Nat)
  -- accesses
  | feDeadlineExpiry (tile uid : Nat) | accessAtHome (a : Access) | waitListResend (a : Access)
  | longCompletion (ctx seq : Nat) | lineFill (tile : AtHome) (line : Nat)
  | sliceWriteAccept (w : WriteOf) (place : Nat) (watched counts : Bool) | homeInvalidate (tile : AtHome) (line : Nat)
  | bankDrainEnd (tile bank : Nat) | messageArrival (dst : Nat) (msg : Reg) (src : MsgSrc)
  | atomCombine (u v : Nat) | combinedReplySplit (a : Access) (old : Dword)
  -- matrix engines and the accumulate network
  | mmaStart (tile : Nat) | mmaStep (tile : Nat) | commandMigration (src dst : Nat) | retrieverFetch (tile uid : Nat)
  | sumPacketArrival (p : SumPacket) | acknowledgementArrival (tile entry : Nat)
  | refusalArrival (p : SumPacket) (why : BitVec 3)
  -- copies
  | remoteBankCheck (ctx : Nat) | copyLineMove (tile uid : Nat)
  | copyLineLand (tile uid line : Nat) (words : List CopyWord)
  | copyLandingReport (tile uid : Nat) (l : Landed) | cpyqComplete (ctx n : Nat)
  -- holds of page 13 and page 15
  | traversalStepComplete (q : Issued) | tlbinvComplete (ctx : Nat)
  -- the front end
  | graphUpload (part graph : Nat) | runStart (graph : Nat) | nodeStart (graph node : Nat)
  | contextPlacement (graph node : Nat) | nodeLate (graph node : Nat) | nodeComplete (graph node : Nat)
  | pipelineStart (graph node : Nat) | bindingRelease (graph node : Nat)
  | queueMap (part k bell desc : Nat) | queueUnmap (part k : Nat)
  -- the base die, the ports and the outside
  | autonegotiation (port rate : Nat) | frameReceive (port : Nat) (frame : List Byte)
  | transmitFrame (port : Nat) | msiWrite (v : Lane)
  | deviceDma (write : Bool) (uaddr : Nat) (data : List Byte) | verticalBlank (head : Nat)
  | vigilMatch (port : Nat) (frame : List Byte)
  | saveComplete (ctx : Nat)
  | contextActionAtTile (q : Issued) (d target : Nat) (act : Action) | softError (site : ErrSite) (corrected : Bool)
  -- steps without operands: those of a context act on the one in the issue latch, boot and the sensors on State
  | yield | halt | nop
  | illegalChain | candidateBudgetReject | equippedCoreMove | requestedStop | keptFaultStop | parkExpiry | watchdogExpiry
  | almanacCommit | boot | restoreComplete | thermalSample | quoteComplete | modulePowerLoss
  deriving DecidableEq, Repr

end Sys2Proof
end

