-- ==== Sys2Proof/WellFormed.lean ====
section
/-! DEFINITION. Which terms of Instr are well formed: operands their fields can hold (R118, R123, R125, R126)
and qualifier codes their instruction allows (R130, R131); events name places the part has (R16, R17). -/

namespace Sys2Proof

/-- The value fits a signed field of w bits (R106, R118). -/
def fitsS (w : Nat) (v : Dword) : Bool := decide (-(2 ^ (w - 1) : Int) ≤ v.toInt) && decide (v.toInt < 2 ^ (w - 1))
/-- The value fits an unsigned field of w bits (R106, R118). -/
def fitsU (w : Nat) (v : Dword) : Bool := decide (v.toNat < 2 ^ w)

/-- The orders of loads (R131). -/
def MQual.loadOrd (q : MQual) : Bool := q.ord != .rel
/-- The orders of stores (R131). -/
def MQual.storeOrd (q : MQual) : Bool := q.ord != .acq
/-- Type code 0 (R131). -/
def MQual.ty0 (q : MQual) : Bool := q.ty == .ub
/-- The qualifiers of the full/empty instructions (R131). -/
def MQual.feOk (q : MQual) : Bool := q.ty0 && q.ord == .plain
/-- The qualifiers of VMIN, VMAX and VMULH (R131). -/
def VIQual.noSat (q : VIQual) : Bool := !q.sat && q.cond == .eq
/-- The qualifiers of the other page-3 instructions (R131). -/
def VIQual.plain (q : VIQual) : Bool := !q.sat && !q.uns && q.cond == .eq
/-- The formats of MXQ and MXX (R130). -/
def Fmt.isMx : Fmt → Bool
  | .e2m1 | .b8 .. => true
  | _ => false

/-- The part-wide core numbers (R17). -/
def coreOk (c : Nat) : Bool := decide (c < 2048)
/-- The logical tiles (R16). -/
def tileOk (t : Nat) : Bool := decide (t < 128)
/-- The partitions (R32). -/
def partOk (p : Nat) : Bool := decide (p < 4)
/-- The Ethernet ports and the scan-out heads (R460, R465). -/
def twoOk (n : Nat) : Bool := decide (n < 2)

/-- The qualifier codes R131 allows the instruction. -/
def Instr.qualOk : Instr → Bool
  | .vadd q .. => q.cond == .eq | .vsub q .. => q.cond == .eq
  | .vmulh q .. => q.noSat | .vmin q .. => q.noSat | .vmax q .. => q.noSat
  | .vcmp q .. => !q.sat
  | .vmul q .. => q.plain | .vand q .. => q.plain | .vor q .. => q.plain | .vxor q .. => q.plain
  | .vshl q .. => q.plain | .vshr q .. => q.plain | .vsar q .. => q.plain | .vsel q .. => q.plain
  | .vfdot2 q .. => q.ty != .fp32
  | .ld _ q .. => q.loadOrd | .st q .. => q.storeOrd
  | .vld _ q .. => q.ty0 && q.loadOrd | .ldmx _ q .. => q.ty0 && q.loadOrd
  | .vst q .. => q.ty0 && q.storeOrd | .zline q .. => q.ty0 && q.storeOrd
  | .vgath _ q .. => q.ty != .d && q.loadOrd | .vscat q .. => q.ty != .d && q.storeOrd
  | .pref q .. => q.ty0 && q.ord == .plain && q.scope == .core
  | .ldf _ q .. => q.feOk | .take _ q .. => q.feOk | .put _ q .. => q.feOk | .stf _ q .. => q.feOk
  | .sete _ q .. => q.feOk | .fetag _ q .. => q.feOk
  | .atom _ q .. => !q.comb || q.op == .add
  | .cas _ q .. => !q.comb && q.op == .add
  | .mxq q .. => q.fmt.isMx | .mxx q .. => q.fmt.isMx
  | _ => true

/-- The operands fit their fields (R106, R118, R257), and an event names places of the part (R16, R17). -/
def Instr.operandsOk : Instr → Bool
  | .addi _ _ i => fitsS 34 i | .li _ i => fitsS 38 i
  | .shli _ _ i => fitsU 34 i | .shri _ _ i => fitsU 34 i | .sari _ _ i => fitsU 34 i
  | .bra o => fitsS 42 o | .bz _ o => fitsS 34 o | .bnz _ o => fitsS 34 o
  | .beq _ _ o => fitsS 34 o | .bne _ _ o => fitsS 34 o | .blt _ _ o => fitsS 34 o | .bltu _ _ o => fitsS 34 o
  | .call _ o => fitsS 38 o | .bmask _ o => fitsS 42 o | .ypoint o => fitsS 42 o
  | .vfsgn op _ _ _ b => (op == .copy || op == .xor) || b == 0
  | .vget _ _ i => fitsU 34 i | .vput _ _ i => fitsU 34 i | .vrot _ _ i => fitsU 34 i
  | .ld _ _ _ _ i => fitsS 34 i | .st _ _ _ i => fitsS 34 i
  | .vld _ _ _ _ i => fitsS 34 i | .ldmx _ _ _ _ i => fitsS 34 i
  | .vst _ _ _ i => fitsS 34 i | .zline _ _ i => fitsS 34 i
  | .pref _ _ i => fitsS 34 i | .lea _ _ i => fitsS 34 i
  | .ldf _ _ _ _ i => fitsS 34 i | .take _ _ _ _ i => fitsS 34 i
  | .put _ _ _ _ i => fitsS 34 i | .stf _ _ _ _ i => fitsS 34 i
  | .sete _ _ _ i => fitsS 34 i | .fetag _ _ _ _ i => fitsS 34 i
  | .qwait _ _ _ _ l => fitsU 30 l | .waitm _ l => fitsU 30 l | .bwait _ l => fitsU 30 l | .chwait _ l => fitsU 30 l
  | .brk c => fitsU 38 c
  | .coreMoveArrival _ c => coreOk c | .migrationArrival _ t => tileOk t
  | .swapStart c => coreOk c | .swapComplete c => coreOk c | .kennelWriteBack t => tileOk t
  | .overflowListMove t c => tileOk t && decide (c < 16) | .dispatcherPlace t => tileOk t
  | .feDeadlineExpiry t _ => tileOk t | .lineFill t _ => tileOk t.tile | .homeInvalidate t _ => tileOk t.tile
  | .accessAtHome a => tileOk a.home && tileOk a.src && partOk a.part
  | .waitListResend a => tileOk a.home && tileOk a.src && partOk a.part
  | .combinedReplySplit a _ => tileOk a.home && tileOk a.src && partOk a.part
  | .bankDrainEnd t b => tileOk t && decide (b < 24)
  | .mmaStart t => tileOk t | .mmaStep t => tileOk t | .commandMigration s d => tileOk s && tileOk d
  | .retrieverFetch t _ => tileOk t | .sumPacketArrival p => tileOk p.src
  | .acknowledgementArrival t e => tileOk t && decide (e < 16) | .refusalArrival p _ => tileOk p.src
  | .copyLineMove t _ => tileOk t | .copyLineLand t .. => tileOk t | .copyLandingReport t .. => tileOk t
  | .graphUpload p _ => partOk p | .queueMap p k _ _ => partOk p && decide (k < 64)
  | .queueUnmap p k => partOk p && decide (k < 64)
  | .autonegotiation p r => twoOk p && decide (r < 8) | .frameReceive p _ => twoOk p | .transmitFrame p => twoOk p
  | .verticalBlank h => twoOk h | .vigilMatch p _ => twoOk p
  | _ => true

/-- A well-formed step. -/
def Instr.wf (i : Instr) : Bool := i.qualOk && i.operandsOk

end Sys2Proof
end

