-- ==== Sys2Proof/Decode.lean ====
section
/-! DEFINITION. Decoding a chain of halfwords (R110 to R136), total on any bytes and refusing by name, and
after it the encoder, which emits the chain that the assembler synthesises (R106). -/

namespace Sys2Proof

/-- Bits [hi:lo] of a number (R6). -/
def fld (x hi lo : Nat) : Nat := x / 2 ^ lo % 2 ^ (hi + 1 - lo)
/-- A truth value as a bit. -/
def bitOf (b : Bool) : Nat := if b then 1 else 0
/-- A w-bit number read in two's complement, as a doubleword (R118). -/
def sext (w n : Nat) : Dword := if w = 0 then 0 else if 2 ^ (w - 1) ≤ n then BitVec.ofInt 64 ((n : Int) - 2 ^ w) else BitVec.ofNat 64 n

-- Qualifier layouts (R130 to R133)

/-- Codes of field type of layout M. -/
def MType.num : MType → Nat | .ub => 0 | .sb => 1 | .uh => 2 | .sh => 3 | .uw => 4 | .sw => 5 | .d => 6
def MType.of? : Nat → Option MType
  | 0 => some .ub | 1 => some .sb | 2 => some .uh | 3 => some .sh | 4 => some .uw | 5 => some .sw | 6 => some .d | _ => none
/-- Codes of the home policy. -/
def Policy.num : Policy → Nat | .pred => 0 | .remote => 1 | .migrate => 2
def Policy.of? : Nat → Option Policy | 0 => some .pred | 1 => some .remote | 2 => some .migrate | _ => none
/-- Codes of the order. -/
def Order.num : Order → Nat | .plain => 0 | .acq => 1 | .rel => 2 | .sc => 3
def Order.of : Nat → Order | 0 => .plain | 1 => .acq | 2 => .rel | _ => .sc
/-- Codes of the scope. -/
def Scope.num : Scope → Nat | .core => 0 | .tile => 1 | .dev => 2 | .sys => 3
def Scope.of : Nat → Scope | 0 => .core | 1 => .tile | 2 => .dev | _ => .sys
def MQual.bits (q : MQual) : BitVec 10 := BitVec.ofNat 10 (q.ty.num * 128 + q.pol.num * 32 + q.ord.num * 8 + q.scope.num * 2)
def MQual.of? (x : BitVec 10) : Option MQual :=
  let n := x.toNat
  match MType.of? (fld n 9 7), Policy.of? (fld n 6 5), fld n 0 0 with
  | some ty, some pol, 0 => some ⟨ty, pol, Order.of (fld n 4 3), Scope.of (fld n 2 1)⟩
  | _, _, _ => none
/-- Codes of the atomic operation. -/
def AtomOp.num : AtomOp → Nat
  | .add => 0 | .and => 1 | .or => 2 | .xor => 3 | .min => 4 | .max => 5 | .minn => 6 | .maxn => 7 | .swap => 8
def AtomOp.of? : Nat → Option AtomOp
  | 0 => some .add | 1 => some .and | 2 => some .or | 3 => some .xor | 4 => some .min | 5 => some .max
  | 6 => some .minn | 7 => some .maxn | 8 => some .swap | _ => none
def AQual.bits (q : AQual) : BitVec 10 :=
  BitVec.ofNat 10 (q.op.num * 64 + bitOf q.comb * 32 + q.ord.num * 8 + q.scope.num * 2 + bitOf q.word)
def AQual.of? (x : BitVec 10) : Option AQual :=
  let n := x.toNat
  (AtomOp.of? (fld n 9 6)).map fun op => ⟨op, fld n 5 5 == 1, Order.of (fld n 4 3), Scope.of (fld n 2 1), fld n 0 0 == 1⟩
/-- Codes of the fence kind. -/
def FenceKind.num : FenceKind → Nat | .full => 0 | .acq => 1 | .rel => 2
def FenceKind.of? : Nat → Option FenceKind | 0 => some .full | 1 => some .acq | 2 => some .rel | _ => none
def FQual.bits (q : FQual) : BitVec 10 := BitVec.ofNat 10 (q.kind.num * 8 + q.scope.num * 2)
def FQual.of? (x : BitVec 10) : Option FQual :=
  let n := x.toNat
  if fld n 9 5 = 0 ∧ fld n 0 0 = 0 then (FenceKind.of? (fld n 4 3)).map fun k => ⟨k, Scope.of (fld n 2 1)⟩ else none
/-- Codes of the vector element. -/
def VElem.num : VElem → Nat | .w => 0 | .h => 1 | .b => 2
def VElem.of? : Nat → Option VElem | 0 => some .w | 1 => some .h | 2 => some .b | _ => none
/-- Codes of the condition. -/
def Cond.num : Cond → Nat | .eq => 0 | .ne => 1 | .lt => 2 | .le => 3 | .gt => 4 | .ge => 5
def Cond.of? : Nat → Option Cond
  | 0 => some .eq | 1 => some .ne | 2 => some .lt | 3 => some .le | 4 => some .gt | 5 => some .ge | _ => none
def VIQual.bits (q : VIQual) : BitVec 10 :=
  BitVec.ofNat 10 (q.el.num * 256 + bitOf q.bc * 128 + bitOf q.sat * 64 + bitOf q.uns * 32 + q.cond.num * 4)
def VIQual.of? (x : BitVec 10) : Option VIQual :=
  let n := x.toNat
  match VElem.of? (fld n 9 8), Cond.of? (fld n 4 2), fld n 1 0 with
  | some el, some c, 0 => some ⟨el, fld n 7 7 == 1, fld n 6 6 == 1, fld n 5 5 == 1, c⟩
  | _, _, _ => none
/-- Codes of the float type. -/
def FType.num : FType → Nat | .fp32 => 0 | .fp16 => 1 | .bf16 => 2
def FType.of? : Nat → Option FType | 0 => some .fp32 | 1 => some .fp16 | 2 => some .bf16 | _ => none
/-- Codes of the rounding field (R133). -/
def Rounding.num : Rounding → Nat | .dyn => 0 | .rne => 1 | .rtz => 2 | .rdn => 3 | .rup => 4 | .rna => 5 | .sr => 6
def Rounding.of? : Nat → Option Rounding
  | 0 => some .dyn | 1 => some .rne | 2 => some .rtz | 3 => some .rdn | 4 => some .rup | 5 => some .rna | 6 => some .sr | _ => none
def VFQual.bits (q : VFQual) (op : Nat) : BitVec 10 :=
  BitVec.ofNat 10 (q.ty.num * 256 + bitOf q.bc * 128 + q.rm.num * 16 + op * 2)
/-- Layout VF with its op field. -/
def VFQual.of? (x : BitVec 10) : Option (VFQual × Nat) :=
  let n := x.toNat
  match FType.of? (fld n 9 8), Rounding.of? (fld n 6 4), fld n 0 0 with
  | some ty, some rm, 0 => some (⟨ty, fld n 7 7 == 1, rm⟩, fld n 3 1)
  | _, _, _ => none
/-- Layout VF of an instruction that uses the op. -/
def vfOp (x : BitVec 10) (f : VFQual → Nat → Option Instr) : Option Instr := (VFQual.of? x).bind fun p => f p.1 p.2
/-- Layout VF of an instruction whose op is 0. -/
def vfPlain (x : BitVec 10) (f : VFQual → Instr) : Option Instr := vfOp x fun q n => if n = 0 then some (f q) else none
/-- Codes of VFCMP's predicate (R256). -/
def FCmp.num : FCmp → Nat | .eq => 0 | .ne => 1 | .lt => 2 | .le => 3 | .gt => 4 | .ge => 5 | .uno => 6 | .ord => 7
def FCmp.of? : Nat → Option FCmp
  | 0 => some .eq | 1 => some .ne | 2 => some .lt | 3 => some .le | 4 => some .gt | 5 => some .ge | 6 => some .uno
  | 7 => some .ord | _ => none
/-- Codes of VFSGN (R257). -/
def SgnOp.num : SgnOp → Nat | .copy => 0 | .neg => 1 | .xor => 2 | .abs => 3
def SgnOp.of? : Nat → Option SgnOp | 0 => some .copy | 1 => some .neg | 2 => some .xor | 3 => some .abs | _ => none
/-- Codes of VFCVTI (R258). -/
def CvtiOp.num : CvtiOp → Nat | .toi => 0 | .touns => 1 | .fromi => 2 | .fromuns => 3
def CvtiOp.of? : Nat → Option CvtiOp | 0 => some .toi | 1 => some .touns | 2 => some .fromi | 3 => some .fromuns | _ => none
def LQual.bits : LQual → BitVec 10
  | .int op => BitVec.ofNat 10 (op.val * 128)
  | .float op rm => BitVec.ofNat 10 (op.val * 128 + 64 + rm.num * 2)
def LQual.of? (x : BitVec 10) : Option LQual :=
  let n := x.toNat
  let op := fld n 9 7
  if fld n 5 4 = 0 ∧ fld n 0 0 = 0 then
    if fld n 6 6 = 1 then
      match Rounding.of? (fld n 3 1) with
      | some rm => if h : op < 3 then some (.float ⟨op, h⟩ rm) else none
      | none => none
    else if fld n 3 1 = 0 then some (.int (Fin.ofNat 8 op)) else none
  else none
/-- Codes of BMASK's test (R153). -/
def MaskTest.num : MaskTest → Nat | .any => 0 | .none => 1 | .all => 2
def MaskTest.bits (t : MaskTest) : BitVec 10 := BitVec.ofNat 10 (t.num * 256)
def MaskTest.of? (x : BitVec 10) : Option MaskTest :=
  match fld x.toNat 9 8, fld x.toNat 7 0 with
  | 0, 0 => some .any | 1, 0 => some .none | 2, 0 => some .all | _, _ => Option.none
/-- Codes of BOP (R146). -/
def BitOp.num : BitOp → Nat | .clz => 0 | .ctz => 1 | .popc => 2 | .brev => 3 | .bswap => 4
def BitOp.bits (o : BitOp) : BitVec 10 := BitVec.ofNat 10 (o.num * 128)
def BitOp.of? (x : BitVec 10) : Option BitOp :=
  match fld x.toNat 9 7, fld x.toNat 6 0 with
  | 0, 0 => some .clz | 1, 0 => some .ctz | 2, 0 => some .popc | 3, 0 => some .brev | 4, 0 => some .bswap | _, _ => none
/-- The format codes of R132. -/
def Fmt.num : Fmt → Nat
  | .fp32 => 0 | .fp16 => 1 | .bf16 => 2 | .e2m1 => 3
  | .b8 uns inf p => 32 + bitOf uns * 16 + bitOf inf * 8 + p.val
def Fmt.of? (n : Nat) : Option Fmt :=
  match n with
  | 0 => some .fp32 | 1 => some .fp16 | 2 => some .bf16 | 3 => some .e2m1
  | n => if 32 ≤ n ∧ n < 64 then
      (if h : n % 8 < 7 then some (.b8 (fld n 4 4 == 1) (fld n 3 3 == 1) ⟨n % 8, h⟩) else none)
    else none
def CQual.bits (q : CQual) : BitVec 10 := BitVec.ofNat 10 (q.fmt.num * 16 + q.rm.num * 2 + bitOf q.frm)
def CQual.of? (x : BitVec 10) : Option CQual :=
  let n := x.toNat
  match Fmt.of? (fld n 9 4), Rounding.of? (fld n 3 1) with
  | some f, some rm => some ⟨f, rm, fld n 0 0 == 1⟩
  | _, _ => none
def XQual.bits (q : XQual) : BitVec 10 := BitVec.ofNat 10 (q.fmt.num * 16 + q.rm.num * 2)
def XQual.of? (x : BitVec 10) : Option XQual :=
  let n := x.toNat
  match Fmt.of? (fld n 9 4), Rounding.of? (fld n 3 1), fld n 0 0 with
  | some f, some rm, 0 => some ⟨f, rm⟩
  | _, _, _ => none
/-- Codes of PACK's width (R130). -/
def PWidth.num : PWidth → Nat | .x16 => 0 | .x8 => 1 | .x4 => 2
def PWidth.of? : Nat → Option PWidth | 0 => some .x16 | 1 => some .x8 | 2 => some .x4 | _ => none
def PQual.bits (q : PQual) : BitVec 10 := BitVec.ofNat 10 (q.width.num * 256 + bitOf q.sat * 128)
def PQual.of? (x : BitVec 10) : Option PQual :=
  let n := x.toNat
  if fld n 6 0 = 0 then (PWidth.of? (fld n 9 8)).map fun w => ⟨w, fld n 7 7 == 1⟩ else none
/-- Layout AR. -/
def arOf? (x : BitVec 10) : Option FType := if fld x.toNat 7 0 = 0 then FType.of? (fld x.toNat 9 8) else none
/-- Codes of the depth compare (R130). -/
def ZCmp.num : ZCmp → Nat | .never => 0 | .lt => 1 | .eq => 2 | .le => 3 | .gt => 4 | .ne => 5 | .ge => 6 | .always => 7
def ZCmp.of : Nat → ZCmp
  | 0 => .never | 1 => .lt | 2 => .eq | 3 => .le | 4 => .gt | 5 => .ne | 6 => .ge | _ => .always
def ZQual.bits (q : ZQual) : BitVec 10 := BitVec.ofNat 10 (q.cmp.num * 128 + bitOf q.nowr * 64)
def ZQual.of? (x : BitVec 10) : Option ZQual :=
  let n := x.toNat
  if fld n 5 0 = 0 then some ⟨ZCmp.of (fld n 9 7), fld n 6 6 == 1⟩ else none

-- The map of instructions (R125 to R128)

/-- The formats of R125. -/
inductive Shape where | R | RI | RL | CB | BR | RX
  deriving DecidableEq, Repr
/-- What an operand field holds (R123 to R126). -/
inductive Kind where | reg | mask | barrier | block | imm | unused
  deriving DecidableEq, Repr
/-- An instruction's row of R126 to R128: format, field kinds, signed immediate, long, has a layout, special
number. -/
structure OpInfo where
  shape : Shape
  d : Kind
  a : Kind
  b : Kind
  signed : Bool
  long : Bool
  layout : Bool
  special : Bool
  deriving DecidableEq, Repr

/-- Page 0 of the map of R127. -/
def opPage0 : List OpInfo := [
  ⟨.R, .reg, .reg, .reg, false, false, false, false⟩,
  ⟨.R, .reg, .reg, .reg, false, false, false, false⟩,
  ⟨.R, .reg, .reg, .reg, false, false, false, false⟩,
  ⟨.R, .reg, .reg, .reg, false, false, false, false⟩,
  ⟨.R, .reg, .reg, .reg, false, false, false, false⟩,
  ⟨.R, .reg, .reg, .reg, false, false, false, false⟩,
  ⟨.R, .reg, .reg, .reg, false, false, false, false⟩,
  ⟨.R, .reg, .reg, .reg, false, false, false, false⟩,
  ⟨.RI, .reg, .reg, .imm, true, false, false, false⟩,
  ⟨.RL, .reg, .imm, .imm, true, false, false, false⟩,
  ⟨.R, .reg, .reg, .unused, false, false, false, false⟩,
  ⟨.R, .reg, .reg, .reg, false, false, false, false⟩,
  ⟨.R, .reg, .reg, .reg, false, false, false, false⟩,
  ⟨.R, .reg, .reg, .reg, false, false, false, false⟩]
/-- Page 1 of the map of R127. -/
def opPage1 : List OpInfo := [
  ⟨.R, .reg, .reg, .reg, false, false, false, false⟩,
  ⟨.R, .reg, .reg, .reg, false, false, false, false⟩,
  ⟨.R, .reg, .reg, .reg, false, true, false, false⟩,
  ⟨.R, .reg, .reg, .reg, false, true, false, false⟩,
  ⟨.R, .reg, .reg, .reg, false, true, false, false⟩,
  ⟨.R, .reg, .reg, .reg, false, true, false, false⟩,
  ⟨.R, .reg, .reg, .reg, false, false, false, false⟩,
  ⟨.R, .reg, .reg, .reg, false, false, false, false⟩,
  ⟨.R, .reg, .reg, .reg, false, false, false, false⟩,
  ⟨.R, .reg, .reg, .reg, false, false, false, false⟩,
  ⟨.RI, .reg, .reg, .imm, false, false, false, false⟩,
  ⟨.RI, .reg, .reg, .imm, false, false, false, false⟩,
  ⟨.RI, .reg, .reg, .imm, false, false, false, false⟩,
  ⟨.R, .reg, .reg, .unused, false, false, true, false⟩]
/-- Page 2 of the map of R127. -/
def opPage2 : List OpInfo := [
  ⟨.BR, .imm, .imm, .imm, true, false, false, false⟩,
  ⟨.CB, .imm, .reg, .unused, true, false, false, false⟩,
  ⟨.CB, .imm, .reg, .unused, true, false, false, false⟩,
  ⟨.CB, .imm, .reg, .reg, true, false, false, false⟩,
  ⟨.CB, .imm, .reg, .reg, true, false, false, false⟩,
  ⟨.CB, .imm, .reg, .reg, true, false, false, false⟩,
  ⟨.CB, .imm, .reg, .reg, true, false, false, false⟩,
  ⟨.RL, .reg, .imm, .imm, true, false, false, false⟩,
  ⟨.R, .unused, .reg, .unused, false, false, false, false⟩,
  ⟨.BR, .imm, .imm, .imm, true, false, true, false⟩,
  ⟨.BR, .imm, .imm, .imm, true, false, false, false⟩,
  ⟨.R, .unused, .unused, .unused, false, false, false, false⟩,
  ⟨.R, .unused, .unused, .unused, false, false, false, false⟩,
  ⟨.R, .unused, .unused, .unused, false, false, false, false⟩]
/-- Page 3 of the map of R127. -/
def opPage3 : List OpInfo := [
  ⟨.R, .reg, .reg, .reg, false, false, true, false⟩,
  ⟨.R, .reg, .reg, .reg, false, false, true, false⟩,
  ⟨.R, .reg, .reg, .reg, false, false, true, false⟩,
  ⟨.R, .reg, .reg, .reg, false, false, true, false⟩,
  ⟨.R, .reg, .reg, .reg, false, false, true, false⟩,
  ⟨.R, .reg, .reg, .reg, false, false, true, false⟩,
  ⟨.R, .reg, .reg, .reg, false, false, true, false⟩,
  ⟨.R, .reg, .reg, .reg, false, false, true, false⟩,
  ⟨.R, .reg, .reg, .reg, false, false, true, false⟩,
  ⟨.R, .reg, .reg, .reg, false, false, true, false⟩,
  ⟨.R, .reg, .reg, .reg, false, false, true, false⟩,
  ⟨.R, .reg, .reg, .reg, false, false, true, false⟩,
  ⟨.R, .mask, .reg, .reg, false, false, true, false⟩,
  ⟨.R, .reg, .reg, .reg, false, false, true, false⟩]
/-- Page 4 of the map of R127. -/
def opPage4 : List OpInfo := [
  ⟨.R, .reg, .reg, .reg, false, false, true, false⟩,
  ⟨.R, .reg, .reg, .reg, false, false, true, false⟩,
  ⟨.R, .reg, .reg, .reg, false, false, true, false⟩,
  ⟨.R, .reg, .reg, .reg, false, false, true, false⟩,
  ⟨.R, .reg, .reg, .reg, false, false, true, false⟩,
  ⟨.R, .reg, .reg, .reg, false, false, true, false⟩,
  ⟨.R, .reg, .reg, .reg, false, true, true, false⟩,
  ⟨.R, .reg, .reg, .unused, false, true, true, false⟩,
  ⟨.R, .reg, .reg, .unused, false, true, true, false⟩,
  ⟨.R, .mask, .reg, .reg, false, false, true, false⟩,
  ⟨.R, .reg, .reg, .reg, false, false, true, false⟩,
  ⟨.R, .reg, .reg, .unused, false, false, true, false⟩,
  ⟨.R, .reg, .reg, .unused, false, false, true, false⟩,
  ⟨.R, .reg, .reg, .reg, false, false, true, false⟩]
/-- Page 5 of the map of R127. -/
def opPage5 : List OpInfo := [
  ⟨.R, .reg, .reg, .unused, false, false, false, false⟩,
  ⟨.RI, .reg, .reg, .imm, false, false, false, false⟩,
  ⟨.RI, .reg, .reg, .imm, false, false, false, false⟩,
  ⟨.R, .reg, .reg, .reg, false, false, false, false⟩,
  ⟨.RI, .reg, .reg, .imm, false, false, false, false⟩,
  ⟨.R, .reg, .reg, .unused, false, false, true, false⟩,
  ⟨.R, .reg, .reg, .unused, false, false, true, false⟩,
  ⟨.R, .mask, .mask, .mask, false, false, true, false⟩,
  ⟨.R, .reg, .mask, .unused, false, false, false, false⟩,
  ⟨.R, .mask, .reg, .unused, false, false, false, false⟩,
  ⟨.R, .reg, .mask, .unused, false, false, false, false⟩,
  ⟨.R, .reg, .reg, .unused, false, false, false, false⟩,
  ⟨.R, .reg, .reg, .reg, false, false, false, false⟩,
  ⟨.R, .reg, .reg, .reg, false, false, false, false⟩]
/-- Page 6 of the map of R127. -/
def opPage6 : List OpInfo := [
  ⟨.RI, .reg, .reg, .imm, true, true, true, false⟩,
  ⟨.RI, .reg, .reg, .imm, true, false, true, false⟩,
  ⟨.RI, .reg, .reg, .imm, true, true, true, false⟩,
  ⟨.RI, .reg, .reg, .imm, true, false, true, false⟩,
  ⟨.R, .reg, .reg, .reg, false, true, true, false⟩,
  ⟨.R, .reg, .reg, .reg, false, false, true, false⟩,
  ⟨.RI, .unused, .reg, .imm, true, false, true, false⟩,
  ⟨.RI, .reg, .reg, .imm, true, false, false, false⟩,
  ⟨.RI, .unused, .reg, .imm, true, false, true, false⟩,
  ⟨.RI, .reg, .reg, .imm, true, true, true, false⟩]
/-- Page 7 of the map of R127. -/
def opPage7 : List OpInfo := [
  ⟨.RI, .reg, .reg, .imm, true, true, true, false⟩,
  ⟨.RI, .reg, .reg, .imm, true, true, true, false⟩,
  ⟨.RI, .reg, .reg, .imm, true, true, true, false⟩,
  ⟨.RI, .reg, .reg, .imm, true, true, true, false⟩,
  ⟨.RI, .unused, .reg, .imm, true, true, true, false⟩,
  ⟨.RI, .reg, .reg, .imm, true, true, true, false⟩,
  ⟨.R, .reg, .reg, .reg, false, true, true, false⟩,
  ⟨.R, .reg, .reg, .reg, false, true, true, false⟩,
  ⟨.R, .unused, .unused, .unused, false, false, true, false⟩,
  ⟨.RX, .reg, .reg, .reg, false, true, false, false⟩]
/-- Page 8 of the map of R127. -/
def opPage8 : List OpInfo := [
  ⟨.R, .unused, .reg, .reg, false, false, false, false⟩,
  ⟨.R, .reg, .unused, .unused, false, false, false, false⟩,
  ⟨.RX, .reg, .unused, .unused, false, false, false, false⟩,
  ⟨.R, .reg, .reg, .reg, false, false, false, false⟩,
  ⟨.R, .unused, .reg, .unused, false, false, false, false⟩,
  ⟨.RL, .reg, .imm, .imm, false, false, false, true⟩,
  ⟨.RL, .reg, .imm, .imm, false, false, false, true⟩,
  ⟨.R, .reg, .reg, .reg, false, false, false, false⟩,
  ⟨.RL, .unused, .imm, .imm, false, false, false, false⟩,
  ⟨.R, .unused, .reg, .unused, false, false, false, false⟩]
/-- Page 9 of the map of R127. -/
def opPage9 : List OpInfo := [
  ⟨.R, .barrier, .reg, .unused, false, false, false, false⟩,
  ⟨.R, .reg, .reg, .unused, false, false, false, false⟩,
  ⟨.R, .barrier, .reg, .unused, false, false, false, false⟩,
  ⟨.RX, .barrier, .unused, .unused, false, false, false, false⟩,
  ⟨.R, .reg, .barrier, .unused, false, false, false, false⟩,
  ⟨.R, .reg, .unused, .unused, false, false, false, false⟩,
  ⟨.R, .unused, .reg, .unused, false, false, false, false⟩,
  ⟨.R, .reg, .unused, .unused, false, false, false, false⟩]
/-- Page 10 of the map of R127. -/
def opPage10 : List OpInfo := [
  ⟨.R, .unused, .reg, .unused, false, false, false, false⟩,
  ⟨.R, .block, .reg, .reg, false, false, false, false⟩,
  ⟨.R, .block, .reg, .reg, false, false, false, false⟩,
  ⟨.R, .block, .reg, .unused, false, false, false, false⟩,
  ⟨.R, .block, .unused, .unused, false, false, false, false⟩,
  ⟨.R, .reg, .block, .reg, false, false, true, false⟩,
  ⟨.R, .block, .reg, .reg, false, false, false, false⟩,
  ⟨.R, .block, .reg, .unused, false, false, true, false⟩,
  ⟨.R, .reg, .block, .unused, false, false, false, false⟩]
/-- Page 11 of the map of R127. -/
def opPage11 : List OpInfo := [
  ⟨.R, .block, .reg, .unused, false, false, false, false⟩,
  ⟨.R, .block, .reg, .unused, false, false, false, false⟩,
  ⟨.RX, .block, .unused, .unused, false, false, false, false⟩,
  ⟨.R, .block, .unused, .unused, false, false, false, false⟩,
  ⟨.R, .reg, .block, .unused, false, false, false, false⟩]
/-- Page 12 of the map of R127. -/
def opPage12 : List OpInfo := [
  ⟨.R, .reg, .reg, .unused, false, false, false, false⟩,
  ⟨.R, .unused, .reg, .reg, false, false, false, false⟩,
  ⟨.R, .reg, .reg, .reg, false, false, false, false⟩,
  ⟨.R, .unused, .reg, .reg, false, false, true, false⟩,
  ⟨.R, .unused, .reg, .reg, false, false, false, false⟩,
  ⟨.R, .reg, .reg, .reg, false, false, false, false⟩]
/-- Page 13 of the map of R127. -/
def opPage13 : List OpInfo := [
  ⟨.R, .reg, .unused, .reg, false, false, false, false⟩,
  ⟨.R, .reg, .reg, .unused, false, false, false, false⟩,
  ⟨.R, .reg, .reg, .reg, false, false, false, false⟩,
  ⟨.R, .reg, .reg, .reg, false, false, false, false⟩,
  ⟨.R, .reg, .unused, .reg, false, false, false, false⟩,
  ⟨.R, .reg, .reg, .unused, false, false, false, false⟩,
  ⟨.R, .reg, .unused, .unused, false, false, false, false⟩]
/-- Page 14 of the map of R127. -/
def opPage14 : List OpInfo := [
  ⟨.R, .reg, .reg, .unused, false, false, true, false⟩,
  ⟨.R, .reg, .reg, .unused, false, false, true, false⟩,
  ⟨.R, .reg, .reg, .unused, false, false, true, false⟩,
  ⟨.R, .reg, .reg, .reg, false, false, true, false⟩,
  ⟨.R, .reg, .reg, .unused, false, false, true, false⟩,
  ⟨.R, .reg, .reg, .reg, false, false, true, false⟩,
  ⟨.R, .reg, .reg, .reg, false, false, true, false⟩,
  ⟨.R, .reg, .reg, .reg, false, false, true, false⟩]
/-- Page 15 of the map of R127. -/
def opPage15 : List OpInfo := [
  ⟨.R, .reg, .reg, .unused, false, false, false, false⟩,
  ⟨.R, .reg, .reg, .reg, false, false, false, false⟩,
  ⟨.R, .reg, .reg, .reg, false, false, false, false⟩,
  ⟨.R, .reg, .reg, .reg, false, false, false, false⟩,
  ⟨.R, .reg, .reg, .reg, false, false, false, false⟩,
  ⟨.R, .reg, .reg, .reg, false, false, false, false⟩,
  ⟨.R, .reg, .reg, .reg, false, false, false, false⟩,
  ⟨.R, .unused, .reg, .reg, false, false, false, false⟩,
  ⟨.R, .reg, .reg, .reg, false, false, false, false⟩,
  ⟨.R, .reg, .reg, .reg, false, false, false, false⟩,
  ⟨.R, .reg, .reg, .unused, false, false, false, false⟩,
  ⟨.R, .reg, .reg, .reg, false, false, false, false⟩,
  ⟨.R, .unused, .reg, .reg, false, false, false, false⟩,
  ⟨.R, .unused, .reg, .reg, false, false, false, false⟩]
/-- The map of R127. -/
def opPages : List (List OpInfo) := [opPage0, opPage1, opPage2, opPage3, opPage4, opPage5, opPage6, opPage7, opPage8,
  opPage9, opPage10, opPage11, opPage12, opPage13, opPage14, opPage15]
/-- The row of a page and slot, none where unassigned (R115). -/
def opInfo (page op : Nat) : Option OpInfo := (opPages[page]?).bind fun p => p[op]?

-- Chains (R110 to R114)

/-- The prefixes and the base word of a chain. -/
structure Chain where
  xp : Option (BitVec 10)
  xq : Option (BitVec 10)
  xr : Option (BitVec 12)
  xis : List (BitVec 10)
  base : Half
  deriving DecidableEq, Repr

/-- The prefixes read so far: how many, the rank of the last (0 for none) and their payloads. -/
structure Prefixes where
  n : Nat
  last : Nat
  xp : Option (BitVec 10)
  xq : Option (BitVec 10)
  xr : Option (BitVec 12)
  xis : List (BitVec 10)
  deriving DecidableEq, Repr
/-- No prefix. -/
def Prefixes.start : Prefixes := ⟨0, 0, none, none, none, []⟩
/-- The page of the prefixes, 0 without XP (R115). -/
def pageOf (xp : Option (BitVec 10)) : Nat := match xp with | some p => p.toNat / 16 | none => 0

/-- The outcome of reading halfwords (R134): more are needed, the shape is wrong, or a chain of n halfwords. -/
inductive Scan where
  | more
  | bad (e : ChainFault)
  | chain (c : Chain) (n : Nat)
  deriving DecidableEq, Repr

/-- A chain-shape fault at halfword h. -/
def shapeFault (p : Prefixes) (h : Half) (reason : Nat) : ChainFault :=
  ⟨.illenc, pageOf p.xp, h.toNat / 4096, reason, .none, 0⟩
/-- One prefix of a given rank taken into the prefixes. -/
def Prefixes.take (p : Prefixes) (h : Half) (rank : Nat) : Prefixes :=
  let pay := h.extractLsb' 0 10
  match rank with
  | 1 => { p with n := p.n + 1, last := 1, xp := some pay }
  | 2 => { p with n := p.n + 1, last := 2, xq := some pay }
  | 3 => { p with n := p.n + 1, last := 3, xr := some (h.extractLsb' 0 12) }
  | _ => { p with n := p.n + 1, last := 4, xis := p.xis ++ [pay] }
/-- The rank of a prefix halfword (R112, R113): XP 1, XQ 2, XR 3, XI 4; 0 for the reserved kind. -/
def prefixRank (h : Half) : Nat :=
  if h.toNat / 4096 = 15 then 3
  else match fld h.toNat 11 10 with | 0 => 1 | 1 => 2 | 2 => 4 | _ => 0
/-- The loop of R134. -/
def scan : List Half → Prefixes → Scan
  | [], _ => .more
  | h :: t, p =>
    if h.toNat / 4096 ≤ 13 then .chain ⟨p.xp, p.xq, p.xr, p.xis, h⟩ (p.n + 1)
    else if p.n = 4 then .bad (shapeFault p h 3)
    else
      let k := prefixRank h
      if k = 0 then .bad (shapeFault p h 1)
      else if k < p.last ∨ (k = p.last ∧ k ≠ 4) ∨ (k = 4 ∧ p.xis.length = 3) then .bad (shapeFault p h 2)
      else scan t (p.take h k)

/-- The operands of a chain: lookahead, qualifier, the three 8-bit fields and the assembled immediate. -/
structure Operands where
  la : BitVec 4
  q : BitVec 10
  d : BitVec 8
  a : BitVec 8
  b : BitVec 8
  imm : Dword
  deriving DecidableEq, Repr

/-- Own immediate bits b of a format (R125). -/
def Shape.own : Shape → Nat | .R => 0 | .RI => 4 | .RL => 8 | .CB => 4 | .BR => 12 | .RX => 0
/-- The own bits of a base word (R125). -/
def Shape.ownBits (s : Shape) (w : Nat) : Nat :=
  match s with
  | .R | .RX => 0 | .RI => fld w 3 0 | .RL => fld w 7 0 | .CB => fld w 11 8 | .BR => fld w 11 0
/-- The immediate of R118. -/
def assemble (signed : Bool) (own : Nat) (ownBits : Nat) (xis : List (BitVec 10)) : Dword :=
  let w := 10 * xis.length + own
  let raw := (xis.foldl (fun acc x => acc * 1024 + x.toNat) 0) * 2 ^ own + ownBits
  if signed then sext w raw else BitVec.ofNat 64 raw
/-- The operands of a chain under a row. -/
def Chain.operands (c : Chain) (o : OpInfo) : Operands :=
  let w := c.base.toNat
  let x := match c.xr with | some v => v.toNat | none => 0
  { la := match c.xp with | some p => p.extractLsb' 0 4 | none => 0
    q := c.xq.getD 0
    d := BitVec.ofNat 8 (fld x 11 8 * 16 + fld w 11 8)
    a := BitVec.ofNat 8 (fld x 7 4 * 16 + fld w 7 4)
    b := BitVec.ofNat 8 (fld x 3 0 * 16 + fld w 3 0)
    imm := assemble o.signed o.shape.own (o.shape.ownBits w) c.xis }

/-- A mask number. -/
def mask (x : BitVec 8) : Fin 4 := Fin.ofNat 4 x.toNat
/-- A barrier number. -/
def nib (x : BitVec 8) : BitVec 4 := x.extractLsb' 0 4
/-- A special number (R123). -/
def special (i : Dword) : Fin 38 := Fin.ofNat 38 i.toNat

/-- The instruction of a page and slot with its operands; none where its qualifier codes are reserved (R130). A
word of CTXCTL, TLBINV or CFGWR gives the first of its rows; the registers select among them at issue. -/
def build (page op : Nat) (o : Operands) : Option Instr :=
  match page, op with
  | 0, 0 => some (.add o.d o.a o.b)
  | 0, 1 => some (.sub o.d o.a o.b)
  | 0, 2 => some (.and o.d o.a o.b)
  | 0, 3 => some (.or o.d o.a o.b)
  | 0, 4 => some (.xor o.d o.a o.b)
  | 0, 5 => some (.shl o.d o.a o.b)
  | 0, 6 => some (.shr o.d o.a o.b)
  | 0, 7 => some (.sar o.d o.a o.b)
  | 0, 8 => some (.addi o.d o.a o.imm)
  | 0, 9 => some (.li o.d o.imm)
  | 0, 10 => some (.mov o.d o.a)
  | 0, 11 => some (.slt o.d o.a o.b)
  | 0, 12 => some (.sltu o.d o.a o.b)
  | 0, 13 => some (.mul o.d o.a o.b)
  | 1, 0 => some (.mulh o.d o.a o.b)
  | 1, 1 => some (.mulhu o.d o.a o.b)
  | 1, 2 => some (.div o.la o.d o.a o.b)
  | 1, 3 => some (.divu o.la o.d o.a o.b)
  | 1, 4 => some (.rem o.la o.d o.a o.b)
  | 1, 5 => some (.remu o.la o.d o.a o.b)
  | 1, 6 => some (.min o.d o.a o.b)
  | 1, 7 => some (.max o.d o.a o.b)
  | 1, 8 => some (.minu o.d o.a o.b)
  | 1, 9 => some (.maxu o.d o.a o.b)
  | 1, 10 => some (.shli o.d o.a o.imm)
  | 1, 11 => some (.shri o.d o.a o.imm)
  | 1, 12 => some (.sari o.d o.a o.imm)
  | 1, 13 => (BitOp.of? o.q).map fun q => .bop q o.d o.a
  | 2, 0 => some (.bra o.imm)
  | 2, 1 => some (.bz o.a o.imm)
  | 2, 2 => some (.bnz o.a o.imm)
  | 2, 3 => some (.beq o.a o.b o.imm)
  | 2, 4 => some (.bne o.a o.b o.imm)
  | 2, 5 => some (.blt o.a o.b o.imm)
  | 2, 6 => some (.bltu o.a o.b o.imm)
  | 2, 7 => some (.call o.d o.imm)
  | 2, 8 => some (.jmp o.a)
  | 2, 9 => (MaskTest.of? o.q).map fun q => .bmask q o.imm
  | 2, 10 => some (.ypoint o.imm)
  | 2, 11 => some (.yield)
  | 2, 12 => some (.halt)
  | 2, 13 => some (.nop)
  | 3, 0 => (VIQual.of? o.q).map fun q => .vadd q o.d o.a o.b
  | 3, 1 => (VIQual.of? o.q).map fun q => .vsub q o.d o.a o.b
  | 3, 2 => (VIQual.of? o.q).map fun q => .vmul q o.d o.a o.b
  | 3, 3 => (VIQual.of? o.q).map fun q => .vmulh q o.d o.a o.b
  | 3, 4 => (VIQual.of? o.q).map fun q => .vand q o.d o.a o.b
  | 3, 5 => (VIQual.of? o.q).map fun q => .vor q o.d o.a o.b
  | 3, 6 => (VIQual.of? o.q).map fun q => .vxor q o.d o.a o.b
  | 3, 7 => (VIQual.of? o.q).map fun q => .vshl q o.d o.a o.b
  | 3, 8 => (VIQual.of? o.q).map fun q => .vshr q o.d o.a o.b
  | 3, 9 => (VIQual.of? o.q).map fun q => .vsar q o.d o.a o.b
  | 3, 10 => (VIQual.of? o.q).map fun q => .vmin q o.d o.a o.b
  | 3, 11 => (VIQual.of? o.q).map fun q => .vmax q o.d o.a o.b
  | 3, 12 => (VIQual.of? o.q).map fun q => .vcmp q (mask o.d) o.a o.b
  | 3, 13 => (VIQual.of? o.q).map fun q => .vsel q o.d o.a o.b
  | 4, 0 => vfPlain o.q fun q => .vfadd q o.d o.a o.b
  | 4, 1 => vfPlain o.q fun q => .vfsub q o.d o.a o.b
  | 4, 2 => vfPlain o.q fun q => .vfmul q o.d o.a o.b
  | 4, 3 => vfPlain o.q fun q => .vfma q o.d o.a o.b
  | 4, 4 => vfPlain o.q fun q => .vfmin q o.d o.a o.b
  | 4, 5 => vfPlain o.q fun q => .vfmax q o.d o.a o.b
  | 4, 6 => vfPlain o.q fun q => .vfdiv o.la q o.d o.a o.b
  | 4, 7 => vfPlain o.q fun q => .vfsqrt o.la q o.d o.a
  | 4, 8 => vfPlain o.q fun q => .vfrcp o.la q o.d o.a
  | 4, 9 => vfOp o.q fun q n => (FCmp.of? n).map fun op => .vfcmp op q (mask o.d) o.a o.b
  | 4, 10 => vfOp o.q fun q n => (SgnOp.of? n).map fun op => .vfsgn op q o.d o.a o.b
  | 4, 11 => vfPlain o.q fun q => .vfrnd q o.d o.a
  | 4, 12 => vfOp o.q fun q n => (CvtiOp.of? n).map fun op => .vfcvti op q o.d o.a
  | 4, 13 => vfPlain o.q fun q => .vfdot2 q o.d o.a o.b
  | 5, 0 => some (.vbc o.d o.a)
  | 5, 1 => some (.vget o.d o.a o.imm)
  | 5, 2 => some (.vput o.d o.a o.imm)
  | 5, 3 => some (.vperm o.d o.a o.b)
  | 5, 4 => some (.vrot o.d o.a o.imm)
  | 5, 5 => (LQual.of? o.q).map fun q => .vred q o.d o.a
  | 5, 6 => (LQual.of? o.q).map fun q => .vscan q o.d o.a
  | 5, 7 => if o.q.toNat % 64 = 0 then some (.mop (o.q.extractLsb' 6 4) (mask o.d) (mask o.a) (mask o.b)) else none
  | 5, 8 => some (.mget o.d (mask o.a))
  | 5, 9 => some (.mset (mask o.d) o.a)
  | 5, 10 => some (.mcnt o.d (mask o.a))
  | 5, 11 => some (.vlane o.d o.a)
  | 5, 12 => some (.vzip o.d o.a o.b)
  | 5, 13 => some (.vuzp o.d o.a o.b)
  | 6, 0 => (MQual.of? o.q).map fun q => .ld o.la q o.d o.a o.imm
  | 6, 1 => (MQual.of? o.q).map fun q => .st q o.d o.a o.imm
  | 6, 2 => (MQual.of? o.q).map fun q => .vld o.la q o.d o.a o.imm
  | 6, 3 => (MQual.of? o.q).map fun q => .vst q o.d o.a o.imm
  | 6, 4 => (MQual.of? o.q).map fun q => .vgath o.la q o.d o.a o.b
  | 6, 5 => (MQual.of? o.q).map fun q => .vscat q o.d o.a o.b
  | 6, 6 => (MQual.of? o.q).map fun q => .pref q o.a o.imm
  | 6, 7 => some (.lea o.d o.a o.imm)
  | 6, 8 => (MQual.of? o.q).map fun q => .zline q o.a o.imm
  | 6, 9 => (MQual.of? o.q).map fun q => .ldmx o.la q o.d o.a o.imm
  | 7, 0 => (MQual.of? o.q).map fun q => .ldf o.la q o.d o.a o.imm
  | 7, 1 => (MQual.of? o.q).map fun q => .take o.la q o.d o.a o.imm
  | 7, 2 => (MQual.of? o.q).map fun q => .put o.la q o.d o.a o.imm
  | 7, 3 => (MQual.of? o.q).map fun q => .stf o.la q o.d o.a o.imm
  | 7, 4 => (MQual.of? o.q).map fun q => .sete o.la q o.a o.imm
  | 7, 5 => (MQual.of? o.q).map fun q => .fetag o.la q o.d o.a o.imm
  | 7, 6 => (AQual.of? o.q).map fun q => .atom o.la q o.d o.a o.b
  | 7, 7 => (AQual.of? o.q).map fun q => .cas o.la q o.d o.a o.b
  | 7, 8 => (FQual.of? o.q).map fun q => .fence q 
  | 7, 9 => some (.qwait o.la o.d o.a o.b o.imm)
  | 8, 0 => some (.send o.a o.b)
  | 8, 1 => some (.recv o.d)
  | 8, 2 => some (.waitm o.d o.imm)
  | 8, 3 => some (.spawn o.d o.a o.b)
  | 8, 4 => some (.migr o.a)
  | 8, 5 => some (.gets o.d (special o.imm))
  | 8, 6 => some (.sets o.d (special o.imm))
  | 8, 7 => some (.bgive o.d o.a o.b)
  | 8, 8 => some (.brk o.imm)
  | 8, 9 => some (.signal o.a)
  | 9, 0 => some (.cpy (nib o.d) o.a)
  | 9, 1 => some (.cpys o.d o.a)
  | 9, 2 => some (.binit (nib o.d) o.a)
  | 9, 3 => some (.bwait (nib o.d) o.imm)
  | 9, 4 => some (.bpend o.d (nib o.a))
  | 9, 5 => some (.cpyq o.d)
  | 9, 6 => some (.bankcfg o.a)
  | 9, 7 => some (.bankst o.d)
  | 10, 0 => some (.mfmt o.a)
  | 10, 1 => some (.mma o.d o.a o.b)
  | 10, 2 => some (.mmas o.d o.a o.b)
  | 10, 3 => some (.acce o.d o.a)
  | 10, 4 => some (.accz o.d)
  | 10, 5 => (arOf? o.q).map fun q => .accrd q o.d o.a o.b
  | 10, 6 => some (.accwr o.d o.a o.b)
  | 10, 7 => (arOf? o.q).map fun q => .accst q o.d o.a
  | 10, 8 => some (.accstat o.d o.a)
  | 11, 0 => some (.chset o.d o.a)
  | 11, 1 => some (.chsend o.d o.a)
  | 11, 2 => some (.chwait o.d o.imm)
  | 11, 3 => some (.chdrop o.d)
  | 11, 4 => some (.chstat o.d o.a)
  | 12, 0 => some (.rset o.d o.a)
  | 12, 1 => some (.rcov o.a o.b)
  | 12, 2 => some (.rbary o.d o.a o.b)
  | 12, 3 => (ZQual.of? o.q).map fun q => .rzt q o.a o.b
  | 12, 4 => some (.rwr o.a o.b)
  | 12, 5 => some (.rblk o.d o.a o.b)
  | 13, 0 => some (.trset o.d o.b)
  | 13, 1 => some (.trstep o.d o.a)
  | 13, 2 => some (.trtri o.d o.a o.b)
  | 13, 3 => some (.trbox o.d o.a o.b)
  | 13, 4 => some (.trcmt o.d o.b)
  | 13, 5 => some (.trinst o.d o.a)
  | 13, 6 => some (.trres o.d)
  | 14, 0 => (CQual.of? o.q).map fun q => .cvt q o.d o.a
  | 14, 1 => (CQual.of? o.q).map fun q => .cvtw q o.d o.a
  | 14, 2 => (CQual.of? o.q).map fun q => .cvth q o.d o.a
  | 14, 3 => (XQual.of? o.q).map fun q => .mxq q o.d o.a o.b
  | 14, 4 => (XQual.of? o.q).map fun q => .mxx q o.d o.a
  | 14, 5 => vfPlain o.q fun q => .scalb q o.d o.a o.b
  | 14, 6 => (PQual.of? o.q).map fun q => .pack q o.d o.a o.b
  | 14, 7 => (PQual.of? o.q).bind fun q => if q.sat then none else some (.unpk q.width o.d o.a o.b)
  | 15, 0 => some (.ctxrd o.d o.a)
  | 15, 1 => some (.ctxwr o.d o.a o.b)
  | 15, 2 => some (.ctxctlStop o.d o.a o.b)
  | 15, 3 => some (.rqput o.d o.a o.b)
  | 15, 4 => some (.rqtake o.d o.a o.b)
  | 15, 5 => some (.ksave o.d o.a o.b)
  | 15, 6 => some (.kload o.d o.a o.b)
  | 15, 7 => some (.tlbinvPage o.a o.b)
  | 15, 8 => some (.pgwake o.d o.a o.b)
  | 15, 9 => some (.topup o.d o.a o.b)
  | 15, 10 => some (.cfgrd o.d o.a)
  | 15, 11 => some (.cfgwrTileMembership o.d o.a o.b)
  | 15, 12 => some (.almset o.a o.b)
  | 15, 13 => some (.fwset o.a o.b)
  | _, _ => none

/-- The field B of VFSGN neg and abs is unused (R257). -/
def bUnused : Instr → Bool
  | .vfsgn .neg .. => true
  | .vfsgn .abs .. => true
  | _ => false
/-- The kinds of the three fields for reasons 7 to 9. -/
def kindsOf (o : OpInfo) (i : Instr) : List (Field × Kind) :=
  [(.D, o.d), (.A, o.a), (.B, if bUnused i then .unused else o.b)]
/-- The 8-bit field of an operand. -/
def Operands.get (o : Operands) : Field → BitVec 8 | .D => o.d | .A => o.a | .B => o.b | .none => 0
/-- Reason 7: an unused field's base nibble is not zero (R124). -/
def bad7 (o : Operands) (fk : Field × Kind) : Bool := fk.2 == .unused && (o.get fk.1).toNat % 16 != 0
/-- Reason 8: an XR nibble stands over a field that is not a register or block field (R114, R123). -/
def bad8 (o : Operands) (fk : Field × Kind) : Bool :=
  (fk.2 != .reg && fk.2 != .block) && (o.get fk.1).toNat / 16 != 0
/-- Reason 9: a mask above 3 (R123). -/
def bad9 (o : Operands) (fk : Field × Kind) : Bool := fk.2 == .mask && 3 < (o.get fk.1).toNat % 16
/-- The first field that fails a test (R136). -/
def firstBad (f : Field × Kind → Bool) : List (Field × Kind) → Option Field
  | [] => none
  | k :: t => if f k then some k.1 else firstBad f t

/-- Decoding a chain: ILLOP, then reasons 4 to 10 of R135 in ascending order (R134). -/
def decodeChain (c : Chain) : Except ChainFault Instr :=
  let page := pageOf c.xp
  let op := c.base.toNat / 4096
  let enc := fun (r : Nat) (f : Field) => Except.error (ChainFault.mk .illenc page op r f 0)
  match opInfo page op with
  | none => .error ⟨.illop, page, op, 0, .none, 0⟩
  | some o =>
    let x := c.operands o
    if (!o.layout && x.q != 0) || (o.shape == .R && c.xis.any (· != 0)) then enc 4 .none
    else if !o.long && x.la != 0 then enc 5 .none
    else match build page op x with
      | none => enc 6 .none
      | some i =>
        if !i.qualOk then enc 6 .none
        else
          let ks := kindsOf o i
          match firstBad (bad7 x) ks, firstBad (bad8 x) ks, firstBad (bad9 x) ks with
          | some f, _, _ => enc 7 f
          | none, some f, _ => enc 8 f
          | none, none, some f => enc 9 f
          | none, none, none => if o.special && decide (38 ≤ x.imm.toNat) then enc 10 .A else .ok i

/-- Why a stream of bytes holds no instruction at its head. -/
inductive DecodeError where
  | truncated
  | illegal (e : ChainFault)
  deriving DecidableEq, Repr

/-- Bytes as little-endian halfwords (R110). -/
def halves : List Byte → List Half
  | x :: y :: t => (y ++ x) :: halves t
  | _ => []
/-- Halfwords as little-endian bytes (R110). -/
def bytesOf : List Half → List Byte
  | [] => []
  | h :: t => h.extractLsb' 0 8 :: h.extractLsb' 8 8 :: bytesOf t

/-- Decoding halfwords: the instruction and the length of its chain in halfwords. -/
def decodeHalves (hs : List Half) : Except DecodeError (Instr × Nat) :=
  match scan hs Prefixes.start with
  | .more => .error .truncated
  | .bad e => .error (.illegal e)
  | .chain c n => match decodeChain c with
    | .ok i => .ok (i, n)
    | .error e => .error (.illegal e)
/-- Decoding bytes, total, refusing by name. -/
def decode (bs : List Byte) : Except DecodeError (Instr × Nat) := decodeHalves (halves bs)

/-- The halfwords of an opcode-table row's word: the table's first halfword is the high one of its nbits, and
stands first in the stream (R110); beyond nbits every bit is zero. -/
def tableHalves (nbits w : Nat) : List Half :=
  if nbits ≤ 16 then [BitVec.ofNat 16 w, 0, 0, 0, 0]
  else [BitVec.ofNat 16 (w / 65536), BitVec.ofNat 16 w, 0, 0, 0]

-- The encoder (R106, R139)

/-- What a chain is assembled from. -/
structure Enc where
  page : Nat
  op : Nat
  la : BitVec 4
  q : BitVec 10
  d : BitVec 8
  a : BitVec 8
  b : BitVec 8
  imm : Dword
  deriving DecidableEq, Repr

/-- A mask number as a field. -/
def ofMask (p : Fin 4) : BitVec 8 := BitVec.ofNat 8 p.val
/-- A barrier number as a field. -/
def ofNib (k : BitVec 4) : BitVec 8 := k.setWidth 8

/-- The fields of an instruction; none for an event, which has no word. -/
def Instr.enc : Instr → Option Enc
  | .add d a b => some ⟨0, 0, 0, 0, d, a, b, 0⟩
  | .sub d a b => some ⟨0, 1, 0, 0, d, a, b, 0⟩
  | .and d a b => some ⟨0, 2, 0, 0, d, a, b, 0⟩
  | .or d a b => some ⟨0, 3, 0, 0, d, a, b, 0⟩
  | .xor d a b => some ⟨0, 4, 0, 0, d, a, b, 0⟩
  | .shl d a b => some ⟨0, 5, 0, 0, d, a, b, 0⟩
  | .shr d a b => some ⟨0, 6, 0, 0, d, a, b, 0⟩
  | .sar d a b => some ⟨0, 7, 0, 0, d, a, b, 0⟩
  | .addi d a i => some ⟨0, 8, 0, 0, d, a, 0, i⟩
  | .li d i => some ⟨0, 9, 0, 0, d, 0, 0, i⟩
  | .mov d a => some ⟨0, 10, 0, 0, d, a, 0, 0⟩
  | .slt d a b => some ⟨0, 11, 0, 0, d, a, b, 0⟩
  | .sltu d a b => some ⟨0, 12, 0, 0, d, a, b, 0⟩
  | .mul d a b => some ⟨0, 13, 0, 0, d, a, b, 0⟩
  | .mulh d a b => some ⟨1, 0, 0, 0, d, a, b, 0⟩
  | .mulhu d a b => some ⟨1, 1, 0, 0, d, a, b, 0⟩
  | .div la d a b => some ⟨1, 2, la, 0, d, a, b, 0⟩
  | .divu la d a b => some ⟨1, 3, la, 0, d, a, b, 0⟩
  | .rem la d a b => some ⟨1, 4, la, 0, d, a, b, 0⟩
  | .remu la d a b => some ⟨1, 5, la, 0, d, a, b, 0⟩
  | .min d a b => some ⟨1, 6, 0, 0, d, a, b, 0⟩
  | .max d a b => some ⟨1, 7, 0, 0, d, a, b, 0⟩
  | .minu d a b => some ⟨1, 8, 0, 0, d, a, b, 0⟩
  | .maxu d a b => some ⟨1, 9, 0, 0, d, a, b, 0⟩
  | .shli d a i => some ⟨1, 10, 0, 0, d, a, 0, i⟩
  | .shri d a i => some ⟨1, 11, 0, 0, d, a, 0, i⟩
  | .sari d a i => some ⟨1, 12, 0, 0, d, a, 0, i⟩
  | .bop q d a => some ⟨1, 13, 0, q.bits, d, a, 0, 0⟩
  | .bra i => some ⟨2, 0, 0, 0, 0, 0, 0, i⟩
  | .bz a i => some ⟨2, 1, 0, 0, 0, a, 0, i⟩
  | .bnz a i => some ⟨2, 2, 0, 0, 0, a, 0, i⟩
  | .beq a b i => some ⟨2, 3, 0, 0, 0, a, b, i⟩
  | .bne a b i => some ⟨2, 4, 0, 0, 0, a, b, i⟩
  | .blt a b i => some ⟨2, 5, 0, 0, 0, a, b, i⟩
  | .bltu a b i => some ⟨2, 6, 0, 0, 0, a, b, i⟩
  | .call d i => some ⟨2, 7, 0, 0, d, 0, 0, i⟩
  | .jmp a => some ⟨2, 8, 0, 0, 0, a, 0, 0⟩
  | .bmask q i => some ⟨2, 9, 0, q.bits, 0, 0, 0, i⟩
  | .ypoint i => some ⟨2, 10, 0, 0, 0, 0, 0, i⟩
  | .yield  => some ⟨2, 11, 0, 0, 0, 0, 0, 0⟩
  | .halt  => some ⟨2, 12, 0, 0, 0, 0, 0, 0⟩
  | .nop  => some ⟨2, 13, 0, 0, 0, 0, 0, 0⟩
  | .vadd q d a b => some ⟨3, 0, 0, q.bits, d, a, b, 0⟩
  | .vsub q d a b => some ⟨3, 1, 0, q.bits, d, a, b, 0⟩
  | .vmul q d a b => some ⟨3, 2, 0, q.bits, d, a, b, 0⟩
  | .vmulh q d a b => some ⟨3, 3, 0, q.bits, d, a, b, 0⟩
  | .vand q d a b => some ⟨3, 4, 0, q.bits, d, a, b, 0⟩
  | .vor q d a b => some ⟨3, 5, 0, q.bits, d, a, b, 0⟩
  | .vxor q d a b => some ⟨3, 6, 0, q.bits, d, a, b, 0⟩
  | .vshl q d a b => some ⟨3, 7, 0, q.bits, d, a, b, 0⟩
  | .vshr q d a b => some ⟨3, 8, 0, q.bits, d, a, b, 0⟩
  | .vsar q d a b => some ⟨3, 9, 0, q.bits, d, a, b, 0⟩
  | .vmin q d a b => some ⟨3, 10, 0, q.bits, d, a, b, 0⟩
  | .vmax q d a b => some ⟨3, 11, 0, q.bits, d, a, b, 0⟩
  | .vcmp q pd a b => some ⟨3, 12, 0, q.bits, (ofMask pd), a, b, 0⟩
  | .vsel q d a b => some ⟨3, 13, 0, q.bits, d, a, b, 0⟩
  | .vfadd q d a b => some ⟨4, 0, 0, (q.bits 0), d, a, b, 0⟩
  | .vfsub q d a b => some ⟨4, 1, 0, (q.bits 0), d, a, b, 0⟩
  | .vfmul q d a b => some ⟨4, 2, 0, (q.bits 0), d, a, b, 0⟩
  | .vfma q d a b => some ⟨4, 3, 0, (q.bits 0), d, a, b, 0⟩
  | .vfmin q d a b => some ⟨4, 4, 0, (q.bits 0), d, a, b, 0⟩
  | .vfmax q d a b => some ⟨4, 5, 0, (q.bits 0), d, a, b, 0⟩
  | .vfdiv la q d a b => some ⟨4, 6, la, (q.bits 0), d, a, b, 0⟩
  | .vfsqrt la q d a => some ⟨4, 7, la, (q.bits 0), d, a, 0, 0⟩
  | .vfrcp la q d a => some ⟨4, 8, la, (q.bits 0), d, a, 0, 0⟩
  | .vfcmp op q pd a b => some ⟨4, 9, 0, (q.bits op.num), (ofMask pd), a, b, 0⟩
  | .vfsgn op q d a b => some ⟨4, 10, 0, (q.bits op.num), d, a, b, 0⟩
  | .vfrnd q d a => some ⟨4, 11, 0, (q.bits 0), d, a, 0, 0⟩
  | .vfcvti op q d a => some ⟨4, 12, 0, (q.bits op.num), d, a, 0, 0⟩
  | .vfdot2 q d a b => some ⟨4, 13, 0, (q.bits 0), d, a, b, 0⟩
  | .vbc d a => some ⟨5, 0, 0, 0, d, a, 0, 0⟩
  | .vget d a i => some ⟨5, 1, 0, 0, d, a, 0, i⟩
  | .vput d a i => some ⟨5, 2, 0, 0, d, a, 0, i⟩
  | .vperm d a b => some ⟨5, 3, 0, 0, d, a, b, 0⟩
  | .vrot d a i => some ⟨5, 4, 0, 0, d, a, 0, i⟩
  | .vred q d a => some ⟨5, 5, 0, q.bits, d, a, 0, 0⟩
  | .vscan q d a => some ⟨5, 6, 0, q.bits, d, a, 0, 0⟩
  | .mop fn pd pa pb => some ⟨5, 7, 0, (BitVec.ofNat 10 (fn.toNat * 64)), (ofMask pd), (ofMask pa), (ofMask pb), 0⟩
  | .mget d pa => some ⟨5, 8, 0, 0, d, (ofMask pa), 0, 0⟩
  | .mset pd a => some ⟨5, 9, 0, 0, (ofMask pd), a, 0, 0⟩
  | .mcnt d pa => some ⟨5, 10, 0, 0, d, (ofMask pa), 0, 0⟩
  | .vlane d a => some ⟨5, 11, 0, 0, d, a, 0, 0⟩
  | .vzip d a b => some ⟨5, 12, 0, 0, d, a, b, 0⟩
  | .vuzp d a b => some ⟨5, 13, 0, 0, d, a, b, 0⟩
  | .ld la q d a i => some ⟨6, 0, la, q.bits, d, a, 0, i⟩
  | .st q d a i => some ⟨6, 1, 0, q.bits, d, a, 0, i⟩
  | .vld la q d a i => some ⟨6, 2, la, q.bits, d, a, 0, i⟩
  | .vst q d a i => some ⟨6, 3, 0, q.bits, d, a, 0, i⟩
  | .vgath la q d a b => some ⟨6, 4, la, q.bits, d, a, b, 0⟩
  | .vscat q d a b => some ⟨6, 5, 0, q.bits, d, a, b, 0⟩
  | .pref q a i => some ⟨6, 6, 0, q.bits, 0, a, 0, i⟩
  | .lea d a i => some ⟨6, 7, 0, 0, d, a, 0, i⟩
  | .zline q a i => some ⟨6, 8, 0, q.bits, 0, a, 0, i⟩
  | .ldmx la q d a i => some ⟨6, 9, la, q.bits, d, a, 0, i⟩
  | .ldf la q d a i => some ⟨7, 0, la, q.bits, d, a, 0, i⟩
  | .take la q d a i => some ⟨7, 1, la, q.bits, d, a, 0, i⟩
  | .put la q d a i => some ⟨7, 2, la, q.bits, d, a, 0, i⟩
  | .stf la q d a i => some ⟨7, 3, la, q.bits, d, a, 0, i⟩
  | .sete la q a i => some ⟨7, 4, la, q.bits, 0, a, 0, i⟩
  | .fetag la q d a i => some ⟨7, 5, la, q.bits, d, a, 0, i⟩
  | .atom la q d a b => some ⟨7, 6, la, q.bits, d, a, b, 0⟩
  | .cas la q d a b => some ⟨7, 7, la, q.bits, d, a, b, 0⟩
  | .fence q => some ⟨7, 8, 0, q.bits, 0, 0, 0, 0⟩
  | .qwait la d a b i => some ⟨7, 9, la, 0, d, a, b, i⟩
  | .send a b => some ⟨8, 0, 0, 0, 0, a, b, 0⟩
  | .recv d => some ⟨8, 1, 0, 0, d, 0, 0, 0⟩
  | .waitm d i => some ⟨8, 2, 0, 0, d, 0, 0, i⟩
  | .spawn d a b => some ⟨8, 3, 0, 0, d, a, b, 0⟩
  | .migr a => some ⟨8, 4, 0, 0, 0, a, 0, 0⟩
  | .gets d n => some ⟨8, 5, 0, 0, d, 0, 0, (BitVec.ofNat 64 n.val)⟩
  | .sets d n => some ⟨8, 6, 0, 0, d, 0, 0, (BitVec.ofNat 64 n.val)⟩
  | .bgive d a b => some ⟨8, 7, 0, 0, d, a, b, 0⟩
  | .brk i => some ⟨8, 8, 0, 0, 0, 0, 0, i⟩
  | .signal a => some ⟨8, 9, 0, 0, 0, a, 0, 0⟩
  | .cpy k a => some ⟨9, 0, 0, 0, (ofNib k), a, 0, 0⟩
  | .cpys d a => some ⟨9, 1, 0, 0, d, a, 0, 0⟩
  | .binit k a => some ⟨9, 2, 0, 0, (ofNib k), a, 0, 0⟩
  | .bwait k i => some ⟨9, 3, 0, 0, (ofNib k), 0, 0, i⟩
  | .bpend d k => some ⟨9, 4, 0, 0, d, (ofNib k), 0, 0⟩
  | .cpyq d => some ⟨9, 5, 0, 0, d, 0, 0, 0⟩
  | .bankcfg a => some ⟨9, 6, 0, 0, 0, a, 0, 0⟩
  | .bankst d => some ⟨9, 7, 0, 0, d, 0, 0, 0⟩
  | .mfmt a => some ⟨10, 0, 0, 0, 0, a, 0, 0⟩
  | .mma d a b => some ⟨10, 1, 0, 0, d, a, b, 0⟩
  | .mmas d a b => some ⟨10, 2, 0, 0, d, a, b, 0⟩
  | .acce d a => some ⟨10, 3, 0, 0, d, a, 0, 0⟩
  | .accz d => some ⟨10, 4, 0, 0, d, 0, 0, 0⟩
  | .accrd t d a b => some ⟨10, 5, 0, (BitVec.ofNat 10 (t.num * 256)), d, a, b, 0⟩
  | .accwr d a b => some ⟨10, 6, 0, 0, d, a, b, 0⟩
  | .accst t d a => some ⟨10, 7, 0, (BitVec.ofNat 10 (t.num * 256)), d, a, 0, 0⟩
  | .accstat d a => some ⟨10, 8, 0, 0, d, a, 0, 0⟩
  | .chset d a => some ⟨11, 0, 0, 0, d, a, 0, 0⟩
  | .chsend d a => some ⟨11, 1, 0, 0, d, a, 0, 0⟩
  | .chwait d i => some ⟨11, 2, 0, 0, d, 0, 0, i⟩
  | .chdrop d => some ⟨11, 3, 0, 0, d, 0, 0, 0⟩
  | .chstat d a => some ⟨11, 4, 0, 0, d, a, 0, 0⟩
  | .rset d a => some ⟨12, 0, 0, 0, d, a, 0, 0⟩
  | .rcov a b => some ⟨12, 1, 0, 0, 0, a, b, 0⟩
  | .rbary d a b => some ⟨12, 2, 0, 0, d, a, b, 0⟩
  | .rzt q a b => some ⟨12, 3, 0, q.bits, 0, a, b, 0⟩
  | .rwr a b => some ⟨12, 4, 0, 0, 0, a, b, 0⟩
  | .rblk d a b => some ⟨12, 5, 0, 0, d, a, b, 0⟩
  | .trset d b => some ⟨13, 0, 0, 0, d, 0, b, 0⟩
  | .trstep d a => some ⟨13, 1, 0, 0, d, a, 0, 0⟩
  | .trtri d a b => some ⟨13, 2, 0, 0, d, a, b, 0⟩
  | .trbox d a b => some ⟨13, 3, 0, 0, d, a, b, 0⟩
  | .trcmt d b => some ⟨13, 4, 0, 0, d, 0, b, 0⟩
  | .trinst d a => some ⟨13, 5, 0, 0, d, a, 0, 0⟩
  | .trres d => some ⟨13, 6, 0, 0, d, 0, 0, 0⟩
  | .cvt q d a => some ⟨14, 0, 0, q.bits, d, a, 0, 0⟩
  | .cvtw q d a => some ⟨14, 1, 0, q.bits, d, a, 0, 0⟩
  | .cvth q d a => some ⟨14, 2, 0, q.bits, d, a, 0, 0⟩
  | .mxq q d a b => some ⟨14, 3, 0, q.bits, d, a, b, 0⟩
  | .mxx q d a => some ⟨14, 4, 0, q.bits, d, a, 0, 0⟩
  | .scalb q d a b => some ⟨14, 5, 0, (q.bits 0), d, a, b, 0⟩
  | .pack q d a b => some ⟨14, 6, 0, q.bits, d, a, b, 0⟩
  | .unpk w d a b => some ⟨14, 7, 0, (PQual.bits ⟨w, false⟩), d, a, b, 0⟩
  | .ctxrd d a => some ⟨15, 0, 0, 0, d, a, 0, 0⟩
  | .ctxwr d a b => some ⟨15, 1, 0, 0, d, a, b, 0⟩
  | .ctxctlStop d a b => some ⟨15, 2, 0, 0, d, a, b, 0⟩
  | .rqput d a b => some ⟨15, 3, 0, 0, d, a, b, 0⟩
  | .rqtake d a b => some ⟨15, 4, 0, 0, d, a, b, 0⟩
  | .ksave d a b => some ⟨15, 5, 0, 0, d, a, b, 0⟩
  | .kload d a b => some ⟨15, 6, 0, 0, d, a, b, 0⟩
  | .tlbinvPage a b => some ⟨15, 7, 0, 0, 0, a, b, 0⟩
  | .pgwake d a b => some ⟨15, 8, 0, 0, d, a, b, 0⟩
  | .topup d a b => some ⟨15, 9, 0, 0, d, a, b, 0⟩
  | .cfgrd d a => some ⟨15, 10, 0, 0, d, a, 0, 0⟩
  | .cfgwrTileMembership d a b => some ⟨15, 11, 0, 0, d, a, b, 0⟩
  | .almset a b => some ⟨15, 12, 0, 0, 0, a, b, 0⟩
  | .fwset a b => some ⟨15, 13, 0, 0, 0, a, b, 0⟩
  | .ctxctlResume d a b => some ⟨15, 2, 0, 0, d, a, b, 0⟩
  | .ctxctlSwapOut d a b => some ⟨15, 2, 0, 0, d, a, b, 0⟩
  | .ctxctlRetire d a b => some ⟨15, 2, 0, 0, d, a, b, 0⟩
  | .ctxctlDrop d a b => some ⟨15, 2, 0, 0, d, a, b, 0⟩
  | .tlbinvAll a b => some ⟨15, 7, 0, 0, 0, a, b, 0⟩
  | .cfgwrRepairEnter d a b => some ⟨15, 11, 0, 0, d, a, b, 0⟩
  | .cfgwrReturnToService d a b => some ⟨15, 11, 0, 0, d, a, b, 0⟩
  | .cfgwrPartitionRegister d a b => some ⟨15, 11, 0, 0, d, a, b, 0⟩
  | .cfgwrSpillRing d a b => some ⟨15, 11, 0, 0, d, a, b, 0⟩
  | .cfgwrWakeRegister d a b => some ⟨15, 11, 0, 0, d, a, b, 0⟩
  | .cfgwrWayMap d a b => some ⟨15, 11, 0, 0, d, a, b, 0⟩
  | .cfgwrErrorCounter d a b => some ⟨15, 11, 0, 0, d, a, b, 0⟩
  | .cfgwrPortEntry d a b => some ⟨15, 11, 0, 0, d, a, b, 0⟩
  | .cfgwrTransmitTail d a b => some ⟨15, 11, 0, 0, d, a, b, 0⟩
  | .cfgwrPcieMemory d a b => some ⟨15, 11, 0, 0, d, a, b, 0⟩
  | .cfgwrPcieConfig d a b => some ⟨15, 11, 0, 0, d, a, b, 0⟩
  | .cfgwrMsiRoute d a b => some ⟨15, 11, 0, 0, d, a, b, 0⟩
  | .cfgwrScanoutHead d a b => some ⟨15, 11, 0, 0, d, a, b, 0⟩
  | .cfgwrVigil d a b => some ⟨15, 11, 0, 0, d, a, b, 0⟩
  | .cfgwrStandby d a b => some ⟨15, 11, 0, 0, d, a, b, 0⟩
  | .cfgwrQuoteRequest d a b => some ⟨15, 11, 0, 0, d, a, b, 0⟩
  | .cfgwrPageRegister d a b => some ⟨15, 11, 0, 0, d, a, b, 0⟩
  | .cfgwrPageUnregister d a b => some ⟨15, 11, 0, 0, d, a, b, 0⟩
  | .cfgwrReadOnly d a b => some ⟨15, 11, 0, 0, d, a, b, 0⟩
  | _ => none

/-- Whether a value fits an immediate of n XI prefixes (R106). -/
def xiFits (signed : Bool) (own : Nat) (v : Dword) (n : Nat) : Bool :=
  if signed then (if 10 * n + own = 0 then v == 0 else fitsS (10 * n + own) v) else fitsU (10 * n + own) v
/-- The least number of XI prefixes that hold the value; 3 where none up to 3 does (R106). -/
def xiCount (signed : Bool) (own : Nat) (v : Dword) : Nat :=
  if xiFits signed own v 0 then 0 else if xiFits signed own v 1 then 1 else if xiFits signed own v 2 then 2 else 3
/-- The payloads of n XI prefixes, most significant first (R139). -/
def xiPayloads (own : Nat) (v : Nat) : Nat → List (BitVec 10)
  | 0 => []
  | n + 1 => BitVec.ofNat 10 (v / 2 ^ (own + 10 * n)) :: xiPayloads own v n
/-- The base word (R125). -/
def baseWord (s : Shape) (e : Enc) : Half :=
  let i := e.imm.toNat
  let d := e.d.toNat % 16
  let a := e.a.toNat % 16
  let b := e.b.toNat % 16
  BitVec.ofNat 16 (e.op * 4096 + match s with
    | .R | .RX => d * 256 + a * 16 + b
    | .RI => d * 256 + a * 16 + i % 16
    | .RL => d * 256 + i % 256
    | .CB => i % 16 * 256 + a * 16 + b
    | .BR => i % 4096)
/-- The chain of an encoding: XP, XQ, XR only where their payload is not zero, then XI, then the base (R106). -/
def Enc.chain (e : Enc) (o : OpInfo) : Chain :=
  let hi := e.d.toNat / 16 * 256 + e.a.toNat / 16 * 16 + e.b.toNat / 16
  { xp := if e.page = 0 ∧ e.la = 0 then none else some (BitVec.ofNat 10 (e.page * 16 + e.la.toNat))
    xq := if e.q = 0 then none else some e.q
    xr := if hi = 0 then none else some (BitVec.ofNat 12 hi)
    xis := if o.shape = .R then [] else xiPayloads o.shape.own e.imm.toNat (xiCount o.signed o.shape.own e.imm)
    base := baseWord o.shape e }
/-- The halfwords of a chain (R112). -/
def Chain.halfwords (c : Chain) : List Half :=
  (match c.xp with | some p => [BitVec.ofNat 16 (0xE000 + p.toNat)] | none => [])
  ++ (match c.xq with | some p => [BitVec.ofNat 16 (0xE400 + p.toNat)] | none => [])
  ++ (match c.xr with | some p => [BitVec.ofNat 16 (0xF000 + p.toNat)] | none => [])
  ++ c.xis.map (fun p => BitVec.ofNat 16 (0xE800 + p.toNat)) ++ [c.base]
/-- The words of an instruction (R106); none for an event, and none, an error, where the value fits no immediate of up to three XI
prefixes or the chain would have more than the four prefixes that R113 allows. -/
def encode (i : Instr) : Option (List Half) :=
  match i.enc with
  | none => none
  | some e => match opInfo e.page e.op with
    | none => none
    | some o =>
      let hs := (e.chain o).halfwords
      if hs.length ≤ 5 ∧ (o.shape = .R ∨ xiFits o.signed o.shape.own e.imm (xiCount o.signed o.shape.own e.imm)) then some hs else none

/-- The row whose word an instruction shares: the first of CTXCTL, TLBINV and CFGWR for any of theirs. -/
def Instr.wordRow : Instr → Instr
  | .ctxctlResume d a b => .ctxctlStop d a b
  | .ctxctlSwapOut d a b => .ctxctlStop d a b
  | .ctxctlRetire d a b => .ctxctlStop d a b
  | .ctxctlDrop d a b => .ctxctlStop d a b
  | .tlbinvAll a b => .tlbinvPage a b
  | .cfgwrRepairEnter d a b => .cfgwrTileMembership d a b
  | .cfgwrReturnToService d a b => .cfgwrTileMembership d a b
  | .cfgwrPartitionRegister d a b => .cfgwrTileMembership d a b
  | .cfgwrSpillRing d a b => .cfgwrTileMembership d a b
  | .cfgwrWakeRegister d a b => .cfgwrTileMembership d a b
  | .cfgwrWayMap d a b => .cfgwrTileMembership d a b
  | .cfgwrErrorCounter d a b => .cfgwrTileMembership d a b
  | .cfgwrPortEntry d a b => .cfgwrTileMembership d a b
  | .cfgwrTransmitTail d a b => .cfgwrTileMembership d a b
  | .cfgwrPcieMemory d a b => .cfgwrTileMembership d a b
  | .cfgwrPcieConfig d a b => .cfgwrTileMembership d a b
  | .cfgwrMsiRoute d a b => .cfgwrTileMembership d a b
  | .cfgwrScanoutHead d a b => .cfgwrTileMembership d a b
  | .cfgwrVigil d a b => .cfgwrTileMembership d a b
  | .cfgwrStandby d a b => .cfgwrTileMembership d a b
  | .cfgwrQuoteRequest d a b => .cfgwrTileMembership d a b
  | .cfgwrPageRegister d a b => .cfgwrTileMembership d a b
  | .cfgwrPageUnregister d a b => .cfgwrTileMembership d a b
  | .cfgwrReadOnly d a b => .cfgwrTileMembership d a b
  | i => i

/-- The instruction the decoder reads from the bits w of an opcode-table row. -/
def decodeTableWord (nbits w : Nat) : Option Instr :=
  match decodeHalves (tableHalves nbits w) with
  | .ok (i, _) => some i
  | .error _ => none

end Sys2Proof
end

