-- ==== Sys2Proof/Machine/FMap.lean ====
section
/-! DEFINITION. A finite map from numbers with a default value, held in one canonical form: keys strictly
rising, no entry equal to the default. -/

namespace Sys2Proof.Machine

/-- A finite map as its list of entries. -/
abbrev FMap (α : Type) := List (Nat × α)

/-- The value at a key: the listed one, or the default. -/
def FMap.get {α : Type} (d : α) : FMap α → Nat → α
  | [], _ => d
  | (j, v) :: m, k => if j = k then v else FMap.get d m k
/-- The map without a key. -/
def FMap.erase {α : Type} : FMap α → Nat → FMap α
  | [], _ => []
  | (j, v) :: m, k => if j = k then FMap.erase m k else (j, v) :: FMap.erase m k
/-- The map with an entry put in its place. -/
def FMap.insert {α : Type} : FMap α → Nat → α → FMap α
  | [], k, v => [(k, v)]
  | (j, w) :: m, k, v => if k < j then (k, v) :: (j, w) :: m else (j, w) :: FMap.insert m k v
/-- The map with the value at a key changed; setting the default removes the entry. -/
def FMap.set {α : Type} [DecidableEq α] (d : α) (m : FMap α) (k : Nat) (v : α) : FMap α :=
  if v = d then FMap.erase m k else FMap.insert (FMap.erase m k) k v
/-- Keys strictly rise from a bound and no value is the default. -/
def FMap.wfFrom {α : Type} [DecidableEq α] (d : α) : Nat → FMap α → Bool
  | _, [] => true
  | lo, (k, v) :: m => decide (lo ≤ k) && decide (v ≠ d) && FMap.wfFrom d (k + 1) m
/-- The canonical form. -/
def FMap.wf {α : Type} [DecidableEq α] (d : α) (m : FMap α) : Bool := FMap.wfFrom d 0 m

/-- An entry that may be absent. -/
def FMap.find? {α : Type} : FMap α → Nat → Option α
  | [], _ => none
  | (j, v) :: m, k => if j = k then some v else FMap.find? m k
/-- An entry put in its place, replacing any at its key. -/
def FMap.put {α : Type} (m : FMap α) (k : Nat) (v : α) : FMap α := FMap.insert (FMap.erase m k) k v

end Sys2Proof.Machine
end

