-- ==== Sys2Proof/Machine/State.lean ====
section
/-! DEFINITION. The state of the part as plain data, and its state after reset (R21). Sparse tables are finite
maps whose unlisted entries hold the reset value. -/

namespace Sys2Proof.Machine

/-- Why a step can stop. -/
inductive Fault where
  /-- An instruction is executed in a state in which no context issues one: raised by every instruction's
  meaning. Safe: no run reaches it, since a step executes an instruction only for a context it selected. -/
  | noIssuer
  deriving DecidableEq, Repr

/-- Why a step has no meaning. -/
inductive Refusal where
  /-- An instruction that is not modelled yet: raised by its arm of exec. Safe: nothing is claimed of it. -/
  | notModelled (mnemonic : String)
  deriving DecidableEq, Repr

/-- The states of a living context (R48); a retired one is no longer held. -/
inductive CtxState where | resident | parked | stopped | queued | parkedOut | held | inTransit
  deriving DecidableEq, Repr

/-- What a parked context waits for: the rows of R85, in the table's order. -/
inductive ParkKind where
  | fe | nq | stream | qwait | bwait | drain | chwait | waitm | equip | page | mma | room | store | repair
  deriving DecidableEq, Repr

/-- A park (R85): the cycle it began, its limit, what it names, and the instruction's address. `charged` says
that the instruction's charge has been taken (R76). -/
structure Park where
  kind : ParkKind
  c0 : Nat
  limit : Option Nat
  arg : Nat
  arg2 : Nat
  pc : Dword
  charged : Bool
  deriving DecidableEq, Repr

/-- What holds an issuer without parking it (R344, R328, R407, R434): `acting` an instruction on its own scratch whose accesses
come behind some not yet performed (R226, R387). -/
inductive Hold where
  | page15 | traversal | bankCheck | cpyq | tlbinv | almanac
  /-- an instruction that has issued, with its chain, and the address whose walk waits for a day of its partition (R33) -/
  | walking (i : Instr) (ws : List Half) (u : Nat)
  | acting (i : Instr)
  deriving DecidableEq, Repr

/-- Why an image is being saved (R419, R155, R420): to be Held with a BUDGET or WDOG message, to be Held without one, to be
Queued again, or Parked-out with its park. -/
inductive SaveWhy where
  | report (msg : Reg)
  | swapOut
  | yield
  | parkOut
  deriving DecidableEq, Repr

/-- How an outstanding instruction writes its result (R199 to R211, R249). -/
inductive LongWrite where | none | scalar | vector
  deriving DecidableEq, Repr

/-- An outstanding long-latency instruction (R56 to R59). -/
structure Long where
  seq : Nat
  pc : Dword
  page : Nat
  op : Nat
  la : Nat
  since : Nat
  d : RegNo
  wr : LongWrite
  mask : BitVec 16
  acc : Reg
  waiting : Nat
  /-- the home and the plane of its latest reply, which travels with those sent before it (R27) -/
  back : Nat × Nat
  reads : List Nat
  writes : List Nat
  lone : Bool
  /-- the segmented address, for FEWAIT and QWAIT (R205, R212) -/
  ea : Dword
  /-- the park it has met: what for and since when (R60) -/
  parked : Option (ParkKind × Nat)
  fault : Option Flt
  /-- its fault has been found at completion and waits for the instructions issued after it (R59) -/
  ended : Bool
  deriving DecidableEq, Repr

/-- A fault kept with its context (R59). -/
structure Kept where
  pc : Dword
  page : Nat
  op : Nat
  flt : Flt
  deriving DecidableEq, Repr

/-- A message in an inbox; `sent` counts against the 256 of SEND (R213). -/
structure Mail where
  msg : Reg
  sent : Bool
  deriving DecidableEq, Repr

/-- A segment's registers (R161). -/
structure Seg where
  base : Dword
  limit : Dword
  deriving DecidableEq, Repr

/-- A context (R40 to R48). -/
structure Ctx where
  state : CtxState
  tile : Nat
  core : Nat
  slot : Nat
  window : Nat
  regs : FMap Reg
  pc : Dword
  pw : Dword
  rnd : Dword
  ib : Dword
  mb : Dword
  yc : Dword
  ypc : Dword
  fel : Dword
  wid : Dword
  wfw : Dword
  sup : Dword
  cb : Dword
  qacc : Dword
  rsc : Dword
  rpx : Dword
  rwc : Dword
  tnv : Dword
  tarea : Dword
  cbret : Dword
  segs : FMap Seg
  /-- grace (R77) -/
  graceOn : Bool
  graceI : Nat
  graceM : Nat
  /-- attributes of creation (R43, R334) -/
  priv : Bool
  priority : Nat
  spawner : Nat
  part : Nat
  group : Nat
  wdog : Nat
  wcount : Nat
  /-- predictor (R68) -/
  predH : Nat
  predN : Nat
  /-- parks, holds and pending events -/
  park : Option Park
  retry : Option Park
  hold : Option Hold
  /-- the register a hold writes when it ends -/
  holdD : RegNo
  moving : Option Nat
  saving : Option SaveWhy
  stopReq : Bool
  outReq : Bool
  retireReq : Bool
  /-- it has issued HALT in this cycle and is Retired from the next (R156, R157) -/
  halting : Bool
  wdogReq : Bool
  /-- outstanding work (R56, R59, R437) -/
  longs : List Long
  kept : List Kept
  resume : Dword
  after : Nat
  inbox : List Mail
  grant : List Nat
  /-- Last and the Gap of Prev (R52, R54) -/
  last : Int
  gap : Nat
  /-- the image has been written to its backing slot (R64) -/
  inMem : Bool
  /-- the lanes that a TRSTEP parked on a page has stepped already (R393) -/
  progress : BitVec 16
  /-- the nodes that a TRSTEP not yet complete has visited (R377, R393) -/
  visits : Nat
  /-- accesses numbered below this came before the context's latest move, or its latest full fence of core scope, and all later
  ones are ordered behind them (R231, R240) -/
  moved : Nat
  /-- accesses numbered below this came before its latest release fence of core scope, and later writes are ordered behind them
  (R226) -/
  fenced : Nat
  /-- the queues and their entries that a context parked on queues waits for (R122) -/
  needs : List (RegNo × Nat)
  /-- budget that has come while the image is in memory: it is added when the image is read (R65, R78, R81) -/
  credits : List (Nat × Nat)
  /-- how a park has ended whose effect waits until the image can be read: by its event, or by its limit (R65, R85) -/
  decided : Option Bool
  /-- the nodes that a TRSTEP has visited for its present lane before a wait for a day (R33, R400) -/
  spent : Nat
  /-- the park of a charged instruction that is to issue again after an earlier one has been executed alone (R59, R76) -/
  aside : Option Park
  deriving DecidableEq, Repr

/-- The chain at issue: the context that issues, the halfwords read and the cycle (R134, R136). -/
structure Issue where
  ctx : Option Nat
  words : List Half
  deriving DecidableEq, Repr

/-- Bank modes (R175, R345). -/
inductive BankMode where | cache | scratch | fifo
  deriving DecidableEq, Repr

/-- A FIFO bank's stream: the context and register that own it and its elements, oldest first (R337). -/
structure Fifo where
  owner : Option (Nat × Nat)
  elems : List Reg
  deriving DecidableEq, Repr

/-- A TLB entry (R169): the tables' partition, the page and its size, the leaf as held, and the firewall window
that made it, if one did (R453). -/
structure Tlb where
  part : Nat
  base : Nat
  k : Nat
  leaf : Dword
  window : Option (Nat × Nat)
  deriving DecidableEq, Repr

/-- An outstanding copy (R325, R331). -/
structure Copy where
  uid : Nat
  ctx : Nat
  part : Nat
  sup : Dword
  pc : Dword
  src : Nat
  dst : Nat
  dstSeg : Dword
  len : Nat
  msg : Bool
  tags : Bool
  user : Dword
  k : Nat
  stream : Option (Nat × Nat)
  next : Nat
  flying : Nat
  unreported : Nat
  held : Option Nat
  cancelled : Bool
  /-- it has ended at a line that failed (R332) -/
  ended : Bool
  /-- its bank check has passed and it waits for room (R329, R330) -/
  checking : Bool
  deriving DecidableEq, Repr

/-- A command of a matrix engine (R296 to R300). -/
structure Cmd where
  uid : Nat
  ctx : Nat
  part : Nat
  pc : Dword
  home : Nat
  blk : Nat
  mmas : Bool
  fmt : Dword
  entered : Nat
  core : Nat
  migrated : Bool
  /-- the lines of A, B and their scales in that order: unified address and place (R300) -/
  lines : List (Nat × Nat)
  /-- the bytes fetched so far (R298, R300) -/
  data : List Byte
  /-- a fault its translation met (R299) -/
  bad : Option Flt
  deriving DecidableEq, Repr

/-- A matrix engine: its queue, what it executes and since when, its temporary block (R296 to R298). -/
structure Engine where
  queue : List Cmd
  running : Option Cmd
  started : Nat
  temp : Option Accum
  deriving DecidableEq, Repr

/-- An accumulator block: its owner, contents and reservation (R287, R302). -/
structure Block where
  owner : Option Nat
  acc : Accum
  reserved : Bool
  tag : BitVec 8
  expected : Nat
  arrived : Nat
  x : Bool
  deriving DecidableEq, Repr

/-- An entry of a send store (R304): the packet, and whether its refusal waits for the spill ring (R305). -/
structure SendEntry where
  pkt : SumPacket
  refused : Option (BitVec 3)
  /-- the cycle of the refusal (R306) -/
  since : Nat
  told : Bool
  deriving DecidableEq, Repr

/-- A context waiting for the tile dispatcher: who, from which spawner's core, or wid for a launch, in which cycle (R363). -/
structure Arrival where
  ctx : Nat
  launched : Bool
  key : Nat
  cycle : Nat
  /-- the spawner, and the number of its first access after the SPAWN, whose release orders those before it (R217, R228) -/
  spawner : Nat
  n : Nat
  deriving DecidableEq, Repr

/-- A core's swap in progress: the slot and the incoming context (R62, R63). -/
structure Swap where
  slot : Nat
  ctx : Nat
  deriving DecidableEq, Repr

/-- A registered page version (R189, R190). -/
structure Version where
  frame : Nat
  k : Nat
  count : Nat
  deriving DecidableEq, Repr

/-- How far a node of a run has come (R354 to R357). -/
inductive NodeStatus where | waiting | chosen | started | completed | dropped | rejected | skipped
  deriving DecidableEq, Repr
/-- A node of a run. -/
structure NodeRun where
  status : NodeStatus
  placed : Nat
  live : List Nat
  judged : Bool
  lowered : Bool
  bound : List Nat
  deriving DecidableEq, Repr
/-- A registered graph and its run (R349 to R357). -/
structure Graph where
  addr : Nat
  part : Nat
  reg : Option Nat
  running : Bool
  t0 : Nat
  nodes : List NodeRun
  dropped : Nat
  lowered : Nat
  first : Nat
  reason : Nat
  deriving DecidableEq, Repr
/-- What the front end TAKEs a word for: a graph's run, the map of a queue, or an upload (R351, R352, R371). -/
inductive FeAim where | run (g : Nat) | map (part k bell desc : Nat) | upload (part : Nat)
  deriving DecidableEq, Repr
/-- A TAKE of the front end: what for, and the word and the cycle of it once it has been performed (R352). -/
structure FeWait where
  aim : FeAim
  got : Option (Dword × Nat)
  deriving DecidableEq, Repr

/-- What the front end is parked at for a unified address: a page that is not present, or, since a cycle, a home under repair (R85,
R185, R186). -/
inductive FePark where | page (u : Nat) | repair (u home c0 : Nat)
  deriving DecidableEq, Repr

/-- How far boot has come (R458, R470). -/
inductive Phase where | off | reset | running | failed (code : Nat)
  deriving DecidableEq, Repr

/-- A scan-out head (R465): its registers, the surface written and not yet shown, the nodes waiting for the
blank. -/
structure Head where
  surface : Dword
  geometry : Dword
  format : Dword
  mode : Dword
  pending : Option Dword
  waiters : List (Nat × Nat)
  deriving DecidableEq, Repr

/-- A step of the part, due in a cycle. -/
structure Due where
  at_ : Nat
  step : Instr
  deriving DecidableEq, Repr

/-- The part. Keys: core 16t + c; slot core × 64 + s; bank t × 24 + b; block t × 64 + b; barrier t × 256 + b; port
queue core × 4 + p; place in memory, a physical address, or 2^48 + t × 0x20_0000 + offset for scratch. -/
structure State where
  phase : Phase
  pins : Nat
  /-- what the base die's tests find at power-up, an input of the outside (R458, R459) -/
  findings : BootFindings
  /-- the hottest junction temperature that the next sample finds (R469) -/
  temp : Nat
  cyc : Nat
  /-- the cores that have had this cycle (R49, R55) -/
  issued : List Nat
  /-- how many open latencies and choices each partition has drawn; 4 stands for what belongs to none (R4, R34) -/
  draws : FMap Nat
  uid : Nat
  issue : Issue
  agenda : List Due
  -- memory (R22, R165, R178, R425)
  mem : List Host.Cell
  tags : FMap Bool
  errs : FMap Bool
  zmap : FMap Bool
  -- tiles (R20)
  tiles : FMap Dword
  banks : FMap BankMode
  /-- the mode changes that wait for each bank's drain: issuer and mode, the earliest first (R176, R345) -/
  drains : FMap (List (Nat × BankMode))
  fifos : FMap Fifo
  ways : FMap Nat
  rr : FMap Nat
  tlb1 : FMap (List Tlb)
  tlb2 : FMap (List Tlb)
  waits : FMap (List Access)
  barriers : FMap Nat
  owed : FMap Nat
  copies : FMap (List Copy)
  engines : FMap Engine
  formats : FMap Dword
  blocks : FMap Block
  sends : FMap (Option SendEntry)
  /-- the send-store entries, 16 × tile + entry, whose spill waits for a day of their partition (R33) -/
  spillWait : List Nat
  gens : FMap Nat
  kennels : FMap (List Nat)
  ovf : FMap (Nat × Nat)
  /-- contexts bound for a tile's overflow list whose link waits for a day of their partition: id, core and level (R33, R65) -/
  ovfWait : FMap (List (Nat × Nat × Nat))
  arrivals : FMap (List Arrival)
  -- cores (R19)
  ready : FMap (List Nat)
  /-- the empty slots of a core, with the cycle each emptied, earliest first (R62) -/
  emptied : FMap (List (Nat × Nat))
  swaps : FMap (Option Swap)
  ports : FMap (List Reg)
  -- contexts (R40)
  ctxs : FMap Ctx
  -- partitions and the part (R448 to R453)
  parts : FMap Dword
  spills : FMap (Dword × Dword)
  wakes : FMap (Dword × Dword)
  latched : FMap Nat
  wayMaps : FMap Dword
  live : FMap Dword
  shadow : FMap Dword
  windows : FMap (Dword × Dword)
  versions : FMap (List Version)
  counters : FMap Dword
  repairMap : FMap Nat
  rollback : Nat
  keyDigest : BitVec 256
  flash : List Host.Cell
  measures : FMap Dword
  quote : Option (Nat × Nat)
  faultLog : FMap (List Dword)
  logNext : Nat
  -- links (R460 to R468)
  ethTable : FMap Dword
  ethPorts : FMap Dword
  msi : FMap Lane
  heads : FMap Head
  vigil : FMap Dword
  standby : Bool
  heldFrame : Option (Nat × List Byte)
  restoring : Bool
  /-- the one core that runs after a restore, until the standby register wakes the rest (R468) -/
  restored : Option Nat
  /-- the last frame that each port has sent, with its FCS (R460, R463) -/
  sentFrames : FMap (List Byte)
  /-- the first cycle in which a thermal alert may be sent again (R469) -/
  alertFrom : Nat
  -- the front end (R348 to R372)
  graphs : List Graph
  /-- the front end's TAKE, at which it is parked until the TAKE has been performed (R352, R371) -/
  feWait : Option FeWait
  /-- what else the front end is parked at: a page that is not present, or a home under repair (R185, R186) -/
  fePark : Option FePark
  /-- the mapped wake registers whose doorbell a write has left full since L was last clear (R352, R370) -/
  rung : FMap Bool
  /-- each partition's upload doorbell, once a queue has been mapped at wake register 0 (R351) -/
  uploadBell : FMap (Option Nat)
  deriving DecidableEq, Repr

/-- An empty block (R276, R287). -/
def Accum.zero : Accum := ⟨[], 0, 0, false, false, false, false⟩
/-- A block at part reset: unreserved, tag 0 (R21, R319). -/
def Block.reset : Block := ⟨none, Accum.zero, false, 0, 0, 0, false⟩
/-- An idle engine (R297). -/
def Engine.reset : Engine := ⟨[], none, 0, none⟩
/-- The format context at part reset: A = B = 0x23, no scale, no offset (R290). -/
def formatReset : Dword := 0x8E3
/-- A head at reset. -/
def Head.reset : Head := ⟨0, 0, 0, 0, none, []⟩

/-- The part right after reset, boot still to come (R21, R458): cycle 0, nothing resident, queued or in flight,
every table at its reset value. -/
def State.reset : State :=
  { phase := .reset, pins := 0, findings := ⟨[], [], true⟩, temp := 0, cyc := 0, issued := [], draws := [], uid := 1, issue := ⟨none, []⟩, agenda := []
    mem := [], tags := [], errs := [], zmap := []
    tiles := [], banks := [], drains := [], fifos := [], ways := [], rr := [], tlb1 := [], tlb2 := [], waits := []
    barriers := [], owed := [], copies := [], engines := [], formats := [], blocks := [], sends := [], spillWait := [], gens := []
    kennels := [], ovf := [], ovfWait := [], arrivals := []
    ready := [], emptied := [], swaps := [], ports := []
    ctxs := []
    parts := [], spills := [], wakes := [], latched := [], wayMaps := [], live := [], shadow := [], windows := []
    versions := [], counters := [], repairMap := [], rollback := 0, keyDigest := 0, flash := [], measures := []
    quote := none, faultLog := [], logNext := 0
    ethTable := [], ethPorts := [], msi := [], heads := [], vigil := [], standby := false, heldFrame := none
    restoring := false, restored := none, sentFrames := [], alertFrom := 0
    graphs := [], feWait := none, fePark := none, rung := [], uploadBell := [] }

end Sys2Proof.Machine
end

