-- ==== Sys2Proof/Machine/Bits.lean ====
section
/-! DEFINITION. Lanes, doublewords and bytes of registers and lines (R6, R40, R200), and bit-field writes. -/

namespace Sys2Proof.Machine

/-- Lane l of a register (R200). -/
def lane (r : Reg) (l : Nat) : Lane := r.extractLsb' (32 * l) 32
/-- Doubleword i of a register (R214). -/
def dword (r : Reg) (i : Nat) : Dword := r.extractLsb' (64 * i) 64
/-- The scalar in lanes 1:0 (R137). -/
def scalarOf (r : Reg) : Dword := r.extractLsb' 0 64
/-- A register with lanes 1:0 replaced and lanes 2 to 15 unchanged (R137). -/
def withScalar (r : Reg) (v : Dword) : Reg := ((r >>> 64) <<< 64) ||| v.setWidth 512
/-- The lanes 0 to n - 1 given by a function, as a register; the others zero. -/
def lanesUpTo (f : Nat → Lane) : Nat → Reg
  | 0 => 0
  | n + 1 => lanesUpTo f n ||| ((f n).setWidth 512 <<< (32 * n))
/-- The register whose lane l is f l. -/
def ofLanes (f : Nat → Lane) : Reg := lanesUpTo f 16
/-- Bit l of a lane mask. -/
def inMask (m : BitVec 16) (l : Nat) : Bool := m.getLsbD l
/-- The lanes of m taken from v, the others from r (R194). -/
def mergeLanes (m : BitVec 16) (v r : Reg) : Reg := ofLanes fun l => if inMask m l then lane v l else lane r l
/-- A register of doublewords, the first lowest. -/
def ofDwords : List Dword → Reg
  | [] => 0
  | d :: t => d.setWidth 512 ||| (ofDwords t <<< 64)
/-- The lanes of a mask in ascending order (R9). -/
def lanesOf (m : BitVec 16) : List Nat := (List.range 16).filter (inMask m)
/-- The 16-bit mask of the lanes that satisfy a test. -/
def maskOf (f : Nat → Bool) : BitVec 16 := BitVec.ofNat 16 ((List.range 16).foldl (fun acc l => if f l then acc + 2 ^ l else acc) 0)
/-- Byte i of a register. -/
def byteAt (r : Reg) (i : Nat) : Byte := r.extractLsb' (8 * i) 8
/-- A number's n low bytes, little-endian (R6). -/
def bytesLE : Nat → Nat → List Byte
  | 0, _ => []
  | n + 1, v => BitVec.ofNat 8 v :: bytesLE n (v / 256)
/-- A little-endian number (R6). -/
def ofBytesLE : List Byte → Nat
  | [] => 0
  | b :: t => b.toNat + 256 * ofBytesLE t
/-- Bits [hi:lo] of a doubleword as a number. -/
def bits (d : Dword) (hi lo : Nat) : Nat := fld d.toNat hi lo
/-- A doubleword with bits [hi:lo] set to v. -/
def setBits (d : Dword) (hi lo v : Nat) : Dword :=
  let n := d.toNat
  let top := n / 2 ^ (hi + 1) * 2 ^ (hi + 1)
  BitVec.ofNat 64 (top + v % 2 ^ (hi + 1 - lo) * 2 ^ lo + n % 2 ^ lo)
/-- One bit of a doubleword. -/
def bit (d : Dword) (i : Nat) : Bool := d.getLsbD i
/-- A number as a doubleword. -/
def dw (n : Nat) : Dword := BitVec.ofNat 64 n
/-- A mask of the low 2^n - 1 values. -/
def all1 : Nat := 0xFFFFFFFFFFFF
/-- p0 to p3, the fields of pw (R46). -/
def maskP (pw : Dword) (i : Nat) : BitVec 16 := pw.extractLsb' (16 * i) 16
/-- pw with one mask replaced. -/
def withP (pw : Dword) (i : Nat) (m : BitVec 16) : Dword := setBits pw (16 * i + 15) (16 * i) m.toNat
/-- Rounded up and down division of integers by a positive number. -/
def cdiv (a b : Int) : Int := -((-a) / b)

end Sys2Proof.Machine
end

