-- ==== Sys2Proof/Machine/Uses.lean ====
section
/-! DEFINITION. The register fields each instruction uses (R120 to R122, R375, and the instruction's entry): which
field, which number, what the field accepts, how many registers, read or written. -/

namespace Sys2Proof.Machine

/-- What a register field accepts (R121). -/
inductive FieldKind where | data | gOnly | stream
  deriving DecidableEq, Repr
/-- One use of a register field. -/
structure Use where
  field : Field
  num : RegNo
  kind : FieldKind
  size : Nat
  rd : Bool
  wr : Bool
  deriving DecidableEq, Repr

/-- The uses of an instruction with g-only D written, A and B read. -/
def dab (d a b : RegNo) : List Use :=
  [⟨.D, d, .gOnly, 1, false, true⟩, ⟨.A, a, .gOnly, 1, true, false⟩, ⟨.B, b, .gOnly, 1, true, false⟩]

/-- The register fields of an instruction, in the order D, A, B. -/
def usesOf : Instr → List Use
  | .add d a b => [⟨.D, d, .data, 1, false, true⟩, ⟨.A, a, .data, 1, true, false⟩, ⟨.B, b, .data, 1, true, false⟩]
  | .sub d a b => [⟨.D, d, .data, 1, false, true⟩, ⟨.A, a, .data, 1, true, false⟩, ⟨.B, b, .data, 1, true, false⟩]
  | .and d a b => [⟨.D, d, .data, 1, false, true⟩, ⟨.A, a, .data, 1, true, false⟩, ⟨.B, b, .data, 1, true, false⟩]
  | .or d a b => [⟨.D, d, .data, 1, false, true⟩, ⟨.A, a, .data, 1, true, false⟩, ⟨.B, b, .data, 1, true, false⟩]
  | .xor d a b => [⟨.D, d, .data, 1, false, true⟩, ⟨.A, a, .data, 1, true, false⟩, ⟨.B, b, .data, 1, true, false⟩]
  | .shl d a b => [⟨.D, d, .data, 1, false, true⟩, ⟨.A, a, .data, 1, true, false⟩, ⟨.B, b, .data, 1, true, false⟩]
  | .shr d a b => [⟨.D, d, .data, 1, false, true⟩, ⟨.A, a, .data, 1, true, false⟩, ⟨.B, b, .data, 1, true, false⟩]
  | .sar d a b => [⟨.D, d, .data, 1, false, true⟩, ⟨.A, a, .data, 1, true, false⟩, ⟨.B, b, .data, 1, true, false⟩]
  | .addi d a _ => [⟨.D, d, .data, 1, false, true⟩, ⟨.A, a, .data, 1, true, false⟩]
  | .li d _ => [⟨.D, d, .data, 1, false, true⟩]
  | .mov d a => [⟨.D, d, .data, 1, false, true⟩, ⟨.A, a, .data, 1, true, false⟩]
  | .slt d a b => [⟨.D, d, .data, 1, false, true⟩, ⟨.A, a, .data, 1, true, false⟩, ⟨.B, b, .data, 1, true, false⟩]
  | .sltu d a b => [⟨.D, d, .data, 1, false, true⟩, ⟨.A, a, .data, 1, true, false⟩, ⟨.B, b, .data, 1, true, false⟩]
  | .mul d a b => [⟨.D, d, .data, 1, false, true⟩, ⟨.A, a, .data, 1, true, false⟩, ⟨.B, b, .data, 1, true, false⟩]
  | .mulh d a b => [⟨.D, d, .data, 1, false, true⟩, ⟨.A, a, .data, 1, true, false⟩, ⟨.B, b, .data, 1, true, false⟩]
  | .mulhu d a b => [⟨.D, d, .data, 1, false, true⟩, ⟨.A, a, .data, 1, true, false⟩, ⟨.B, b, .data, 1, true, false⟩]
  | .div _ d a b => [⟨.D, d, .data, 1, false, true⟩, ⟨.A, a, .data, 1, true, false⟩, ⟨.B, b, .data, 1, true, false⟩]
  | .divu _ d a b => [⟨.D, d, .data, 1, false, true⟩, ⟨.A, a, .data, 1, true, false⟩, ⟨.B, b, .data, 1, true, false⟩]
  | .rem _ d a b => [⟨.D, d, .data, 1, false, true⟩, ⟨.A, a, .data, 1, true, false⟩, ⟨.B, b, .data, 1, true, false⟩]
  | .remu _ d a b => [⟨.D, d, .data, 1, false, true⟩, ⟨.A, a, .data, 1, true, false⟩, ⟨.B, b, .data, 1, true, false⟩]
  | .min d a b => [⟨.D, d, .data, 1, false, true⟩, ⟨.A, a, .data, 1, true, false⟩, ⟨.B, b, .data, 1, true, false⟩]
  | .max d a b => [⟨.D, d, .data, 1, false, true⟩, ⟨.A, a, .data, 1, true, false⟩, ⟨.B, b, .data, 1, true, false⟩]
  | .minu d a b => [⟨.D, d, .data, 1, false, true⟩, ⟨.A, a, .data, 1, true, false⟩, ⟨.B, b, .data, 1, true, false⟩]
  | .maxu d a b => [⟨.D, d, .data, 1, false, true⟩, ⟨.A, a, .data, 1, true, false⟩, ⟨.B, b, .data, 1, true, false⟩]
  | .shli d a _ => [⟨.D, d, .data, 1, false, true⟩, ⟨.A, a, .data, 1, true, false⟩]
  | .shri d a _ => [⟨.D, d, .data, 1, false, true⟩, ⟨.A, a, .data, 1, true, false⟩]
  | .sari d a _ => [⟨.D, d, .data, 1, false, true⟩, ⟨.A, a, .data, 1, true, false⟩]
  | .bop _ d a => [⟨.D, d, .data, 1, false, true⟩, ⟨.A, a, .data, 1, true, false⟩]
  | .bra _ => []
  | .bz a _ => [⟨.A, a, .gOnly, 1, true, false⟩]
  | .bnz a _ => [⟨.A, a, .gOnly, 1, true, false⟩]
  | .beq a b _ => [⟨.A, a, .gOnly, 1, true, false⟩, ⟨.B, b, .gOnly, 1, true, false⟩]
  | .bne a b _ => [⟨.A, a, .gOnly, 1, true, false⟩, ⟨.B, b, .gOnly, 1, true, false⟩]
  | .blt a b _ => [⟨.A, a, .gOnly, 1, true, false⟩, ⟨.B, b, .gOnly, 1, true, false⟩]
  | .bltu a b _ => [⟨.A, a, .gOnly, 1, true, false⟩, ⟨.B, b, .gOnly, 1, true, false⟩]
  | .call d _ => [⟨.D, d, .gOnly, 1, false, true⟩]
  | .jmp a => [⟨.A, a, .gOnly, 1, true, false⟩]
  | .bmask _ _ => []
  | .ypoint _ => []
  | .yield => []
  | .halt => []
  | .nop => []
  | .vadd _ d a b => [⟨.D, d, .data, 1, false, true⟩, ⟨.A, a, .data, 1, true, false⟩, ⟨.B, b, .data, 1, true, false⟩]
  | .vsub _ d a b => [⟨.D, d, .data, 1, false, true⟩, ⟨.A, a, .data, 1, true, false⟩, ⟨.B, b, .data, 1, true, false⟩]
  | .vmul _ d a b => [⟨.D, d, .data, 1, false, true⟩, ⟨.A, a, .data, 1, true, false⟩, ⟨.B, b, .data, 1, true, false⟩]
  | .vmulh _ d a b => [⟨.D, d, .data, 1, false, true⟩, ⟨.A, a, .data, 1, true, false⟩, ⟨.B, b, .data, 1, true, false⟩]
  | .vand _ d a b => [⟨.D, d, .data, 1, false, true⟩, ⟨.A, a, .data, 1, true, false⟩, ⟨.B, b, .data, 1, true, false⟩]
  | .vor _ d a b => [⟨.D, d, .data, 1, false, true⟩, ⟨.A, a, .data, 1, true, false⟩, ⟨.B, b, .data, 1, true, false⟩]
  | .vxor _ d a b => [⟨.D, d, .data, 1, false, true⟩, ⟨.A, a, .data, 1, true, false⟩, ⟨.B, b, .data, 1, true, false⟩]
  | .vshl _ d a b => [⟨.D, d, .data, 1, false, true⟩, ⟨.A, a, .data, 1, true, false⟩, ⟨.B, b, .data, 1, true, false⟩]
  | .vshr _ d a b => [⟨.D, d, .data, 1, false, true⟩, ⟨.A, a, .data, 1, true, false⟩, ⟨.B, b, .data, 1, true, false⟩]
  | .vsar _ d a b => [⟨.D, d, .data, 1, false, true⟩, ⟨.A, a, .data, 1, true, false⟩, ⟨.B, b, .data, 1, true, false⟩]
  | .vmin _ d a b => [⟨.D, d, .data, 1, false, true⟩, ⟨.A, a, .data, 1, true, false⟩, ⟨.B, b, .data, 1, true, false⟩]
  | .vmax _ d a b => [⟨.D, d, .data, 1, false, true⟩, ⟨.A, a, .data, 1, true, false⟩, ⟨.B, b, .data, 1, true, false⟩]
  | .vcmp _ _ a b => [⟨.A, a, .data, 1, true, false⟩, ⟨.B, b, .data, 1, true, false⟩]
  | .vsel _ d a b => [⟨.D, d, .data, 1, false, true⟩, ⟨.A, a, .data, 1, true, false⟩, ⟨.B, b, .data, 1, true, false⟩]
  | .vfadd _ d a b => [⟨.D, d, .data, 1, false, true⟩, ⟨.A, a, .data, 1, true, false⟩, ⟨.B, b, .data, 1, true, false⟩]
  | .vfsub _ d a b => [⟨.D, d, .data, 1, false, true⟩, ⟨.A, a, .data, 1, true, false⟩, ⟨.B, b, .data, 1, true, false⟩]
  | .vfmul _ d a b => [⟨.D, d, .data, 1, false, true⟩, ⟨.A, a, .data, 1, true, false⟩, ⟨.B, b, .data, 1, true, false⟩]
  | .vfma _ d a b => [⟨.D, d, .data, 1, true, true⟩, ⟨.A, a, .data, 1, true, false⟩, ⟨.B, b, .data, 1, true, false⟩]
  | .vfmin _ d a b => [⟨.D, d, .data, 1, false, true⟩, ⟨.A, a, .data, 1, true, false⟩, ⟨.B, b, .data, 1, true, false⟩]
  | .vfmax _ d a b => [⟨.D, d, .data, 1, false, true⟩, ⟨.A, a, .data, 1, true, false⟩, ⟨.B, b, .data, 1, true, false⟩]
  | .vfdiv _ _ d a b => [⟨.D, d, .data, 1, false, true⟩, ⟨.A, a, .data, 1, true, false⟩, ⟨.B, b, .data, 1, true, false⟩]
  | .vfsqrt _ _ d a => [⟨.D, d, .data, 1, false, true⟩, ⟨.A, a, .data, 1, true, false⟩]
  | .vfrcp _ _ d a => [⟨.D, d, .data, 1, false, true⟩, ⟨.A, a, .data, 1, true, false⟩]
  | .vfcmp _ _ _ a b => [⟨.A, a, .data, 1, true, false⟩, ⟨.B, b, .data, 1, true, false⟩]
  | .vfsgn op _ d a b => [⟨.D, d, .data, 1, false, true⟩, ⟨.A, a, .data, 1, true, false⟩]
    ++ (if op == .copy || op == .xor then [⟨.B, b, .data, 1, true, false⟩] else [])
  | .vfrnd _ d a => [⟨.D, d, .data, 1, false, true⟩, ⟨.A, a, .data, 1, true, false⟩]
  | .vfcvti _ _ d a => [⟨.D, d, .data, 1, false, true⟩, ⟨.A, a, .data, 1, true, false⟩]
  | .vfdot2 _ d a b => [⟨.D, d, .data, 1, true, true⟩, ⟨.A, a, .data, 1, true, false⟩, ⟨.B, b, .data, 1, true, false⟩]
  | .vbc d a => [⟨.D, d, .data, 1, false, true⟩, ⟨.A, a, .data, 1, true, false⟩]
  | .vget d a _ => [⟨.D, d, .data, 1, false, true⟩, ⟨.A, a, .data, 1, true, false⟩]
  | .vput d a _ => [⟨.D, d, .data, 1, false, true⟩, ⟨.A, a, .data, 1, true, false⟩]
  | .vperm d a b => [⟨.D, d, .data, 1, false, true⟩, ⟨.A, a, .data, 1, true, false⟩, ⟨.B, b, .data, 1, true, false⟩]
  | .vrot d a _ => [⟨.D, d, .data, 1, false, true⟩, ⟨.A, a, .data, 1, true, false⟩]
  | .vred _ d a => [⟨.D, d, .data, 1, false, true⟩, ⟨.A, a, .data, 1, true, false⟩]
  | .vscan _ d a => [⟨.D, d, .data, 1, false, true⟩, ⟨.A, a, .data, 1, true, false⟩]
  | .mop _ _ _ _ => []
  | .mget d _ => [⟨.D, d, .data, 1, false, true⟩]
  | .mset _ a => [⟨.A, a, .data, 1, true, false⟩]
  | .mcnt d _ => [⟨.D, d, .data, 1, false, true⟩]
  | .vlane d a => [⟨.D, d, .data, 1, false, true⟩, ⟨.A, a, .data, 1, true, false⟩]
  | .vzip d a b => [⟨.D, d, .data, 1, false, true⟩, ⟨.A, a, .data, 1, true, false⟩, ⟨.B, b, .data, 1, true, false⟩]
  | .vuzp d a b => [⟨.D, d, .data, 1, false, true⟩, ⟨.A, a, .data, 1, true, false⟩, ⟨.B, b, .data, 1, true, false⟩]
  | .ld _ _ d a _ => [⟨.D, d, .data, 1, false, true⟩, ⟨.A, a, .gOnly, 1, true, false⟩]
  | .st _ d a _ => [⟨.D, d, .data, 1, true, false⟩, ⟨.A, a, .gOnly, 1, true, false⟩]
  | .vld _ _ d a _ => [⟨.D, d, .data, 1, false, true⟩, ⟨.A, a, .gOnly, 1, true, false⟩]
  | .vst _ d a _ => [⟨.D, d, .data, 1, true, false⟩, ⟨.A, a, .gOnly, 1, true, false⟩]
  | .vgath _ _ d a b => [⟨.D, d, .data, 1, false, true⟩, ⟨.A, a, .gOnly, 1, true, false⟩, ⟨.B, b, .gOnly, 1, true, false⟩]
  | .vscat _ d a b => [⟨.D, d, .data, 1, true, false⟩, ⟨.A, a, .gOnly, 1, true, false⟩, ⟨.B, b, .gOnly, 1, true, false⟩]
  | .pref _ a _ => [⟨.A, a, .gOnly, 1, true, false⟩]
  | .lea d a _ => [⟨.D, d, .data, 1, false, true⟩, ⟨.A, a, .gOnly, 1, true, false⟩]
  | .zline _ a _ => [⟨.A, a, .gOnly, 1, true, false⟩]
  | .ldmx _ _ d a _ => [⟨.D, d, .data, 1, false, true⟩, ⟨.A, a, .gOnly, 1, true, false⟩]
  | .ldf _ _ d a _ => [⟨.D, d, .data, 1, false, true⟩, ⟨.A, a, .gOnly, 1, true, false⟩]
  | .take _ _ d a _ => [⟨.D, d, .data, 1, false, true⟩, ⟨.A, a, .gOnly, 1, true, false⟩]
  | .put _ _ d a _ => [⟨.D, d, .data, 1, true, false⟩, ⟨.A, a, .gOnly, 1, true, false⟩]
  | .stf _ _ d a _ => [⟨.D, d, .data, 1, true, false⟩, ⟨.A, a, .gOnly, 1, true, false⟩]
  | .sete _ _ a _ => [⟨.A, a, .gOnly, 1, true, false⟩]
  | .fetag _ _ d a _ => [⟨.D, d, .data, 1, false, true⟩, ⟨.A, a, .gOnly, 1, true, false⟩]
  | .atom _ _ d a b => [⟨.D, d, .data, 1, false, true⟩, ⟨.A, a, .gOnly, 1, true, false⟩, ⟨.B, b, .gOnly, 1, true, false⟩]
  | .cas _ _ d a b => [⟨.D, d, .data, 1, true, true⟩, ⟨.A, a, .gOnly, 1, true, false⟩, ⟨.B, b, .gOnly, 1, true, false⟩]
  | .fence _ => []
  | .qwait _ d a b _ => [⟨.D, d, .data, 1, false, true⟩, ⟨.A, a, .gOnly, 1, true, false⟩, ⟨.B, b, .gOnly, 1, true, false⟩]
  | .send a b => [⟨.A, a, .gOnly, 1, true, false⟩, ⟨.B, b, .gOnly, 1, true, false⟩]
  | .recv d => [⟨.D, d, .gOnly, 1, false, true⟩]
  | .waitm d _ => [⟨.D, d, .gOnly, 1, false, true⟩]
  | .spawn d a b => [⟨.D, d, .gOnly, 1, false, true⟩, ⟨.A, a, .gOnly, 1, true, false⟩, ⟨.B, b, .gOnly, 1, true, false⟩]
  | .migr a => [⟨.A, a, .gOnly, 1, true, false⟩]
  | .gets d _ => [⟨.D, d, .gOnly, 1, false, true⟩]
  | .sets d _ => [⟨.D, d, .gOnly, 1, true, false⟩]
  | .bgive d a b => [⟨.D, d, .gOnly, 1, false, true⟩, ⟨.A, a, .gOnly, 1, true, false⟩, ⟨.B, b, .gOnly, 1, true, false⟩]
  | .brk _ => []
  | .signal a => [⟨.A, a, .gOnly, 1, true, false⟩]
  | .cpy _ a => [⟨.A, a, .gOnly, 1, true, false⟩]
  | .cpys d a => [⟨.D, d, .stream, 1, false, false⟩, ⟨.A, a, .gOnly, 1, true, false⟩]
  | .binit _ a => [⟨.A, a, .gOnly, 1, true, false⟩]
  | .bwait _ _ => []
  | .bpend d _ => [⟨.D, d, .gOnly, 1, false, true⟩]
  | .cpyq d => [⟨.D, d, .gOnly, 1, false, true⟩]
  | .bankcfg a => [⟨.A, a, .gOnly, 1, true, false⟩]
  | .bankst d => [⟨.D, d, .gOnly, 1, false, true⟩]
  | .mfmt a => [⟨.A, a, .gOnly, 1, true, false⟩]
  | .mma _ a b => [⟨.A, a, .gOnly, 1, true, false⟩, ⟨.B, b, .gOnly, 1, true, false⟩]
  | .mmas _ a b => [⟨.A, a, .gOnly, 1, true, false⟩, ⟨.B, b, .gOnly, 1, true, false⟩]
  | .acce _ a => [⟨.A, a, .gOnly, 1, true, false⟩]
  | .accz _ => []
  | .accrd _ d _ b => [⟨.D, d, .gOnly, 1, false, true⟩, ⟨.B, b, .gOnly, 1, true, false⟩]
  | .accwr _ a b => [⟨.A, a, .gOnly, 1, true, false⟩, ⟨.B, b, .gOnly, 1, true, false⟩]
  | .accst _ _ a => [⟨.A, a, .gOnly, 1, true, false⟩]
  | .accstat d _ => [⟨.D, d, .gOnly, 1, false, true⟩]
  | .chset _ a => [⟨.A, a, .gOnly, 1, true, false⟩]
  | .chsend _ a => [⟨.A, a, .gOnly, 1, true, false⟩]
  | .chwait _ _ => []
  | .chdrop _ => []
  | .chstat d _ => [⟨.D, d, .gOnly, 1, false, true⟩]
  | .rset d a => [⟨.D, d, .gOnly, 1, false, true⟩, ⟨.A, a, .gOnly, 1, true, false⟩]
  | .rcov a b => [⟨.A, a, .gOnly, 1, true, false⟩, ⟨.B, b, .gOnly, 1, true, false⟩]
  | .rbary d a b => [⟨.D, d, .gOnly, 2, false, true⟩, ⟨.A, a, .gOnly, 1, true, false⟩, ⟨.B, b, .gOnly, 1, true, false⟩]
  | .rzt _ a b => [⟨.A, a, .gOnly, 1, true, false⟩, ⟨.B, b, .gOnly, 1, true, false⟩]
  | .rwr a b => [⟨.A, a, .gOnly, 1, true, false⟩, ⟨.B, b, .gOnly, 1, true, false⟩]
  | .rblk d a b => [⟨.D, d, .gOnly, 1, false, true⟩, ⟨.A, a, .gOnly, 1, true, false⟩, ⟨.B, b, .gOnly, 1, true, false⟩]
  | .trset d b => [⟨.D, d, .gOnly, 4, false, true⟩, ⟨.B, b, .gOnly, 1, true, false⟩]
  | .trstep d a => [⟨.D, d, .gOnly, 4, true, true⟩, ⟨.A, a, .gOnly, 8, true, false⟩]
  | .trtri d a b => [⟨.D, d, .gOnly, 4, false, true⟩, ⟨.A, a, .gOnly, 4, true, false⟩, ⟨.B, b, .gOnly, 8, true, false⟩]
  | .trbox d a b => [⟨.D, d, .gOnly, 1, false, true⟩, ⟨.A, a, .gOnly, 6, true, false⟩, ⟨.B, b, .gOnly, 8, true, false⟩]
  | .trcmt d b => [⟨.D, d, .gOnly, 4, true, false⟩, ⟨.B, b, .gOnly, 8, true, true⟩]
  | .trinst d a => [⟨.D, d, .gOnly, 4, true, true⟩, ⟨.A, a, .gOnly, 8, true, false⟩]
  | .trres d => [⟨.D, d, .gOnly, 5, false, true⟩]
  | .cvt _ d a => [⟨.D, d, .data, 1, false, true⟩, ⟨.A, a, .data, 1, true, false⟩]
  | .cvtw _ d a => [⟨.D, d, .data, 1, false, true⟩, ⟨.A, a, .data, 1, true, false⟩]
  | .cvth _ d a => [⟨.D, d, .data, 1, false, true⟩, ⟨.A, a, .data, 1, true, false⟩]
  | .mxq _ d a b => [⟨.D, d, .data, 1, false, true⟩, ⟨.A, a, .data, 1, true, false⟩, ⟨.B, b, .data, 1, true, false⟩]
  | .mxx _ d a => [⟨.D, d, .data, 1, false, true⟩, ⟨.A, a, .data, 1, true, false⟩]
  | .scalb _ d a b => [⟨.D, d, .data, 1, false, true⟩, ⟨.A, a, .data, 1, true, false⟩, ⟨.B, b, .data, 1, true, false⟩]
  | .pack _ d a b => [⟨.D, d, .data, 1, true, true⟩, ⟨.A, a, .data, 1, true, false⟩, ⟨.B, b, .data, 1, true, false⟩]
  | .unpk _ d a b => [⟨.D, d, .data, 1, false, true⟩, ⟨.A, a, .data, 1, true, false⟩, ⟨.B, b, .data, 1, true, false⟩]
  | .ctxrd d a => [⟨.D, d, .gOnly, 1, false, true⟩, ⟨.A, a, .gOnly, 1, true, false⟩]
  | .ctxwr d a b => [⟨.D, d, .gOnly, 1, false, true⟩, ⟨.A, a, .gOnly, 1, true, false⟩, ⟨.B, b, .gOnly, 1, true, false⟩]
  | .ctxctlStop d a b => [⟨.D, d, .gOnly, 1, false, true⟩, ⟨.A, a, .gOnly, 1, true, false⟩, ⟨.B, b, .gOnly, 1, true, false⟩]
  | .rqput d a b => [⟨.D, d, .gOnly, 1, false, true⟩, ⟨.A, a, .gOnly, 1, true, false⟩, ⟨.B, b, .gOnly, 1, true, false⟩]
  | .rqtake d a b => [⟨.D, d, .gOnly, 1, false, true⟩, ⟨.A, a, .gOnly, 1, true, false⟩, ⟨.B, b, .gOnly, 1, true, false⟩]
  | .ksave d a b => [⟨.D, d, .gOnly, 1, false, true⟩, ⟨.A, a, .gOnly, 1, true, false⟩, ⟨.B, b, .gOnly, 1, true, false⟩]
  | .kload d a b => [⟨.D, d, .gOnly, 1, false, true⟩, ⟨.A, a, .gOnly, 1, true, false⟩, ⟨.B, b, .gOnly, 1, true, false⟩]
  | .tlbinvPage a b => [⟨.A, a, .gOnly, 1, true, false⟩, ⟨.B, b, .gOnly, 1, true, false⟩]
  | .pgwake d a b => [⟨.D, d, .gOnly, 1, false, true⟩, ⟨.A, a, .gOnly, 1, true, false⟩, ⟨.B, b, .gOnly, 1, true, false⟩]
  | .topup d a b => [⟨.D, d, .gOnly, 1, false, true⟩, ⟨.A, a, .gOnly, 1, true, false⟩, ⟨.B, b, .gOnly, 1, true, false⟩]
  | .cfgrd d a => [⟨.D, d, .gOnly, 1, false, true⟩, ⟨.A, a, .gOnly, 1, true, false⟩]
  | .cfgwrTileMembership d a b => [⟨.D, d, .gOnly, 1, false, true⟩, ⟨.A, a, .gOnly, 1, true, false⟩, ⟨.B, b, .gOnly, 1, true, false⟩]
  | .almset a b => [⟨.A, a, .gOnly, 1, true, false⟩, ⟨.B, b, .gOnly, 1, true, false⟩]
  | .fwset a b => [⟨.A, a, .gOnly, 1, true, false⟩, ⟨.B, b, .gOnly, 1, true, false⟩]
  | .ctxctlResume d a b => dab d a b
  | .ctxctlSwapOut d a b => dab d a b
  | .ctxctlRetire d a b => dab d a b
  | .ctxctlDrop d a b => dab d a b
  | .cfgwrRepairEnter d a b => dab d a b
  | .cfgwrReturnToService d a b => dab d a b
  | .cfgwrPartitionRegister d a b => dab d a b
  | .cfgwrSpillRing d a b => dab d a b
  | .cfgwrWakeRegister d a b => dab d a b
  | .cfgwrWayMap d a b => dab d a b
  | .cfgwrErrorCounter d a b => dab d a b
  | .cfgwrPortEntry d a b => dab d a b
  | .cfgwrTransmitTail d a b => dab d a b
  | .cfgwrPcieMemory d a b => dab d a b
  | .cfgwrPcieConfig d a b => dab d a b
  | .cfgwrMsiRoute d a b => dab d a b
  | .cfgwrScanoutHead d a b => dab d a b
  | .cfgwrVigil d a b => dab d a b
  | .cfgwrStandby d a b => dab d a b
  | .cfgwrQuoteRequest d a b => dab d a b
  | .cfgwrPageRegister d a b => dab d a b
  | .cfgwrPageUnregister d a b => dab d a b
  | .cfgwrReadOnly d a b => dab d a b
  | .tlbinvAll a b => [⟨.A, a, .gOnly, 1, true, false⟩, ⟨.B, b, .gOnly, 1, true, false⟩]
  | _ => []

/-- The page and OP of an instruction (R412); 0 and 0 for an event. -/
def pageOp (i : Instr) : Nat × Nat := match i.enc with | some e => (e.page, e.op) | none => (0, 0)
/-- Whether an instruction is long (R128). -/
def isLong (i : Instr) : Bool := match opInfo (pageOp i).1 (pageOp i).2 with | some o => o.long && i.enc.isSome | none => false
/-- The lookahead an instruction carries (R56). -/
def lookahead (i : Instr) : Nat := match i.enc with | some e => e.la.toNat | none => 0
/-- The accumulator block an instruction names (R126). -/
def blockOf : Instr → Option RegNo
  | .mma b _ _ => some b | .mmas b _ _ => some b | .acce b _ => some b | .accz b => some b | .accrd _ _ b _ => some b
  | .accwr b _ _ => some b | .accst _ b _ => some b | .accstat _ b => some b | .chset b _ => some b
  | .chsend b _ => some b | .chwait b _ => some b | .chdrop b => some b | .chstat _ b => some b
  | _ => none
/-- The registers an instruction reads, ports among them (R57, R120). -/
def readsOf (i : Instr) : List Nat :=
  match i with
  | .trcmt d _ => (List.range 4).map (d.toNat + ·)
  | i => (usesOf i).flatMap fun u => if u.rd && decide (u.num.toNat ≤ 131) then (List.range u.size).map (u.num.toNat + ·) else []
/-- The registers an instruction writes, ports among them (R57, R120). -/
def writesOf (i : Instr) : List Nat :=
  match i with
  | .trcmt _ b => [b.toNat + 7]
  | i => (usesOf i).flatMap fun u => if u.wr && decide (u.num.toNat ≤ 131) then (List.range u.size).map (u.num.toNat + ·) else []
/-- The interval after an instruction, longer where it reads a window register above 47 (R51). -/
def gapOf (i : Instr) : Nat := if (readsOf i).any (fun r => 48 ≤ r && decide (r ≤ 127)) then 24 else 16
/-- The ib charge of R74; SPAWN and BGIVE add what they grant. -/
def ibCharge (i : Instr) : Nat :=
  match i with
  | .div .. => 4 | .divu .. => 4 | .rem .. => 4 | .remu .. => 4 | .vfdiv .. => 4 | .vfsqrt .. => 4
  | .mma .. => 8 | .mmas .. => 8
  | _ => if (pageOp i).1 = 12 ∨ (pageOp i).1 = 13 then 2 else 1

end Sys2Proof.Machine
end

