-- ==== Sys2Proof/Machine/Mem.lean ====
section
/-! DEFINITION. Bytes, tags and error marks of memory and scratch by place (R22, R165, R178, R425). A place is a physical address, or 2^48 + t × 0x20_0000 + offset for scratch. -/

namespace Sys2Proof.Machine

/-- The first scratch place. -/
def scratchPlace : Nat := 2 ^ 48
/-- The place of a scratch offset of a tile (R21). -/
def placeOf (t off : Nat) : Nat := scratchPlace + t * 0x200000 + off
/-- Whether a place is scratch. -/
def isScratch (p : Nat) : Bool := decide (scratchPlace ≤ p)
/-- The tile whose aperture holds a scratch place. -/
def scratchTile (p : Nat) : Nat := (p - scratchPlace) / 0x200000
/-- The bank of a scratch place (R21). -/
def scratchBank (p : Nat) : Nat := (p - scratchPlace) % 0x200000 / 0x10000

/-- What a byte that nothing has written reads as. DESIGN CHOICE (log 5). -/
def blankByte : Byte := 0
/-- The canonical form of memory. -/
def Memory.wf (m : List Host.Cell) : Bool := FMap.wf blankByte m
/-- One byte of memory. -/
def readByte (s : State) (p : Nat) : Byte := FMap.get blankByte s.mem p
/-- Bytes stored from a place upward. -/
def putBytes : List Host.Cell → Nat → List Byte → List Host.Cell
  | m, _, [] => m
  | m, p, b :: t => putBytes (FMap.set blankByte m p b) (p + 1) t
/-- Bytes written from a place upward (R6). -/
def writeBytes (s : State) (p : Nat) (bs : List Byte) : State := { s with mem := putBytes s.mem p bs }
/-- The n bytes from a place upward. -/
def readBytes (s : State) (p n : Nat) : List Byte := (List.range n).map fun i => readByte s (p + i)
/-- The n bytes at a place as a little-endian number (R6). -/
def readLE (s : State) (p : Nat) : Nat → Nat
  | 0 => 0
  | n + 1 => (readByte s p).toNat + 256 * readLE s (p + 1) n
/-- A number written as n little-endian bytes. -/
def writeLE (s : State) (p n v : Nat) : State := writeBytes s p (bytesLE n v)
/-- The doubleword at a place. -/
def readDw (s : State) (p : Nat) : Dword := dw (readLE s p 8)
/-- A doubleword written at a place. -/
def writeDw (s : State) (p : Nat) (v : Dword) : State := writeLE s p 8 v.toNat
/-- The bytes of v whose mask bit is set, stored from a place: bit i for byte i (R183). -/
def putMasked (v : Reg) (mask : BitVec 64) (p : Nat) : List Host.Cell → Nat → Nat → List Host.Cell
  | m, _, 0 => m
  | m, i, n + 1 => putMasked v mask p (if mask.getLsbD i then FMap.set blankByte m (p + i) (byteAt v i) else m) (i + 1) n
/-- A byte-masked write of n bytes (R183). -/
def writeMasked (s : State) (p n : Nat) (v : Reg) (mask : BitVec 64) : State :=
  { s with mem := putMasked v mask p s.mem 0 n }

/-- The full/empty tag of the word at a place (R178). -/
def tagAt (s : State) (p : Nat) : Bool := FMap.get true s.tags (p / 8)
/-- The tag of the word at a place changed. -/
def setTag (s : State) (p : Nat) (full : Bool) : State := { s with tags := FMap.set true s.tags (p / 8) full }
/-- The tags of n words from a place set full (R178). -/
def fillTags (s : State) (p : Nat) : Nat → State
  | 0 => s
  | n + 1 => setTag (fillTags s p n) (p + 8 * n) true
/-- Whether the word at a place holds an uncorrectable error (R425). -/
def errAt (s : State) (p : Nat) : Bool := FMap.get false s.errs (p / 8)
/-- Whether a word of the n bytes at a place holds an uncorrectable error. -/
def errIn (s : State) (p n : Nat) : Bool := (List.range ((p % 8 + n + 7) / 8)).any fun i => errAt s (p + 8 * i)
/-- The error mark of a word set or cleared. -/
def setErr (s : State) (p : Nat) (e : Bool) : State := { s with errs := FMap.set false s.errs (p / 8) e }

end Sys2Proof.Machine
end

