-- ==== Sys2Proof/Machine/Part.lean ====
section
/-! DEFINITION. Tiles, partitions, homes, slices and calendars (R16 to R35, R171, R449 to R452). -/

namespace Sys2Proof.Machine

/-- The tile state word (R449). -/
def tileWord (s : State) (t : Nat) : Dword := FMap.get 0 s.tiles t
/-- The partition a tile belongs to, if any (R32). -/
def partOf (s : State) (t : Nat) : Option Nat := if bit (tileWord s t) 3 then some (bits (tileWord s t) 1 0) else none
/-- Whether a tile is under repair (R427). -/
def underRepair (s : State) (t : Nat) : Bool := bit (tileWord s t) 7
/-- A partition's tiles in ascending number (R171). -/
def tilesOf (s : State) (p : Nat) : List Nat := (List.range 128).filter fun t => partOf s t == some p
/-- The home of the line of a physical address in a partition (R171). -/
def homeOf (s : State) (p pa : Nat) : Nat :=
  let x := pa / 64
  let h := (x % 16384) ^^^ (x / 16384 % 16384) ^^^ (x / 268435456 % 16384)
  let m := tilesOf s p
  m.getD (h % m.length) 0
/-- Whether a physical address is populated (R22). -/
def populated (pa : Nat) : Bool :=
  decide (pa < 0x003000000000) || (decide (0x008000000000 ≤ pa) && decide (pa < 0x010000000000))
/-- The slice that serves a physical address (R23). -/
def sliceOf (pa : Nat) : Nat :=
  if pa < 0x003000000000 then 16 * (fld pa 9 8 ^^^ fld pa 21 20) + (fld pa 13 10 ^^^ fld pa 19 16)
  else 64 + (fld pa 11 8 ^^^ fld pa 15 12)
/-- A partition register's reset value (R450). -/
def partDefault (i : Nat) : Dword := if i = 1 then 65536 else 0
/-- A partition register (R450): root, wdef, rsup, pgsv, wtgt, smem, slim, lpol, kback for i = 0 to 8. -/
def partReg (s : State) (p i : Nat) : Dword := FMap.get (partDefault i) s.parts (16 * p + i)
/-- A partition register written. -/
def setPartReg (s : State) (p i : Nat) (v : Dword) : State :=
  { s with parts := FMap.set (partDefault i) s.parts (16 * p + i) v }
/-- The mode of a bank (R175). -/
def bankMode (s : State) (t b : Nat) : BankMode := FMap.get .cache s.banks (24 * t + b)
/-- The tile a part-wide core is in. -/
def tileOfCore (c : Nat) : Nat := c / 16
/-- Whether a part-wide core is equipped (R18). -/
def equipped (c : Nat) : Bool := c % 4 == 0
/-- Mesh column and row of a tile (R16). -/
def meshX (t : Nat) : Nat := 8 * (t / 64) + t % 8
def meshY (t : Nat) : Nat := t % 64 / 8
/-- The tile at a mesh position (R16). -/
def tileAt (x y : Nat) : Nat := 64 * (x / 8) + 8 * y + x % 8
/-- The numbers from one to another, both included, in the direction of travel. -/
def between (a b : Nat) : List Nat :=
  if a ≤ b then (List.range (b + 1 - a)).map (a + ·) else ((List.range (a + 1 - b)).map (b + ·)).reverse
/-- The tiles of the route from one tile to another, in order: along the row, then along the column (R29). -/
def route (src dst : Nat) : List Nat :=
  (between (meshX src) (meshX dst)).map (tileAt · (meshY src)) ++ ((between (meshY src) (meshY dst)).drop 1).map (tileAt (meshX dst) ·)
/-- The links of a route, each by the tiles it leaves and enters. -/
def linksOf (src dst : Nat) : List (Nat × Nat) := (route src dst).zip ((route src dst).drop 1)
/-- How many links a route crosses. -/
def hops (src dst : Nat) : Nat :=
  (Nat.max (meshX src) (meshX dst) - Nat.min (meshX src) (meshX dst)) + (Nat.max (meshY src) (meshY dst) - Nat.min (meshY src) (meshY dst))
/-- The tiles beside one on the mesh, ascending (R297). -/
def adjacentTiles (t : Nat) : List Nat := (List.range 128).filter fun u => hops t u == 1
/-- Grid column and row of a part-wide core (R17). -/
def gridX (c : Nat) : Nat := 4 * meshX (c / 16) + c % 16 % 4
def gridY (c : Nat) : Nat := 4 * meshY (c / 16) + c % 16 / 4
/-- The core at a grid position (R17). -/
def coreAt (x y : Nat) : Nat := 16 * tileAt (x / 4) (y / 4) + 4 * (y % 4) + x % 4
/-- The core beside one through a port: 0 north, 1 east, 2 south, 3 west (R28). -/
def peerCore (c port : Nat) : Option Nat :=
  let x := gridX c
  let y := gridY c
  match port with
  | 0 => if y = 0 then none else some (coreAt x (y - 1))
  | 1 => if x = 63 then none else some (coreAt (x + 1) y)
  | 2 => if y = 31 then none else some (coreAt x (y + 1))
  | _ => if x = 0 then none else some (coreAt (x - 1) y)
/-- The peer through a port that lies in the same partition; none where either tile is under repair (R31). -/
def peer (s : State) (c port : Nat) : Option Nat :=
  match peerCore c port with
  | none => none
  | some d => if (partOf s (c / 16)).isSome && partOf s (d / 16) == partOf s (c / 16) && !underRepair s (c / 16) && !underRepair s (d / 16) then some d else none
/-- The port facing a port. -/
def facing (port : Nat) : Nat := (port + 2) % 4
/-- The entries of a core's incoming queue (R19). -/
def portQueue (s : State) (c port : Nat) : List Reg := FMap.get [] s.ports (4 * c + port)

end Sys2Proof.Machine
end

