-- ==== Sys2Proof/Machine/Translate.lean ====
section
/-! DEFINITION. From segmented to unified to physical addresses (R160 to R169), firewall windows (R453). -/

namespace Sys2Proof.Machine

/-- A fault with its doublewords (R413). -/
def flt (c : Code) (dw2 dw3 dw4 : Dword) : Flt := ⟨c, dw2, dw3, dw4, 0⟩
/-- The segment an address selects (R160). -/
def segOf (a : Dword) : Nat := bits a 63 61
/-- The offset of an address (R160). -/
def offOf (a : Dword) : Nat := bits a 60 0
/-- A context's segment registers (R161). -/
def segReg (x : Ctx) (k : Nat) : Seg := FMap.get ⟨0, 0⟩ x.segs k
/-- EA(x, off) of R193: the segment bits never change. -/
def ea (a off : Dword) : Dword := setBits a 60 0 ((offOf a + off.toNat) % 2 ^ 61)
/-- dw3 of an address fault (R413). -/
def addrDw3 (a : Dword) (fetch : Bool) (value : Bool) (n : Nat) : Dword :=
  dw (segOf a + bitOf fetch * 8 + bitOf value * 16 + n * 256)
/-- An address fault (R413). -/
def addrFault (c : Code) (x : Ctx) (a : Dword) (fetch : Bool) (n : Nat) : Flt :=
  flt c a (addrDw3 a fetch false n) (segReg x (segOf a)).limit
/-- A value that fails: SEGLIM or ALIGN with dw3[4] set (R413). -/
def valueFault (c : Code) (v : Dword) : Flt := flt c v 16 0

/-- The rights an access needs (R163). -/
structure Rights where
  r : Bool
  w : Bool
  x : Bool
  s : Bool
  deriving DecidableEq, Repr
def rightsR : Rights := ⟨true, false, false, false⟩
def rightsW : Rights := ⟨false, true, false, false⟩
def rightsX : Rights := ⟨false, false, true, false⟩
def rightsRS : Rights := ⟨true, false, false, true⟩
def rightsRWS : Rights := ⟨true, true, false, true⟩

/-- Whether a segment's limit register grants the rights (R161, R163). -/
def segGrants (l : Dword) (r : Rights) : Bool :=
  (!r.r || bit l 63) && (!r.w || bit l 62) && (!r.x || bit l 61) && (!r.s || bit l 60)
/-- The checks and the map of R162: the unified address, or the first check that fails. -/
def segMap (x : Ctx) (a : Dword) (n align : Nat) (r : Rights) : Except Flt Nat :=
  let sg := segReg x (segOf a)
  let lim := bits sg.limit 55 0
  let o := offOf a
  let base := bits sg.base 55 0
  if !segGrants sg.limit r then .error (addrFault .segrights x a r.x n)
  else if lim < o + n - 1 then .error (addrFault .seglim x a r.x n)
  else if o % align ≠ 0 then .error (addrFault .align x a r.x n)
  else if !bit sg.limit 59 then
    if 2 ^ 56 ≤ base + o + n - 1 then .error (addrFault .seglim x a r.x n) else .ok (base + o)
  else if 0x180000 ≤ base + o + n - 1 then .error (addrFault .seglim x a r.x n)
  else .ok (0x00FF000000000000 + x.tile * 0x200000 + base + o)

/-- Where a unified address lies (R165). -/
inductive Region where
  | paged
  | scratch (tile off : Nat)
  | hole
  | none
  deriving DecidableEq, Repr
def regionOf (u : Nat) : Region :=
  if u < 0x00FF000000000000 then .paged
  else
    let v := u - 0x00FF000000000000
    if v < 0x10000000 then
      if v % 0x200000 < 0x180000 then .scratch (v / 0x200000) (v % 0x200000) else .hole
    else .none
/-- APERTURE with its dw3 bits (R413). -/
def apertureFault (u : Nat) (b : Nat) : Flt := flt .aperture (dw u) (dw b) 0
/-- The aperture checks of R175 for an access by partition p to scratch of a tile. -/
def scratchFault (s : State) (p u t off : Nat) : Option Flt :=
  let b := bitOf (bankMode s t (off / 0x10000) != .scratch) * 2 + bitOf (partOf s t != some p) * 4
    + bitOf (underRepair s t) * 8
  if b = 0 then none else some (apertureFault u b)
/-- The tile whose aperture an address lies in. -/
def apertureTile (u : Nat) : Nat := (u - 0x00FF000000000000) / 0x200000
/-- The dw3 bits of an aperture's offset that lies in no bank: each of R413 that holds (R165). -/
def holeBits (s : State) (p u : Nat) : Nat := 1 + bitOf (partOf s (apertureTile u) != some p) * 4 + bitOf (underRepair s (apertureTile u)) * 8
/-- The fault of such an address. -/
def holeFault (s : State) (p u : Nat) : Flt := apertureFault u (holeBits s p u)

/-- What a translation finds (R166 to R168, R186). -/
inductive Xlat where
  | leaf (d : Dword)
  | absent (entry : Dword)
  | bad (dw3 : Nat) (entry : Dword)
  deriving DecidableEq, Repr
/-- The unified address bits that index each level (R166). -/
def levels : List (Nat × Nat) := [(55, 52), (51, 44), (43, 36), (35, 28), (27, 20), (19, 12)]
/-- The sizes a leaf may have at a level (R167). -/
def leafSizeOk (level k : Nat) : Bool :=
  (level == 3 && decide (8 ≤ k) && decide (k ≤ 11)) || (level == 4 && decide (4 ≤ k) && decide (k ≤ 7)) || (level == 5 && decide (k ≤ 3))
/-- The walk from a table at a level down the levels left (R166 to R168); a table at an unpopulated address reads as zeros: DESIGN
CHOICE (log 82). -/
def walk (s : State) (u : Nat) : List (Nat × Nat) → Nat → Nat → Xlat
  | [], _, _ => .bad 2 0
  | (hi, lo) :: rest, level, table =>
    let e := readDw s (table + 8 * fld u hi lo)
    if !bit e 63 then .absent e
    else if bit e 62 then
      let k := bits e 59 56
      if leafSizeOk level k && bits e (11 + 2 * k) 12 % 4 ^ k == 0 then .leaf e else .bad 2 e
    else if level = 5 then .bad 2 e
    else walk s u rest (level + 1) (bits e 47 12 * 4096)
/-- The page size exponent of a leaf. -/
def leafK (e : Dword) : Nat := bits e 59 56
/-- The physical address a leaf gives a unified address (R167). -/
def leafPa (e : Dword) (u : Nat) : Nat := bits e 47 12 * 4096 + u % (4096 * 4 ^ leafK e)
/-- Whether a TLB entry covers an address of a partition's tables (R169). -/
def Tlb.hit (t : Tlb) (p u : Nat) (w : Option (Nat × Nat)) : Bool :=
  t.part == p && u / (4096 * 4 ^ t.k) == t.base / (4096 * 4 ^ t.k) && t.window == w

/-- A firewall window's registers fwa, fwb (R453). -/
def windowAt (s : State) (port n : Nat) : Dword × Dword := FMap.get (0, 0) s.windows (8 * port + n)
/-- The first enabled window of a port that holds a unified address, n upward (R453). -/
def windowFor (s : State) (port u : Nat) : Option (Nat × Dword) :=
  ((List.range 8).find? fun n =>
    let w := windowAt s port n
    bit w.1 63 && decide (bits w.1 55 12 ≤ u / 4096) && decide (u / 4096 ≤ bits w.2 55 12)).map fun n => (n, (windowAt s port n).1)
/-- The tables that translate an access of a tile of partition p: its own, or those of the firewall window of a
partition-0 tile's port (R453). -/
structure Tables where
  part : Nat
  window : Option (Nat × Nat)
  fwa : Option Dword
  deriving DecidableEq, Repr
def tablesFor (s : State) (p tile u : Nat) : Tables :=
  if p = 0 then
    match windowFor s tile u with
    | some (n, w) => ⟨bits w 59 58, some (tile, n), some w⟩
    | none => ⟨p, none, none⟩
  else ⟨p, none, none⟩
/-- Whether a window grants the rights (R453). -/
def windowGrants (w : Dword) (r : Rights) : Bool := (!r.r || bit w 62) && (!r.w || bit w 61) && (!r.s || bit w 60) && !r.x
/-- The leaf for an address: for a core's access its first-level TLB, the tile's second, or the tables (R169). -/
def lookup (s : State) (own : Bool) (core : Nat) (tb : Tables) (u : Nat) : Xlat :=
  match (if own then FMap.get [] s.tlb1 core else []).find? fun t => t.hit tb.part u tb.window with
  | some t => .leaf t.leaf
  | none => match (FMap.get [] s.tlb2 (core / 16)).find? fun t => t.hit tb.part u tb.window with
    | some t => .leaf t.leaf
    | none => walk s u levels 0 (bits (partReg s tb.part 0) 47 12 * 4096)
/-- The TLBs with a present leaf noted, capacity 384 and 32,768; which entry leaves a full one is open (R169). -/
def noteLeaf (s : State) (own : Bool) (core : Nat) (tb : Tables) (u : Nat) (e : Dword) : State :=
  let t : Tlb := ⟨tb.part, u / (4096 * 4 ^ leafK e) * (4096 * 4 ^ leafK e), leafK e, e, tb.window⟩
  let add := fun (l : List Tlb) (cap : Nat) => if l.contains t then l else ((t :: l).take cap)
  { s with tlb1 := if own then FMap.set [] s.tlb1 core (add (FMap.get [] s.tlb1 core) 384) else s.tlb1
           tlb2 := FMap.set [] s.tlb2 (core / 16) (add (FMap.get [] s.tlb2 (core / 16)) 32768) }
/-- The dw3 bits of PROT for a leaf (R168, R413): partition, rights, unpopulated. -/
def leafFault (tb : Tables) (r : Rights) (e : Dword) (u : Nat) : Nat :=
  let right := (r.r && !bit e 2) || (r.w && !bit e 1) || (r.x && !bit e 0)
    || (match tb.fwa with | some w => !windowGrants w r | none => false)
  bitOf (bits e 61 60 != tb.part) * 4 + bitOf right * 8 + bitOf (!populated (leafPa e u)) * 16
/-- PROT for a unified address (R413). -/
def protFault (u : Nat) (b : Nat) (entry : Dword) : Flt := flt .prot (dw u) (dw b) entry

/-- Where an access lands: its place, its home, whether its leaf is watched (R189). -/
structure Spot where
  place : Nat
  home : Nat
  watched : Bool
  paged : Bool
  deriving DecidableEq, Repr
/-- The outcome of mapping a unified address: a spot, a park on an absent page (with TR, R186), a fault that an
access of any kind meets at issue (R59), or PROT. -/
inductive Mapped where
  | spot (p : Spot) (s : State)
  | absent (tr : Bool)
  | now (f : Flt)
  | prot (f : Flt)
  deriving DecidableEq, Repr
/-- A unified address mapped through the tables, whatever region it lies in (R166 to R171, R186). -/
def mapTables (own : Bool) (s : State) (p core u : Nat) (r : Rights) : Mapped :=
  let tb := tablesFor s p (core / 16) u
  match lookup s own core tb u with
  | .absent _ => .absent false
  | .bad b e => .prot (protFault u b e)
  | .leaf e =>
    let b := leafFault tb r e u
    if b ≠ 0 then .prot (protFault u b e)
    else if r.w && bit e 54 then .absent true
    else .spot ⟨leafPa e u, homeOf s tb.part (leafPa e u), bit e 55, true⟩ (noteLeaf s own core tb u e)
/-- A unified address mapped for an access of partition p from a core, or from an engine of its tile (R165 to R171, R175, R186). -/
def mapFor (own : Bool) (s : State) (p core u : Nat) (r : Rights) : Mapped :=
  match regionOf u with
  | .scratch t off => match scratchFault s p u t off with
    | some f => .now f
    | none => .spot ⟨placeOf t off, t, false, false⟩ s
  | .hole => .now (holeFault s p u)
  | .none => .now (apertureFault u 16)
  | .paged => mapTables own s p core u r
/-- The same for an access of the core itself. -/
def mapUnified (s : State) (p core u : Nat) (r : Rights) : Mapped := mapFor true s p core u r
/-- The partition that an access of a device's or base-die port is of (R453). -/
def portPart (s : State) (port u : Nat) : Nat :=
  match regionOf u with
  | .scratch t _ => (partOf s t).getD 0
  | _ => match windowFor s port u with | some (_, w) => bits w 59 58 | none => 0
/-- Where a word of an engine's access lies, translated at its tile (R306, R332); a spill ring in scratch is written whatever the
bank's mode and partition, and one in a hole faults PROT: DESIGN CHOICE (log 85). -/
def engineSpot (s : State) (part tile u : Nat) (r : Rights) : Mapped :=
  match regionOf u with
  | .scratch t off => .spot ⟨placeOf t off, t, false, false⟩ s
  | _ => mapFor false s part (16 * tile) u r
/-- The place of that word, where the access has one. -/
def engineAt (s : State) (part tile u : Nat) (r : Rights) : Option Nat :=
  match engineSpot s part tile u r with | .spot p _ => some p.place | _ => none

end Sys2Proof.Machine
end

