-- ==== Sys2Proof/Machine/Agenda.lean ====
section
/-! DEFINITION. The agenda of what is in flight: open and bounded latencies (R4, R34), and the routes on which packets
keep their order (R27). -/

namespace Sys2Proof.Machine

/-- A living context. -/
def ctxOf (s : State) (id : Nat) : Option Ctx := FMap.find? s.ctxs id
/-- The partition of a context, of its tile's table where it lives no more (R42). -/
def partOfCtx (s : State) (id : Nat) : Nat :=
  match ctxOf s id with | some x => x.part | none => (partOf s (id / 2 ^ 25)).getD 4
/-- The tile that an id leads to (R42, R435): its context's, or its table's. -/
def tileOfCtx (s : State) (id : Nat) : Nat := match ctxOf s id with | some x => x.tile | none => id / 2 ^ 25 % 128
/-- The partition whose latency a step's is; 4 for what belongs to none (R4, R34). -/
def stepPart (s : State) (i : Instr) : Nat :=
  let tile := fun t => (partOf s t).getD 4
  match i with
  | .accessAtHome a | .waitListResend a | .combinedReplySplit a _ => a.part
  | .longCompletion id _ | .coreMoveArrival id _ | .migrationArrival id _ | .saveComplete id | .remoteBankCheck id | .cpyqComplete id _
  | .traversalStepComplete ⟨id, _⟩ | .tlbinvComplete id | .contextActionAtTile ⟨id, _⟩ _ _ _ => partOfCtx s id
  | .messageArrival dst _ src => (match src with
    | .send c _ _ _ => partOfCtx s c
    | .signal _ p _ _ => p
    | .part port => if port < 128 then tile port else partOfCtx s dst)
  | .sumPacketArrival p | .refusalArrival p _ => tile p.src
  | .lineFill t _ | .homeInvalidate t _ => t.part
  | .sliceWriteAccept w _ _ _ => w.part
  | .retrieverFetch t _ | .copyLineMove t _ | .copyLineLand t _ _ _
  | .copyLandingReport t _ ⟨_, _, _⟩ | .acknowledgementArrival t _ | .dispatcherPlace t => tile t
  | .swapComplete core => tile (core / 16)
  | .queueMap p _ _ _ => p
  | .transmitFrame p => portPart s (208 + p) (FMap.get 0 s.ethPorts (8 * p + 1)).toNat
  | _ => 4
/-- The counter from which a step's latency is drawn: its partition's, or, at a port of the base die or of a device, one of the
port's for each partition (R34). -/
def drawKey (s : State) (i : Instr) : Nat :=
  match i with
  | .messageArrival _ _ (.part port) => if port < 128 then stepPart s i else 8 + 8 * port + stepPart s i
  | .transmitFrame p => 8 + 8 * (208 + p) + stepPart s i
  | _ => stepPart s i

/-- A packet of the omega network: source port, plane, 4 more on the reverse network, and destination port (R26, R27). -/
structure Packet where
  src : Nat
  plane : Nat
  dst : Nat
  deriving DecidableEq, Repr
/-- The plane of an address (R27). -/
def planeOf (u : Nat) : Nat := u / 64 % 4
/-- The port that holds a place: its slice, or its tile for scratch (R23, R26). -/
def portOfPlace (p : Nat) : Nat := if isScratch p then scratchTile p else 128 + sliceOf p
/-- A packet that names no address (R27); none where it stays in its tile. -/
def plainPacket (src dst : Nat) : Option Packet := if src = dst then none else some ⟨src, dst % 4, dst⟩
/-- The tile at which an action on a context is performed (R435). -/
def actionTile (s : State) (issuer target : Nat) (act : Action) : Nat :=
  match act with
  | .pgwakeCopy t _ _ => t
  | .rqtake t _ => if target = 0 then t else tileOfCtx s target
  | .cfgrd _ | .cfgwr _ _ => 213
  | _ => if target = 0 then tileOfCtx s issuer else tileOfCtx s target
/-- A packet that names an address, from a port to another (R27). -/
def addrPacket (src plane dst : Nat) : List Packet := if src = dst then [] else [⟨src, plane, dst⟩]
/-- The lines that an image move reads or writes (R444). -/
def actionLines : Action → List (Nat × Nat × Nat × Bool)
  | .ksave l | .kload l => l
  | _ => []
/-- The packets that a step's arrival is, by which it keeps its order; an image move is its own and those of its lines, each by
its address (R27). That the lines a device moves in one step travel with the first of them is DESIGN CHOICE (log 71). -/
def routesOf (s : State) (i : Instr) : List Packet :=
  match i with
  | .accessAtHome a => addrPacket a.src (planeOf a.uaddr) a.home
  | .longCompletion id seq => (match ctxOf s id with
    | some x => (match x.longs.find? fun l => l.seq == seq with
      | some l => addrPacket l.back.1 (4 + l.back.2) x.tile
      | none => [])
    | none => [])
  | .messageArrival dst _ src => (match src with
    | .send _ _ port _ => (plainPacket port (tileOfCtx s dst)).toList
    | .part port => (plainPacket port (tileOfCtx s dst)).toList
    | .signal _ _ _ _ => [])
  | .migrationArrival id t => (plainPacket (tileOfCtx s id) t).toList
  | .contextActionAtTile ⟨issuer, _⟩ _ target act =>
    (plainPacket (tileOfCtx s issuer) (actionTile s issuer target act)).toList
      ++ (actionLines act).flatMap fun l => addrPacket (tileOfCtx s issuer) (planeOf l.1) l.2.2.1
  | .copyLineMove t uid =>
    (match (FMap.get [] s.copies t).find? fun c => c.uid == uid && !c.checking with
      | some c => (match engineAt s c.part t (c.src + c.next) rightsR with
        | some p => addrPacket t (planeOf (c.src + c.next)) (portOfPlace p)
        | none => [])
      | none => [])
  | .copyLineLand t _ _ ws => ((ws.map fun w => w.place / 64).dedup).flatMap fun l => addrPacket t (l % 4) (portOfPlace (64 * l))
  | .copyLandingReport t _ ⟨line, _, src⟩ => addrPacket src (4 + planeOf line) t
  | .sliceWriteAccept w p _ _ => if isScratch p then [] else [⟨w.home, planeOf p, portOfPlace p⟩]
  | .lineFill t line => [⟨portOfPlace (64 * line), 4 + line % 4, t.tile⟩]
  | .homeInvalidate t line => [⟨portOfPlace (64 * line), line % 4, t.tile⟩]
  | .retrieverFetch t uid =>
    let e := FMap.get Engine.reset s.engines t
    (match (e.queue ++ e.running.toList).find? fun k => k.uid == uid with
      | some k => (k.lines[k.data.length / 64]?.map fun l => (⟨t, planeOf l.1, portOfPlace l.2⟩ : Packet)).toList
      | none => [])
  | _ => []
/-- The reverse packets that a step brings with it: the reply of an action at another tile with those of the lines an image is loaded
from, and the data of a line that a copy or an MMAS reads (R27). -/
def replyPackets (s : State) (i : Instr) : List Packet :=
  match i with
  | .contextActionAtTile ⟨issuer, _⟩ _ target act =>
    let t := tileOfCtx s issuer
    let a := actionTile s issuer target act
    addrPacket a (4 + a % 4) t ++ (match act with | .kload l => l.flatMap fun p => addrPacket p.2.2.1 (4 + planeOf p.1) t | _ => [])
  | .copyLineMove _ _ | .retrieverFetch _ _ => (routesOf s i).map fun p => ⟨p.dst, 4 + p.plane, p.src⟩
  | _ => []
/-- Whether two lists of packets have one in common (R27). -/
def meetRoutes (l m : List Packet) : Bool := l.any m.contains
/-- The port whose lines a step moves on every plane, many lines in one step: they keep their order with every packet of the port: DESIGN
CHOICE (log 71). -/
def widePort (s : State) (i : Instr) : Option Nat :=
  match i with
  | .traversalStepComplete ⟨id, _⟩ => (match ctxOf s id with | some x => if x.hold = some .traversal then some x.tile else none | none => none)
  | .frameReceive p _ | .transmitFrame p => some (208 + p)
  | .deviceDma _ _ _ => some 210
  | .quoteComplete => some 213
  | _ => none
/-- Whether a step moves lines from a port that packets leave on the forward networks (R27). -/
def wideMeets (w : Option Nat) (v : Option Nat) (l : List Packet) : Bool :=
  match w with | some p => v == some p || l.any (fun k => k.src == p && decide (k.plane < 4)) | none => false
/-- Whether what two steps send may share a route (R27). -/
def mayMeet (s : State) (i : Instr) (l : List Packet) (j : Instr) : Bool :=
  let m := routesOf s j
  meetRoutes l m || wideMeets (widePort s i) (widePort s j) m || wideMeets (widePort s j) none l
/-- The class of a due step: events of the part, then actions on contexts by their issuers' cores (R435), then placements, then what maps and unmaps queues, behind the cycle's latch sets
(R371). -/
def dueRank (s : State) (i : Instr) : Nat :=
  match i with
  | .contextActionAtTile ⟨issuer, _⟩ _ _ _ => 1 + (match ctxOf s issuer with | some x => 16 * x.tile + x.core | none => 0)
  | .dispatcherPlace _ => 4096
  | .queueMap _ _ _ _ | .queueUnmap _ _ | .graphUpload _ _ => 4097
  | _ => 0

/-- The agenda with a step put behind every step due no later. -/
def insertDue : List Due → Due → List Due
  | [], d => [d]
  | x :: t, d => if d.at_ < x.at_ then d :: x :: t else x :: insertDue t d
/-- The earliest cycle from a cycle on at which a step may be due: behind the packets that its own may not pass, and in the
next cycle where one of those is of a later class (R27). -/
def inOrder (s : State) (i : Instr) (at_ : Nat) : Nat :=
  let l := routesOf s i
  if l.isEmpty && (widePort s i).isNone then at_
  else s.agenda.foldl (fun n d =>
      if mayMeet s i l d.step then Nat.max n (d.at_ + if dueRank s i < dueRank s d.step then 1 else 0) else n) at_
/-- A step put on the agenda for a cycle, or for the first in which its packet passes none before it (R27). -/
def schedule (s : State) (at_ : Nat) (i : Instr) : State := { s with agenda := insertDue s.agenda ⟨inOrder s i at_, i⟩ }
/-- A partition's next draw. -/
def drawsOf (s : State) (p : Nat) : Nat := FMap.get 0 s.draws p
/-- A partition draws n times. -/
def drawn (s : State) (p n : Nat) : State := { s with draws := FMap.set 0 s.draws p (drawsOf s p + n) }
/-- A cycle at an open latency of a partition from now (R4), and the next draw. -/
def openDelay (s : State) (p : Nat) : Nat × State := (s.cyc + 1 + Config.delay p (drawsOf s p), drawn s p 1)
/-- A cycle at most n cycles from now (R4), and the next draw; n is at least 1. -/
def boundedDelay (s : State) (p n : Nat) : Nat × State := (s.cyc + 1 + Config.delay p (drawsOf s p) % n, drawn s p 1)
/-- A step after an open latency, no earlier than a cycle. -/
def laterFrom (s : State) (at_ : Nat) (i : Instr) : State :=
  let r := openDelay s (drawKey s i)
  schedule r.2 (Nat.max r.1 at_) i
/-- A step after an open latency. -/
def later (s : State) (i : Instr) : State := laterFrom s 0 i
/-- A step in the next cycle. -/
def soon (s : State) (i : Instr) : State := schedule s (s.cyc + 1) i
/-- A step in this cycle, after those already due. -/
def now (s : State) (i : Instr) : State := schedule s s.cyc i
/-- What satisfies a test is due by a cycle: an open latency that a bound on what waits for it keeps short (R4, R434, R344). -/
def hasten (s : State) (by_ : Nat) (f : Instr → Bool) : State :=
  { s with agenda := (s.agenda.map fun d => if f d.step then { d with at_ := Nat.min d.at_ by_ } else d).foldl insertDue [] }
/-- Whether two steps are packets of one route (R27). -/
def sharesRoute (s : State) (i j : Instr) : Bool := mayMeet s i (routesOf s i) j
/-- What satisfies a test is due by a cycle, with the packets that it may not pass (R27). -/
def hastenRoutes (s : State) (by_ : Nat) (f : Instr → Bool) : State :=
  hasten s by_ fun i => f i || s.agenda.any fun d => f d.step && sharesRoute s d.step i
/-- A step within n cycles, and before it what satisfies a test and the packets of its own route (R4, R27, R344, R434). -/
def withinBehind (s : State) (n : Nat) (f : Instr → Bool) (i : Instr) : State :=
  let r := boundedDelay s (drawKey s i) n
  schedule (hastenRoutes r.2 (r.1 - 1) fun j => f j || sharesRoute s i j) r.1 i
/-- A step within n cycles. -/
def within (s : State) (n : Nat) (i : Instr) : State := withinBehind s n (fun _ => false) i

/-- Whether the live calendar of an omega port or of a stack's command slots gives a partition a day (R33, R452). -/
def hasDay (s : State) (port part : Nat) : Bool :=
  (List.range 32).any fun g => (List.range 32).any fun i => bits (FMap.get 0 s.live (32 * port + g)) (2 * i + 1) (2 * i) == part

/-- The way map of a slice (R451). -/
def wayMap (s : State) (sl : Nat) : Dword := FMap.get 0 s.wayMaps sl
/-- The slot that gives a slice its DRAM commands: its stack's, or module DRAM's (R23, R452). -/
def dramSlot (slice : Nat) : Nat := if slice < 64 then 256 + slice / 16 else 260
/-- Whether a partition has no way in a slice (R24). -/
def noWay (s : State) (slice part : Nat) : Bool := (List.range 16).all fun w => bits (wayMap s slice) (2 * w + 1) (2 * w) != part
/-- Whether a line that a partition needs from its slice waits for a DRAM command: the slice lacks it and has not marked it zero, and
the partition has no day at the command slot, or its stack is gated after a restore (R24, R33, R177, R468). -/
def dramWait (s : State) (place part : Nat) : Bool :=
  !isScratch place && !FMap.get false s.zmap (place / 64) && (!hasDay s (dramSlot (sliceOf place)) part || (s.restored.isSome && decide (sliceOf place < 64)))
    && (noWay s (sliceOf place) part || Config.sliceMiss part (drawsOf s part) (place / 64))
/-- The words that a walk reads (R166 to R168). -/
def tableReads (s : State) (u : Nat) : List (Nat × Nat) → Nat → List Nat
  | [], _ => []
  | (hi, lo) :: rest, table =>
    let e := readDw s (table + 8 * fld u hi lo)
    (table + 8 * fld u hi lo) :: (if bit e 63 && !bit e 62 then tableReads s u rest (bits e 47 12 * 4096) else [])
/-- Whether the walk of an address that no TLB holds waits for a day of its partition, at its tile's port or for a table's DRAM
command (R33). -/
def walkWaits (s : State) (own : Bool) (part core u : Nat) : Bool :=
  let tb := tablesFor s part (core / 16) u
  let hit := fun (l : List Tlb) => l.any fun t => t.hit tb.part u tb.window
  !(own && hit (FMap.get [] s.tlb1 core)) && !hit (FMap.get [] s.tlb2 (core / 16))
    && (!hasDay s (core / 16) part || (tableReads s u levels (bits (partReg s tb.part 0) 47 12 * 4096)).any fun p => dramWait s p part)

-- Accesses on their way (R226)

/-- The requests that an access carries: context, tile it left, number, and what comes before it. -/
def requestsOf (a : Access) : List (Nat × Nat × Nat × Nat) := (a.ctx, a.src, a.uid, a.floor) :: a.parts.map fun p => (p.ctx, p.src, p.uid, p.floor)
/-- Whether an access carries a request of a context (R208). -/
def carries (a : Access) (id : Nat) : Bool := (requestsOf a).any (·.1 == id)
/-- The accesses that have not been performed: on their way, in a wait list, or returned by a full one (R181, R182). -/
def pendingAccesses (s : State) : List Access :=
  (s.agenda.filterMap fun d => match d.step with | .accessAtHome a => some a | .waitListResend a => some a | _ => none)
    ++ s.waits.flatMap fun e => e.2
/-- Whether a context's access numbered below n has not been performed. -/
def accessBefore (s : State) (id n : Nat) : Bool :=
  (pendingAccesses s).any fun a => (requestsOf a).any fun q => q.1 == id && decide (q.2.2.1 < n)
/-- Whether two accesses are of one ordering class: one home and one plane (R225). -/
def sameClass (a b : Access) : Bool := a.home == b.home && planeOf a.uaddr == planeOf b.uaddr
/-- Whether an access may wait at its home until another changes its word, and writes when it goes on: a PUT. -/
def isPutKind : AccKind → Bool
  | .put _ => true
  | .read _ | .write _ _ _ | .zline | .ldf | .take | .stf _ | .sete | .fetag | .atom _ _ _ | .cas _ _ _ | .qwait _ => false
/-- Whether an access writes its word or the word's tag (R226). -/
def writesKind : AccKind → Bool
  | .write _ _ _ | .zline | .take | .put _ | .stf _ | .sete | .atom _ _ _ | .cas _ _ _ => true
  | .read _ | .ldf | .fetag | .qwait _ => false
/-- Whether an access is ordered behind another of its context (R226, R240): behind those of its class and behind acquires,
releases behind all before them, those after a move or a fence of core scope behind those before it; and what follows a PUT
comes behind it, since a PUT that waits would else be passed in the order that the contexts of its core see (R227). -/
def comesBehind (a b : Access) : Bool :=
  (requestsOf a).any fun p => (requestsOf b).any fun q => decide (q.2.2.1 < p.2.2.1) && p.1 == q.1 && p.1 != 0
    && (sameClass a b || (a.ins != b.ins && (a.rel || b.acq || isPutKind b.kind)) || decide (q.2.2.1 < p.2.2.2))
/-- Whether an access waits at its home, for its word or for a home under repair (R181, R185). -/
def waitsAtHome (a : Access) : Bool := a.parkedAt != 0 || a.repair.isSome
/-- The requests of an access with the core each is of: core and number. -/
def coresOf (a : Access) : List (Option Nat × Nat) := (a.core, a.uid) :: a.parts.map fun p => (p.core, p.uid)
/-- Whether an access is ordered behind one that another context of its core has issued before it in its class (R226). One that waits at
its home is passed, or what it waits for could never come: DEDUCED from R237 (log 6). -/
def behindCore (a b : Access) : Bool :=
  sameClass a b && !waitsAtHome b && (coresOf a).any fun p => (coresOf b).any fun q => p.1.isSome && p.1 == q.1 && decide (q.2 < p.2)
/-- An access put into a list in the order in which accesses are numbered. -/
def insertAccess : List Access → Access → List Access
  | [], a => [a]
  | b :: t, a => if a.uid < b.uid then a :: b :: t else b :: insertAccess t a
/-- The numbers of the accesses that have not left their tiles: those ordered, by their context or their core, behind one that waits at
its home, or behind one that has not left. -/
def heldNumbers (s : State) : List Nat :=
  let all := pendingAccesses s
  (all.foldl insertAccess []).foldl (fun h b =>
    if !waitsAtHome b && all.any (fun w => (comesBehind b w && (waitsAtHome w || h.contains w.uid)) || (behindCore b w && h.contains w.uid))
    then b.uid :: h else h) []
/-- Whether an access is on its way to its home. -/
def underWay (s : State) (b : Access) : Bool := !waitsAtHome b && !(heldNumbers s).contains b.uid
/-- Whether one access is performed after another that has not been performed: one of its context or its core that it is ordered
behind, or one of its tile and class that is on its way, since a tile's accesses reach a home in the order of their class (R27,
R226). -/
def follows (s : State) (a b : Access) : Bool :=
  comesBehind a b || behindCore a b
    || (sameClass a b && ((requestsOf a).any fun p => (requestsOf b).any fun q => decide (q.2.2.1 < p.2.2.1) && p.2.1 == q.2.1) && underWay s b)
/-- Whether an access numbered below n, of a core, or of a tile and on its way to its home, has not been performed: a tile's accesses
leave in their order (R20, R226). -/
def portBefore (s : State) (t core n : Nat) : Bool :=
  (pendingAccesses s).any fun a => !waitsAtHome a && (((coresOf a).any fun q => q.1 == some core && decide (q.2 < n))
    || (((requestsOf a).any fun q => q.2.1 == t && decide (q.2.2.1 < n)) && underWay s a))
/-- Whether an access of a context is on its way to its home. -/
def arriving (s : State) (id : Nat) : Bool := s.agenda.any fun d => match d.step with | .accessAtHome a => carries a id && underWay s a | _ => false
/-- Accesses not yet performed with all that they come behind. -/
def withThoseBefore (s : State) : Nat → List Access → List Access
  | 0, l => l
  | n + 1, l =>
    let m := (pendingAccesses s).filter fun b => !l.contains b && l.any fun a => follows s a b
    if m.isEmpty then l else withThoseBefore s n (l ++ m)
/-- Whether a step performs an access that satisfies a test, or one that such an access comes behind, or accepts a write that one which
releases at system scope comes behind (R226, R229). -/
def performsFirst (s : State) (f : Access → Bool) : Instr → Bool :=
  let l := withThoseBefore s (pendingAccesses s).length ((pendingAccesses s).filter f)
  fun i => match i with
    | .accessAtHome a | .waitListResend a => l.any fun b => b.uid == a.uid
    | .sliceWriteAccept w _ _ _ => l.any fun a => a.sys && a.rel && w.ctxs.any (carries a)
    | _ => false

end Sys2Proof.Machine
end

