-- ==== Sys2Proof/Machine/Ops.lean ====
section
/-! DEFINITION. Shared operations on contexts: their table, slots and queues (R42, R61 to R65), messages (R213, R412
to R415), taking a fault and resuming from one (R9, R59, R409, R418), charges (R73 to R81), parks (R60, R85), saves
and retirement (R63, R156), the reset of a tile and of the part (R21, R428, R470). -/

namespace Sys2Proof.Machine

-- The context table

/-- A context's entry replaced. -/
def setCtx (s : State) (id : Nat) (x : Ctx) : State := { s with ctxs := FMap.put s.ctxs id x }
/-- A living context changed by a function. -/
def updCtx (s : State) (id : Nat) (f : Ctx → Ctx) : State :=
  match ctxOf s id with
  | none => s
  | some x => setCtx s id (f x)
/-- Whether an id names a living context (R42: never 0). -/
def alive (s : State) (id : Nat) : Bool := id != 0 && (ctxOf s id).isSome
/-- The part-wide number of the core a context is on (R17). -/
def Ctx.at_ (x : Ctx) : Nat := 16 * x.tile + x.core
/-- A context whose outstanding work is done and whose save may run (R58, R407). -/
def Ctx.quiet (x : Ctx) : Bool := x.longs.isEmpty && x.hold.isNone
/-- Whether a context holds a slot: a leaving one gives it up once its outstanding work is done (R55, R58, R77). -/
def Ctx.holdsSlot (x : Ctx) : Bool :=
  (x.state == .resident || x.state == .parked || x.state == .stopped) && x.moving.isNone && !(x.saving.isSome && x.quiet)
/-- The contexts that hold a slot of a core. -/
def onCore (s : State) (core : Nat) : List (Nat × Ctx) := s.ctxs.filter fun p => p.2.holdsSlot && p.2.at_ == core
/-- The swap a core performs, if any (R62). -/
def swapOf (s : State) (core : Nat) : Option Swap := FMap.get none s.swaps core
/-- The register entries of a core not occupied (R44), a window being loaded counted. -/
def freeEntries (s : State) (core : Nat) : Nat :=
  2048 - ((onCore s core).foldl (fun n p => n + p.2.window) 0
    + (match swapOf s core with | some w => (match ctxOf s w.ctx with | some x => x.window | none => 0) | none => 0))
/-- The empty slots of a core, with the cycle each emptied, earliest first and the lower slot first (R62). -/
def emptySlots (s : State) (core : Nat) : List (Nat × Nat) := FMap.get ((List.range 64).map fun i => (0, i)) s.emptied core
/-- The empty slots of a core replaced. -/
def setEmptySlots (s : State) (core : Nat) (l : List (Nat × Nat)) : State :=
  { s with emptied := FMap.set ((List.range 64).map fun i => (0, i)) s.emptied core l }
/-- A slot put into the order of emptying. -/
def insertEmpty : List (Nat × Nat) → Nat → Nat → List (Nat × Nat)
  | [], c, k => [(c, k)]
  | (d, j) :: t, c, k => if c < d ∨ (c = d ∧ k < j) then (c, k) :: (d, j) :: t else (d, j) :: insertEmpty t c k
/-- A slot that empties: from the next cycle (R55). -/
def emptySlot (s : State) (core slot : Nat) : State := setEmptySlots s core (insertEmpty (emptySlots s core) (s.cyc + 1) slot)
/-- A slot taken. -/
def takeSlot (s : State) (core slot : Nat) : State := setEmptySlots s core ((emptySlots s core).filter fun p => p.2 != slot)
/-- Whether a core has an empty slot and room for a window (R44, R66, R71). -/
def coreHasRoom (s : State) (core g : Nat) : Bool :=
  (emptySlots s core).any (·.1 ≤ s.cyc) && decide (g ≤ freeEntries s core)
/-- Whether a core is bound to a pipeline node (R365). -/
def coreBound (s : State) (core : Nat) : Bool := s.graphs.any fun g => g.nodes.any fun n => n.bound.contains core

/-- The creation values of R41, R47, R265 and R376; the rest is the creator's. -/
def Ctx.fresh (tile window : Nat) : Ctx :=
  { state := .queued, tile := tile, core := 0, slot := 0, window := window, regs := [], pc := 0, pw := 0xFFFF, rnd := 0, ib := 0, mb := 0
    yc := 0, ypc := 0, fel := 0, wid := 0, wfw := 0, sup := 0, cb := 0, qacc := 0, rsc := 0, rpx := 0, rwc := 0, tnv := 0, tarea := 0
    cbret := 0, segs := [], graceOn := false, graceI := 0, graceM := 0, priv := false, priority := 0, spawner := 0, part := 0, group := 0
    wdog := 0, wcount := 0, predH := 0, predN := 0, park := none, retry := none, hold := none, holdD := 0, moving := none, saving := none
    stopReq := false, outReq := false, retireReq := false, halting := false, wdogReq := false, longs := [], kept := [], resume := 0, after := 0
    inbox := [], grant := [], last := 0, gap := 16, inMem := false, progress := 0, visits := 0, moved := 0, fenced := 0
    needs := [], credits := [], decided := none, spent := 0, aside := none }

-- Ready queues, overflow list and Kennel (R61 to R65)

/-- A core's ready queue: entries 4 × id + level, in level order and then queue order. -/
def readyOf (s : State) (core : Nat) : List Nat := FMap.get [] s.ready core
def setReady (s : State) (core : Nat) (l : List Nat) : State := { s with ready := FMap.set [] s.ready core l }
/-- An entry put at the tail of its level. -/
def insertLevel : List Nat → Nat → List Nat
  | [], e => [e]
  | x :: t, e => if e % 4 < x % 4 then e :: x :: t else x :: insertLevel t e
/-- A context's backing slot (R65). -/
def slotAddr (s : State) (p id : Nat) : Nat :=
  bits (partReg s p 8) 47 12 * 4096 + 8640 * (8192 * (id / 2 ^ 25) + id / 2 ^ 12 % 8192)
/-- Whether a context's image can be read where it lies: in a backing slot on a day of its partition, at its tile's port and for each
line (R33, R65). -/
def imageDay (s : State) (id : Nat) (x : Ctx) : Bool :=
  !x.inMem || (hasDay s x.tile x.part && (List.range 136).all fun i => !dramWait s (slotAddr s x.part id + 64 * i) x.part)
/-- A doubleword written at a physical address by an engine, its tag set full and its line no longer marked zero (R65, R177,
R178). -/
def putDw (s : State) (pa : Nat) (v : Nat) : State := { setErr (setTag (writeDw s pa (dw v)) pa true) pa false with zmap := FMap.set false s.zmap (pa / 64) false }
/-- The contexts of an overflow list from one on, with their bindings: id, core in the tile and level (R65). -/
def walkList (s : State) : Nat → Nat → List (Nat × Nat × Nat)
  | 0, _ => []
  | n + 1, id => match ctxOf s id with
    | none => []
    | some x =>
      let a := slotAddr s x.part id
      let b := readDw s (a + 8584)
      (id, bits b 3 0, bits b 5 4) :: walkList s n (bits (readDw s (a + 8576)) 31 0)
/-- A tile's overflow list in order (R61). -/
def overflowList (s : State) (t : Nat) : List (Nat × Nat × Nat) := walkList s (s.ctxs.length + 1) (FMap.get (0, 0) s.ovf t).1
/-- The contexts that wait for a day to be linked. -/
def waitingLinks (s : State) (t : Nat) : List (Nat × Nat × Nat) := FMap.get [] s.ovfWait t
/-- A context linked at the tail of its tile's overflow list (R61, R65). -/
def overflowLink (s : State) (t id core level : Nat) : State :=
  match ctxOf s id with
  | none => s
  | some x =>
    let a := slotAddr s x.part id
    let h := FMap.get (0, 0) s.ovf t
    let s := putDw (putDw s (a + 8576) 0) (a + 8584) (core % 16 + 16 * level)
    match ctxOf s h.2 with
    | none => { s with ovf := FMap.set (0, 0) s.ovf t (id, id) }
    | some y => { putDw s (slotAddr s y.part h.2 + 8576) id with ovf := FMap.set (0, 0) s.ovf t (h.1, id) }
/-- Whether a link of a tile's overflow list can be read and written: a day of the context's partition at the tile's port, and DRAM
for the slots that the list goes through (R33, R65). -/
def linkDay (s : State) (t id : Nat) : Bool :=
  hasDay s t (partOfCtx s id) && (id :: (overflowList s t).map (·.1)).all fun j => !dramWait s (slotAddr s (partOfCtx s j) j + 8576) (partOfCtx s j)
/-- A context queued on a tile that waits to enter its ready queue or the overflow list, behind those that do so already. -/
def waitLink (s : State) (t id core level : Nat) : State :=
  { s with ovfWait := FMap.set [] s.ovfWait t (waitingLinks s t ++ [(id, core % 16, level)]) }
/-- A context put at the tail of its tile's overflow list, at once on a day of its partition (R33, R61, R65). -/
def overflowAdd (s : State) (t id core level : Nat) : State :=
  if (waitingLinks s t).isEmpty && linkDay s t id then overflowLink s t id core level else waitLink s t id core level
/-- A context taken out of its tile's overflow list by a rewrite of its predecessor's link (R65). -/
def overflowRemove (s : State) (t id : Nat) : State :=
  let s := { s with ovfWait := FMap.set [] s.ovfWait t ((waitingLinks s t).filter fun e => e.1 != id) }
  let l := (overflowList s t).map (·.1)
  if !l.contains id then s
  else
    let i := l.idxOf id
    let next := l.getD (i + 1) 0
    let h := FMap.get (0, 0) s.ovf t
    if i = 0 then { s with ovf := FMap.set (0, 0) s.ovf t (next, if next = 0 then 0 else h.2) }
    else
      let pre := l.getD (i - 1) 0
      let s := match ctxOf s pre with | some y => putDw s (slotAddr s y.part pre + 8576) next | none => s
      { s with ovf := FMap.set (0, 0) s.ovf t (h.1, if next = 0 then pre else h.2) }
/-- The images in a tile's Kennel, oldest first (R64). -/
def kennelOf (s : State) (t : Nat) : List Nat := FMap.get [] s.kennels t
/-- An image enters a tile's Kennel. -/
def kennelAdd (s : State) (t id : Nat) : State := { s with kennels := FMap.set [] s.kennels t ((kennelOf s t).filter (· != id) ++ [id]) }
/-- An image leaves a tile's Kennel. -/
def kennelDrop (s : State) (t id : Nat) : State := { s with kennels := FMap.set [] s.kennels t ((kennelOf s t).filter (· != id)) }
/-- The bytes of an image (R437). -/
def imageBytes (x : Ctx) : Nat := 384 + 64 * x.window
/-- The bytes a tile's Kennel holds. -/
def kennelBytes (s : State) (t : Nat) : Nat :=
  (kennelOf s t).foldl (fun n id => match ctxOf s id with | some x => n + imageBytes x | none => n) 0

-- Images (R64, R65, R436, R437)

/-- A register added to (R73). -/
def credit (r : Dword) (c : Nat) : Dword := if bits r 47 0 = all1 then r else dw (Nat.min (bits r 47 0 + c) (all1 - 1))

/-- A special register written under its Access column, reserved and read-only fields ignored (R7, R47, R161, R376). -/
def writeSpecial (x : Ctx) (n : Nat) (v : Dword) : Ctx :=
  match n with
  | 0x01 => { x with pw := v }
  | 0x02 => { x with rnd := setBits v 31 7 0 }
  | 0x03 => { x with ib := dw (bits v 47 0) }
  | 0x04 => { x with mb := dw (bits v 47 0) }
  | 0x05 => { x with yc := v }
  | 0x07 => { x with fel := dw (bits v 31 0) }
  | 0x0D => { x with sup := dw (bits v 31 0) }
  | 0x0E => { x with cb := setBits v 39 33 0 }
  | 0x0F => { x with qacc := v }
  | 0x20 => { x with rsc := v }
  | 0x21 => { x with rpx := v }
  | 0x22 => { x with rwc := v }
  | 0x23 => { x with tnv := v }
  | 0x24 => { x with tarea := setBits (setBits v 63 56 0) 13 0 0 }
  | 0x25 => { x with cbret := v }
  | n =>
    if 0x10 ≤ n ∧ n ≤ 0x1F then
      let k := (n - 16) / 2
      let g := segReg x k
      let g' : Seg := if n % 2 = 0 then ⟨dw (bits v 55 0), g.limit⟩ else ⟨g.base, setBits v 58 56 0⟩
      { x with segs := FMap.set ⟨0, 0⟩ x.segs k g' }
    else x
/-- The number of a park in a descriptor (R436). -/
def ParkKind.code : ParkKind → Nat
  | .fe => 1 | .nq => 2 | .stream => 3 | .qwait => 4 | .bwait => 5 | .drain => 6 | .chwait => 7 | .waitm => 8 | .equip => 9
  | .page => 10 | .mma => 11 | .room => 12 | .store => 13 | .repair => 1
/-- The number of a state in a descriptor (R436). -/
def CtxState.code : CtxState → Nat
  | .resident => 1 | .parked => 2 | .stopped => 3 | .queued => 4 | .parkedOut => 5 | .held => 6 | .inTransit => 7
/-- Where a context is, in the layout of cid[16:0] (R436). -/
def Ctx.whereWord (x : Ctx) : Nat :=
  match x.state with
  | .held | .parkedOut => 1024 * x.tile
  | .inTransit => 1024 * x.moving.getD x.tile
  | .queued => 1024 * x.tile + 64 * x.core
  | _ => 1024 * x.tile + 64 * x.core + x.slot
/-- The park field of a descriptor; `la` says that a lookahead rule holds the next instruction (R436). -/
def Ctx.parkCode (x : Ctx) (la : Bool) : Nat :=
  match x.park with
  | some p => p.kind.code
  | none => if x.hold = some .traversal then 14 else if la then 15 else 0
/-- A descriptor's doublewords (R436). -/
def Ctx.desc0 (x : Ctx) (la : Bool) : Dword :=
  let repair := match x.park with | some p => p.kind == .repair | none => false
  dw (x.spawner * 2 ^ 32 + x.window * 2 ^ 24 + x.parkCode la * 2 ^ 20 + x.state.code * 2 ^ 16 + x.group * 2 ^ 12 + bitOf x.priv * 2 ^ 10
    + x.priority * 2 ^ 8 + bitOf repair * 4 + x.part)
def Ctx.desc1 (x : Ctx) : Dword := dw (x.wdog * 2 ^ 32 + x.whereWord)
/-- A doubleword of an image (R437). -/
def imageDw (id : Nat) (x : Ctx) (la : Bool) (j : Nat) : Dword :=
  match j with
  | 0 => x.desc0 la | 1 => x.desc1 | 2 => x.pc | 3 => x.pw | 4 => x.rnd | 5 => x.ib | 6 => x.mb | 7 => x.yc | 8 => x.ypc | 9 => x.fel
  | 10 => x.wid | 11 => x.wfw | 12 => x.sup | 13 => x.cb | 14 => x.qacc
  | 15 => dw (bitOf x.graceOn + x.graceI * 2 + x.graceM * 2 ^ 32)
  | 16 => dw (x.predH + x.predN * 256)
  | 17 => x.resume
  | 34 => x.rsc | 35 => x.rpx | 36 => x.rwc | 37 => x.tnv | 38 => x.tarea | 39 => x.cbret
  | 40 => dw id
  | j =>
    if j < 34 then (if j % 2 = 0 then (segReg x ((j - 18) / 2)).base else (segReg x ((j - 18) / 2)).limit)
    else if j < 48 then 0
    else if (j - 48) / 8 < x.window then dword (FMap.get 0 x.regs ((j - 48) / 8)) ((j - 48) % 8)
    else 0
/-- An image's doublewords in order. -/
def imageDws (id : Nat) (x : Ctx) (la : Bool) : List Dword := (List.range (48 + 8 * x.window)).map (imageDw id x la)
/-- An image's items taken into a context: the writable descriptor fields, pc to ypc, fel, sup to the resume word, the
segments, the specials 0x20 to 0x25 and the window (R437, R444). -/
def loadImage (x : Ctx) (rd : Nat → Dword) : Ctx :=
  let gr := rd 15
  let pr := rd 16
  let y := { x with
    priority := bits (rd 0) 9 8, wdog := bits (rd 1) 63 32, pc := rd 2, ypc := rd 8
    graceOn := bit gr 0, graceI := bits gr 11 1, graceM := bits gr 48 32, predH := bits pr 6 0, predN := bits pr 9 8, resume := rd 17
    regs := (List.range x.window).foldl (fun m i => FMap.set 0 m i (ofDwords ((List.range 8).map fun k => rd (48 + 8 * i + k)))) [] }
  let sp := fun (y : Ctx) (p : Nat × Nat) => writeSpecial y p.1 (rd p.2)
  let y := [(1, 3), (2, 4), (3, 5), (4, 6), (5, 7), (7, 9), (0x0D, 12), (0x0E, 13), (0x0F, 14), (0x20, 34), (0x21, 35), (0x22, 36), (0x23, 37),
    (0x24, 38), (0x25, 39)].foldl sp y
  ((List.range 16).map fun k => (0x10 + k, 18 + k)).foldl sp y
/-- The mark of an uncorrectable error in doubleword j of an image in a core or the Kennel; those of register r are 48 + 8r on
(R425, R437). -/
def dwErrKey (id j : Nat) : Nat := 2 ^ 60 + id * 4096 + j
def dwErr (s : State) (id j : Nat) : Bool := FMap.get false s.errs (dwErrKey id j)
/-- Whether a register of a window holds an uncorrectable error (R425). -/
def regErr (s : State) (id r : Nat) : Bool := (List.range 8).any fun i => dwErr s id (48 + 8 * r + i)
/-- Whether an image cannot be loaded for an uncorrectable error (R425). -/
def imageBad (s : State) (id : Nat) : Bool := s.errs.any fun e => e.2 && e.1 / 4096 == 2 ^ 48 + id
/-- A context's error marks cleared. -/
def clearImageErrs (s : State) (id : Nat) : State := { s with errs := s.errs.filter fun e => e.1 / 4096 != 2 ^ 48 + id }
/-- Budget that reaches a context, from a child or BGIVE; an all-ones amount makes a register unlimited (R78, R81). -/
def creditCtx (x : Ctx) (ia ma : Nat) : Ctx :=
  { x with ib := if ia = all1 then dw all1 else credit x.ib ia, mb := if ma = all1 then dw all1 else credit x.mb ma }
/-- The image of a context as the Kennel or memory holds it, the budget that has come meanwhile in it (R64, R65). -/
def imageOf (s : State) (id : Nat) (x : Ctx) : Ctx :=
  if x.inMem then x.credits.foldl (fun y c => creditCtx y c.1 c.2) (loadImage x fun j => readDw s (slotAddr s x.part id + 8 * j)) else x
/-- Whether a context's image can be read now (R33, R65). -/
def imageReady (s : State) (id : Nat) : Bool := match ctxOf s id with | some x => imageDay s id x | none => true
/-- Budget that reaches a context: at once, or with its image in memory once that is read (R65, R78, R81). -/
def creditTo (s : State) (id ia ma : Nat) : State :=
  updCtx s id fun x => if x.inMem then { x with credits := x.credits ++ [(ia, ma)] } else creditCtx x ia ma
/-- Whether the backing slot of a written-back image holds an uncorrectable error. -/
def slotBad (s : State) (id : Nat) (x : Ctx) : Bool := x.inMem && errIn s (slotAddr s x.part id) (imageBytes x)
/-- A context's error marks moved, each with its doubleword, between its image in the Kennel and its backing slot (R425). -/
def slotMarks (s : State) (id : Nat) (x : Ctx) : State :=
  let a := slotAddr s x.part id
  clearImageErrs (((List.range (48 + 8 * x.window)).filter (dwErr s id)).foldl (fun s j => setErr s (a + 8 * j) true) s) id
def imageMarks (s : State) (id : Nat) (x : Ctx) : State :=
  let a := slotAddr s x.part id
  ((List.range (48 + 8 * x.window)).filter fun j => errAt s (a + 8 * j)).foldl (fun s j => { s with errs := FMap.set false s.errs (dwErrKey id j) true }) s
/-- An image that was written back is read back into its tile's Kennel, with its errors (R64, R65). -/
def readBack (s : State) (id : Nat) : State :=
  match ctxOf s id with
  | none => s
  | some x =>
    if x.inMem then
      imageMarks (kennelAdd (setCtx s id { imageOf s id x with inMem := false, credits := [] }) x.tile id) id x
    else s
/-- An image written to its backing slot, its words' tags full, gone from the Kennel (R64, R65). -/
def writeBack (s : State) (id : Nat) : State :=
  match ctxOf s id with
  | none => s
  | some x =>
    let a := slotAddr s x.part id
    let t := ((imageDws id x false).zipIdx).foldl (fun s p => putDw s (a + 8 * p.2) p.1.toNat) s
    kennelDrop (setCtx (slotMarks t id x) id { x with inMem := true }) x.tile id

/-- The image of a context on a tile of no partition, which is powered down, goes back to its backing slot (R32): DESIGN CHOICE
(log 74). -/
def restImage (s : State) (id : Nat) : State :=
  match ctxOf s id with
  | none => s
  | some x =>
    if (partOf s x.tile).isNone && !x.inMem && x.saving.isNone && (x.state == .held || x.state == .parkedOut || x.state == .queued) then writeBack s id else s
/-- Whether a core's ready queue has room. -/
def queueRoom (s : State) (core : Nat) : Bool := decide ((readyOf s core).length < 256)
/-- A context enters a core's ready queue at a level, its image in the Kennel, or its tile's overflow list (R61). -/
def joinQueue (s : State) (id core level : Nat) : State :=
  if queueRoom s core then
    let s := readBack s id
    setReady s core (insertLevel (readyOf s core) (4 * id + level % 4))
  else overflowAdd s (core / 16) id core level
/-- A context is Queued on a core; where the queue has room and its image cannot be read yet, it enters it once that can be
(R61, R64, R65). A charge taken before a park stays with it (R76, R393). -/
def enqueue (s : State) (id core level : Nat) : State :=
  let s := updCtx s id fun x =>
    { x with state := .queued, tile := core / 16, core := core % 16, slot := 0, park := none, saving := none, moving := none, decided := none
             retry := match x.park with | some p => if p.charged && p.kind == .page then some p else x.retry | none => x.retry }
  if queueRoom s core && !imageReady s id then waitLink s (core / 16) id core level else joinQueue s id core level
/-- Whether the first context that waits to enter a tile's queues may do so: into a ready queue with room that no entry of the overflow
list is bound for, once its image can be read, else into the list. -/
def linkReadyAt (s : State) (t : Nat) : Bool :=
  match waitingLinks s t with
  | [] => false
  | (id, c, _) :: _ => if queueRoom s (16 * t + c) && !(overflowList s t).any (·.2.1 == c) then imageReady s id else linkDay s t id
/-- The first of them does. -/
def makeLink (s : State) (t : Nat) : State :=
  match waitingLinks s t with
  | [] => s
  | (id, c, l) :: r =>
    let u := { s with ovfWait := FMap.set [] s.ovfWait t r }
    if queueRoom s (16 * t + c) && !(overflowList s t).any (·.2.1 == c) then joinQueue u id (16 * t + c) l else overflowLink u t id (16 * t + c) l
/-- A context out of every queue of its tile, and out of those that wait for its dispatcher. -/
def dequeue (s : State) (id : Nat) : State :=
  match ctxOf s id with
  | none => s
  | some x =>
    let s := { s with arrivals := FMap.set [] s.arrivals x.tile ((FMap.get [] s.arrivals x.tile).filter (·.ctx != id)) }
    overflowRemove (setReady s x.at_ ((readyOf s x.at_).filter fun e => e / 4 != id)) x.tile id
/-- A queued context chosen by a core's pending swap is no longer Queued (R435). -/
def swapping (s : State) (id : Nat) : Bool := s.swaps.any fun p => match p.2 with | some w => w.ctx == id | none => false

-- Messages (R213)

/-- The latest cycle at which a home drops a line that has been written from a port (R174). -/
def invalidatesDue (s : State) (port : Nat) : Nat :=
  s.agenda.foldl (fun n d => match d.step with
    | .homeInvalidate t _ => if t.src = port then Nat.max n d.at_ else n
    | _ => n) 0
/-- A message sent: one of the part follows the writes it tells of, which are complete once their homes have dropped their
copies (R174). Messages that leave different ports, even for one context, keep no order among them (R27). -/
def post (s : State) (dst : Nat) (msg : Reg) (src : MsgSrc) : State :=
  laterFrom s (match src with | .part port => invalidatesDue s port | _ => 0) (.messageArrival dst msg src)
/-- A message of the part from a port, discarded for a zero id (R450). -/
def notify (s : State) (port dst : Nat) (ds : List Dword) : State := if dst = 0 then s else post s dst (ofDwords ds) (.part port)
/-- A partition's root supervisor (R450). -/
def rootSup (s : State) (p : Nat) : Nat := bits (partReg s p 2) 31 0
/-- Where a fault message goes: none means the fault log (R415). -/
def faultTarget (s : State) (id : Nat) (sup : Nat) (p : Nat) : Option Nat :=
  let r0 := rootSup s 0
  if id = r0 ∧ r0 ≠ 0 then none
  else
    let top := if alive s r0 then some r0 else none
    if id ≠ 0 ∧ (List.range 4).any (fun q => rootSup s q == id) then top
    else if alive s sup then some sup
    else if alive s (rootSup s p) then some (rootSup s p)
    else top
/-- The part reset (R21, R470): every table at its reset value. The fault log, the flash, the fuses, the draws and the board's
findings keep their values, and so do the bytes of physical memory (log 4). -/
def partReset (s : State) : State :=
  { State.reset with
    findings := s.findings, temp := s.temp, faultLog := s.faultLog, logNext := s.logNext, flash := s.flash, repairMap := s.repairMap, rollback := s.rollback
    keyDigest := s.keyDigest, draws := s.draws, uid := s.uid, alertFrom := s.alertFrom - s.cyc, mem := s.mem.filter fun c => !isScratch c.1
    errs := s.errs.filter fun c => c.1 < scratchPlace / 8 }
/-- An entry of the fault log, the oldest overwritten (R470). -/
def logFault (s : State) (ds : List Dword) : State :=
  { s with faultLog := FMap.set [] s.faultLog (s.logNext % 16) ds, logNext := s.logNext + 1 }
/-- dw0 of a fault message (R412). -/
def faultDw0 (id page op : Nat) (c : Code) : Dword := dw (id * 2 ^ 32 + op % 16 * 2 ^ 14 + page % 64 * 2 ^ 8 + c.num)
/-- A fault message sent for a context, or the fault logged and the part reset (R412, R415, R470). -/
def sendFault (s : State) (id : Nat) (x : Ctx) (pc : Dword) (page op : Nat) (f : Flt) : State :=
  let d0 := faultDw0 id page op f.code
  match faultTarget s id x.sup.toNat x.part with
  | none => partReset (logFault s [2, dw s.cyc, d0, pc])
  | some d => post s d (ofDwords [d0, pc, f.dw2, f.dw3, f.dw4, f.dw5, x.ib, x.mb]) (.part x.tile)
/-- A context as its engines' fault messages see it: itself while it lives, then a stand-in with the supervisor it had (R305,
R332, R415); the budgets of one that has retired are zero: DESIGN CHOICE (log 86). -/
def ctxFor (s : State) (id part tile : Nat) (sup : Dword) : Ctx :=
  match ctxOf s id with
  | some x => x
  | none => { Ctx.fresh tile 0 with part := part, sup := sup }

/-- The bank drains that a context waits for lapse with its BANKCFG (R176, R345). -/
def dropDrains (s : State) (id : Nat) : State :=
  { s with drains := (s.drains.map fun (e : Nat × List (Nat × BankMode)) => (e.1, e.2.filter fun d => d.1 != id)).filter fun e => !e.2.isEmpty }
/-- The bank checks that a context's CPY or CPYS has passed lapse with the instruction (R330). -/
def dropChecks (s : State) (id : Nat) : State :=
  { s with copies := (s.copies.map fun (e : Nat × List Copy) => (e.1, e.2.filter fun c => !(c.checking && c.ctx == id))).filter fun e => !e.2.isEmpty }

-- Taking a fault and returning from it (R9, R59, R409, R418)

/-- TAKING A FAULT: the context becomes Stopped, or Held where it is Parked-out (R48), its pc stays at the faulting
instruction or at the address to resume from, pending stops and swap-outs lapse (R435), grace is kept (R418), and
one message goes to its supervisor. -/
def takeFault (s : State) (id : Nat) (pc : Dword) (page op : Nat) (f : Flt) : State :=
  match ctxOf s id with
  | none => s
  | some x =>
    let y := { x with state := if x.state == .parkedOut then .held else .stopped, park := none, retry := none, hold := none, decided := none, needs := [], spent := 0
                      saving := x.saving.map fun w => if w = .parkOut ∧ x.state ≠ .parkedOut then .swapOut else w
                      stopReq := false, outReq := false, wdogReq := false, resume := if bit f.dw5 0 then f.dw5 else x.resume }
    sendFault (dropDrains (dropChecks (setCtx s id y) id) id) id y pc page op f
/-- Whether the instruction about to issue has been charged before a park (R76). -/
def Ctx.paid (x : Ctx) : Bool := match x.retry with | some p => p.charged && p.pc == x.pc | none => false
/-- A context whose TRSTEP has faulted: the nodes that it has visited are not counted (R377). -/
def Ctx.uncounted (x : Ctx) : Ctx := { x with tnv := x.tnv - dw x.visits, visits := 0 }
/-- The fault of an instruction at its issue: precise, at pc (R9). -/
def issueFault (s : State) (id : Nat) (i : Instr) (f : Flt) : State :=
  match ctxOf s id with
  | none => s
  | some x => takeFault (if x.paid then setCtx s id x.uncounted else s) id x.pc (pageOp i).1 (pageOp i).2 f
-- Saves (R63)

/-- Whether a save may begin: nothing is outstanding but, of a Parked context, what waits in a park (R58, R420). -/
def Ctx.saveReady (x : Ctx) : Bool :=
  match x.saving with
  | none => false
  | some .parkOut => x.state == .parked && x.hold.isNone && x.longs.all fun l => l.parked.isSome
  | some _ => x.quiet && x.moving.isNone && x.state != .inTransit
/-- A save begins once it may: the slot is empty from the next cycle, and the image is in the Kennel within 192 cycles (R55,
R58, R63); a Parked context is Parked-out. -/
def trySave (s : State) (id : Nat) : State :=
  match ctxOf s id with
  | none => s
  | some x =>
    if x.saveReady then
      within (emptySlot (setCtx s id { x with moved := s.uid, state := if x.saving = some .parkOut then .parkedOut else x.state }) x.at_ x.slot) 192 (.saveComplete id)
    else s
/-- A context leaves the rotation and is saved (R77, R419). What its latch keeps stays: a charge taken (R76), or the traversal step
that completes first (R407). -/
def leave (s : State) (id : Nat) (why : SaveWhy) : State :=
  trySave (updCtx (dropChecks s id) id fun x => { x with saving := some why, graceOn := false, graceI := 0, graceM := 0, park := none, decided := none, needs := [] }) id
/-- Preempt(I) of R77, with the message of R79. -/
def preempt (s : State) (id page op : Nat) (ci cm : Nat) (overI overM grace : Bool) : State :=
  match ctxOf s id with
  | none => s
  | some x =>
    leave s id (.report (ofDwords [faultDw0 id page op .budget, x.pc, 0, dw (bitOf grace * 2 + bitOf overI * 4 + bitOf overM * 8),
      x.ypc, dw (ci % 65536 + cm * 65536)]))

-- Charges (R73 to R77)

/-- Whether a charge overdraws a register (R76). -/
def overdraws (c : Nat) (r : Dword) : Bool := bits r 47 0 != all1 && decide (bits r 47 0 < c)
/-- A register charged (R73). -/
def deduct (r : Dword) (c : Nat) : Dword := if bits r 47 0 = all1 then r else dw (bits r 47 0 - c)
/-- The charge of R77: the context charged, or none where it overdraws. -/
def charged (x : Ctx) (ci cm : Nat) : Option Ctx :=
  if x.graceOn then
    if x.graceI < ci ∨ x.graceM < cm then none
    else some { x with graceI := x.graceI - ci, graceM := x.graceM - cm }
  else if overdraws ci x.ib || overdraws cm x.mb then none
  else some { x with ib := deduct x.ib ci, mb := deduct x.mb cm }
/-- The exhaustion sequence of R77. -/
def exhausted (s : State) (id page op ci cm : Nat) : State :=
  match ctxOf s id with
  | none => s
  | some x =>
    if x.graceOn then preempt s id page op ci cm (decide (x.graceI < ci)) (decide (x.graceM < cm)) true
    else
      let y := { x with ypc := x.pc }
      if x.yc = 0 then preempt (setCtx s id y) id page op ci cm (overdraws ci x.ib) (overdraws cm x.mb) false
      else dropChecks (setCtx s id { y with graceOn := true, graceI := 1024, graceM := 65536, pc := x.yc, resume := 0, retry := none }) id

-- Parks (R60, R85)

/-- A context parks. An instruction that was charged before a park is not charged again, whatever it parks on next (R76); each
park is counted from the cycle it begins (R85). -/
def parkCtx (s : State) (id : Nat) (p : Park) : State :=
  updCtx s id fun x =>
    let p := match x.retry with
      | some r => if r.pc = p.pc then { p with charged := r.charged || p.charged } else p
      | none => p
    { x with state := .parked, park := some p, retry := none, decided := none }
/-- The park that an outstanding instruction has met (R60, R85): arg2 - 4, or arg2 - 2^20 for a home under repair, names it,
and a wait at its home keeps its limit there. -/
def longPark (x : Ctx) (l : Long) (k : ParkKind) (c0 : Nat) : Park :=
  ⟨k, c0, if k = .nq then some (bits x.fel 31 0) else none, if k = .nq then l.d.toNat else 0, (if k = .repair then 2 ^ 20 else 4) + l.seq, x.pc, true⟩
/-- The outstanding instruction that a park belongs to. -/
def Park.ofLong (p : Park) : Option Nat :=
  match p.kind with
  | .fe | .qwait => some (p.arg2 - 4)
  | .nq => if 4 ≤ p.arg2 then some (p.arg2 - 4) else none
  | .repair => if 2 ^ 20 ≤ p.arg2 then some (p.arg2 - 2 ^ 20) else none
  | .stream | .bwait | .drain | .chwait | .waitm | .equip | .page | .mma | .room | .store => none
/-- Whether a parked instruction has issued, past its charge: its context's pc is then the next instruction's (R76). -/
def Ctx.waits (x : Ctx) : Bool :=
  match x.park with
  | some p => (match p.kind with
    | .bwait | .drain | .chwait | .waitm | .store | .mma => true
    | .nq | .stream | .equip | .room | .repair | .fe | .qwait | .page => false)
  | none => false
/-- The park of a context's outstanding instructions, if one has met a park. -/
def parkOfLongs (x : Ctx) : Option Park := x.longs.findSome? fun l => l.parked.map fun p => longPark x l p.1 p.2
/-- A park's condition ends: ready from the next cycle, Stopped where a stop is pending, Queued again where it was
Parked-out, unless a fault waits for this end (R48, R55, R59, R411); Held on a tile of no
partition (R32, log 74). `again` says that the instruction is issued again. -/
def endPark (s : State) (id : Nat) (again : Bool) : State :=
  match ctxOf s id with
  | none => s
  | some x => match x.park with
    | none => s
    | some p =>
      let y := { x with park := none, retry := if again then some p else none, after := s.cyc + 1, decided := none, needs := [] }
      match parkOfLongs y with
      | some q => setCtx s id { y with park := some q }
      | none => if x.saving = some .parkOut then setCtx s id y else match x.state with
      | .parkedOut =>
        if x.longs.any (·.ended) then setCtx s id y
        else if (partOf s x.tile).isNone then setCtx s id { y with state := .held }
        else enqueue (setCtx s id y) id x.at_ x.priority
      | .parked =>
        if x.stopReq && x.longs.isEmpty then
          let z := { y with state := .stopped, stopReq := false, outReq := false }
          let s := dropChecks (setCtx s id z) id
          if x.outReq then leave s id .swapOut else s
        else setCtx s id { y with state := .resident }
      | _ => setCtx s id y

/-- RETURNING FROM A FAULT: a Stopped context becomes Resident in its slot, its watchdog count at zero (R418, R422);
with bit 0 of the resume word set the faulted instruction runs once, alone, and the context goes on at the address
in the word (R59): pc then holds the faulted instruction's address. -/
def resumeStopped (s : State) (id : Nat) : State :=
  updCtx s id fun x => match parkOfLongs x with
    | some q => { x with state := .parked, wcount := 0, after := s.cyc + 1, park := some q }
    | none => { x with state := .resident, wcount := 0, after := s.cyc + 1 }

-- Tile-bound state (R67)

/-- The physical barrier a context's barrier k names (R334). -/
def barrierOf (x : Ctx) (k : Nat) : Nat := x.tile * 256 + 16 * x.group + k
/-- A barrier's pending count. -/
def countOf (s : State) (b : Nat) : Nat := FMap.get 0 s.barriers b
/-- The bytes a context's copies have added to a barrier of its tile and that are still in it (R336). -/
def owedKey (id b : Nat) : Nat := id * 32768 + b
/-- Whether a copy is outstanding: its last byte has not landed, and it has been neither cancelled nor ended (R331). -/
def Copy.live (c : Copy) : Bool := !c.checking && !c.cancelled && !c.ended && (decide (c.next < c.len) || c.flying != 0)
/-- The copies outstanding at a tile (R331). -/
def copiesOf (s : State) (t : Nat) : List Copy := (FMap.get [] s.copies t).filter Copy.live
/-- The FIFO bank bound to a context's stream register (R337). -/
def fifoOf (s : State) (t id q : Nat) : Option Nat :=
  (List.range 24).find? fun b => (FMap.get (Fifo.mk none []) s.fifos (24 * t + b)).owner == some (id, q)
/-- The blocks granted to a context, ascending (R287). -/
def grantOf (s : State) (t id : Nat) : List Nat :=
  (List.range 64).filter fun b => (FMap.get Block.reset s.blocks (64 * t + b)).owner == some id
/-- An MMA or MMAS of a context not yet complete: it parks its issuer (R299). -/
def mmaFlying (x : Ctx) : Bool := match x.park with | some p => p.kind == .mma | none => false
/-- Whether a rover holds tile-bound state (R67). -/
def tileBound (s : State) (id : Nat) (x : Ctx) : Bool :=
  (copiesOf s x.tile).any (·.ctx == id) || s.owed.any (fun e => e.1 / 32768 == id && countOf s (e.1 % 32768) != 0)
    || (List.range 8).any (fun q => (fifoOf s x.tile id q).isSome) || !x.grant.isEmpty || mmaFlying x
/-- A rover's window (R41). -/
def Ctx.rover (x : Ctx) : Bool := x.window == 24

-- Retirement (R81, R156)

/-- A stream's binding ends when its owner has retired, or has emptied it, and no copy bound to it is outstanding or has a line on its
way (R338, R344). -/
def releaseStreams (s : State) (t id : Nat) : State :=
  (List.range 24).foldl (fun s b =>
    let f := FMap.get (Fifo.mk none []) s.fifos (24 * t + b)
    match f.owner with
    | some (o, q) =>
      let busy := (FMap.get [] s.copies t).any fun c => c.stream == some (o, q) && !c.checking && !c.ended && (c.live || c.flying != 0)
      if o = id ∧ !busy ∧ (!alive s o || f.elems.isEmpty) then { s with fifos := FMap.set (Fifo.mk none []) s.fifos (24 * t + b) ⟨none, []⟩ } else s
    | none => s) s
/-- A context's blocks return to the free blocks, their reservations dropped (R287, R156). -/
def freeBlocks (s : State) (t id : Nat) : State :=
  (grantOf s t id).foldl (fun s b =>
    let k := FMap.get Block.reset s.blocks (64 * t + b)
    { s with blocks := FMap.set Block.reset s.blocks (64 * t + b) { k with owner := none, reserved := false, expected := 0, arrived := 0, x := false } }) s
/-- The accesses of a context that wait at homes, or that a full wait list has returned, are gone without effect on their words
(R181); that a returned one counts as a wait-list entry is DESIGN CHOICE (log 65). -/
def dropWaits (s : State) (id : Nat) : State :=
  { s with waits := (s.waits.map fun (e : Nat × List Access) => (e.1, e.2.filter fun (a : Access) => a.ctx != id)).filter fun e => !e.2.isEmpty
           agenda := s.agenda.filter fun d => match d.step with
             | .accessAtHome a => a.ctx != id || a.seq == 0 || !waitsAtHome a
             | .waitListResend a => a.ctx != id || a.seq == 0
             | _ => true }
/-- Retirement: budget to a living spawner unless lost (R81), the slot emptied, queue entries and wait-list entries
removed (R181), blocks freed, bindings released, the id free (R42, R156). -/
def retire (s : State) (id : Nat) (lost : Bool) : State :=
  match ctxOf s id with
  | none => s
  | some x =>
    let z := imageOf s id x
    let s := if lost then s else creditTo s x.spawner (if bits z.ib 47 0 = all1 then 0 else bits z.ib 47 0) (if bits z.mb 47 0 = all1 then 0 else bits z.mb 47 0)
    let s := if x.holdsSlot then emptySlot s x.at_ x.slot else s
    let s := if x.state == .queued then dequeue s id else s
    let s := kennelDrop s x.tile id
    let s := dropWaits s id
    let s := { s with arrivals := FMap.set [] s.arrivals x.tile ((FMap.get [] s.arrivals x.tile).filter (·.ctx != id)) }
    let s := clearImageErrs { dropDrains s id with owed := s.owed.filter fun e => e.1 / 32768 != id } id
    let s := freeBlocks (dropChecks s id) x.tile id
    releaseStreams { s with ctxs := FMap.erase s.ctxs id } x.tile id

-- Creation (R41, R42)

/-- The lowest number from i on, of n numbers, that a list lacks. -/
def firstFree (used : List Nat) : Nat → Nat → Option Nat
  | _, 0 => none
  | i, n + 1 => if used.contains i then firstFree used (i + 1) n else some i
/-- The next context id of a tile and the entry's generation raised: none when its table is full (R42). -/
def newId (s : State) (t : Nat) : Option (Nat × State) :=
  let used := s.ctxs.filterMap fun p => if p.1 / 2 ^ 25 = t then some (p.1 / 2 ^ 12 % 8192) else none
  (firstFree used 0 8192).map fun i =>
    let g := FMap.get 0 s.gens (8192 * t + i)
    let g' := if g = 4095 then 1 else g + 1
    (t * 2 ^ 25 + i * 2 ^ 12 + g', { s with gens := FMap.set 0 s.gens (8192 * t + i) g' })
/-- The dispatcher of a tile places one context a cycle (R362, R363). -/
def dispatchLater (s : State) (t at_ : Nat) : State :=
  laterFrom s (s.agenda.foldl (fun n d => if d.step = .dispatcherPlace t then Nat.max n (d.at_ + 1) else n) at_) (.dispatcherPlace t)
/-- A context waits for its tile's dispatcher; its image is in the Kennel. -/
def arrive (s : State) (t : Nat) (a : Arrival) : State :=
  dispatchLater (kennelAdd { s with arrivals := FMap.set [] s.arrivals t (FMap.get [] s.arrivals t ++ [a]) } t a.ctx) t a.cycle

-- Outstanding instructions that fail (R59)

/-- An outstanding instruction of a context changed. -/
def updLong (s : State) (id seq : Nat) (f : Long → Long) : State :=
  updCtx s id fun x => { x with longs := x.longs.map fun l => if l.seq = seq then f l else l }
/-- The fault of an outstanding instruction, reported at its completion (R59). -/
def failLong (s : State) (id seq : Nat) (f : Flt) : State :=
  soon (updLong s id seq fun l => { l with fault := some f, waiting := 0 }) (.longCompletion id seq)

-- The front end's own faults (R352, R409)

/-- The width of the system column, from the configuration table in flash (R32, R457). -/
def columnWidth (s : State) : Nat := (FMap.get 0 s.flash 0x1008).toNat
/-- Whether a tile is in the system column (R32). -/
def inColumn (s : State) (t : Nat) : Bool := decide (t < 64) && decide (t % 8 < columnWidth s)
/-- The role of a tile of the system column (R457). The role map has nibbles for columns 0 to 3, those a system column can
have; a tile further east has none. -/
def roleOf (s : State) (t : Nat) : Nat :=
  let n := 8 * (t % 8) + t / 8
  if 4 ≤ t % 8 then 0 else (FMap.get 0 s.flash (0x1010 + n / 2)).toNat / 16 ^ (n % 2) % 16
/-- The lowest-numbered tile of a role. -/
def roleTile (s : State) (r : Nat) : Option Nat := (List.range 64).find? fun t => inColumn s t && roleOf s t == r
/-- The context on whose core the front end runs: the boot context of its role (R348, R457). -/
def frontEndId (s : State) : Nat := match roleTile s 1 with | some t => t * 2 ^ 25 + 1 | none => 0
/-- A fault of the front end's own access stops its context, at its pc, and the front end with it (R352, R409). -/
def feFails (s : State) (f : Flt) : State :=
  let t := { s with feWait := none, fePark := none }
  match ctxOf s (frontEndId s) with
  | some x => takeFault t (frontEndId s) x.pc 7 1 f
  | none => t

/-- An access that is not performed: the fault of its instruction, or of the front end; a store's meets nobody (R59, R195, R352). -/
def failAccess (s : State) (a : Access) (f : Flt) : State :=
  if a.land = .frontEnd then feFails s f else if a.seq = 0 then s else failLong s a.ctx a.seq f

-- Resets (R21, R428)

/-- A lost context: its supervisor receives WDOG, and it is retired without returning budget (R424, R428). -/
def loseCtx (s : State) (id : Nat) (dw3 : Nat) : State :=
  match ctxOf s id with
  | none => s
  | some x =>
    let lim := (if x.wdog = 0 then bits (partReg s x.part 1) 31 0 else x.wdog) * 1024
    retire (sendFault s id x x.pc 0 0 ⟨.wdog, dw x.wcount, dw dw3, dw lim, 0⟩) id true
/-- The waiters of a tile's home lose their entries: each of their contexts faults PROT (R428). -/
def dropWaiters (s : State) (t : Nat) : State :=
  (FMap.get [] s.waits t).foldl (fun s a => failAccess s a ⟨.prot, dw a.uaddr, 32, 0, 0⟩) { s with waits := s.waits.filter fun e => e.1 != t }
/-- The outstanding copies of a tile end, each with its PROT message, which names the line that a copy reads next, or its last
(R332, R428); a part reset, which an unheard fault makes (R470), ends the rest. -/
def endCopies (s : State) (t : Nat) : State :=
  (copiesOf s t).foldl (fun s c =>
    if s.phase ≠ .running then s
    else sendFault s c.ctx { ctxFor s c.ctx c.part t c.sup with tile := t } c.pc 9 (bitOf c.stream.isSome)
      ⟨.prot, dw ((c.src + Nat.min c.next (c.len - 1)) / 64 * 64), 33, c.user, 0⟩) s
/-- A tile's tables and SRAM at the state of R21. -/
def clearTile (s : State) (t : Nat) : State :=
  let mine := fun (m : Nat) (k : Nat) => decide (m * t ≤ k) && decide (k < m * (t + 1))
  { s with
    banks := s.banks.filter fun e => !mine 24 e.1
    drains := s.drains.filter fun e => !mine 24 e.1
    fifos := s.fifos.filter fun e => !mine 24 e.1
    ways := s.ways.filter fun e => e.1 / 2 ^ 20 != t
    rr := s.rr.filter fun e => !mine 1024 e.1
    tlb1 := s.tlb1.filter fun e => !mine 16 e.1
    tlb2 := s.tlb2.filter fun e => e.1 != t
    barriers := s.barriers.filter fun e => !mine 256 e.1
    copies := s.copies.filter fun e => e.1 != t
    engines := s.engines.filter fun e => e.1 != t
    formats := s.formats.filter fun e => !mine 16 e.1
    blocks := s.blocks.filter fun e => !mine 64 e.1
    sends := s.sends.filter fun e => !mine 16 e.1
    ovf := s.ovf.filter fun e => e.1 != t
    ovfWait := s.ovfWait.filter fun e => e.1 != t
    arrivals := s.arrivals.filter fun e => e.1 != t
    ready := s.ready.filter fun e => !mine 16 e.1
    emptied := s.emptied.filter fun e => !mine 16 e.1
    swaps := s.swaps.filter fun e => !mine 16 e.1
    ports := s.ports.filter fun e => !mine 64 e.1
    mem := s.mem.filter fun c => !(decide (placeOf t 0 ≤ c.1) && decide (c.1 < placeOf (t + 1) 0))
    tags := s.tags.filter fun c => !(decide (placeOf t 0 ≤ 8 * c.1) && decide (8 * c.1 < placeOf (t + 1) 0))
    errs := s.errs.filter fun c => !(decide (placeOf t 0 ≤ 8 * c.1) && decide (8 * c.1 < placeOf (t + 1) 0)) }
/-- A tile reset (R428): its contexts lost, waiters faulted PROT, copies ended, the commands it took from other
engines back in theirs (R299), its tables at R21's values, and the
tile under repair (R427). `failed` is the context whose save failed (R424). -/
def tileReset (s : State) (t : Nat) (failed : Option Nat) : State :=
  let s := endCopies (match failed with | some id => loseCtx s id 5 | none => s) t
  let lost := s.ctxs.filter fun p => p.2.tile == t
    && (p.2.state == .resident || p.2.state == .parked || p.2.state == .stopped || p.2.state == .queued || p.2.state == .parkedOut
      || (p.2.state == .held && tileBound s p.1 p.2))
  let s := dropWaiters (lost.foldl (fun s p => loseCtx s p.1 3) s) t
  let e := FMap.get Engine.reset s.engines t
  let s := ((e.queue ++ e.running.toList).filter (·.migrated)).foldl (fun s k =>
    let h := FMap.get Engine.reset s.engines k.home
    let s := { s with engines := FMap.set Engine.reset s.engines k.home { h with queue := h.queue ++ [{ k with migrated := false }] } }
    if k.mmas then later s (.retrieverFetch k.home k.uid) else s) s
  let s := clearTile s t
  if s.phase = .running then { s with tiles := FMap.set 0 s.tiles t (setBits (tileWord s t) 7 7 1) } else s

end Sys2Proof.Machine
end

