-- ==== Sys2Proof/Machine/Resolve.lean ====
section
/-! DEFINITION. Where the accesses of an instruction would go: its addresses (R193), their checks and translation (R162,
R165 to R168, R186), their homes and migration (R68 to R70), and what an access that acts at issue waits for (R226). -/

namespace Sys2Proof.Machine

/-- Why an instruction does not complete at issue. -/
inductive Trap where
  | fault (f : Flt)
  | chain (e : ChainFault)
  | park (p : Park)
  /-- a page that is not present (R186): its unified address, a write, TR -/
  | page (u : Nat) (write tr : Bool)
  | exhaust (ci cm : Nat)
  /-- a fetch that waits for a day of its partition (R33) -/
  | wait
  /-- an address whose walk waits for a day of its partition: the instruction has issued (R33) -/
  | walk (u : Nat)
  deriving DecidableEq, Repr

-- Registers

/-- A window register (R40). -/
def Ctx.reg (x : Ctx) (r : Nat) : Reg := FMap.get 0 x.regs r
/-- A window register written. -/
def Ctx.setReg (x : Ctx) (r : Nat) (v : Reg) : Ctx := { x with regs := FMap.set 0 x.regs r v }
/-- Lanes 1:0 of a window register (R137). -/
def Ctx.scalar (x : Ctx) (r : RegNo) : Dword := scalarOf (x.reg r.toNat)
/-- Lane 0 of a window register as a number. -/
def Ctx.lane0 (x : Ctx) (r : RegNo) : Nat := (lane (x.reg r.toNat) 0).toNat
/-- Doubleword i of a window register. -/
def Ctx.dword (x : Ctx) (r : RegNo) (i : Nat) : Dword := Sys2Proof.Machine.dword (x.reg r.toNat) i

-- Checks and translation of an instruction's addresses

/-- What the addresses of an instruction come to: the unified address and spot of each, a trap with no effect, or
PROT. -/
inductive Ready where
  | spots (l : List (Nat × Spot)) (s : State)
  | stop (t : Trap)
  | prot (f : Flt)
  deriving DecidableEq, Repr
/-- The checks of R162 and R165 on each address, in order. -/
def checkAll (s : State) (x : Ctx) (n align : Nat) (r : Rights) : List Dword → Except Flt (List Nat)
  | [] => .ok []
  | a :: t => match segMap x a n align r with
    | .error f => .error f
    | .ok u =>
      match (match regionOf u with
        | .scratch tl off => scratchFault s x.part u tl off
        | .hole => some (holeFault s x.part u)
        | .none => some (apertureFault u 16)
        | .paged => none) with
      | some f => .error f
      | none => match checkAll s x n align r t with | .error f => .error f | .ok us => .ok (u :: us)
/-- The translations of R166 to R168 and R186, all before any is performed; a walk may wait for a day (R33). -/
def mapAll (x : Ctx) (r : Rights) : State → List Nat → Ready
  | s, [] => .spots [] s
  | s, u :: t => if regionOf u == .paged && walkWaits s true x.part x.at_ u then .stop (.walk u) else match mapUnified s x.part x.at_ u r with
    | .now f => .stop (.fault f)
    | .prot f => .prot f
    | .absent tr => .stop (.page u r.w tr)
    | .spot p s' => match mapAll x r s' t with
      | .spots l s'' => .spots ((u, p) :: l) s''
      | e => e
/-- An instruction's addresses checked, translated and placed. -/
def resolve (s : State) (x : Ctx) (as : List Dword) (n align : Nat) (r : Rights) : Ready :=
  match checkAll s x n align r as with
  | .error f => .stop (.fault f)
  | .ok us => mapAll x r s us

-- Homes, migration and traffic (R68 to R70, R75)

/-- The mb charge of accesses of n bytes each: those whose home is another tile (R75). -/
def traffic (x : Ctx) (l : List (Nat × Spot)) (n : Nat) : Nat := (l.filter fun p => p.2.home != x.tile).length * n
/-- The tile an access migrates its context to, and the predictor after it (R68, R70). -/
def migration (s : State) (id : Nat) (x : Ctx) (pol : Policy) (l : List (Nat × Spot)) : Option Nat × Nat × Nat :=
  let stay := (none, x.predH, x.predN)
  match l with
  | [] => stay
  | (_, p) :: t =>
    if !x.rover || !p.paged || t.any (fun q => q.2.place / 64 != p.place / 64) then stay
    else
      let go := p.home != x.tile && !tileBound s id x && partOf s p.home == some x.part && !underRepair s p.home
      match pol with
      | .remote => stay
      | .migrate => if go then (some p.home, x.predH, 0) else stay
      | .pred =>
        if p.home = x.tile then (none, x.predH, 0)
        else
          let n := if p.home = x.predH then Nat.min (x.predN + 1) 3 else 1
          if n = 3 ∧ go then (some p.home, p.home, 0) else (none, p.home, n)

-- The addresses of pages 6 and 7 (R193)

/-- The address of the RI memory form (R193). -/
def riAddr (x : Ctx) (a : RegNo) (imm : Dword) : Dword := ea (x.scalar a) imm
/-- Access sizes of types (R198). -/
def typeSize : MType → Nat | .ub => 1 | .sb => 1 | .uh => 2 | .sh => 2 | .uw => 4 | .sw => 4 | .d => 8
/-- The addresses of a gather or scatter, lanes of p0 ascending (R193, R201). -/
def gatherAddrs (x : Ctx) (a b : RegNo) : List Dword :=
  (lanesOf (maskP x.pw 0)).map fun l => ea (x.scalar a) ((lane (x.reg b.toNat) l).signExtend 64)
/-- Addresses, size, alignment, rights and home policy. -/
structure Named where
  as : List Dword
  n : Nat
  align : Nat
  r : Rights
  pol : Policy
/-- What an instruction with a home policy names (R193); a prefetch never migrates (R202). -/
def namedBy (x : Ctx) (i : Instr) : Option Named :=
  let one := fun (q : MQual) (a : RegNo) (imm : Dword) (n : Nat) (r : Rights) => some (Named.mk [riAddr x a imm] n n r q.pol)
  match i with
  | .ld _ q _ a imm => one q a imm (typeSize q.ty) rightsR
  | .st q _ a imm => one q a imm (typeSize q.ty) rightsW
  | .vld _ q _ a imm | .ldmx _ q _ a imm => one q a imm 64 rightsR
  | .vst q _ a imm | .zline q a imm => one q a imm 64 rightsW
  | .vgath _ q _ a b => some ⟨gatherAddrs x a b, typeSize q.ty, typeSize q.ty, rightsR, q.pol⟩
  | .vscat q _ a b => some ⟨gatherAddrs x a b, typeSize q.ty, typeSize q.ty, rightsW, q.pol⟩
  | .ldf _ q _ a imm | .fetag _ q _ a imm => one q a imm 8 rightsRS
  | .take _ q _ a imm | .put _ q _ a imm | .stf _ q _ a imm | .sete _ q a imm => one q a imm 8 rightsRWS
  | _ => none
/-- Whether an instruction's accesses migrate its context (R68 to R70). -/
def wouldMigrate (s : State) (id : Nat) (x : Ctx) (i : Instr) : Bool :=
  match namedBy x i with
  | none => false
  | some q => match resolve s x q.as q.n q.align q.r with
    | .spots l s1 => !(l.any fun p => p.2.paged && underRepair s1 p.2.home) && (migration s id x q.pol l).1.isSome
    | _ => false

-- Accesses that act at issue (R226)

/-- APERTURE where an address is not in the context's own scratch, in a bank in scratch mode (R175, R311, R385, R392). -/
def ownScratch (s : State) (x : Ctx) (u : Nat) : Option Flt :=
  match regionOf u with
  | .scratch t off =>
    let b := bitOf (bankMode s t (off / 0x10000) != .scratch) * 2
    if t = x.tile then (if b = 0 then none else some (apertureFault u b))
    else some (apertureFault u (b + bitOf (partOf s t != some x.part) * 4 + bitOf (underRepair s t) * 8 + 64))
  | .hole => some (apertureFault u (holeBits s x.part u + bitOf (apertureTile u != x.tile) * 64))
  | .none => some (apertureFault u 16)
  | .paged => some (apertureFault u 64)
/-- The unified address of the traversal area (R392). -/
def areaAddr (x : Ctx) : Nat := x.tarea.toNat % 2 ^ 56 / 2 ^ 14 * 2 ^ 14
/-- The unified addresses, one for each ordering class, of the accesses to its own scratch that an instruction makes as it
issues (R385 to R387, R392). -/
def actsOn (x : Ctx) (i : Instr) : List Nat :=
  let line := fun (a : RegNo) (r : Rights) => match segMap x (ea (x.scalar a) 0) 64 64 r with | .ok u => [u] | .error _ => []
  match i with
  | .rzt q a _ => line a ⟨true, !q.nowr, false, false⟩
  | .rwr a _ => line a rightsW
  | .trset _ _ | .trcmt _ _ | .trres _ => (List.range 4).map fun k => areaAddr x + 64 * k
  | _ => []
/-- The classes in which a context that is held acts once what comes before it has been performed (R226, R387). -/
def Ctx.actsIn (x : Ctx) : List Nat := match x.hold with | some (.acting i) => (actsOn x i).map planeOf | _ => []
/-- Whether a context of a tile whose instruction has number below n is held to act in a class (R226). -/
def actsBefore (s : State) (t n plane : Nat) : Bool :=
  s.agenda.any fun d => match d.step with
    | .traversalStepComplete ⟨j, m⟩ => decide (m < n) && (match ctxOf s j with | some y => y.tile == t && y.actsIn.contains plane | none => false)
    | _ => false
/-- Whether an access of a context to its own scratch, numbered n, is ordered behind one not yet performed (R226). -/
def actsTooSoon (s : State) (n id : Nat) (x : Ctx) (u : Nat) : Bool :=
  let a : Access := { uid := n, ctx := id, seq := 0, ins := n, kind := .zline, land := .none, src := x.tile, home := x.tile, place := 0, uaddr := u
                      part := x.part, watched := false, sys := false, deadline := 0, parkedAt := 0, full := false, repair := none, rel := false, acq := false
                      floor := Nat.max x.moved x.fenced, parts := [], comb := none, core := some x.at_ }
  (pendingAccesses s).any (follows s a) || actsBefore s x.tile n (planeOf u)
/-- Whether what an instruction does to its own scratch as it issues waits for accesses that come before it (R226, R387). -/
def mustHold (s : State) (n id : Nat) (x : Ctx) (i : Instr) : Bool := (actsOn x i).any (actsTooSoon s n id x)

end Sys2Proof.Machine
end

