-- ==== Sys2Proof/Machine/Operands.lean ====
section
/-! DEFINITION. The issue of an instruction (R134, R76, R406) and every operand form: registers, ports, streams and
groups (R120 to R122, R137, R194, R375). -/

namespace Sys2Proof.Machine

/-- A meaning's body: the state after it, or why it has no effect. -/
abbrev M := StateT State (Except Trap)

/-- The body ends in a trap: the instruction has no effect (R9). -/
def trap {α : Type} (t : Trap) : M α := fun _ => .error t
/-- The body faults (R9). -/
def raise {α : Type} (f : Flt) : M α := trap (.fault f)
/-- The state changed by a function. -/
def upd (f : State → State) : M Unit := fun s => .ok ((), f s)
/-- The issuing context as it stands. -/
def self (id : Nat) : M Ctx := fun s => match ctxOf s id with
  | some x => .ok (x, s)
  | none => .ok (Ctx.fresh 0 0, s)
/-- The issuing context changed. -/
def updSelf (id : Nat) (f : Ctx → Ctx) : M Unit := upd (updCtx · id f)
/-- Charge(ci, cm) of R77; none for an instruction that was charged, parked and proceeds (R76): its retry is still with the
context. -/
def charge (id ci cm : Nat) : M Unit := fun s => match ctxOf s id with
  | none => .ok ((), s)
  | some x =>
    if x.retry.isSome then .ok ((), s)
    else match charged x ci cm with
      | some y => .ok ((), setCtx s id y)
      | none => .error (.exhaust ci cm)
/-- A fault where a condition holds. -/
def raiseIf (c : Bool) (f : Flt) : M Unit := if c then raise f else pure ()
/-- The instruction parks before it is charged; it is issued again when the park ends. -/
def parkNow {α : Type} (k : ParkKind) (limit : Option Nat) (arg arg2 : Nat) (x : Ctx) : M α := fun s =>
  .error (.park ⟨k, s.cyc, limit, arg, arg2, x.pc, false⟩)

/-- The park of R186 and its request to the paging service (R187). -/
def pagePark (s : State) (id : Nat) (x : Ctx) (u : Nat) (write tr : Bool) : State :=
  notify (parkCtx s id ⟨.page, s.cyc, none, u, 0, x.pc, x.paid⟩) x.tile (bits (partReg s x.part 3) 31 0)
    [0x100, dw id, dw u, x.pc, dw (bitOf write + bitOf tr * 2 + x.tile * 8)]

-- Registers

/-- MEMERR at an instruction that reads a register with an uncorrectable error (R425). -/
def regFault : Flt := flt .memerr 0 2 0
/-- A write of whole 64-bit words of a register replaces those that are erroneous; an error in a word that is written in part, or not
at all, remains (R425). -/
def clearRegErr (s : State) (id r : Nat) (whole : Nat → Bool) : State :=
  { s with errs := s.errs.filter fun e => !(e.1 / 8 == dwErrKey id (48 + 8 * r) / 8 && whole (e.1 % 8)) }
/-- The doublewords of a register that an update of it writes whole: nothing of what they held is in what they become. -/
def writesWhole (f : Reg → Reg) (i : Nat) : Bool := dword (f 0) i == dword (f (BitVec.allOnes 512)) i
/-- The doublewords of which a set of lanes holds both. -/
def wholeIn (m : BitVec 16) (i : Nat) : Bool := inMask m (2 * i) && inMask m (2 * i + 1)
/-- The errors of n registers from r on that a write of some of their lanes clears (R425). -/
def clearLanes (s : State) (id r n : Nat) (m : BitVec 16) : State := (List.range n).foldl (fun s k => clearRegErr s id (r + k) (wholeIn m)) s

-- Ports and streams (R122)

/-- The port of a register number, 0 to 3 for nN to nW. -/
def portOf (r : RegNo) : Nat := r.toNat - 128
/-- The entries a read of a port or stream register finds (R28, R31, R338). -/
def entriesAt (s : State) (id : Nat) (x : Ctx) (r : RegNo) : List Reg :=
  if r.toNat ≤ 131 then
    if (peer s x.at_ (portOf r)).isSome then portQueue s x.at_ (portOf r) else []
  else match fifoOf s x.tile id (r.toNat - 132) with
    | some b => (FMap.get (Fifo.mk none []) s.fifos (24 * x.tile + b)).elems
    | none => []
/-- Whether the queue a port writes to has room (R28, R122). -/
def roomAt (s : State) (x : Ctx) (r : RegNo) : Bool :=
  match peer s x.at_ (portOf r) with
  | some c => decide ((portQueue s c (facing (portOf r))).length < 8)
  | none => false
/-- An entry pushed to a port's peer. -/
def pushPort (s : State) (x : Ctx) (r : RegNo) (v : Reg) : State :=
  match peer s x.at_ (portOf r) with
  | some c => { s with ports := FMap.set [] s.ports (4 * c + facing (portOf r)) (portQueue s c (facing (portOf r)) ++ [v]) }
  | none => s
/-- The oldest entry of a port or stream register popped. -/
def pop (s : State) (id : Nat) (x : Ctx) (r : RegNo) : Reg × State :=
  let v := (entriesAt s id x r).headD 0
  if r.toNat ≤ 131 then (v, { s with ports := FMap.set [] s.ports (4 * x.at_ + portOf r) (portQueue s x.at_ (portOf r)).tail })
  else match fifoOf s x.tile id (r.toNat - 132) with
    | some b =>
      let f := FMap.get (Fifo.mk none []) s.fifos (24 * x.tile + b)
      (v, releaseStreams { s with fifos := FMap.set (Fifo.mk none []) s.fifos (24 * x.tile + b) { f with elems := f.elems.tail } } x.tile id)
    | none => (v, s)
/-- The register numbers an instruction pops, in the order A, B, D (R122). -/
def popsOf (i : Instr) : List RegNo :=
  let f := fun (k : Field) => (usesOf i).filterMap fun u => if u.rd ∧ u.field = k ∧ 128 ≤ u.num.toNat then some u.num else none
  f .A ++ f .B ++ f .D
/-- The port an instruction pushes at issue (R122); VPUT pushes nothing where its lane is not in p0 (R260). -/
def pushOf (x : Ctx) (i : Instr) : Option RegNo :=
  if isLong i || (match i with | .vput _ _ k => !inMask (maskP x.pw 0) (k.toNat % 16) | _ => false) then none else ((usesOf i).find? fun u => u.wr && u.field == .D && decide (128 ≤ u.num.toNat) && decide (u.num.toNat ≤ 131)).map (·.num)
/-- The queues an instruction names: those it pops with the entries it will pop, and the one it pushes, with 0 (R122). -/
def queueNeeds (x : Ctx) (i : Instr) : List (RegNo × Nat) :=
  let ps := popsOf i
  ps.map (fun r => (r, ps.count r)) ++ (pushOf x i).toList.map fun r => (r, 0)
/-- Whether a queue holds the entries that are needed of it, or has room for a push. -/
def queueMeets (s : State) (id : Nat) (x : Ctx) (q : RegNo × Nat) : Bool :=
  if q.2 = 0 then roomAt s x q.1 else decide (q.2 ≤ (entriesAt s id x q.1).length)
/-- The first queue that lacks an entry to pop, or room for a push, and the entries it needs (R122). -/
def queueLack (s : State) (id : Nat) (x : Ctx) (i : Instr) : Option (RegNo × Nat) := (queueNeeds x i).find? fun q => !queueMeets s id x q
/-- The first of the queues a parked context waits for that is not as it needs it (R122). -/
def lackOf (s : State) (id : Nat) (x : Ctx) : Option (RegNo × Nat) := x.needs.find? fun q => !queueMeets s id x q
/-- The park on a queue (R85). -/
def queuePark (s : State) (x : Ctx) (r : RegNo) (n : Nat) : Park :=
  ⟨if r.toNat ≤ 131 then .nq else .stream, s.cyc, some (bits x.fel 31 0), r.toNat, n, x.pc, false⟩

-- Reading and writing fields (R137, R194)

/-- A field read: the register, or the entry popped. -/
def vread (id : Nat) (r : RegNo) : M Reg := fun s => match ctxOf s id with
  | none => .ok (0, s)
  | some x =>
    if r.toNat ≤ 127 then .ok (x.reg r.toNat, s)
    else let p := pop s id x r; .ok (p.1, p.2)
/-- Sread of R137. -/
def sread (id : Nat) (r : RegNo) : M Dword := do return scalarOf (← vread id r)
/-- A register, or a port's queue, written whole. -/
def putReg (s : State) (id : Nat) (r : RegNo) (f : Reg → Reg) : State := match ctxOf s id with
  | none => s
  | some x =>
    if r.toNat ≤ 127 then clearRegErr (setCtx s id (x.setReg r.toNat (f (x.reg r.toNat)))) id r.toNat (writesWhole f)
    else pushPort s x r (f 0)
/-- Swrite of R137. -/
def swrite (id : Nat) (r : RegNo) (v : Dword) : M Unit := upd (putReg · id r (withScalar · v))
/-- Vwrite of R194. -/
def vwrite (id : Nat) (r : RegNo) (v : Reg) (m : BitVec 16) : M Unit := upd (putReg · id r (mergeLanes m v))
/-- The whole of a register written. -/
def wwrite (id : Nat) (r : RegNo) (v : Reg) : M Unit := upd (putReg · id r fun _ => v)
/-- A transfer of control (R148). -/
def jump (id : Nat) (t : Dword) : M Unit := updSelf id fun x => { x with pc := t }
/-- The target of a branch (R119). -/
def target (x : Ctx) (off : Dword) : Dword := x.pc + 2 * off

-- The checks at issue (R134, R375, R123)

/-- A register number checked against its field and the window (R120, R121). -/
def regCheck (page op : Nat) (window : Nat) (u : Use) (n : RegNo) : Option ChainFault :=
  let bad := match u.kind with
    | .data => decide (140 ≤ n.toNat) || (u.wr && decide (132 ≤ n.toNat))
    | .gOnly => decide (128 ≤ n.toNat)
    | .stream => decide (n.toNat < 132) || decide (139 < n.toNat)
  if bad then some ⟨.regnum, page, op, 0, u.field, n⟩
  else if n.toNat ≤ 127 ∧ window ≤ n.toNat then some ⟨.regwin, page, op, 0, u.field, n⟩
  else none
/-- The members of a group after its first (R375). -/
def groupCheck (page op window : Nat) (u : Use) : Option ChainFault :=
  ((List.range u.size).drop 1).findSome? fun k =>
    let n := u.num.toNat + k
    if 127 < n then some ⟨.regnum, page, op, 0, u.field, BitVec.ofNat 8 n⟩
    else if window ≤ n then some ⟨.regwin, page, op, 0, u.field, BitVec.ofNat 8 n⟩
    else none
/-- Whether an instruction of page 15 needs the privilege bit (R129, R430). -/
def needsPriv : Instr → Bool
  | .ctxrd _ _ | .ctxwr _ _ _ | .ctxctlStop _ _ _ | .ctxctlResume _ _ _ | .ctxctlSwapOut _ _ _ | .ctxctlRetire _ _ _
  | .ctxctlDrop _ _ _ => false
  | i => (pageOp i).1 == 15
/-- PRIV, REGNUM and REGWIN in the order of R134, then the groups (R375). -/
def issueCheck (i : Instr) (x : Ctx) : Option ChainFault :=
  let p := pageOp i
  if needsPriv i && !x.priv then some ⟨.priv, p.1, p.2, 0, .none, 0⟩
  else match (usesOf i).findSome? fun u => regCheck p.1 p.2 x.window u u.num with
    | some e => some e
    | none => (usesOf i).findSome? fun u => groupCheck p.1 p.2 x.window u
/-- A number of the field of R136. -/
def fieldNum : Field → Nat | .D => 0 | .A => 1 | .B => 2 | .none => 3
/-- The fault of a chain that is not a legal instruction, with the doublewords of R136. -/
def chainFlt (ws : List Half) (e : ChainFault) : Flt :=
  let h := fun (k : Nat) => (ws.getD k 0).toNat
  ⟨e.code, dw (h 0 + h 1 * 2 ^ 16 + h 2 * 2 ^ 32 + h 3 * 2 ^ 48), dw (h 4 + ws.length * 2 ^ 16),
    dw (e.reason + fieldNum e.field * 2 ^ 8 + e.reg.toNat * 2 ^ 10), 0⟩
/-- A chain fault taken (R134, R136). -/
def chainFault (s : State) (id : Nat) (e : ChainFault) : State :=
  match ctxOf s id with
  | none => s
  | some x => takeFault s id x.pc e.page e.op (chainFlt s.issue.words e)

-- The equipped-core move (R71) and moves within a tile (R66)

/-- The lowest-numbered equipped core of a tile with room (R71). -/
def equippedRoom (s : State) (t g : Nat) : Option Nat :=
  [0, 4, 8, 12].find? fun c => coreHasRoom s (16 * t + c) g
/-- A move to another core of the tile begins: the slot is empty from the next cycle (R55, R66). -/
def moveWithin (s : State) (id core : Nat) : State :=
  match ctxOf s id with
  | none => s
  | some x => within (emptySlot (setCtx s id { x with moving := some core, moved := s.uid }) x.at_ x.slot) 192 (.coreMoveArrival id core)
/-- The equipped-core move, or the park where no equipped core has room (R71). -/
def equipMove (s : State) (id : Nat) : State :=
  match ctxOf s id with
  | none => s
  | some x => match equippedRoom s x.tile x.window with
    | some c => moveWithin s id (16 * x.tile + c)
    | none => parkCtx s id ⟨.equip, s.cyc, some (bits x.fel 31 0), 0, 0, x.pc, false⟩
/-- Whether an instruction moves its context to an equipped core first (R71). -/
def wantsEquipped (i : Instr) (x : Ctx) : Bool := ((pageOp i).1 == 12 || (pageOp i).1 == 13) && !equipped x.core

-- The candidate budget (R406)

/-- Whether the candidate budget counts the instruction about to issue. -/
def cbArmed (x : Ctx) : Bool := bit x.cb 32 && !x.paid
/-- The candidates of the last TRSTEP rejected: status 2 becomes 0, and control returns to it (R406). SETS and KLOAD write cbret
unchecked, so that an odd one reaches the pc here and the next fetch faults ALIGN (R134): DESIGN CHOICE (log 72). -/
def rejectCandidates (s : State) (id : Nat) : State :=
  updCtx s id fun x =>
    let r := bits x.cb 47 40 + 3
    { x.setReg r (ofLanes fun l => if fld (lane (x.reg r) l).toNat 31 28 = 2 then lane (x.reg r) l &&& 0x0FFFFFFF else lane (x.reg r) l) with
      pw := withP x.pw 0 (BitVec.ofNat 16 (bits x.cb 63 48)), pc := x.cbret, cb := setBits x.cb 32 32 0, retry := none }
/-- The candidate budget counted down (R406). -/
def countCandidate (x : Ctx) : Ctx := if cbArmed x then { x with cb := setBits x.cb 31 16 (bits x.cb 31 16 - 1) } else x

-- Replies (R27)

/-- Whether a step is a packet already sent on the reverse networks, which what it brings does not hold back (R27, R65). -/
def sentReply (s : State) : Instr → Bool
  | .longCompletion id _ => imageReady s id
  | .lineFill _ _ | .copyLandingReport _ _ _ => true
  | _ => false
/-- Whether a step has been sent, on its way back, before the reply that another brings in the same step, which arrives behind it (R27). -/
def aheadOfReply (s : State) (i j : Instr) : Bool :=
  let r := replyPackets s i
  !r.isEmpty && sentReply s j && meetRoutes r (routesOf s j)
/-- Whether a reply that a due step brings would pass one sent before it (R27). -/
def behindReply (s : State) (i : Instr) : Bool := s.agenda.any fun d => aheadOfReply s i d.step

-- What holds an instruction (R56 to R58, R210)

/-- Whether a write of a context has yet to be accepted at its slice (R173). -/
def acceptPending (s : State) (id : Nat) : Bool :=
  s.agenda.any fun d => match d.step with | .sliceWriteAccept w _ _ _ => w.ctxs.contains id | _ => false
/-- Whether an access or a write of a context is on its way (R210, R226). -/
def pendingOf (s : State) (id : Nat) : Bool := (pendingAccesses s).any (carries · id) || acceptPending s id
/-- Whether a fence's kind waits for earlier accesses, or for outstanding instructions (R210). -/
def fenceHeld (s : State) (id : Nat) (x : Ctx) (q : FQual) : Bool :=
  (q.kind != .acq && q.scope != .core && (pendingOf s id || !x.longs.isEmpty)) || (q.kind != .rel && !x.longs.isEmpty)
/-- Whether the lookahead rules hold a context's next instruction (R56, R57), a fault that waits for the instructions
issued after it (R59), or the rules of R58 and R71; a lone execution is followed by nothing until it completes (R59). -/
def lookaheadHeld (s : State) (id : Nat) (x : Ctx) (i : Instr) : Bool :=
  x.longs.any (fun l => l.ended || l.lone || decide (l.la ≤ l.since)
    || ((readsOf i ++ writesOf i).any fun r => l.writes.contains r) || (writesOf i).any fun r => l.reads.contains r)
  || (!x.longs.isEmpty && (i == .halt || i == .yield || wantsEquipped i x || (match i with | .migr _ => true | _ => false) || wouldMigrate s id x i))
/-- Whether a context's next instruction waits: for what the lookahead rules name, or for a fence's condition (R50, R210). -/
def heldBy (s : State) (id : Nat) (x : Ctx) (i : Instr) : Bool :=
  lookaheadHeld s id x i || (match i with | .fence q => fenceHeld s id x q | _ => false)

-- Issue

/-- A long instruction that has read a register with an uncorrectable error: its accesses are not made, and MEMERR is
reported at its completion, with its charge taken (R59, R425). -/
def failIssued (s : State) (id n : Nat) : State :=
  match ctxOf s id with
  | none => s
  | some x => match x.longs.find? fun l => decide (n ≤ l.seq) with
    | none => s
    | some l =>
      failLong { s with agenda := s.agenda.filter fun d => match d.step with | .accessAtHome a => a.ctx != id || a.seq != l.seq | _ => true } id l.seq regFault
/-- Whether a long instruction completes after its issue, apart from those that hold or park their issuer (R128, R299, R407). -/
def completesLater (i : Instr) : Bool := isLong i && !((pageOp i).1 == 10 || (pageOp i).1 == 13)
/-- The context as its instruction's body finds it: the pc behind the chain, or at the address of the resume word
(R59), the outstanding instructions counting one more (R56), the retry gone unless this instruction has been charged (R76). -/
def Ctx.advance (x : Ctx) (len : Nat) : Ctx :=
  { countCandidate x with
    pc := if bit x.resume 0 then x.resume - 1 else x.pc + dw (2 * len)
    resume := 0
    retry := if x.paid then x.retry else none
    longs := if x.paid then x.longs else x.longs.map fun l => { l with since := l.since + 1 } }
/-- An instruction's body run for its context: on a trap nothing but Last and Prev changes before the trap (R52, R134). -/
def issueCtx (i : Instr) (body : Nat → Ctx → M Unit) (id : Nat) (x : Ctx) (s : State) : State :=
  let x0 := { x with last := s.cyc, gap := gapOf i }
  let s0 := setCtx s id x0
  if heldBy s id x i then s
  else match issueCheck i x with
  | some e => chainFault s0 id e
  | none =>
    if (match blockOf i with | some b => decide (x.grant.length ≤ b.toNat) | none => false) then
      issueFault s0 id i (flt .accrange (dw ((blockOf i).getD 0).toNat) (dw x.grant.length) 0)
    else if wantsEquipped i x then equipMove s id
    else if cbArmed x && bits x.cb 31 16 == 0 then rejectCandidates s0 id
    else
    let bad := (readsOf i).any fun r => decide (r ≤ 127) && regErr s id r
    if bad && !completesLater i then issueFault s0 id i regFault
    else match queueLack s id x i with
      | some (r, n) => updCtx (parkCtx s0 id (queuePark s x r n)) id fun y => { y with needs := queueNeeds x i }
      | none => match body id x (setCtx s id (x0.advance s.issue.words.length)) with
        | .ok (_, t) => updCtx (if bad then failIssued t id s.uid else t) id fun y => { y with retry := y.retry.filter fun p => p.pc != x.pc }
        | .error (.fault f) => issueFault s0 id i f
        | .error (.chain e) => chainFault s0 id e
        | .error (.park p) => parkCtx s0 id p
        | .error (.page u w tr) => pagePark s0 id x u w tr
        | .error (.exhaust ci cm) => exhausted s0 id (pageOp i).1 (pageOp i).2 ci cm
        | .error .wait => s
        | .error (.walk u) => setCtx s0 id { x0 with hold := some (.walking i s.issue.words u) }
/-- What waited for a hold to end takes effect: a save, or a retirement (R407, R420, R441). -/
def holdEnds (s : State) (id : Nat) : State :=
  match ctxOf s id with
  | some x => if x.hold.isSome then s else if x.retireReq then retire s id false else trySave s id
  | none => s
/-- Whether a context is held by an instruction that has issued and waited for the walk of an address (R33). -/
def Ctx.walks (x : Ctx) (i : Instr) : Bool := match x.hold with | some (.walking j _ _) => j == i | _ => false
/-- Such an instruction goes on once its walk has been made: it has issued in its own cycle, which Last and Prev keep (R33, R52). -/
def endWalk (i : Instr) (body : Nat → Ctx → M Unit) (id : Nat) (x : Ctx) (s : State) : State :=
  let y := { x with hold := none }
  if heldBy s id y i then s
  else holdEnds (updCtx (issueCtx i body id y (setCtx s id y)) id fun z => { z with last := x.last, gap := x.gap, after := s.cyc + 1 }) id
/-- An instruction executed for the context in the issue latch. -/
def run (i : Instr) (body : Nat → Ctx → M Unit) (s : State) : Host.Outcome State Fault Refusal :=
  match s.issue.ctx with
  | none => .fault .noIssuer
  | some id => match ctxOf s id with
    | none => .fault .noIssuer
    | some x => .next (if x.walks i then endWalk i body id x s else issueCtx i body id x s)
/-- A step of the context in the issue latch that is no instruction. -/
def forIssuer (f : Nat → Ctx → State → State) (s : State) : Host.Outcome State Fault Refusal :=
  match s.issue.ctx with
  | none => .fault .noIssuer
  | some id => match ctxOf s id with
    | none => .fault .noIssuer
    | some x => .next (f id x s)

end Sys2Proof.Machine
end

