-- ==== Sys2Proof/Machine/Access.lean ====
section
/-! DEFINITION. The accesses of an instruction on their way: checks and translation (R162, R165 to R168, R186), homes
and migration (R68 to R70), traffic charges (R75), the outstanding instruction (R56), and the sending of
accesses to their homes. -/

namespace Sys2Proof.Machine

/-- An outstanding instruction with nothing in it. -/
def Long.blank : Long :=
  { seq := 0, pc := 0, page := 0, op := 0, la := 0, since := 0, d := 0, wr := .none, mask := 0xFFFF, acc := 0, waiting := 0, back := (0, 0)
    reads := [], writes := [], lone := false, ea := 0, parked := none, fault := none, ended := false }
/-- A long instruction becomes outstanding; with a bound it completes within that many cycles (R56, R145, R249). -/
def outstanding (s : State) (i : Instr) (id : Nat) (x : Ctx) (l : Long) (bound : Option Nat) : State :=
  let l := { l with seq := s.uid, pc := x.pc, page := (pageOp i).1, op := (pageOp i).2, la := lookahead i, reads := readsOf i
                    writes := writesOf i, lone := bit x.resume 0, back := (x.tile, 0) }
  let s := updCtx { s with uid := s.uid + 1 } id fun y => { y with longs := y.longs ++ [l] }
  match bound with
  | some n => within s n (.longCompletion id l.seq)
  | none => s
/-- The same as an effect. -/
def startLong (i : Instr) (id : Nat) (x : Ctx) (l : Long) (bound : Option Nat) : M Unit := upd (outstanding · i id x l bound)

-- Homes, migration and traffic (R68 to R70, R75)

/-- The context leaves for another tile: its slot is empty from the next cycle, and it arrives within 512 cycles (R67). -/
def departTile (s : State) (id t : Nat) : State :=
  match ctxOf s id with
  | none => s
  | some x =>
    let s := emptySlot (setCtx s id { x with state := .inTransit, moving := some t, predN := 0, retry := none, moved := s.uid }) x.at_ x.slot
    within s 512 (.migrationArrival id t)

-- Accesses sent (R225 to R232)

/-- Whether an order is a release or an acquire (R228). -/
def Order.rel (o : Order) : Bool := o == .rel || o == .sc
def Order.acq (o : Order) : Bool := o == .acq || o == .sc
/-- Whether two requests may combine on their way through the omega network (R208): adds with the combine bit, of one place, size,
partition, order and scope, of which none has left the tile of another. -/
def sameSum (a b : Access) : Bool :=
  a.comb.isSome && a.comb == b.comb && a.place == b.place && a.part == b.part
    && ((requestsOf a).all fun p => p.2.1 != a.home && (requestsOf b).all fun q => p.2.1 != q.2.1) && b.src != b.home
    && !waitsAtHome a && !waitsAtHome b && (match a.kind, b.kind with | .atom _ n _, .atom _ m _ => n == m | _, _ => false)
/-- Whether two requests may combine now: neither comes behind an access that has not been performed, so that no two pairs of adds can
cross (R208, R237). -/
def combinable (s : State) (a b : Access) : Bool := sameSum a b && (pendingAccesses s).all fun e => !follows s a e && !follows s b e
/-- Whether a request meets another on its way, and which comes in at the upper input, is open (R208, R5). -/
def combine (s : State) (a : Access) : State :=
  match s.agenda.findSome? fun d => match d.step with | .accessAtHome b => if b.uid != a.uid && combinable s a b then some b.uid else none | _ => none with
  | none => s
  | some u =>
    let t := drawn s a.part 2
    if Config.freeBit a.part (drawsOf s a.part) then
      if Config.freeBit a.part (drawsOf s a.part + 1) then now t (.atomCombine u a.uid) else now t (.atomCombine a.uid u)
    else t
/-- An access sent to its home after an open latency, no earlier than a cycle; what it is ordered behind is performed first
(`follows`). -/
def sendAccess (s : State) (a : Access) (after : Nat) : State := combine (laterFrom s after (.accessAtHome a)) a
/-- How an instruction's accesses leave: for which outstanding instruction, from which tile and cycle on, and what they carry. -/
structure Sending where
  id : Nat
  seq : Nat
  part : Nat
  src : Nat
  after : Nat
  ord : Order
  sys : Bool
  deadline : Nat
  comb : Option (Order × Scope)
  /-- the accesses of its context that come before it by a move or a fence of core scope: all, and those before writes (R226) -/
  moved : Nat := 0
  fenced : Nat := 0
  /-- the core whose issue they are of (R226) -/
  core : Option Nat := none
/-- An access to its spot; n is the number of its instruction's first. -/
def Sending.access (g : Sending) (n uid : Nat) (k : AccKind) (land : Land) (u : Nat) (p : Spot) : Access :=
  { uid := uid, ctx := g.id, seq := g.seq, ins := n, kind := k, land := land, src := g.src, home := p.home, place := p.place, uaddr := u, part := g.part
    watched := p.watched, sys := g.sys, deadline := g.deadline, parkedAt := 0, full := false, repair := none, rel := Order.rel g.ord, acq := Order.acq g.ord
    floor := if writesKind k then Nat.max g.moved g.fenced else g.moved, parts := [], comb := g.comb, core := g.core }
/-- Accesses sent in order, n the number of the first. -/
def sendFrom (g : Sending) (n : Nat) : State → List ((AccKind × Land) × Nat × Spot) → State
  | s, [] => s
  | s, ((k, l), u, p) :: t => sendFrom g n (sendAccess { s with uid := s.uid + 1 } (g.access n s.uid k l u p) g.after) t
/-- An instruction's accesses sent, behind what its context's last move and fences put before them (R226). -/
def sendAll (g : Sending) (s : State) (l : List ((AccKind × Land) × Nat × Spot)) : State :=
  match ctxOf s g.id with
  | some x => sendFrom { g with moved := x.moved, fenced := x.fenced, core := if x.moving.isNone then some x.at_ else none } s.uid s l
  | none => sendFrom g s.uid s l

-- An instruction's accesses

/-- What an instruction asks of memory. -/
structure Ask where
  as : List Dword
  n : Nat
  align : Nat
  r : Rights
  pol : Policy
  ord : Order
  scope : Scope
  kinds : List (AccKind × Land)
  /-- the mb charge where it does not follow the home (R203) -/
  fixed : Option Nat
  deadline : Nat
  /-- the combine bit, with order and scope (R208) -/
  comb : Option (Order × Scope) := none
  /-- FMT by R266, judged once the addresses have passed and before the charge (R203) -/
  fmt : Option Flt := none
/-- The park on a home under repair (R185). -/
def repairPark (s : State) (x : Ctx) (p : Spot) (u : Nat) : Park := ⟨.repair, s.cyc, some (bits x.fel 31 0), u, p.home, x.pc, x.paid⟩
/-- The home of a unified address's entry, whatever fault the access itself meets (R75). -/
def homeTile (s : State) (x : Ctx) (u : Nat) : Nat :=
  match regionOf u with
  | .scratch t _ => t
  | .paged => let tb := tablesFor s x.part x.tile u
    (match lookup s true x.at_ tb u with
    | .leaf e => homeOf s tb.part (leafPa e u)
    | _ => x.tile)
  | _ => x.tile
/-- The traffic of a long instruction that meets PROT: that of its addresses, as if it were performed (R59, R75, R76). -/
def protTraffic (s : State) (x : Ctx) (q : Ask) : Nat :=
  match q.fixed with
  | some n => n
  | none => match checkAll s x q.n q.align q.r q.as with
    | .ok us => (us.filter fun u => homeTile s x u != x.tile).length * q.n
    | .error _ => 0
/-- The addresses of an ask mapped, charged and moved for: the spots, the tile the accesses leave from and the cycle
from which they do; PROT of a long instruction comes back as none (R59, R68, R69, R76, R185). -/
def place (id : Nat) (x : Ctx) (q : Ask) : M (Except Flt (List (Nat × Spot) × Nat × Nat)) := fun s =>
  match resolve s x q.as q.n q.align q.r with
  | .stop t => .error t
  | .prot f => (match q.fmt with | some e => .error (.fault e) | none => .ok (.error f, s))
  | .spots l s1 => match l.find? fun p => p.2.paged && underRepair s p.2.home with
    | some (u, p) => .error (.park (repairPark s x p u))
    | none => match q.fmt with
      | some e => .error (.fault e)
      | none =>
      let m := migration s id x q.pol l
      let c := match q.fixed with | some n => n | none => traffic x l q.n
      match m.1 with
      | some t =>
        match charge id 1 (c + 1664) s1 with
          | .error e => .error e
          | .ok (_, s2) =>
            let s3 := departTile (updCtx s2 id fun y => { y with predH := m.2.1 }) id t
            .ok (.ok (l, t, (s3.agenda.foldl (fun n d => if d.step = .migrationArrival id t then Nat.max n d.at_ else n) 0)), s3)
      | none => match charge id 1 c s1 with
        | .error e => .error e
        | .ok (_, s2) => .ok (.ok (l, x.tile, 0), updCtx s2 id fun y => { y with predH := m.2.1, predN := m.2.2 })
/-- The accesses of an ask from a tile and a cycle on, for an outstanding instruction or for none. -/
def Ask.sending (q : Ask) (id seq : Nat) (x : Ctx) (src after : Nat) : Sending :=
  ⟨id, seq, x.part, src, after, q.ord, q.scope == .sys, q.deadline, q.comb, 0, 0, none⟩
/-- A long instruction's accesses (R195, R199 to R211): PROT is reported at its completion (R59). -/
def longAccess (i : Instr) (id : Nat) (x : Ctx) (q : Ask) (l : Long) : M Unit := do
  match ← place id x q with
  | .error f =>
    let s ← get
    charge id 1 (protTraffic s x q)
    startLong i id x { l with fault := some f } none
    upd (later · (.longCompletion id s.uid))
  | .ok (sp, src, after) =>
    let s ← get
    startLong i id x { l with ea := q.as.headD 0, waiting := sp.length } (if sp.isEmpty then some 1 else none)
    upd fun t => sendAll (q.sending id s.uid x src after) t (q.kinds.zip sp)
/-- A store's accesses, which complete without the context; every fault is precise (R195). -/
def storeAccess (id : Nat) (x : Ctx) (q : Ask) : M Unit := do
  match ← place id x q with
  | .error f => raise f
  | .ok (sp, src, after) => upd fun t => sendAll (q.sending id 0 x src after) t (q.kinds.zip sp)

end Sys2Proof.Machine
end

