-- ==== Sys2Proof/Machine/Scalar.lean ====
section
/-! DEFINITION. Pages 0 and 1 (R137 to R147). -/

namespace Sys2Proof.Machine

/-- A three-register operation of R140: D := f a b, charging ib 1. -/
def scalar3 (d a b : RegNo) (f : Dword → Dword → Dword) (id : Nat) (_ : Ctx) : M Unit := do
  charge id 1 0
  let u ← sread id a
  let v ← sread id b
  swrite id d (f u v)
/-- A two-register operation: D := f a, charging ib 1. -/
def scalar2 (d a : RegNo) (f : Dword → Dword) (id : Nat) (_ : Ctx) : M Unit := do
  charge id 1 0
  let u ← sread id a
  swrite id d (f u)
/-- A division of R144: operands read at issue, D written at completion within 40 cycles (R145). -/
def division (i : Instr) (d a b : RegNo) (f : Dword → Dword → Dword) (id : Nat) (x : Ctx) : M Unit := do
  charge id 4 0
  let u ← sread id a
  let v ← sread id b
  startLong i id x { Long.blank with d := d, wr := .scalar, acc := withScalar 0 (f u v) } (some 40)

/-- Shifts by a number of bits (R140). -/
def shl (a : Dword) (n : Nat) : Dword := a <<< (n % 64)
def shr (a : Dword) (n : Nat) : Dword := a >>> (n % 64)
def sar (a : Dword) (n : Nat) : Dword := a.sshiftRight (n % 64)
/-- A truth value as a scalar. -/
def truth (b : Bool) : Dword := if b then 1 else 0
/-- The high 64 bits of a signed product (R140). -/
def mulHigh (a b : Dword) : Dword := BitVec.ofInt 64 (a.toInt * b.toInt / 2 ^ 64)
/-- The high 64 bits of an unsigned product (R140). -/
def mulHighU (a b : Dword) : Dword := dw (a.toNat * b.toNat / 2 ^ 64)
/-- The quotient of R144, truncated toward zero, with its corner results. -/
def divS (a b : Dword) : Dword := if b = 0 then -1 else BitVec.ofInt 64 (a.toInt.tdiv b.toInt)
def divU (a b : Dword) : Dword := if b = 0 then -1 else dw (a.toNat / b.toNat)
/-- The remainder of R144, with the dividend's sign. -/
def remS (a b : Dword) : Dword := if b = 0 then a else BitVec.ofInt 64 (a.toInt.tmod b.toInt)
def remU (a b : Dword) : Dword := if b = 0 then a else dw (a.toNat % b.toNat)
/-- Zero bits above the highest set bit among the bits below i (R146). -/
def leading (a : Dword) : Nat → Nat
  | 0 => 0
  | i + 1 => if bit a i then 0 else leading a i + 1
/-- Zero bits below the lowest set bit among n bits from i (R146). -/
def trailing (a : Dword) : Nat → Nat → Nat
  | _, 0 => 0
  | i, n + 1 => if bit a i then 0 else trailing a (i + 1) n + 1
/-- Set bits (R146). -/
def popcount (a : Dword) : Nat := ((List.range 64).filter (bit a)).length
/-- The bits of a doubleword reversed (R146). -/
def bitReverse (a : Dword) : Dword := (List.range 64).foldl (fun r i => if bit a (63 - i) then setBits r i i 1 else r) 0
/-- The bytes of a doubleword reversed (R146). -/
def byteSwap (a : Dword) : Dword := dw ((List.range 8).foldl (fun r i => r * 256 + bits a (8 * i + 7) (8 * i)) 0)
/-- BOP's result (R146). -/
def bopValue (op : BitOp) (a : Dword) : Dword :=
  match op with
  | .clz => dw (leading a 64)
  | .ctz => dw (trailing a 0 64)
  | .popc => dw (popcount a)
  | .brev => bitReverse a
  | .bswap => byteSwap a

def execAdd (d a b : RegNo) (s : State) := run (.add d a b) (scalar3 d a b fun u v => u + v) s
def execSub (d a b : RegNo) (s : State) := run (.sub d a b) (scalar3 d a b fun u v => u - v) s
def execAnd (d a b : RegNo) (s : State) := run (.and d a b) (scalar3 d a b fun u v => u &&& v) s
def execOr (d a b : RegNo) (s : State) := run (.or d a b) (scalar3 d a b fun u v => u ||| v) s
def execXor (d a b : RegNo) (s : State) := run (.xor d a b) (scalar3 d a b fun u v => u ^^^ v) s
def execShl (d a b : RegNo) (s : State) := run (.shl d a b) (scalar3 d a b fun u v => shl u v.toNat) s
def execShr (d a b : RegNo) (s : State) := run (.shr d a b) (scalar3 d a b fun u v => shr u v.toNat) s
def execSar (d a b : RegNo) (s : State) := run (.sar d a b) (scalar3 d a b fun u v => sar u v.toNat) s
def execSlt (d a b : RegNo) (s : State) := run (.slt d a b) (scalar3 d a b fun u v => truth (u.slt v)) s
def execSltu (d a b : RegNo) (s : State) := run (.sltu d a b) (scalar3 d a b fun u v => truth (u.ult v)) s
def execMul (d a b : RegNo) (s : State) := run (.mul d a b) (scalar3 d a b fun u v => u * v) s
def execMulh (d a b : RegNo) (s : State) := run (.mulh d a b) (scalar3 d a b mulHigh) s
def execMulhu (d a b : RegNo) (s : State) := run (.mulhu d a b) (scalar3 d a b mulHighU) s
def execMin (d a b : RegNo) (s : State) := run (.min d a b) (scalar3 d a b fun u v => if u.sle v then u else v) s
def execMax (d a b : RegNo) (s : State) := run (.max d a b) (scalar3 d a b fun u v => if v.sle u then u else v) s
def execMinu (d a b : RegNo) (s : State) := run (.minu d a b) (scalar3 d a b fun u v => if u.ule v then u else v) s
def execMaxu (d a b : RegNo) (s : State) := run (.maxu d a b) (scalar3 d a b fun u v => if v.ule u then u else v) s
/-- R141. -/
def execMov (d a : RegNo) (s : State) := run (.mov d a) (scalar2 d a fun u => u) s
/-- R142. -/
def execAddi (d a : RegNo) (imm : Dword) (s : State) := run (.addi d a imm) (scalar2 d a fun u => u + imm) s
def execLi (d : RegNo) (imm : Dword) (s : State) := run (.li d imm) (fun id _ => do charge id 1 0; swrite id d imm) s
/-- R143: only imm[5:0] counts. -/
def execShli (d a : RegNo) (imm : Dword) (s : State) := run (.shli d a imm) (scalar2 d a fun u => shl u imm.toNat) s
def execShri (d a : RegNo) (imm : Dword) (s : State) := run (.shri d a imm) (scalar2 d a fun u => shr u imm.toNat) s
def execSari (d a : RegNo) (imm : Dword) (s : State) := run (.sari d a imm) (scalar2 d a fun u => sar u imm.toNat) s
/-- R146. -/
def execBop (op : BitOp) (d a : RegNo) (s : State) := run (.bop op d a) (scalar2 d a (bopValue op)) s
/-- R144. -/
def execDiv (la : BitVec 4) (d a b : RegNo) (s : State) := run (.div la d a b) (division (.div la d a b) d a b divS) s
def execDivu (la : BitVec 4) (d a b : RegNo) (s : State) := run (.divu la d a b) (division (.divu la d a b) d a b divU) s
def execRem (la : BitVec 4) (d a b : RegNo) (s : State) := run (.rem la d a b) (division (.rem la d a b) d a b remS) s
def execRemu (la : BitVec 4) (d a b : RegNo) (s : State) := run (.remu la d a b) (division (.remu la d a b) d a b remU) s

end Sys2Proof.Machine
end

