-- ==== Sys2Proof/Machine/Control.lean ====
section
/-! DEFINITION. Page 2: control transfer, continuation points, YIELD, HALT and NOP (R148 to R158). -/

namespace Sys2Proof.Machine

/-- A compare branch of R150. -/
def branch2 (a b : RegNo) (off : Dword) (test : Dword → Dword → Bool) (id : Nat) (x : Ctx) : M Unit := do
  charge id 1 0
  if test (x.scalar a) (x.scalar b) then jump id (target x off) else pure ()
/-- BZ and BNZ (R150). -/
def branch1 (a : RegNo) (off : Dword) (test : Dword → Bool) (id : Nat) (x : Ctx) : M Unit := do
  charge id 1 0
  if test (x.scalar a) then jump id (target x off) else pure ()

/-- R149. -/
def execBra (off : Dword) (s : State) := run (.bra off) (fun id x => do charge id 1 0; jump id (target x off)) s
def execBz (a : RegNo) (off : Dword) (s : State) := run (.bz a off) (branch1 a off fun u => u == 0) s
def execBnz (a : RegNo) (off : Dword) (s : State) := run (.bnz a off) (branch1 a off fun u => u != 0) s
def execBeq (a b : RegNo) (off : Dword) (s : State) := run (.beq a b off) (branch2 a b off fun u v => u == v) s
def execBne (a b : RegNo) (off : Dword) (s : State) := run (.bne a b off) (branch2 a b off fun u v => u != v) s
def execBlt (a b : RegNo) (off : Dword) (s : State) := run (.blt a b off) (branch2 a b off fun u v => u.slt v) s
def execBltu (a b : RegNo) (off : Dword) (s : State) := run (.bltu a b off) (branch2 a b off fun u v => u.ult v) s
/-- R151: the link is the address behind the chain. -/
def execCall (d : RegNo) (off : Dword) (s : State) :=
  run (.call d off) (fun id x => do
    charge id 1 0
    let y ← self id
    swrite id d y.pc
    jump id (target x off)) s
/-- The fault of a transfer of control to an odd address (R117). -/
def oddTarget (x : Ctx) (t : Dword) : Flt := flt .align t (addrDw3 t true false 2) (segReg x (segOf t)).limit
/-- R152. -/
def execJmp (a : RegNo) (s : State) :=
  run (.jmp a) (fun id x => do
    raiseIf (bit (x.scalar a) 0) (oddTarget x (x.scalar a))
    charge id 1 0
    jump id (x.scalar a)) s
/-- The test of BMASK on p0 (R153). -/
def maskTest (t : MaskTest) (m : BitVec 16) : Bool := match t with | .any => m != 0 | .none => m == 0 | .all => m == 0xFFFF
/-- R153. -/
def execBmask (t : MaskTest) (off : Dword) (s : State) :=
  run (.bmask t off) (fun id x => do
    charge id 1 0
    if maskTest t (maskP x.pw 0) then jump id (target x off) else pure ()) s
/-- R154. -/
def execYpoint (off : Dword) (s : State) :=
  run (.ypoint off) (fun id x => do
    charge id 1 0
    updSelf id fun y => { y with yc := if off = 0 then 0 else target x off }) s
/-- Whether some queued context other than this one fits its core once it has left (R62, R155). -/
def someFits (s : State) (id : Nat) (x : Ctx) : Bool :=
  (readyOf s x.at_).any fun e => e / 4 != id && !swapping s (e / 4) && (match ctxOf s (e / 4) with
    | some y => decide (y.window ≤ freeEntries s x.at_ + x.window)
    | none => false)
/-- The BUDGET message of YIELD in grace (R79), for a YIELD whose charges are 1 and 0. -/
def yieldMessage (id : Nat) (y : Ctx) : Reg := ofDwords [faultDw0 id 2 11 .budget, y.pc, 0, 3, y.ypc, 1]
/-- R155: Held and reported in grace, Queued again where another context fits, else on with the next instruction;
the watchdog count returns to zero (R422). -/
def execYield (s : State) :=
  run .yield (fun id _ => do
    charge id 1 0
    updSelf id fun y => { y with wcount := 0 }
    let y ← self id
    let t ← get
    if y.graceOn then upd (leave · id (.report (yieldMessage id y)))
    else if someFits t id y then upd (leave · id .yield)
    else pure ()) s
/-- R156: Retired from the next cycle, so that what reaches it in this one passes on with its remainder (R157). -/
def execHalt (s : State) :=
  run .halt (fun id _ => do
    charge id 1 0
    updSelf id fun y => { y with graceOn := false, graceI := 0, graceM := 0, halting := true, after := s.cyc + 1 }) s
/-- R158. -/
def execNop (s : State) := run .nop (fun id _ => charge id 1 0) s

end Sys2Proof.Machine
end

