-- ==== Sys2Proof/Machine/Formats.lean ====
section
/-! DEFINITION. Number formats, exact values and RoundTo (R265 to R273). -/

namespace Sys2Proof.Machine

/-- What a bit pattern stands for: a NaN, an infinity, or (−1)^neg × m × 2^e. -/
inductive FVal where
  | nan
  | inf (neg : Bool)
  | fin (neg : Bool) (m : Nat) (e : Int)
  deriving DecidableEq, Repr
/-- An exact result: a NaN, an infinity, or a sign with the magnitude num / den, or its square root. -/
inductive Exact where
  | nan
  | inf (neg : Bool)
  | fin (neg : Bool) (num den : Nat) (root : Bool)
  deriving DecidableEq, Repr

/-- A format (R270 to R273): width, sign, −0, infinities, precision p, the exponents of the least normal and the top
binade, the index of the largest finite member, the NaN and the infinity. -/
structure FmtInfo where
  width : Nat
  signed : Bool
  negZero : Bool
  hasInf : Bool
  p : Nat
  emin : Int
  emax : Int
  top : Nat
  nan : Nat
  inf : Nat
  mx4 : Bool
  deriving DecidableEq, Repr

def infoFp32 : FmtInfo := ⟨32, true, true, true, 24, -126, 127, 0x7F7FFFFF, 0x7FC00000, 0x7F800000, false⟩
def infoFp16 : FmtInfo := ⟨16, true, true, true, 11, -14, 15, 0x7BFF, 0x7E00, 0x7C00, false⟩
def infoBf16 : FmtInfo := ⟨16, true, true, true, 8, -126, 127, 0x7F7F, 0x7FC0, 0x7F80, false⟩
def infoE2m1 : FmtInfo := ⟨4, true, true, false, 2, 0, 2, 7, 0, 0, true⟩
/-- binary8 of precision p + 1 (R271, R272). -/
def infoB8 (uns inf : Bool) (p : Nat) : FmtInfo :=
  let w := if uns then 8 - p else 7 - p
  let bias : Int := 2 ^ (w - 1)
  let top := (if uns then 0xFE else 0x7F) - bitOf inf
  ⟨8, !uns, false, inf, p + 1, 1 - bias, (top / 2 ^ p : Nat) - bias, top, if uns then 0xFF else 0x80, top + 1, false⟩
/-- The format of a code (R132). -/
def fmtInfo : Fmt → FmtInfo
  | .fp32 => infoFp32 | .fp16 => infoFp16 | .bf16 => infoBf16 | .e2m1 => infoE2m1
  | .b8 u i p => infoB8 u i p.val
/-- The format of a type field (R130). -/
def ftInfo : FType → FmtInfo | .fp32 => infoFp32 | .fp16 => infoFp16 | .bf16 => infoBf16
/-- The IEEE formats, whose top exponent field holds infinities and NaNs (R270). -/
def FmtInfo.ieee (f : FmtInfo) : Bool := 16 ≤ f.width

/-- The sign of a pattern. -/
def FmtInfo.neg (f : FmtInfo) (x : Nat) : Bool := f.signed && fld x (f.width - 1) (f.width - 1) == 1
/-- A pattern without its sign: its index (R267). -/
def FmtInfo.mag (f : FmtInfo) (x : Nat) : Nat := x % 2 ^ (if f.signed then f.width - 1 else f.width)
/-- Whether a pattern is a NaN (R270, R272). -/
def FmtInfo.isNan (f : FmtInfo) (x : Nat) : Bool :=
  if f.ieee then decide (f.inf < f.mag x) else !f.mx4 && x % 2 ^ f.width == f.nan
/-- Whether a pattern is a subnormal that is not zero (R269). -/
def FmtInfo.subnormal (f : FmtInfo) (x : Nat) : Bool := !f.isNan x && decide (0 < f.mag x) && decide (f.mag x < 2 ^ (f.p - 1))
/-- The value of a pattern (R270, R271, R273). -/
def FmtInfo.value (f : FmtInfo) (x : Nat) : FVal :=
  let t := f.p - 1
  let m := f.mag x
  if f.isNan x then .nan
  else if f.hasInf ∧ m = f.inf then .inf (f.neg x)
  else if m / 2 ^ t = 0 then .fin (f.neg x) (m % 2 ^ t) (f.emin - t)
  else .fin (f.neg x) (2 ^ t + m % 2 ^ t) ((m / 2 ^ t : Nat) - 1 + f.emin - t)
/-- A pattern of a sign and an index. -/
def FmtInfo.pattern (f : FmtInfo) (neg : Bool) (idx : Nat) : Nat := idx + (if neg && f.signed then 2 ^ (f.width - 1) else 0)
/-- A zero of a sign, +0 where the format has no −0 (R269). -/
def FmtInfo.zero (f : FmtInfo) (neg : Bool) : Nat := f.pattern (neg && f.negZero) 0

-- Exact arithmetic

/-- m × 2^e as a fraction. -/
def scale2 (m : Nat) (e : Int) : Nat × Nat := match e with | .ofNat n => (m * 2 ^ n, 1) | .negSucc n => (m, 2 ^ (n + 1))
/-- The exact value of a pattern's value. -/
def FVal.exact : FVal → Exact
  | .nan => .nan
  | .inf n => .inf n
  | .fin n m e => let q := scale2 m e; .fin n q.1 q.2 false
/-- x × 2^k. -/
def Exact.scale (x : Exact) (k : Int) : Exact :=
  match x with
  | .fin n a b r => let q := scale2 1 k; .fin n (a * q.1) (b * q.2) r
  | y => y
/-- A signed integer. -/
def Exact.ofInt (i : Int) : Exact := .fin (decide (i < 0)) i.natAbs 1 false
/-- The signed numerator over a denominator. -/
def signedNum (n : Bool) (a : Nat) : Int := if n then -(a : Int) else a
/-- The exact sum of values (R253): invalid sums are NaN; an exact zero is +0, −0 under RDN (`rdn`), and −0 where every
addend is −0; R253 says so of two addends, and for three it is a DESIGN CHOICE (log 21). -/
def Exact.sum (rdn : Bool) (l : List Exact) : Exact :=
  if l.contains .nan || (l.contains (.inf true) && l.contains (.inf false)) then .nan
  else if l.contains (.inf true) then .inf true
  else if l.contains (.inf false) then .inf false
  else
    let den := l.foldl (fun d x => match x with | .fin _ _ b _ => d * b | _ => d) 1
    let num := l.foldl (fun (s : Int) x => match x with | .fin n a b _ => s + signedNum n a * (den / b : Nat) | _ => s) 0
    if num = 0 then .fin (rdn || l.all fun x => match x with | .fin n _ _ _ => n | _ => false) 0 1 false
    else .fin (decide (num < 0)) num.natAbs den false
/-- The opposite. -/
def Exact.negate : Exact → Exact | .nan => .nan | .inf n => .inf !n | .fin n a b r => .fin (!n) a b r
/-- The exact product: 0 × ∞ is NaN (R253). -/
def Exact.mul : Exact → Exact → Exact
  | .nan, _ => .nan
  | _, .nan => .nan
  | .inf m, .inf n => .inf (m != n)
  | .inf m, .fin n a _ _ => if a = 0 then .nan else .inf (m != n)
  | .fin m a _ _, .inf n => if a = 0 then .nan else .inf (m != n)
  | .fin m a b _, .fin n c d _ => .fin (m != n) (a * c) (b * d) false
/-- The exact quotient: 0 / 0 and ∞ / ∞ are NaN, x / 0 an infinity (R253). -/
def Exact.div : Exact → Exact → Exact
  | .nan, _ => .nan
  | _, .nan => .nan
  | .inf _, .inf _ => .nan
  | .inf m, .fin n _ _ _ => .inf (m != n)
  | .fin m _ _ _, .inf n => .fin (m != n) 0 1 false
  | .fin m a b _, .fin n c d _ =>
    if c = 0 then (if a = 0 then .nan else .inf (m != n)) else .fin (m != n) (a * d) (b * c) false
/-- The square root: √(−0) = −0, below that NaN (R253, R254). -/
def Exact.sqrt : Exact → Exact
  | .nan => .nan
  | .inf n => if n then .nan else .inf false
  | .fin n a b _ => if a = 0 then .fin n 0 1 false else if n then .nan else .fin false a b true

-- Magnitudes against the grid

/-- The integer square root, bit by bit from bit i down. -/
def isqrtFrom (n : Nat) : Nat → Nat → Nat
  | 0, k => if (k + 1) * (k + 1) ≤ n then k + 1 else k
  | i + 1, k => isqrtFrom n i (if (k + 2 ^ (i + 1)) * (k + 2 ^ (i + 1)) ≤ n then k + 2 ^ (i + 1) else k)
def isqrt (n : Nat) : Nat := isqrtFrom n (Nat.log2 n / 2 + 1) 0
/-- floor(log2 (a / b)) for positive a and b. -/
def log2Ratio (a b : Nat) : Int :=
  let l : Int := (Nat.log2 a : Int) - Nat.log2 b
  let q := scale2 b l
  if a * q.2 < q.1 then l - 1 else l
/-- floor(log2 v) of a magnitude. -/
def magLog (a b : Nat) (root : Bool) : Int := if root then (log2Ratio a b) / 2 else log2Ratio a b
/-- The magnitude divided by 2^j, as a fraction under the same root. -/
def magScale (a b : Nat) (root : Bool) (j : Int) : Nat × Nat :=
  let q := scale2 1 (if root then 2 * j else j)
  (a * q.2, b * q.1)
/-- The floor of a magnitude. -/
def magFloor (a b : Nat) (root : Bool) : Nat := if root then isqrt (a / b) else a / b
/-- A magnitude × 2^32 compared with an integer. -/
def magCmp (a b : Nat) (root : Bool) (c : Nat) : Ordering :=
  if root then compare (a * 2 ^ 64) (c * c * b) else compare (a * 2 ^ 32) (c * b)

/-- The six modes (R265); 6 and 7 are reserved. -/
def modeRNE : Nat := 0
def modeRDN : Nat := 2
def modeSR : Nat := 5
/-- lo or hi of R267 and R268 in units of the quantum: the magnitude, its sign, whether lo has an even index, and the
random word of SR. -/
def pick (mode : Nat) (neg even : Bool) (r a b : Nat) (root : Bool) : Nat :=
  let k := magFloor a b root
  if magCmp a b root (k * 2 ^ 32) = .eq then k
  else match mode with
    | 0 => match magCmp a b root (k * 2 ^ 32 + 2 ^ 31) with | .lt => k | .gt => k + 1 | .eq => if even then k else k + 1
    | 1 => k
    | 2 => if neg then k + 1 else k
    | 3 => if neg then k else k + 1
    | 4 => if magCmp a b root (k * 2 ^ 32 + 2 ^ 31) = .lt then k else k + 1
    | _ => if magCmp a b root (k * 2 ^ 32 + r) = .gt then k + 1 else k
/-- The index of the member a magnitude rounds to, on the grid continued above the top (R267). -/
def roundIndex (f : FmtInfo) (mode : Nat) (neg : Bool) (r a b : Nat) (root : Bool) : Nat :=
  if a = 0 then 0
  else
    let l := magLog a b root
    let e := if l < f.emin then f.emin else if f.emax < l then f.emax else l
    let t := f.p - 1
    let q := magScale a b root (e - t)
    let base := (e - f.emin).toNat * 2 ^ t
    base + pick mode neg ((base + magFloor q.1 q.2 root) % 2 == 0) r q.1 q.2 root

/-- The rounding state an instruction takes from rnd (R265, R133). -/
structure Rnd where
  mode : Nat
  ovf : Nat
  flushIn : Bool
  flushOut : Bool
  deriving DecidableEq, Repr
/-- The settings of rnd with a rounding field (R133, R253). -/
def rndOf (rnd : Dword) (rm : Rounding) : Rnd :=
  ⟨match rm with | .dyn => bits rnd 2 0 | .rne => 0 | .rtz => 1 | .rdn => 2 | .rup => 3 | .rna => 4 | .sr => 5, bits rnd 4 3, bit rnd 5, bit rnd 6⟩
/-- FMT for a reserved code of rnd (R266). Bit 0 tells of the rounding mode only where the instruction's field takes it from rnd:
DESIGN CHOICE (log 91). -/
def fmtFault (rnd : Dword) (rm : Rounding) : Option Flt :=
  let m := rm == .dyn && decide (6 ≤ bits rnd 2 0)
  let o := bits rnd 4 3 == 3
  if m || o then some (flt .fmt rnd (dw (bitOf m + bitOf o * 2)) 0) else none
/-- Overflow of RoundTo (R269). -/
def overflow (f : FmtInfo) (rc : Rnd) (neg : Bool) : Nat :=
  if f.mx4 then f.pattern neg f.top
  else match rc.ovf with
    | 0 => if f.hasInf then
        (if rc.mode = 1 ∨ (rc.mode = 2 ∧ !neg) ∨ (rc.mode = 3 ∧ neg) then f.pattern neg f.top else f.pattern neg f.inf)
      else f.nan
    | 1 => f.pattern neg f.top
    | _ => f.nan
/-- RoundTo(fmt, x) from step 2 on (R269), r the random word of SR. -/
def roundTo (f : FmtInfo) (rc : Rnd) (r : Nat) (x : Exact) : Nat :=
  match x with
  | .nan => f.nan
  | .inf neg =>
    if neg && !f.signed then (if rc.ovf = 1 then 0 else f.nan)
    else if f.hasInf then f.pattern neg f.inf else overflow f rc neg
  | .fin neg a b root =>
    if a = 0 then f.zero neg
    else
      let k := roundIndex f rc.mode neg r a b root
      if neg && !f.signed then (if k = 0 ∨ rc.ovf = 1 then 0 else f.nan)
      else if f.top < k then overflow f rc neg
      else if rc.flushOut && decide (0 < k) && decide (k < 2 ^ (f.p - 1)) then f.zero neg
      else if k = 0 then f.zero neg
      else f.pattern neg k
/-- A pattern as an input element, flushed where rnd[5] says so (R269). -/
def input (f : FmtInfo) (rc : Rnd) (x : Nat) : FVal :=
  if rc.flushIn && f.subnormal x then f.value (f.zero (f.neg x)) else f.value x
/-- The same as an exact value. -/
def inputX (f : FmtInfo) (rc : Rnd) (x : Nat) : Exact := (input f rc x).exact
/-- Rounding to an integer (R258). -/
def roundInt (rc : Rnd) (r : Nat) (neg : Bool) (a b : Nat) : Nat :=
  pick rc.mode neg (a / b % 2 == 0) r a b false

/-- The generator of R268. -/
def advance (s : BitVec 32) : BitVec 32 :=
  let s := if s = 0 then 0x6D2B79F5 else s
  let s := s ^^^ (s <<< 13)
  let s := s ^^^ (s >>> 17)
  s ^^^ (s <<< 5)
/-- The state after one more element: it moves under SR alone (R268). -/
def srNext (rc : Rnd) (st : BitVec 32) : BitVec 32 := if rc.mode = modeSR then advance st else st
/-- Elements converted one after another, each with its word of the generator (R268). -/
def eachRounded {α β : Type} (rc : Rnd) (f : Nat → α → β) : BitVec 32 → List α → List β × BitVec 32
  | st, [] => ([], st)
  | st, x :: t =>
    let st' := srNext rc st
    let q := eachRounded rc f st' t
    (f st'.toNat x :: q.1, q.2)
/-- The generator state of rnd (R265). -/
def srState (rnd : Dword) : BitVec 32 := BitVec.ofNat 32 (bits rnd 63 32)
/-- rnd with a new generator state. -/
def withSr (rnd : Dword) (st : BitVec 32) : Dword := setBits rnd 63 32 st.toNat

-- Order of values (R255, R256)

/-- The order of two values that are not NaN; −0 and +0 are equal. -/
def FVal.cmp : FVal → FVal → Ordering
  | .inf m, .inf n => compare (if m then (0 : Int) else 1) (if n then 0 else 1)
  | .inf m, _ => if m then .lt else .gt
  | _, .inf n => if n then .gt else .lt
  | .fin m a e, .fin n b k =>
    let d := if e ≤ k then e else k
    compare (signedNum m (a * 2 ^ (e - d).toNat)) (signedNum n (b * 2 ^ (k - d).toNat))
  | _, _ => .eq

-- E8M0 (R273)

/-- The value of an MX element under a scale: NaN for S = 0xFF (R203, R283). -/
def mxValue (f : FmtInfo) (rc : Rnd) (e sc : Nat) : Exact :=
  if sc = 0xFF then .nan else (inputX f rc e).scale ((sc : Int) - 127)

end Sys2Proof.Machine
end

