-- ==== Sys2Proof/Machine/Flags.lean ====
section
/-! DEFINITION. Predicate masks, the machine's flags: tests of elements and logic on masks (R252, R256, R263). -/

namespace Sys2Proof.Machine

/-- Element i of width e of a lane (R246). -/
def elem (e i : Nat) (v : Lane) : Nat := v.toNat / 2 ^ (e * i) % 2 ^ e
/-- The elements a lane holds (R246). -/
def elemCount (e : Nat) : Nat := 32 / e
/-- A lane of elements. -/
def joinElems (e : Nat) (f : Nat → Nat) : Lane :=
  BitVec.ofNat 32 ((List.range (elemCount e)).foldl (fun acc i => acc + f i % 2 ^ e * 2 ^ (e * i)) 0)
/-- The two's-complement reading of an element (R246). -/
def signedElem (e x : Nat) : Int := if 2 ^ (e - 1) ≤ x then (x : Int) - 2 ^ e else x
/-- A condition on two integers (R252). -/
def condHolds (c : Cond) (x y : Int) : Bool :=
  match c with | .eq => x == y | .ne => x != y | .lt => x < y | .le => x ≤ y | .gt => y < x | .ge => y ≤ x
/-- VCMP's mask (R252). -/
def vcmpMask (c : Cond) (uns : Bool) (e : Nat) (m : BitVec 16) (a b : Reg) : BitVec 16 :=
  maskOf fun l => inMask m l && (List.range (elemCount e)).all fun i =>
    let x := elem e i (lane a l)
    let y := elem e i (lane b l)
    if uns then condHolds c x y else condHolds c (signedElem e x) (signedElem e y)
/-- A predicate on two float values (R256). -/
def fcmpHolds (op : FCmp) (x y : FVal) : Bool :=
  let unord := x == .nan || y == .nan
  match op with
  | .eq => !unord && x.cmp y == .eq
  | .ne => unord || x.cmp y != .eq
  | .lt => !unord && x.cmp y == .lt
  | .le => !unord && x.cmp y != .gt
  | .gt => !unord && x.cmp y == .gt
  | .ge => !unord && x.cmp y != .lt
  | .uno => unord
  | .ord => !unord
/-- VFCMP's mask (R256). -/
def vfcmpMask (op : FCmp) (f : FmtInfo) (rc : Rnd) (m : BitVec 16) (a b : Reg) : BitVec 16 :=
  maskOf fun l => inMask m l && (List.range (elemCount f.width)).all fun i =>
    fcmpHolds op (input f rc (elem f.width i (lane a l))) (input f rc (elem f.width i (lane b l)))
/-- MOP's mask (R263): bit (2 × a + b) of the function. -/
def mopMask (fn : BitVec 4) (a b : BitVec 16) : BitVec 16 := maskOf fun l => fn.getLsbD (2 * bitOf (inMask a l) + bitOf (inMask b l))
/-- The set bits of a mask (R263). -/
def maskCount (m : BitVec 16) : Nat := (lanesOf m).length
/-- p[i] of the issuing context written (R263). -/
def pwrite (id : Nat) (i : Nat) (m : BitVec 16) : M Unit := updSelf id fun x => { x with pw := withP x.pw i m }

end Sys2Proof.Machine
end

