-- ==== Sys2Proof/Machine/Vector.lean ====
section
/-! DEFINITION. Pages 3, 4 and 5 (R246 to R263). -/

namespace Sys2Proof.Machine

/-- B, or its broadcast: an element of Sread(B) in every element of every lane (R248). -/
def bread (id : Nat) (b : RegNo) (bc : Bool) (e : Nat) : M Reg := do
  if bc then
    let v ← sread id b
    return ofLanes fun _ => joinElems e fun _ => v.toNat
  else vread id b
/-- The lanes of p0 in which a function gives each element (R247). -/
def mapElems (e : Nat) (f : Nat → Nat → Nat → Nat) (a b : Reg) : Reg :=
  ofLanes fun l => joinElems e fun i => f l (elem e i (lane a l)) (elem e i (lane b l))

-- Page 3

/-- The width of an element (R246). -/
def elWidth : VElem → Nat | .w => 32 | .h => 16 | .b => 8
/-- A page 3 operation (R251): f takes the lane and both elements. -/
def vint (q : VIQual) (d a b : RegNo) (f : Nat → Nat → Nat → Nat) (id : Nat) (x : Ctx) : M Unit := do
  charge id 1 0
  let u ← vread id a
  let v ← bread id b q.bc (elWidth q.el)
  vwrite id d (mapElems (elWidth q.el) f u v) (maskP x.pw 0)
/-- An integer taken modulo 2^e. -/
def wrapInt (e : Nat) (x : Int) : Nat := (x % (2 ^ e : Nat)).toNat
/-- An element read signed, or unsigned with uns. -/
def readElem (e : Nat) (uns : Bool) (x : Nat) : Int := if uns then x else signedElem e x
/-- A sum or difference, wrapped, or clamped with sat (R251). -/
def satInt (q : VIQual) (z : Int) : Nat :=
  let e := (elWidth q.el)
  if !q.sat then wrapInt e z
  else if q.uns then wrapInt e (max 0 (min z ((2 : Int) ^ e - 1)))
  else wrapInt e (max (-(2 : Int) ^ (e - 1)) (min z ((2 : Int) ^ (e - 1) - 1)))

def execVadd (q : VIQual) (d a b : RegNo) (s : State) :=
  run (.vadd q d a b) (vint q d a b fun _ x y => satInt q (readElem (elWidth q.el) q.uns x + readElem (elWidth q.el) q.uns y)) s
def execVsub (q : VIQual) (d a b : RegNo) (s : State) :=
  run (.vsub q d a b) (vint q d a b fun _ x y => satInt q (readElem (elWidth q.el) q.uns x - readElem (elWidth q.el) q.uns y)) s
def execVmul (q : VIQual) (d a b : RegNo) (s : State) := run (.vmul q d a b) (vint q d a b fun _ x y => x * y) s
def execVmulh (q : VIQual) (d a b : RegNo) (s : State) :=
  run (.vmulh q d a b) (vint q d a b fun _ x y =>
    wrapInt (elWidth q.el) (readElem (elWidth q.el) q.uns x * readElem (elWidth q.el) q.uns y / (2 ^ (elWidth q.el) : Nat))) s
def execVand (q : VIQual) (d a b : RegNo) (s : State) := run (.vand q d a b) (vint q d a b fun _ x y => x &&& y) s
def execVor (q : VIQual) (d a b : RegNo) (s : State) := run (.vor q d a b) (vint q d a b fun _ x y => x ||| y) s
def execVxor (q : VIQual) (d a b : RegNo) (s : State) := run (.vxor q d a b) (vint q d a b fun _ x y => x ^^^ y) s
def execVshl (q : VIQual) (d a b : RegNo) (s : State) := run (.vshl q d a b) (vint q d a b fun _ x y => x * 2 ^ (y % (elWidth q.el))) s
def execVshr (q : VIQual) (d a b : RegNo) (s : State) := run (.vshr q d a b) (vint q d a b fun _ x y => x / 2 ^ (y % (elWidth q.el))) s
def execVsar (q : VIQual) (d a b : RegNo) (s : State) :=
  run (.vsar q d a b) (vint q d a b fun _ x y => wrapInt (elWidth q.el) (signedElem (elWidth q.el) x / (2 ^ (y % (elWidth q.el)) : Nat))) s
def execVmin (q : VIQual) (d a b : RegNo) (s : State) :=
  run (.vmin q d a b) (vint q d a b fun _ x y => if readElem (elWidth q.el) q.uns x ≤ readElem (elWidth q.el) q.uns y then x else y) s
def execVmax (q : VIQual) (d a b : RegNo) (s : State) :=
  run (.vmax q d a b) (vint q d a b fun _ x y => if readElem (elWidth q.el) q.uns y ≤ readElem (elWidth q.el) q.uns x then x else y) s
/-- R252. -/
def execVcmp (q : VIQual) (pd : Fin 4) (a b : RegNo) (s : State) :=
  run (.vcmp q pd a b) (fun id x => do
    charge id 1 0
    let u ← vread id a
    let v ← bread id b q.bc (elWidth q.el)
    pwrite id pd.val (vcmpMask q.cond q.uns (elWidth q.el) (maskP x.pw 0) u v)) s
/-- VSEL takes x where bit l of p1 is 1 (R251). -/
def execVsel (q : VIQual) (d a b : RegNo) (s : State) :=
  run (.vsel q d a b) (fun id c => vint q d a b (fun l x y => if inMask (maskP c.pw 1) l then x else y) id c) s

-- Page 4

/-- The elements of the lanes of a mask, in ascending lane order and element 0 first (R253): (lane, element). -/
def elemOrder (m : BitVec 16) (e : Nat) : List (Nat × Nat) := (lanesOf m).flatMap fun l => (List.range (elemCount e)).map fun i => (l, i)
/-- A register whose elements are looked up in a list. -/
def fromElems (e : Nat) (ks : List (Nat × Nat)) (vs : List Nat) : Reg :=
  let tab := ks.zip vs
  ofLanes fun l => joinElems e fun i => match tab.find? fun p => p.1 == (l, i) with | some p => p.2 | none => 0
/-- FMT where an instruction that rounds finds a reserved code (R266). -/
def checkFmt (x : Ctx) (rm : Rounding) : M Unit := match fmtFault x.rnd rm with | some f => raise f | none => pure ()
/-- The rounding state written back (R268). -/
def putSr (id : Nat) (st : BitVec 32) : M Unit := updSelf id fun y => { y with rnd := withSr y.rnd st }
/-- An operation that rounds each element (R254): g gives the exact value from x, y and z = D's element. -/
def roundElems (q : VFQual) (x : Ctx) (a b d0 : Reg) (g : Rnd → Exact → Exact → Exact → Exact) : Reg × BitVec 32 :=
  let f := (ftInfo q.ty)
  let rc := rndOf x.rnd q.rm
  let ks := elemOrder (maskP x.pw 0) f.width
  let get := fun (r : Reg) (k : Nat × Nat) => inputX f rc (elem f.width k.2 (lane r k.1))
  let p := eachRounded rc (fun r k => roundTo f rc r (g rc (get a k) (get b k) (get d0 k))) (srState x.rnd) ks
  (fromElems f.width ks p.1, p.2)
/-- A page 4 operation of two or three sources that rounds (R247, R253). -/
def vfloat (q : VFQual) (d a b : RegNo) (dRead : Bool) (g : Rnd → Exact → Exact → Exact → Exact) (id : Nat) (x : Ctx) : M Unit := do
  checkFmt x q.rm
  charge id 1 0
  let u ← vread id a
  let v ← bread id b q.bc (ftInfo q.ty).width
  let w ← if dRead then vread id d else pure 0
  let r := roundElems q x u v w g
  putSr id r.2
  vwrite id d r.1 (maskP x.pw 0)
/-- A page 4 operation of one source that rounds. -/
def vfloat1 (q : VFQual) (d a : RegNo) (g : Exact → Exact) (id : Nat) (x : Ctx) : M Unit := do
  checkFmt x q.rm
  charge id 1 0
  let u ← vread id a
  let r := roundElems q x u u u fun _ y _ _ => g y
  putSr id r.2
  vwrite id d r.1 (maskP x.pw 0)
/-- A long operation of page 4 (R249). -/
def vflong (i : Instr) (q : VFQual) (ci : Nat) (d a : RegNo) (b : Option RegNo) (g : Exact → Exact → Exact) (id : Nat) (x : Ctx) : M Unit := do
  checkFmt x q.rm
  charge id ci 0
  let u ← vread id a
  let v ← match b with | some b => bread id b q.bc (ftInfo q.ty).width | none => pure u
  let r := roundElems q x u v u fun _ y z _ => g y z
  putSr id r.2
  startLong i id x { Long.blank with d := d, wr := .vector, mask := maskP x.pw 0, acc := r.1 } (some 40)
/-- The rounding direction that gives an exact zero sum its −0 (R253). -/
def Rnd.rdn (rc : Rnd) : Bool := rc.mode == modeRDN

def execVfadd (q : VFQual) (d a b : RegNo) (s : State) := run (.vfadd q d a b) (vfloat q d a b false fun rc x y _ => Exact.sum rc.rdn [x, y]) s
def execVfsub (q : VFQual) (d a b : RegNo) (s : State) := run (.vfsub q d a b) (vfloat q d a b false fun rc x y _ => Exact.sum rc.rdn [x, y.negate]) s
def execVfmul (q : VFQual) (d a b : RegNo) (s : State) := run (.vfmul q d a b) (vfloat q d a b false fun _ x y _ => x.mul y) s
def execVfma (q : VFQual) (d a b : RegNo) (s : State) := run (.vfma q d a b) (vfloat q d a b true fun rc x y z => Exact.sum rc.rdn [x.mul y, z]) s
def execVfdiv (la : BitVec 4) (q : VFQual) (d a b : RegNo) (s : State) := run (.vfdiv la q d a b) (vflong (.vfdiv la q d a b) q 4 d a (some b) Exact.div) s
def execVfsqrt (la : BitVec 4) (q : VFQual) (d a : RegNo) (s : State) := run (.vfsqrt la q d a) (vflong (.vfsqrt la q d a) q 4 d a none fun x _ => x.sqrt) s
def execVfrcp (la : BitVec 4) (q : VFQual) (d a : RegNo) (s : State) := run (.vfrcp la q d a) (vflong (.vfrcp la q d a) q 1 d a none fun x _ => (Exact.ofInt 1).div x) s
/-- VFMIN and VFMAX of two patterns (R255). -/
def minMaxElem (big : Bool) (f : FmtInfo) (rc : Rnd) (x y : Nat) : Nat :=
  let x := if rc.flushIn && f.subnormal x then f.zero (f.neg x) else x
  let y := if rc.flushIn && f.subnormal y then f.zero (f.neg y) else y
  if f.isNan x then (if f.isNan y then f.nan else y)
  else if f.isNan y then x
  else match (f.value x).cmp (f.value y) with
    | .lt => if big then y else x
    | .gt => if big then x else y
    | .eq => if f.neg x = f.neg y then x else if f.neg x = big then y else x
/-- A page 4 operation that does not round (R254). -/
def vfplain (q : VFQual) (d a b : RegNo) (g : FmtInfo → Rnd → Nat → Nat → Nat) (id : Nat) (x : Ctx) : M Unit := do
  charge id 1 0
  let u ← vread id a
  let v ← bread id b q.bc (ftInfo q.ty).width
  vwrite id d (mapElems (ftInfo q.ty).width (fun _ => g (ftInfo q.ty) (rndOf x.rnd q.rm)) u v) (maskP x.pw 0)
def execVfmin (q : VFQual) (d a b : RegNo) (s : State) := run (.vfmin q d a b) (vfplain q d a b (minMaxElem false)) s
def execVfmax (q : VFQual) (d a b : RegNo) (s : State) := run (.vfmax q d a b) (vfplain q d a b (minMaxElem true)) s
/-- R256. -/
def execVfcmp (op : FCmp) (q : VFQual) (pd : Fin 4) (a b : RegNo) (s : State) :=
  run (.vfcmp op q pd a b) (fun id x => do
    charge id 1 0
    let u ← vread id a
    let v ← bread id b q.bc (ftInfo q.ty).width
    pwrite id pd.val (vfcmpMask op (ftInfo q.ty) (rndOf x.rnd q.rm) (maskP x.pw 0) u v)) s
/-- R257, on the bits as they stand. -/
def signElem (op : SgnOp) (f : FmtInfo) (x y : Nat) : Nat :=
  f.pattern (match op with | .copy => f.neg y | .neg => !f.neg x | .xor => f.neg x != f.neg y | .abs => false) (f.mag x)
def execVfsgn (op : SgnOp) (q : VFQual) (d a b : RegNo) (s : State) :=
  run (.vfsgn op q d a b) (fun id x => do
    charge id 1 0
    let u ← vread id a
    let v ← if op == .copy || op == .xor then bread id b q.bc (ftInfo q.ty).width else pure 0
    vwrite id d (mapElems (ftInfo q.ty).width (fun _ => signElem op (ftInfo q.ty)) u v) (maskP x.pw 0)) s
/-- VFRND of an element (R258). -/
def rndElem (f : FmtInfo) (rc : Rnd) (r : Nat) (v : FVal) : Nat :=
  match v.exact with
  | .fin n a b _ => if a = 0 then f.zero n else roundTo f { rc with flushOut := false } r (.fin n (roundInt rc r n a b) 1 false)
  | e => roundTo f rc r e
/-- An element-wise conversion that advances SR once an element (R258). -/
def vfeach (q : VFQual) (d a : RegNo) (g : FmtInfo → Rnd → Nat → Nat → Nat) (id : Nat) (x : Ctx) : M Unit := do
  checkFmt x q.rm
  charge id 1 0
  let u ← vread id a
  let f := (ftInfo q.ty)
  let rc := rndOf x.rnd q.rm
  let ks := elemOrder (maskP x.pw 0) f.width
  let p := eachRounded rc (fun r k => g f rc r (elem f.width k.2 (lane u k.1))) (srState x.rnd) ks
  putSr id p.2
  vwrite id d (fromElems f.width ks p.1) (maskP x.pw 0)
def execVfrnd (q : VFQual) (d a : RegNo) (s : State) := run (.vfrnd q d a) (vfeach q d a fun f rc r x => rndElem f rc r (input f rc x)) s
/-- VFCVTI of an element (R258): an infinity clamps, a NaN gives 0. -/
def cvtiElem (op : CvtiOp) (f : FmtInfo) (rc : Rnd) (r x : Nat) : Nat :=
  let e := f.width
  let toInt := fun (lo hi : Int) => match (input f rc x).exact with
    | .nan => 0
    | .inf n => wrapInt e (if n then lo else hi)
    | .fin n a b _ => wrapInt e (max lo (min (signedNum n (roundInt rc r n a b)) hi))
  match op with
  | .toi => toInt (-(2 : Int) ^ (e - 1)) ((2 : Int) ^ (e - 1) - 1)
  | .touns => toInt 0 ((2 : Int) ^ e - 1)
  | .fromi => roundTo f rc r (Exact.ofInt (signedElem e x))
  | .fromuns => roundTo f rc r (Exact.ofInt x)
def execVfcvti (op : CvtiOp) (q : VFQual) (d a : RegNo) (s : State) := run (.vfcvti op q d a) (vfeach q d a (cvtiElem op)) s
/-- R259: one rounding of the sum of two products and D's FP32 lane; a broadcast gives both elements of bb[31:0] (R248). -/
def execVfdot2 (q : VFQual) (d a b : RegNo) (s : State) :=
  run (.vfdot2 q d a b) (fun id x => do
    checkFmt x q.rm
    charge id 1 0
    let u ← vread id a
    let v ← bread id b q.bc 32
    let w ← vread id d
    let rc := rndOf x.rnd q.rm
    let f := (ftInfo q.ty)
    let ls := lanesOf (maskP x.pw 0)
    let p := eachRounded rc (fun r l =>
      let pr := fun i => (inputX f rc (elem 16 i (lane u l))).mul (inputX f rc (elem 16 i (lane v l)))
      roundTo infoFp32 rc r (Exact.sum rc.rdn [pr 1, pr 0, inputX infoFp32 rc (lane w l).toNat])) (srState x.rnd) ls
    putSr id p.2
    vwrite id d (fromElems 32 (ls.map fun l => (l, 0)) p.1) (maskP x.pw 0)) s

-- Page 5 (R260 to R263)

/-- A lane move of vectors A and B (R260). -/
def vmove (d a b : RegNo) (f : Reg → Reg → Nat → Lane) (id : Nat) (x : Ctx) : M Unit := do
  charge id 1 0
  let u ← vread id a
  let v ← vread id b
  vwrite id d (ofLanes (f u v)) (maskP x.pw 0)
def execVbc (d a : RegNo) (s : State) :=
  run (.vbc d a) (fun id x => do charge id 1 0; let u ← sread id a; vwrite id d (ofLanes fun _ => u.setWidth 32) (maskP x.pw 0)) s
def execVget (d a : RegNo) (imm : Dword) (s : State) :=
  run (.vget d a imm) (fun id _ => do charge id 1 0; let u ← vread id a; swrite id d ((lane u (imm.toNat % 16)).setWidth 64)) s
def execVput (d a : RegNo) (imm : Dword) (s : State) :=
  run (.vput d a imm) (fun id x => do
    charge id 1 0
    let u ← sread id a
    if inMask (maskP x.pw 0) (imm.toNat % 16) then
      vwrite id d (ofLanes fun _ => u.setWidth 32) (BitVec.ofNat 16 (2 ^ (imm.toNat % 16)))
    else pure ()) s
def execVperm (d a b : RegNo) (s : State) := run (.vperm d a b) (vmove d a b fun u v l => lane u ((lane v l).toNat % 16)) s
def execVrot (d a : RegNo) (imm : Dword) (s : State) :=
  run (.vrot d a imm) (fun id x => do
    charge id 1 0
    let u ← vread id a
    vwrite id d (ofLanes fun l => lane u ((l + imm.toNat % 16) % 16)) (maskP x.pw 0)) s
def execVlane (d a : RegNo) (s : State) :=
  run (.vlane d a) (fun id x => do
    charge id 1 0
    let u ← sread id a
    vwrite id d (ofLanes fun l => u.setWidth 32 + BitVec.ofNat 32 l) (maskP x.pw 0)) s
def execVzip (d a b : RegNo) (s : State) := run (.vzip d a b) (vmove d a b fun u v l => if l % 2 = 0 then lane u (l / 2) else lane v (l / 2)) s
def execVuzp (d a b : RegNo) (s : State) := run (.vuzp d a b) (vmove d a b fun u v l => if l < 8 then lane u (2 * l) else lane v (2 * (l - 8))) s

/-- The operation of a reduction on two lanes, with the generator's state (R261). DESIGN CHOICE: with rnd[5] set a subnormal
partial result is flushed again as an operand of the next float add, as any operand is; R261 says only that input flush applies
to every present lane (log 78). -/
def redOp (q : LQual) (rc : Rnd) (st : BitVec 32) (x y : Lane) : Lane × BitVec 32 :=
  match q with
  | .int op =>
    (match op.val with
      | 0 => x + y
      | 1 => if x.sle y then x else y
      | 2 => if y.sle x then x else y
      | 3 => if x.ule y then x else y
      | 4 => if y.ule x then x else y
      | 5 => x &&& y
      | 6 => x ||| y
      | _ => x ^^^ y, st)
  | .float op _ =>
    match op.val with
    | 0 =>
      let st' := srNext rc st
      (BitVec.ofNat 32 (roundTo infoFp32 rc st'.toNat (Exact.sum rc.rdn [inputX infoFp32 rc x.toNat, inputX infoFp32 rc y.toNat])), st')
    | 1 => (BitVec.ofNat 32 (minMaxElem false infoFp32 rc x.toNat y.toNat), st)
    | _ => (BitVec.ofNat 32 (minMaxElem true infoFp32 rc x.toNat y.toNat), st)
/-- A lane as VRED and VSCAN take it: flushed under f (R261). -/
def redLane (q : LQual) (rc : Rnd) (x : Lane) : Lane :=
  match q with
  | .int _ => x
  | .float _ _ => if rc.flushIn && infoFp32.subnormal x.toNat then BitVec.ofNat 32 (infoFp32.zero (infoFp32.neg x.toNat)) else x
/-- The identity of an operation (R261). -/
def redIdentity : LQual → Lane
  | .int op => match op.val with | 1 => 0x7FFFFFFF | 2 => 0x80000000 | 3 => 0xFFFFFFFF | 5 => 0xFFFFFFFF | _ => 0
  | .float op _ => match op.val with | 0 => 0 | 1 => 0x7F800000 | _ => 0xFF800000
/-- One level of the tree of R261. -/
def redLevel (q : LQual) (rc : Rnd) : BitVec 32 → List (Option Lane) → List (Option Lane) × BitVec 32
  | st, x :: y :: t =>
    let p := match x, y with
      | some u, some v => let r := redOp q rc st u v; (some r.1, r.2)
      | some u, none => (some u, st)
      | none, v => (v, st)
    let r := redLevel q rc p.2 t
    (p.1 :: r.1, r.2)
  | st, l => (l, st)
/-- n levels of the tree. -/
def redTree (q : LQual) (rc : Rnd) : Nat → BitVec 32 → List (Option Lane) → Option Lane × BitVec 32
  | 0, st, l => (l.headD none, st)
  | n + 1, st, l => let p := redLevel q rc st l; redTree q rc n p.2 p.1
/-- The rounding of a reduction; only a float add rounds (R261). -/
def redRounding : LQual → Option Rounding | .float op rm => if op.val = 0 then some rm else none | .int _ => none
/-- The settings of rnd a reduction uses. That a reserved code of them faults FMT at a float add is a DESIGN CHOICE (log 89). -/
def redRnd (q : LQual) (x : Ctx) : Rnd := rndOf x.rnd (match q with | .float _ rm => rm | .int _ => .rne)
def execVred (q : LQual) (d a : RegNo) (s : State) :=
  run (.vred q d a) (fun id x => do
    match redRounding q with | some rm => checkFmt x rm | none => pure ()
    charge id 1 0
    let u ← vread id a
    let rc := redRnd q x
    let r := redTree q rc 4 (srState x.rnd) ((List.range 16).map fun l => if inMask (maskP x.pw 0) l then some (redLane q rc (lane u l)) else none)
    putSr id r.2
    swrite id d ((r.1.getD (redIdentity q)).setWidth 64)) s
/-- The prefix of R262 over lanes, the running value absent at first. -/
def scanLanes (q : LQual) (rc : Rnd) (u : Reg) : BitVec 32 → Option Lane → List Nat → List (Nat × Lane) × BitVec 32
  | st, _, [] => ([], st)
  | st, acc, l :: t =>
    let y := redLane q rc (lane u l)
    let p := match acc with | some z => redOp q rc st z y | none => (y, st)
    let r := scanLanes q rc u p.2 (some p.1) t
    ((l, p.1) :: r.1, r.2)
def execVscan (q : LQual) (d a : RegNo) (s : State) :=
  run (.vscan q d a) (fun id x => do
    match redRounding q with | some rm => checkFmt x rm | none => pure ()
    charge id 1 0
    let u ← vread id a
    let r := scanLanes q (redRnd q x) u (srState x.rnd) none (lanesOf (maskP x.pw 0))
    putSr id r.2
    vwrite id d (fromElems 32 (r.1.map fun p => (p.1, 0)) (r.1.map fun p => p.2.toNat)) (maskP x.pw 0)) s
def execMop (fn : BitVec 4) (pd pa pb : Fin 4) (s : State) :=
  run (.mop fn pd pa pb) (fun id x => do charge id 1 0; pwrite id pd.val (mopMask fn (maskP x.pw pa.val) (maskP x.pw pb.val))) s
def execMget (d : RegNo) (pa : Fin 4) (s : State) :=
  run (.mget d pa) (fun id x => do charge id 1 0; swrite id d ((maskP x.pw pa.val).setWidth 64)) s
def execMset (pd : Fin 4) (a : RegNo) (s : State) :=
  run (.mset pd a) (fun id _ => do charge id 1 0; let u ← sread id a; pwrite id pd.val (u.setWidth 16)) s
def execMcnt (d : RegNo) (pa : Fin 4) (s : State) :=
  run (.mcnt d pa) (fun id x => do charge id 1 0; swrite id d (dw (maskCount (maskP x.pw pa.val)))) s

end Sys2Proof.Machine
end

