-- ==== Sys2Proof/Machine/Convert.lean ====
section
/-! DEFINITION. Page 14: conversion, MX records, scaling by powers of two, packing (R274, R280 to R285). -/

namespace Sys2Proof.Machine

/-- One conversion between FP32 and F (R281): the pattern of the source, its rounding word. -/
def convert (q : CQual) (rc : Rnd) (r x : Nat) : Nat :=
  let f := fmtInfo q.fmt
  if q.frm then roundTo infoFp32 rc r (inputX f rc (x % 2 ^ f.width)) else roundTo f rc r (inputX infoFp32 rc (x % 2 ^ 32))
/-- CVT and CVTH: F lies in the low or the high bits of a lane (R281). -/
def convertLanes (q : CQual) (high : Bool) (d a : RegNo) (id : Nat) (x : Ctx) : M Unit := do
  checkFmt x q.rm
  charge id 1 0
  let u ← vread id a
  let sh := if high then 2 ^ (32 - (fmtInfo q.fmt).width) else 1
  let ls := lanesOf (maskP x.pw 0)
  let p := eachRounded (rndOf x.rnd q.rm) (fun r l =>
    let v := (lane u l).toNat
    if q.frm then convert q (rndOf x.rnd q.rm) r (v / sh) else convert q (rndOf x.rnd q.rm) r v * sh) (srState x.rnd) ls
  putSr id p.2
  vwrite id d (fromElems 32 (ls.map fun l => (l, 0)) p.1) (maskP x.pw 0)
/-- R281. -/
def execCvt (q : CQual) (d a : RegNo) (s : State) := run (.cvt q d a) (convertLanes q false d a) s
def execCvth (q : CQual) (d a : RegNo) (s : State) := run (.cvth q d a) (convertLanes q true d a) s
def execCvtw (q : CQual) (d a : RegNo) (s : State) :=
  run (.cvtw q d a) (fun id x => do
    checkFmt x q.rm
    charge id 1 0
    let u ← sread id a
    let rc := rndOf x.rnd q.rm
    let p := eachRounded rc (fun r (v : Nat) => convert q rc r v) (srState x.rnd) [u.toNat]
    putSr id p.2
    swrite id d (dw (p.1.headD 0))) s

/-- The magnitude of a finite exact value; none for a NaN or an infinity. -/
def magOf : Exact → Option (Nat × Nat) | .fin _ a b _ => some (a, b) | _ => none
/-- The greater of two fractions. -/
def maxFrac (p q : Nat × Nat) : Nat × Nat := if p.1 * q.2 < q.1 * p.2 then q else p
/-- The scale of an MX record over values (R282): 0xFF where one is a NaN or infinite. -/
def mxScale (f : FmtInfo) (xs : List Exact) : Nat :=
  if xs.any fun x => (magOf x).isNone then 0xFF
  else
    let m := (xs.filterMap magOf).foldl maxFrac (0, 1)
    if m.1 = 0 then 0 else (max 0 (min (log2Ratio m.1 m.2 - f.emax + 127) 254)).toNat
/-- An MX record of n-bit elements and a scale (R274). -/
def mxRecord (n : Nat) (es : List Nat) (sc : Nat) : Reg :=
  BitVec.ofNat 512 ((es.zipIdx).foldl (fun acc p => acc + p.1 * 2 ^ (n * p.2)) 0 + sc * 2 ^ (32 * n))
/-- Whether a value is below zero or −0. -/
def Exact.isNeg : Exact → Bool
  | .nan => false
  | .inf n => n
  | .fin n _ _ _ => n
/-- RoundTo of an MX element: overflow saturates, and a negative value in an unsigned format follows rnd's ovf (R269, R282). -/
def mxRound (f : FmtInfo) (rc : Rnd) (r : Nat) (y : Exact) : Nat :=
  roundTo f (if y.isNeg && !f.signed then rc else { rc with ovf := 1 }) r y
/-- R282: SR advances 32 times whether or not an element is rounded. -/
def execMxq (q : XQual) (d a b : RegNo) (s : State) :=
  run (.mxq q d a b) (fun id x => do
    checkFmt x q.rm
    charge id 1 0
    let u ← vread id a
    let v ← vread id b
    let f := fmtInfo q.fmt
    let rc := rndOf x.rnd q.rm
    let xs := (List.range 32).map fun i => inputX infoFp32 rc (if i < 16 then lane u i else lane v (i - 16)).toNat
    let sc := mxScale f xs
    let p := eachRounded rc (fun r y => if sc = 0xFF then 0 else mxRound f rc r (Exact.scale y (127 - (sc : Int)))) (srState x.rnd) xs
    putSr id p.2
    vwrite id d (mxRecord f.width p.1 sc) 0xFFFF) s
/-- R283. -/
def execMxx (q : XQual) (d a : RegNo) (s : State) :=
  run (.mxx q d a) (fun id x => do
    checkFmt x q.rm
    charge id 1 0
    let u ← vread id a
    let f := fmtInfo q.fmt
    let rc := rndOf x.rnd q.rm
    let ks := elemOrder (maskP x.pw 0) 16
    let sc := u.toNat / 2 ^ (32 * f.width) % 256
    let p := eachRounded rc (fun r (k : Nat × Nat) =>
      roundTo infoBf16 rc r (mxValue f rc (u.toNat / 2 ^ (f.width * (2 * k.1 + k.2)) % 2 ^ f.width) sc)) (srState x.rnd) ks
    putSr id p.2
    vwrite id d (fromElems 16 ks p.1) (maskP x.pw 0)) s
/-- The exponent of SCALB; beyond ±1,000 every format's result is that of ±1,000 (R284). -/
def scalbExp (e y : Nat) : Int := max (-1000) (min (signedElem e y) 1000)
/-- R284. -/
def execScalb (q : VFQual) (d a b : RegNo) (s : State) :=
  run (.scalb q d a b) (fun id x => do
    checkFmt x q.rm
    charge id 1 0
    let f := ftInfo q.ty
    let u ← vread id a
    let v ← bread id b q.bc f.width
    let rc := rndOf x.rnd q.rm
    let ks := elemOrder (maskP x.pw 0) f.width
    let p := eachRounded rc (fun r (k : Nat × Nat) =>
      roundTo f rc r ((inputX f rc (elem f.width k.2 (lane u k.1))).scale (scalbExp f.width (elem f.width k.2 (lane v k.1))))) (srState x.rnd) ks
    putSr id p.2
    vwrite id d (fromElems f.width ks p.1) (maskP x.pw 0)) s

/-- The bits of an element of PACK and UNPK (R285). -/
def packWidth : PWidth → Nat | .x16 => 16 | .x8 => 8 | .x4 => 4
/-- An element of PACK: the low bits, clamped with sat (R285). -/
def packElem (q : PQual) (v : Lane) : Nat :=
  let w := packWidth q.width
  if q.sat then wrapInt w (max (-(2 : Int) ^ (w - 1)) (min v.toInt ((2 : Int) ^ (w - 1) - 1))) else v.toNat % 2 ^ w
/-- A register with w bits at a bit position replaced. -/
def putField (r : Reg) (w pos v : Nat) : Reg :=
  let m : Reg := BitVec.ofNat 512 ((2 ^ w - 1) * 2 ^ pos)
  (r &&& ~~~ m) ||| BitVec.ofNat 512 (v % 2 ^ w * 2 ^ pos)
/-- R285: D is read and written. -/
def execPack (q : PQual) (d a b : RegNo) (s : State) :=
  run (.pack q d a b) (fun id x => do
    charge id 1 0
    let u ← vread id a
    let n ← sread id b
    let old ← vread id d
    let w := packWidth q.width
    let k := n.toNat % (32 / w)
    wwrite id d ((lanesOf (maskP x.pw 0)).foldl (fun r l => putField r w (w * (16 * k + l)) (packElem q (lane u l))) old)) s
def execUnpk (w : PWidth) (d a b : RegNo) (s : State) :=
  run (.unpk w d a b) (fun id x => do
    charge id 1 0
    let u ← vread id a
    let n ← sread id b
    let k := n.toNat % (32 / packWidth w)
    vwrite id d (ofLanes fun l => BitVec.ofNat 32 (u.toNat / 2 ^ (packWidth w * (16 * k + l)) % 2 ^ packWidth w)) (maskP x.pw 0)) s

end Sys2Proof.Machine
end

