-- ==== Sys2Proof/Machine/Cache.lean ====
section
/-! DEFINITION. Cache ways of a home as tags without data: the slice always holds the current data (R172 to R174). -/

namespace Sys2Proof.Machine

/-- The cache-way banks of a tile, ascending (R172). -/
def cacheBanks (s : State) (t : Nat) : List Nat := (List.range 24).filter fun b => bankMode s t b == .cache
/-- The key of a way: tile, bank and set PA[15:6]. -/
def wayKey (t b set : Nat) : Nat := t * 2 ^ 20 + b * 1024 + set
/-- The line a way holds, plus one; 0 where the way is invalid. -/
def wayAt (s : State) (t b set : Nat) : Nat := FMap.get 0 s.ways (wayKey t b set)
/-- Whether a line is cached at a tile (R172). -/
def cached (s : State) (t line : Nat) : Bool := (cacheBanks s t).any fun b => wayAt s t b (line % 1024) == line + 1
/-- A line takes a way: the lowest-numbered invalid one, else the one at the set's round-robin pointer (R172). -/
def fillWay (s : State) (t line : Nat) : State :=
  let bs := cacheBanks s t
  let set := line % 1024
  if bs.isEmpty || cached s t line then s
  else match bs.find? fun b => wayAt s t b set == 0 with
    | some b => { s with ways := FMap.set 0 s.ways (wayKey t b set) (line + 1) }
    | none =>
      let p := FMap.get 0 s.rr (1024 * t + set)
      { s with ways := FMap.set 0 s.ways (wayKey t (bs.getD p 0) set) (line + 1), rr := FMap.set 0 s.rr (1024 * t + set) ((p + 1) % bs.length) }
/-- The home drops its copy of a line (R174). -/
def dropLine (s : State) (t line : Nat) : State :=
  { s with ways := s.ways.filter fun e => !(e.1 / 2 ^ 20 == t && e.2 == line + 1) }
/-- Whether a step fills a line at a home. -/
def fillsLine (t line : Nat) : Instr → Bool | .lineFill q l => q.tile == t && l == line | _ => false
/-- A read of a partition that misses at the home fills the line, unless its fill is on its way (R172). -/
def missFill (s : State) (part t place : Nat) : State :=
  if isScratch place || cached s t (place / 64) || (cacheBanks s t).isEmpty || s.agenda.any (fun d => fillsLine t (place / 64) d.step) then s
  else later s (.lineFill ⟨t, part, t, s.uid⟩ (place / 64))
/-- Whether a read at a home that misses waits, at the home's port or for the line's DRAM command, for a day of its partition
(R33). -/
def missWaits (s : State) (part home place : Nat) : Bool :=
  !isScratch place && !cached s home (place / 64) && (!hasDay s home part || dramWait s place part)
/-- A line is written: its zero-map bit is cleared (R177). -/
def clearZero (s : State) (place : Nat) : State := { s with zmap := FMap.set false s.zmap (place / 64) false }
/-- An engine's write at a slice invalidates the home's copy (R174). -/
def invalidateHome (s : State) (h : AtHome) (place : Nat) : State :=
  if isScratch place then s else later (clearZero s place) (.homeInvalidate h (place / 64))

end Sys2Proof.Machine
end

