-- ==== Sys2Proof/Machine/Fetch.lean ====
section
/-! DEFINITION. Fetching a chain (R110, R117, R134): the halfwords at the pc, each under right X. -/

namespace Sys2Proof.Machine

/-- A context's accesses that have not been performed, oldest first. -/
def ownPending (s : State) (id : Nat) : List Access := ((pendingAccesses s).filter fun a => a.ctx == id).foldl insertAccess []
/-- A byte with a context's own stores on their way laid over it, oldest first (R117). -/
def overlayByte (place : Nat) (b : Byte) : List Access → Byte
  | [] => b
  | a :: t => overlayByte place (
      if a.place ≤ place ∧ place < a.place + 64 then
        let i := place - a.place
        match a.kind with
        | .write n v mask => if i < n ∧ mask.getLsbD i then byteAt v i else b
        | .zline => 0
        | .put v => if i < 8 then byteAt (v.setWidth 512) i else b
        | .stf v => if i < 8 then byteAt (v.setWidth 512) i else b
        | _ => b
      else b) t
/-- A halfword at a place as a context's fetch sees it. -/
def fetchedHalf (s : State) (id place : Nat) : Half :=
  overlayByte (place + 1) (readByte s (place + 1)) (ownPending s id) ++ overlayByte place (readByte s place) (ownPending s id)
/-- One halfword fetched, a read that fills its line where it misses (R160 to R168, R172, R185, R186, R425), where it waits for no day (R33). -/
def fetchHalf (s : State) (id : Nat) (x : Ctx) (a : Dword) : Except Trap (Half × State) :=
  match segMap x a 2 2 rightsX with
  | .error f => .error (.fault f)
  | .ok u => match mapUnified s x.part x.at_ u rightsX with
    | .now f => .error (.fault f)
    | .prot f => .error (.fault f)
    | .absent tr => .error (.page u false tr)
    | .spot p s' =>
      if p.paged && underRepair s p.home then .error (.park (repairPark s x p u))
      else if regionOf u == .paged && walkWaits s true x.part x.at_ u then .error .wait
      else if p.home != x.tile && !hasDay s x.tile x.part || missWaits s' x.part p.home p.place then .error .wait
      else if errIn s' p.place 2 then .error (.fault (flt .memerr (dw u) 0 (dw p.place)))
      else .ok (fetchedHalf s' id p.place, missFill s' x.part p.home p.place)

/-- What a fetch finds: an instruction, a chain that is none, or a trap met at a halfword. -/
inductive Fetched where
  | instr (i : Instr) (ws : List Half) (s : State)
  | illegal (e : ChainFault) (ws : List Half) (s : State)
  | stop (t : Trap) (ws : List Half) (s : State)
  deriving DecidableEq, Repr
/-- Halfwords fetched one after another until they make a chain, five at most (R134). -/
def fetchFrom (id : Nat) (x : Ctx) : Nat → State → List Half → Fetched
  | 0, s, ws => .illegal (shapeFault Prefixes.start 0 3) ws s
  | n + 1, s, ws =>
    match fetchHalf s id x (x.pc + dw (2 * ws.length)) with
    | .error t => .stop t ws s
    | .ok (h, s') =>
      let ws' := ws ++ [h]
      match decodeHalves ws' with
      | .ok (i, _) => .instr i ws' s'
      | .error (.illegal e) => .illegal e ws' s'
      | .error .truncated => fetchFrom id x n s' ws'
/-- The chain at a context's pc. -/
def fetchChain (s : State) (id : Nat) (x : Ctx) : Fetched := fetchFrom id x 5 s []
/-- The page and OP reached by the halfwords read (R136, R412); where no base word has been read they are those of the last halfword read,
or 0: DESIGN CHOICE (log 88). -/
def reached (ws : List Half) : Nat × Nat :=
  let xp := match ws with | h :: _ => if h.toNat / 4096 = 14 ∧ prefixRank h = 1 then some (h.extractLsb' 0 10) else none | [] => none
  (pageOf xp, (ws.getLastD 0).toNat / 4096)
/-- A trap met by a fetch is taken at the chain's first halfword (R117). -/
def fetchTrap (s : State) (id : Nat) (x : Ctx) (t : Trap) (ws : List Half) : State :=
  match t with
  | .fault f => takeFault s id x.pc (reached ws).1 (reached ws).2 f
  | .page u w tr => pagePark s id x u w tr
  | .park p => parkCtx s id p
  | _ => s
/-- Whether a context's next instruction is held until something outstanding completes (R50, R56 to R58, R210). -/
def nextHeld (s : State) (id : Nat) (x : Ctx) : Bool :=
  match fetchChain s id x with | .instr i _ _ => heldBy s id x i | _ => false

end Sys2Proof.Machine
end

