-- ==== Sys2Proof/Machine/MemInstr.lean ====
section
/-! DEFINITION. Pages 6 and 7 (R193 to R211). -/

namespace Sys2Proof.Machine

/-- An ask of one address under layout M. -/
def ask1 (q : MQual) (a : Dword) (n : Nat) (r : Rights) (k : AccKind) (land : Land) : Ask :=
  ⟨[a], n, n, r, q.pol, q.ord, q.scope, [(k, land)], none, 0, none, none⟩
/-- The byte mask of n bytes. -/
def byteMask (n : Nat) : BitVec 64 := BitVec.ofNat 64 (2 ^ n - 1)
/-- The byte mask of the lanes of p0 (R200). -/
def laneBytes (m : BitVec 16) : BitVec 64 := BitVec.ofNat 64 ((lanesOf m).foldl (fun acc l => acc + 15 * 2 ^ (4 * l)) 0)

/-- R199. -/
def execLd (la : BitVec 4) (q : MQual) (d a : RegNo) (imm : Dword) (s : State) :=
  run (.ld la q d a imm) (fun id x => longAccess (.ld la q d a imm) id x
    (ask1 q (riAddr x a imm) (typeSize q.ty) rightsR (.read (typeSize q.ty)) (.scalar q.ty)) { Long.blank with d := d, wr := .scalar }) s
def execSt (q : MQual) (d a : RegNo) (imm : Dword) (s : State) :=
  run (.st q d a imm) (fun id x => do
    let v ← sread id d
    storeAccess id x (ask1 q (riAddr x a imm) (typeSize q.ty) rightsW (.write (typeSize q.ty) (withScalar 0 v) (byteMask (typeSize q.ty))) .none)) s
/-- R200. -/
def execVld (la : BitVec 4) (q : MQual) (d a : RegNo) (imm : Dword) (s : State) :=
  run (.vld la q d a imm) (fun id x => longAccess (.vld la q d a imm) id x
    (ask1 q (riAddr x a imm) 64 rightsR (.read 64) .line) { Long.blank with d := d, wr := .vector, mask := maskP x.pw 0 }) s
def execVst (q : MQual) (d a : RegNo) (imm : Dword) (s : State) :=
  run (.vst q d a imm) (fun id x => do
    let v ← vread id d
    storeAccess id x (ask1 q (riAddr x a imm) 64 rightsW (.write 64 v (laneBytes (maskP x.pw 0))) .none)) s
/-- R201. -/
def execVgath (la : BitVec 4) (q : MQual) (d a b : RegNo) (s : State) :=
  run (.vgath la q d a b) (fun id x => longAccess (.vgath la q d a b) id x
    ⟨gatherAddrs x a b, typeSize q.ty, typeSize q.ty, rightsR, q.pol, q.ord, q.scope,
      (lanesOf (maskP x.pw 0)).map fun l => (.read (typeSize q.ty), .lane l q.ty), none, 0, none, none⟩
    { Long.blank with d := d, wr := .vector, mask := maskP x.pw 0 }) s
def execVscat (q : MQual) (d a b : RegNo) (s : State) :=
  run (.vscat q d a b) (fun id x => do
    let v ← vread id d
    storeAccess id x ⟨gatherAddrs x a b, typeSize q.ty, typeSize q.ty, rightsW, q.pol, q.ord, q.scope,
      (lanesOf (maskP x.pw 0)).map fun l => (.write (typeSize q.ty) ((lane v l).setWidth 512) (byteMask (typeSize q.ty)), .none), none, 0, none, none⟩) s
/-- R202: a fill where every check passes and the line is not cached, else nothing; it changes no state that software reads,
so neither its home policy nor the predictor acts (DESIGN CHOICE, log 66). -/
def execPref (q : MQual) (a : RegNo) (imm : Dword) (s : State) :=
  run (.pref q a imm) (fun id x => do
    charge id 1 0
    upd fun t => match resolve t x [riAddr x a imm] 64 64 rightsR with
      | .spots [(_, p)] t' => missFill t' x.part p.home p.place
      | _ => t) s
def execLea (d a : RegNo) (imm : Dword) (s : State) :=
  run (.lea d a imm) (fun id x => do charge id 1 0; swrite id d (riAddr x a imm)) s
def execZline (q : MQual) (a : RegNo) (imm : Dword) (s : State) :=
  run (.zline q a imm) (fun id x => storeAccess id x (ask1 q (riAddr x a imm) 64 rightsW .zline .none)) s
/-- R203: the generator advances once for each of the 32 elements (R268); a reserved code of rnd faults FMT once the address has passed (R266); the charge is 64 wherever the home is. -/
def execLdmx (la : BitVec 4) (q : MQual) (d a : RegNo) (imm : Dword) (s : State) :=
  run (.ldmx la q d a imm) (fun id x => do
    putSr id (eachRounded (rndOf x.rnd .dyn) (fun _ (_ : Nat) => ()) (srState x.rnd) (List.range 32)).2
    longAccess (.ldmx la q d a imm) id x { ask1 q (riAddr x a imm) 64 rightsR (.read 64) .mx with fixed := some 64, fmt := fmtFault x.rnd .dyn }
      { Long.blank with d := d, wr := .vector, mask := maskP x.pw 0, acc := x.rnd.setWidth 512 }) s

/-- A full/empty access (R204): its limit in a wait list is fel (R181), as it stands at issue: DESIGN CHOICE (log 80). -/
def feAsk (q : MQual) (x : Ctx) (a : RegNo) (imm : Dword) (r : Rights) (o : Order) (k : AccKind) (land : Land) : Ask :=
  ⟨[riAddr x a imm], 8, 8, r, q.pol, o, q.scope, [(k, land)], none, bits x.fel 31 0, none, none⟩
def execLdf (la : BitVec 4) (q : MQual) (d a : RegNo) (imm : Dword) (s : State) :=
  run (.ldf la q d a imm) (fun id x => longAccess (.ldf la q d a imm) id x
    (feAsk q x a imm rightsRS .acq .ldf (.scalar .d)) { Long.blank with d := d, wr := .scalar }) s
def execTake (la : BitVec 4) (q : MQual) (d a : RegNo) (imm : Dword) (s : State) :=
  run (.take la q d a imm) (fun id x => longAccess (.take la q d a imm) id x
    (feAsk q x a imm rightsRWS .acq .take (.scalar .d)) { Long.blank with d := d, wr := .scalar }) s
def execPut (la : BitVec 4) (q : MQual) (d a : RegNo) (imm : Dword) (s : State) :=
  run (.put la q d a imm) (fun id x => do
    let v ← sread id d
    longAccess (.put la q d a imm) id x (feAsk q x a imm rightsRWS .rel (.put v) .none) Long.blank) s
def execStf (la : BitVec 4) (q : MQual) (d a : RegNo) (imm : Dword) (s : State) :=
  run (.stf la q d a imm) (fun id x => do
    let v ← sread id d
    longAccess (.stf la q d a imm) id x (feAsk q x a imm rightsRWS .rel (.stf v) .none) Long.blank) s
def execSete (la : BitVec 4) (q : MQual) (a : RegNo) (imm : Dword) (s : State) :=
  run (.sete la q a imm) (fun id x => longAccess (.sete la q a imm) id x (feAsk q x a imm rightsRWS .plain .sete .none) Long.blank) s
def execFetag (la : BitVec 4) (q : MQual) (d a : RegNo) (imm : Dword) (s : State) :=
  run (.fetag la q d a imm) (fun id x => longAccess (.fetag la q d a imm) id x
    (feAsk q x a imm rightsRS .plain .fetag (.scalar .d)) { Long.blank with d := d, wr := .scalar }) s
/-- The size of an atomic (R206). -/
def atomSize (q : AQual) : Nat := if q.word then 4 else 8
/-- An atomic's ask: no home policy, so it is remote (R193). -/
def atomAsk (q : AQual) (x : Ctx) (a : RegNo) (k : AccKind) : Ask :=
  ⟨[x.scalar a], atomSize q, atomSize q, rightsRWS, .remote, q.ord, q.scope, [(k, .scalar (if q.word then .uw else .d))], none, 0,
    if q.comb then some (q.ord, q.scope) else none, none⟩
/-- R206. -/
def execAtom (la : BitVec 4) (q : AQual) (d a b : RegNo) (s : State) :=
  run (.atom la q d a b) (fun id x => longAccess (.atom la q d a b) id x
    (atomAsk q x a (.atom q.op (atomSize q) (x.scalar b))) { Long.blank with d := d, wr := .scalar }) s
/-- R207. -/
def execCas (la : BitVec 4) (q : AQual) (d a b : RegNo) (s : State) :=
  run (.cas la q d a b) (fun id x => do
    let c ← sread id d
    longAccess (.cas la q d a b) id x (atomAsk q x a (.cas (atomSize q) c (x.scalar b))) { Long.blank with d := d, wr := .scalar }) s
/-- R210: it issues only when heldBy lets it. At core scope, where it waits for no access, a full fence stands between the accesses
before it and all after it, a release fence between those before it and the writes after it (R226, R231). -/
def execFence (q : FQual) (s : State) :=
  run (.fence q) (fun id _ => do
    charge id 1 0
    upd fun s => updCtx s id fun y =>
      if q.scope != .core then y
      else match q.kind with
        | .full => { y with moved := s.uid }
        | .rel => { y with fenced := s.uid }
        | .acq => y) s
/-- R211. -/
def execQwait (la : BitVec 4) (d a b : RegNo) (limit : Dword) (s : State) :=
  run (.qwait la d a b limit) (fun id x => longAccess (.qwait la d a b limit) id x
    ⟨[x.scalar a], 16, 16, rightsR, .remote, .acq, .dev, [(.qwait (x.scalar b), .count)], none, limit.toNat, none, none⟩
    { Long.blank with d := d, wr := .scalar }) s

end Sys2Proof.Machine
end

