-- ==== Sys2Proof/Machine/Message.lean ====
section
/-! DEFINITION. Page 8: messages, creation, migration, special registers, budget gifts, BRK and SIGNAL (R213 to R222). -/

namespace Sys2Proof.Machine

/-- R214: a release at device scope of the sender's earlier accesses; its number orders it behind the sender's earlier ones. -/
def execSend (a b : RegNo) (s : State) :=
  run (.send a b) (fun id x => do
    charge id 1 64
    upd fun s => post { s with uid := s.uid + 1 } (x.lane0 a) (x.reg b.toNat) (.send id (if x.priv then none else some x.part) x.tile s.uid)) s
/-- The head of the inbox taken into g[D], or zero (R215). -/
def takeMail (s : State) (id : Nat) (d : RegNo) : State :=
  match ctxOf s id with
  | none => s
  | some x => match x.inbox with
    | [] => putReg s id d fun _ => 0
    | m :: t => putReg (setCtx s id { x with inbox := t }) id d fun _ => m.msg
/-- R215. -/
def execRecv (d : RegNo) (s : State) := run (.recv d) (fun id _ => do charge id 1 0; upd (takeMail · id d)) s
/-- The instruction parks after its charge and ends with its park (R76, R85): its address and the resume word it met
are kept with the park, for a fault there. -/
def parkAfter (k : ParkKind) (limit : Option Nat) (arg : Nat) (id : Nat) (x : Ctx) : M Unit := upd fun s =>
  parkCtx s id ⟨k, s.cyc, limit, arg, x.resume.toNat, x.pc, true⟩
/-- R215: the limit's expiry returns a zero tag (R85); D is kept with the park. -/
def execWaitm (d : RegNo) (limit : Dword) (s : State) :=
  run (.waitm d limit) (fun id x => do
    charge id 1 0
    let y ← self id
    if y.inbox.isEmpty then parkAfter .waitm (some limit.toNat) d.toNat id x
    else upd (takeMail · id d)) s

-- SPAWN (R216, R217)

/-- Whether a descriptor is well formed: reserved bits zero and a legal window (R216, R217). -/
def spawnOk (v : Reg) : Bool :=
  let w := bits (dword v 3) 7 0
  bits (dword v 1) 63 48 == 0 && bits (dword v 2) 63 48 == 0 && bits (dword v 3) 63 11 == 0 && dword v 5 == 0 && dword v 6 == 0 && dword v 7 == 0
    && w % 8 == 0 && decide (8 ≤ w) && decide (w ≤ 128)
/-- The child a descriptor and a spawner give (R217). -/
def spawnChild (id : Nat) (x : Ctx) (v g0 : Reg) : Ctx :=
  let pr := bits (dword v 3) 9 8
  { Ctx.fresh x.tile (bits (dword v 3) 7 0) with
    pc := dword v 0, regs := FMap.set 0 [] 0 g0, ib := dw (bits (dword v 1) 47 0), mb := dw (bits (dword v 2) 47 0), wid := dword v 4
    priority := if x.priv then pr else Nat.max pr x.priority, priv := bit (dword v 3) 10, spawner := id
    sup := x.sup, wdog := x.wdog, segs := x.segs, wfw := x.wfw, fel := x.fel, rnd := x.rnd, part := x.part, group := x.group }
/-- R217: a release at device scope, since the child is placed once its spawner's earlier accesses have been performed (R228). -/
def execSpawn (d a b : RegNo) (s : State) :=
  run (.spawn d a b) (fun id x => do
    let v := x.reg a.toNat
    let ibg := bits (dword v 1) 47 0
    let mbg := bits (dword v 2) 47 0
    raiseIf (!x.priv && (bit (dword v 3) 10 || ibg == all1 || mbg == all1)) (flt .priv (dword v 0) 0 0)
    raiseIf (bit (dword v 0) 0) (valueFault .align (dword v 0))
    let t ← get
    match (if spawnOk v then newId t x.tile else none) with
    | none => charge id 1 0; swrite id d 0
    | some (c, t') =>
      charge id (1 + if ibg = all1 then 0 else ibg) (if mbg = all1 then 0 else mbg)
      upd fun u => arrive (setCtx { u with gens := t'.gens } c (spawnChild id x v (x.reg b.toNat))) x.tile ⟨c, false, x.core, u.cyc + 1, id, u.uid⟩
      swrite id d (dw c)) s

/-- The MIGFAIL bits of a target (R218). -/
def migFail (s : State) (id : Nat) (x : Ctx) (t : Nat) : Nat :=
  bitOf (!x.rover) + bitOf (tileBound s id x) * 2 + bitOf (partOf s t != some x.part) * 4 + bitOf (underRepair s t) * 8
/-- R218. -/
def execMigr (a : RegNo) (s : State) :=
  run (.migr a) (fun id x => do
    let v := x.scalar a
    let t := bits v 10 4
    let u ← get
    if t = x.tile then
      charge id 1 0
      if bits v 3 0 = x.core then pure () else upd (moveWithin · id (16 * t + bits v 3 0))
    else
      raiseIf (migFail u id x t != 0) (flt .migfail v (dw (migFail u id x t)) 0)
      charge id 1 1664
      upd (departTile · id t)) s

-- Special registers (R46, R47, R161, R265, R376)

/-- cid (R47). -/
def cidWord (id : Nat) (x : Ctx) : Dword := dw (id * 2 ^ 32 + x.tile * 2 ^ 10 + x.core * 2 ^ 6 + x.slot)
/-- A special register read (R46). -/
def special (s : State) (id : Nat) (x : Ctx) (pc : Dword) (n : Nat) : Dword :=
  match n with
  | 0x00 => pc | 0x01 => x.pw | 0x02 => x.rnd | 0x03 => x.ib | 0x04 => x.mb | 0x05 => x.yc | 0x06 => x.ypc | 0x07 => x.fel
  | 0x08 => cidWord id x | 0x09 => x.wid | 0x0A => x.wfw | 0x0B => dw s.cyc | 0x0C => dw x.part | 0x0D => x.sup | 0x0E => x.cb | 0x0F => x.qacc
  | 0x20 => x.rsc | 0x21 => x.rpx | 0x22 => x.rwc | 0x23 => x.tnv | 0x24 => x.tarea | 0x25 => x.cbret
  | n => if n % 2 = 0 then (segReg x ((n - 16) / 2)).base else (segReg x ((n - 16) / 2)).limit
/-- Whether a special's fields are written only by privileged code (R47, R161). -/
def specialPriv (n : Nat) : Bool := n == 3 || n == 4 || n == 0x0D || (decide (0x10 ≤ n) && decide (n ≤ 0x1F))
/-- R219. -/
def execGets (d : RegNo) (n : Fin 38) (s : State) :=
  run (.gets d n) (fun id x => do
    charge id 1 0
    let y ← self id
    let t ← get
    swrite id d (special t id y x.pc n.val)) s
/-- R219: PRIV and an odd yc are precise and not charged. -/
def execSets (d : RegNo) (n : Fin 38) (s : State) :=
  run (.sets d n) (fun id x => do
    let v := x.scalar d
    raiseIf (specialPriv n.val && !x.priv) (flt .priv (dw n.val) 0 0)
    raiseIf (n.val == 5 && bit v 0) (valueFault .align v)
    charge id 1 0
    updSelf id fun y => writeSpecial y n.val v) s
/-- Whether an id names a direct child that has not retired (R220). -/
def isChild (s : State) (id c : Nat) : Bool := match ctxOf s c with | some y => y.spawner == id && id != 0 | none => false
/-- R220. -/
def execBgive (d a b : RegNo) (s : State) :=
  run (.bgive d a b) (fun id x => do
    let ia := bits (x.dword b 0) 47 0
    let ma := bits (x.dword b 1) 47 0
    raiseIf (!x.priv && (ia == all1 || ma == all1)) (flt .priv (x.dword b 0) 0 0)
    let t ← get
    if isChild t id (x.lane0 a) then
      charge id (1 + if ia = all1 then 0 else ia) (if ma = all1 then 0 else ma)
      upd (creditTo · (x.lane0 a) ia ma)
      swrite id d 1
    else
      charge id 1 0
      swrite id d 0) s
/-- R221: BRK always faults, uncharged; dw3 is the next instruction's address. -/
def execBrk (code : Dword) (s : State) :=
  run (.brk code) (fun id _ => do
    let y ← self id
    raise (flt .brk code y.pc 0)) s

-- Wake latches (R370)

/-- The port from which the front end's messages leave: base-die control (R26). DESIGN CHOICE (log 67). -/
def frontEndPort : Nat := 213
/-- A wake register (R369). -/
def wakeReg (s : State) (p k : Nat) : Dword × Dword := FMap.get (0, 0) s.wakes (64 * p + k)
/-- L of a wake register set; the wake target hears of it where L was 0 (R370, R372). -/
def setLatch (s : State) (p k : Nat) : State :=
  let w := wakeReg s p k
  let s := { s with latched := FMap.set 0 s.latched (64 * p + k) (s.cyc + 1) }
  if bit w.1 62 then s
  else
    notify { s with wakes := FMap.set (0, 0) s.wakes (64 * p + k) (setBits w.1 62 62 1, w.2) }
      frontEndPort (bits (partReg s p 4) 31 0) [0x500, dw k, dw (bits w.1 55 0)]
/-- Whether a write has left a mapped doorbell full since L of its register was last clear (R352, R370). -/
def hasRung (s : State) (p k : Nat) : Bool := FMap.get false s.rung (64 * p + k)
/-- That mark set or cleared. -/
def setRung (s : State) (p k : Nat) (b : Bool) : State := { s with rung := FMap.set false s.rung (64 * p + k) b }
/-- The queue that first takes wake register 0 of a partition is its upload doorbell, wherever it is mapped later (R351): DESIGN
CHOICE (log 77). -/
def nameUpload (s : State) (p k : Nat) : State :=
  let w := wakeReg s p k
  if k = 0 ∧ bit w.1 63 ∧ FMap.get none s.uploadBell p = none then { s with uploadBell := FMap.set none s.uploadBell p (some (bits w.1 55 0)) } else s
/-- The word that a wake register of a partition names, by the partition's own tables (R165, R369). -/
def bellPlace (s : State) (p bell : Nat) : Option Nat :=
  match regionOf bell with
  | .scratch t off => some (placeOf t off / 8 * 8)
  | .paged => (match walk s bell levels 0 (bits (partReg s p 0) 47 12 * 4096) with | .leaf e => some (leafPa e bell / 8 * 8) | _ => none)
  | _ => none
/-- A write of n bytes at a place that leaves a mapped doorbell full sets its register's latch, whoever writes and by whatever
address (R370). -/
def ringDoorbells (s : State) (place n : Nat) : State :=
  (s.wakes.filter fun e => bit e.2.1 63).foldl (fun s e =>
    match bellPlace s (e.1 / 64) (bits e.2.1 55 0) with
    | some b => if b < place + n ∧ place < b + 8 ∧ tagAt s b then setLatch (setRung s (e.1 / 64) (e.1 % 64) true) (e.1 / 64) (e.1 % 64) else s
    | none => s) s
/-- R222: a release at device scope (R228), so that the latch is set at once only where no earlier access is on its way. -/
def execSignal (a : RegNo) (s : State) :=
  run (.signal a) (fun id x => do
    charge id 1 0
    upd fun s =>
      if accessBefore s id s.uid then now s (.messageArrival 0 0 (.signal id x.part (x.lane0 a % 64) s.uid))
      else setLatch s x.part (x.lane0 a % 64)) s

end Sys2Proof.Machine
end

