-- ==== Sys2Proof/Machine/Home.lean ====
section
/-! DEFINITION. What happens at a home (R171 to R184, R204 to R212), the completion of outstanding instructions (R56 to
R60), the arrival of messages (R213), and the engine writes of the spill rings (R305, R306). -/

namespace Sys2Proof.Machine

-- Engines' translations (R332)

/-- The request for an engine's access to a page that is not present (R187). -/
def engineRequest (s : State) (part tile u : Nat) (write tr : Bool) : State :=
  notify s tile (bits (partReg s part 3) 31 0) [0x100, 0, dw u, 0, dw (bitOf write + bitOf tr * 2 + 4 + tile * 8)]

-- Outstanding instructions (R56 to R60)

/-- When the park of an outstanding instruction began: a park of another kind begins anew (R85). -/
def parkedSince (l : Long) (k : ParkKind) (c : Nat) : Nat := match l.parked with | some p => if p.1 = k then p.2 else c | none => c
/-- An outstanding instruction meets a park condition: the whole context parks (R60), and one that is being swapped out may be
saved (R420). -/
def parkLong (s : State) (id seq : Nat) (k : ParkKind) : State :=
  let s := updLong s id seq fun l => { l with parked := some (k, parkedSince l k s.cyc) }
  let s := updCtx s id fun x =>
    match x.longs.find? fun l => l.seq == seq with
    | some l =>
      let p := longPark x l k (parkedSince l k s.cyc)
      if x.state == .resident && x.saving.isNone && x.moving.isNone then { x with state := .parked, park := some p, retry := none }
      else if x.saving = some .parkOut && x.park.isNone then { x with park := some p }
      else if (match x.park with | some q => q.ofLong == some seq | none => false) then { x with park := some p }
      else x
    | none => x
  trySave s id
/-- A fault of an outstanding instruction takes effect (R59): the context stops with its pc at the instruction and the
address to go on at in dw5, or keeps the fault where it has stopped, is leaving or has left. A lone execution that faults
again keeps its address to go on at, though no instruction has issued after it: DESIGN CHOICE (log 68). -/
def lateFault (s : State) (id : Nat) (l : Long) (f : Flt) : State :=
  let s := readBack s id
  match ctxOf s id with
  | none => s
  | some x =>
    let y := { x with longs := x.longs.filter fun m => m.seq != l.seq }
    if x.saving.isSome || !(x.state == .resident || x.state == .parked || x.state == .parkedOut) then
      trySave (setCtx s id { y with kept := y.kept ++ [⟨l.pc, l.page, l.op, f⟩] }) id
    else
      let f := if l.since = 0 ∧ !l.lone then f else { f with dw5 := x.pc ||| 1 }
      restImage (updCtx (takeFault (setCtx s id { y with pc := l.pc }) id l.pc l.page l.op f) id fun z =>
        { z with aside := x.park.filter fun p => p.charged && p.ofLong.isNone && !x.waits }) id
/-- Whether an instruction issued after an outstanding one has not completed, a parked one included (R59). -/
def laterOut (x : Ctx) (l : Long) : Bool := x.waits || x.longs.any fun m => decide (l.seq < m.seq)
/-- Whether a context's fault can still stop it: it is Resident, Parked or Parked-out, and no save has begun (R59). -/
def Ctx.running (x : Ctx) : Bool := x.saving.isNone && (x.state == .resident || x.state == .parked || x.state == .parkedOut)
/-- A context whose fault has waited stops once the instructions issued after it have completed, and its image can be read (R59,
R65). -/
def settleLate (s : State) (id : Nat) : State :=
  match ctxOf s id with
  | none => s
  | some x => match x.longs.find? (·.ended) with
    | none => s
    | some l => match l.fault with
      | some f =>
        if laterOut x l && x.running then s
        else if imageDay s id x then lateFault s id l f else setCtx s id { x with decided := some true }
      | none => s
/-- A fault kept for a context (R59). -/
def keepFault (s : State) (id : Nat) (k : Kept) : State := updCtx s id fun x => { x with kept := x.kept ++ [k] }
/-- A fault of an outstanding instruction found at its completion (R59): it stops the context once the instructions
issued after it have completed; one that is not the first is kept. -/
def reportLate (s : State) (id : Nat) (l : Long) (f : Flt) : State :=
  let s := readBack s id
  match ctxOf s id with
  | none => s
  | some x =>
    if x.longs.any fun m => m.ended && m.seq != l.seq then
      settleLate (keepFault (setCtx s id { x with longs := x.longs.filter fun m => m.seq != l.seq }) id ⟨l.pc, l.page, l.op, f⟩) id
    else if x.running && laterOut x l then
      let s := updLong s id l.seq fun m => { m with fault := some f, waiting := 0, ended := true, parked := none }
      match x.park with
      | some p => if p.ofLong = some l.seq then endPark s id false else s
      | none => s
    else lateFault s id l f
/-- The destination of a completing instruction written (R56, R122). -/
def writeResult (s : State) (id : Nat) (l : Long) : State :=
  match l.wr with
  | .none => s
  | .scalar => putReg s id l.d (withScalar · (scalarOf l.acc))
  | .vector => putReg s id l.d (mergeLanes l.mask l.acc)
/-- Whether a completing instruction finds its destination port's queue full (R122). -/
def portFull (s : State) (x : Ctx) (l : Long) : Bool :=
  l.wr != .none && decide (128 ≤ l.d.toNat) && decide (l.d.toNat ≤ 131) && !roomAt s x l.d
/-- An outstanding instruction completes: its holds end, its park ends, and a pending save begins once nothing is
outstanding (R56 to R58, R60). -/
def completeLong (s : State) (id : Nat) (l : Long) : State :=
  let s := readBack s id
  match ctxOf s id with
  | none => s
  | some x =>
    let s := writeResult s id l
    let s := updCtx s id fun y => { y with longs := y.longs.filter fun m => m.seq != l.seq }
    let s := match x.park with
      | some p => if p.ofLong = some l.seq then endPark s id false else s
      | none => s
    restImage (trySave (settleLate s id) id) id
/-- The outstanding instruction of a context that waits for room in its port's queue and finds it (R122). -/
def portReady (s : State) (x : Ctx) : Option Long :=
  x.longs.find? fun l => (match l.parked with | some p => p.1 == .nq | none => false) && l.fault.isNone && roomAt s x l.d
/-- LONG_COMPLETION (R56, R59, R122): one that finds its port's queue full waits until the queue has room. -/
def execLongCompletion (id seq : Nat) (s : State) : Host.Outcome State Fault Refusal :=
  match ctxOf s id with
  | none => .next s
  | some x => match x.longs.find? fun l => l.seq == seq with
    | none => .next s
    | some l =>
      if 0 < l.waiting ∨ l.ended then .next s
      else match l.fault with
        | some f => .next (if x.hold.isSome then soon s (.longCompletion id seq) else reportLate s id l f)
        | none =>
          if portFull s x l then .next (parkLong s id seq .nq)
          else .next (completeLong s id l)

-- Values of accesses (R199 to R211)

/-- Ext of R199. -/
def extend (ty : MType) (v : Reg) : Dword :=
  let d := scalarOf v
  match ty with
  | .ub => (d.setWidth 8).setWidth 64
  | .sb => (d.setWidth 8).signExtend 64
  | .uh => (d.setWidth 16).setWidth 64
  | .sh => (d.setWidth 16).signExtend 64
  | .uw => (d.setWidth 32).setWidth 64
  | .sw => (d.setWidth 32).signExtend 64
  | .d => d
/-- The expansion of an MX record in E2M1 (R203); rnd is the context's at issue. -/
def expandMx (rnd : Dword) (v : Reg) : Reg :=
  let rc := rndOf rnd .dyn
  let sc := (byteAt v 16).toNat
  let vals := (eachRounded rc (fun r i => roundTo infoBf16 rc r (mxValue infoE2m1 rc ((byteAt v (i / 2)).toNat / 16 ^ (i % 2) % 16) sc))
    (srState rnd) (List.range 32)).1
  ofLanes fun l => BitVec.ofNat 32 (vals.getD (2 * l) 0 + vals.getD (2 * l + 1) 0 * 65536)
/-- A value that returns enters its instruction's result. -/
def landIn (land : Land) (acc v : Reg) : Reg :=
  match land with
  | .none => acc
  | .scalar ty => withScalar 0 (extend ty v)
  | .lane l ty => ofLanes fun k => if k = l then (extend ty v).setWidth 32 else lane acc k
  | .line => v
  | .mx => expandMx (scalarOf acc) v
  | .count => withScalar 0 (scalarOf v)
  | .frontEnd => acc
/-- The reply of an access to its instruction, from a home on the plane of its request (R27); the last one completes it after an
open latency (R56). -/
def reply (s : State) (home plane id seq : Nat) (land : Land) (v : Reg) : State :=
  match ctxOf s id with
  | none => s
  | some x => match x.longs.find? fun l => l.seq == seq with
    | none => s
    | some l =>
      let s := updLong s id seq fun m => { m with acc := landIn land m.acc v, waiting := m.waiting - 1, back := (home, plane) }
      if l.waiting ≤ 1 then later s (.longCompletion id seq) else s
/-- The new value of an atomic of n bytes (R206). -/
def atomNew (op : AtomOp) (n old b : Nat) : Nat :=
  let w := 8 * n
  let old := old % 2 ^ w
  let b := b % 2 ^ w
  match op with
  | .add => (old + b) % 2 ^ w
  | .and => old &&& b
  | .or => old ||| b
  | .xor => old ^^^ b
  | .min => if signedElem w old ≤ signedElem w b then old else b
  | .max => if signedElem w b ≤ signedElem w old then old else b
  | .minn => Nat.min old b
  | .maxn => Nat.max old b
  | .swap => b

-- Soft-error counters (R425, R448)

/-- The unit that holds a word: tile 0 to 127, or slice 128 onward. -/
def unitOf (place : Nat) : Nat := if isScratch place then scratchTile place else 128 + sliceOf place
/-- A soft-error counter. -/
def counterAt (s : State) (u n : Nat) : Dword := FMap.get 0 s.counters (4 * u + n)
/-- A soft-error counter set. -/
def setCounter (s : State) (u n : Nat) (v : Dword) : State := { s with counters := FMap.set 0 s.counters (4 * u + n) v }
/-- A soft-error counter counts one more. -/
def bumpCounter (s : State) (u n : Nat) : State := setCounter s u n (counterAt s u n + 1)

-- One access performed (R179, R183, R204 to R211)

/-- Whether an access that may wait can proceed (R179, R211); one that reads an uncorrectable error does not wait (R425). -/
def proceeds (s : State) (a : Access) : Bool :=
  match a.kind with
  | .ldf => errAt s a.place || tagAt s a.place
  | .take => errAt s a.place || tagAt s a.place
  | .put _ => !tagAt s a.place
  | .qwait _ => errIn s a.place 16 || readDw s (a.place + 8) != readDw s a.place
  | _ => true
/-- MEMERR at an access (R413, R425). -/
def memErr (a : Access) (tag : Bool) : Flt := flt .memerr (dw a.uaddr) (dw (bitOf tag * 8)) (if isScratch a.place then 0 else dw a.place)
/-- What an access did: the value it returns, the state, whether it wrote, the words whose tags it may have changed. -/
structure Effect where
  value : Reg
  s : State
  wrote : Bool
  tagged : Nat
  deriving DecidableEq, Repr
/-- A word written whole with its tag, which clears an error (R425). -/
def putWord (s : State) (place : Nat) (v : Dword) (full : Bool) : State := setErr (setTag (writeDw s place v) place full) place false
/-- A write of bytes that leaves tags and errors as they are; the counter records the erroneous words it meets (R183, R425). -/
def putPlain (s : State) (place n : Nat) (v : Reg) (mask : BitVec 64) : State :=
  let bad := (List.range ((place % 8 + n + 7) / 8)).filter fun i => errAt s (place + 8 * i) && (List.range 8).any fun j => mask.getLsbD (8 * i + j)
  bad.foldl (fun s _ => bumpCounter s (unitOf place) 2) (clearZero (writeMasked s place n v mask) place)
/-- Eight zero words, their tags full (R177). -/
def zeroWords (s : State) (place : Nat) : Nat → State
  | 0 => s
  | n + 1 => putWord (zeroWords s place n) (place + 8 * n) 0 true
/-- A line made zero: the slice marks it, and the home holds it as a tag with a zero flag (R177, R172). -/
def zeroLine (s : State) (home place : Nat) : State :=
  let s := zeroWords s place 8
  if isScratch place then s else fillWay { s with zmap := FMap.set false s.zmap (place / 64) true } home (place / 64)
/-- An access that proceeds is performed at its home as one step, or meets an uncorrectable error. -/
def effectOf (s : State) (a : Access) : Except Flt Effect :=
  let p := a.place
  let old := readDw s p
  let word := fun (v : Dword) => v.setWidth 512
  match a.kind with
  | .read n =>
    if errIn s p (if a.land = .mx then 24 else n) then .error (memErr a false) else .ok ⟨BitVec.ofNat 512 (readLE s p n), missFill s a.part a.home p, false, 0⟩
  | .write n v mask => .ok ⟨0, putPlain s p n v mask, (List.range n).any fun i => mask.getLsbD i, 0⟩
  | .zline => .ok ⟨0, zeroLine s a.home p, true, 8⟩
  | .ldf => if errAt s p then .error (memErr a true) else .ok ⟨word old, missFill s a.part a.home p, false, 0⟩
  | .take => if errAt s p then .error (memErr a true) else .ok ⟨word old, setTag (missFill s a.part a.home p) p false, true, 1⟩
  | .put v => .ok ⟨0, clearZero (putWord s p v true) p, true, 1⟩
  | .stf v => .ok ⟨0, clearZero (putWord s p v true) p, true, 1⟩
  | .sete => .ok ⟨0, if errAt s p then bumpCounter (setTag s p false) (unitOf p) 2 else setTag s p false, true, 1⟩
  | .fetag => if errAt s p then .error (memErr a true) else .ok ⟨word (dw (bitOf (tagAt s p))), missFill s a.part a.home p, false, 0⟩
  | .atom op n v =>
    if errIn s p n then .error (memErr a false)
    else
      let o := readLE s p n
      .ok ⟨BitVec.ofNat 512 o, clearZero (writeLE (missFill s a.part a.home p) p n (atomNew op n o v.toNat)) p, true, 0⟩
  | .cas n c v =>
    if errIn s p n then .error (memErr a false)
    else
      let o := readLE s p n
      if o = c.toNat % 2 ^ (8 * n) then .ok ⟨BitVec.ofNat 512 o, clearZero (writeLE (missFill s a.part a.home p) p n v.toNat) p, true, 0⟩
      else .ok ⟨BitVec.ofNat 512 o, missFill s a.part a.home p, false, 0⟩
  | .qwait cap =>
    if errIn s p 16 then .error (memErr a false)
    else
      let k := readDw s (p + 8) - readDw s p
      .ok ⟨word (if k.toNat ≤ cap.toNat then k else cap), missFill s a.part a.home p, false, 0⟩
/-- The bytes an access names. -/
def bytesOfKind : AccKind → Nat
  | .read n => n | .write n _ _ => n | .zline => 64 | .atom _ n _ => n | .cas n _ _ => n | .qwait _ => 16 | _ => 8

-- Performing an access and serving waiters (R180, R189, R211, R370)

/-- Whether an access is a store, which its slice accepts whether or not it changes a byte (R189, R200). -/
def isStore : AccKind → Bool | .write _ _ _ => true | _ => false
/-- Whether the n bytes at a place, or the tags of their words, differ between two states (R189). -/
def changed (s t : State) (place n : Nat) : Bool :=
  readBytes s place n != readBytes t place n || (List.range ((place % 8 + n + 7) / 8)).any fun i => tagAt s (place + 8 * i) != tagAt t (place + 8 * i)
/-- Whether a registered page holds a place (R189, R190). -/
def versionHolds (v : Version) (place : Nat) : Bool := decide (v.frame ≤ place) && decide (place < v.frame + 4096 * 4 ^ v.k)
/-- A write that a watched leaf carried counts at the registered page that holds it, up to 0xFFFF (R189). -/
def countWrite (s : State) (place : Nat) : State :=
  { s with versions := s.versions.map fun e => (e.1, e.2.map fun v => if versionHolds v place then { v with count := Nat.min (v.count + 1) 0xFFFF } else v) }
/-- An access that can proceed is performed, its effects follow, and each of its requesters is answered. -/
def performOne (s : State) (a : Access) : State :=
  match effectOf s a with
  | .error f => a.parts.foldl (fun s p => failLong s p.ctx p.seq f) (failAccess s a f)
  | .ok e =>
    let t := if (e.wrote || isStore a.kind) && !isScratch a.place then
        later e.s (.sliceWriteAccept ⟨(requestsOf a).map (·.1), a.part, a.uid, a.home⟩ a.place a.watched (e.wrote && changed s e.s a.place (bytesOfKind a.kind))) else e.s
    let s := if e.wrote then ringDoorbells t a.place (bytesOfKind a.kind) else t
    if a.land = .frontEnd then { s with feWait := s.feWait.map fun w => { w with got := some (scalarOf e.value, s.cyc) } }
    else if a.seq = 0 then s
    else if a.parts.isEmpty then reply s a.home (planeOf a.uaddr) a.ctx a.seq a.land e.value
    else later s (.combinedReplySplit a (scalarOf e.value))
/-- One pass over a home's wait list for a word, in order of arrival: the entries that stay, the state and whether one
was served (R180). -/
def servePass (word : Nat) : List Access → State → List Access × State × Bool
  | [], s => ([], s, false)
  | a :: t, s =>
    if a.place / 8 == word && (match a.kind with | .qwait _ => false | _ => true) && proceeds s a then
      let r := servePass word t (performOne s a)
      (r.1, r.2.1, true)
    else
      let r := servePass word t s
      (a :: r.1, r.2)
/-- WAITER_SERVING: passes until one serves nothing (R180). -/
def serveWord (home word : Nat) : Nat → State → State
  | 0, s => s
  | n + 1, s =>
    let r := servePass word (FMap.get [] s.waits home) s
    if r.2.2 then serveWord home word n { r.2.1 with waits := FMap.set [] r.2.1.waits home r.1 } else s
/-- The QWAIT entries of a home that a write of a word lets go on (R211). -/
def serveRings (home word : Nat) : List Access → State → List Access × State
  | [], s => ([], s)
  | a :: t, s =>
    if (a.place / 8 == word || a.place / 8 + 1 == word) && (match a.kind with | .qwait _ => true | _ => false) && proceeds s a then
      serveRings home word t (performOne s a)
    else
      let r := serveRings home word t s
      (a :: r.1, r.2)
/-- The waiters of n words from a place on, after a write there (R180, R211). -/
def serveFrom (home place : Nat) : Nat → State → State
  | 0, s => s
  | n + 1, s =>
    let s := serveFrom home place n s
    let w := place / 8 + n
    let s := serveWord home w (FMap.get [] s.waits home).length s
    let r := serveRings home w (FMap.get [] s.waits home) s
    if r.1.length = (FMap.get [] s.waits home).length then s else { r.2 with waits := FMap.set [] r.2.waits home r.1 }

-- The spill rings (R305, R306)

/-- A tile's spill ring for a partition: base and capacity (R306, R448). -/
def spillRing (s : State) (p t : Nat) : Dword × Dword := FMap.get (0, 0) s.spills (128 * p + t)
/-- A send-store entry (R304). -/
def sendAt (s : State) (t e : Nat) : Option SendEntry := FMap.get none s.sends (16 * t + e)
/-- A send-store entry replaced. -/
def setSend (s : State) (t e : Nat) (x : Option SendEntry) : State := { s with sends := FMap.set none s.sends (16 * t + e) x }
/-- A word written at its slice, or in scratch, by an engine: data and tag in one step, a
watched page's write counted, doorbells rung, the word's waiters served, the home's copy dropped (R174, R178, R180, R189,
R239, R370). -/
def engineWord (s : State) (q : CopyWord) : State :=
  let t := putWord s q.place q.value q.full
  let t := if q.watched && changed s t q.place 8 then countWrite t q.place else t
  serveFrom q.home q.place 1 (ringDoorbells t q.place 8)
/-- The home of a line that an engine of a partition has written drops its copy (R174); scratch has none. -/
def invalidateLines (s : State) (part : Nat) (ws : List CopyWord) : State :=
  ((ws.map fun w => ((⟨w.home, part, w.src, w.num⟩ : AtHome), w.place / 64)).dedup).foldl (fun s p => invalidateHome s p.1 (64 * p.2)) s
/-- The words of a spill record (R306). -/
def spillWords (p : SumPacket) (since : Nat) : List Dword :=
  let a := p.blk
  let status := a.e.toNat + bitOf a.nan * 2 ^ 10 + bitOf a.range * 2 ^ 11 + a.count * 2 ^ 16
  let body := (List.range 256).flatMap fun j => bytesLE 20 (FMap.get 0 a.elems j).toNat
  [0x300, dw p.ctx, dw p.d.toNat, dw status, dw since, p.pc, 0, 0]
    ++ (List.range 640).map fun i => dw (ofBytesLE ((body.drop (8 * i)).take 8))
/-- A spill that fails: its first failure is told (R306); dw4 is the table entry that decided, or the physical address (R413). -/
def spillFails (s : State) (t e part : Nat) (x : SendEntry) (c : Code) (u dw3 : Nat) (dw4 : Dword) : State :=
  if x.told then s
  else sendFault (setSend s t e (some { x with told := true })) x.pkt.ctx { ctxFor s x.pkt.ctx part t x.pkt.sup with tile := t } x.pkt.pc 11 1 ⟨c, dw u, dw dw3, dw4, 0⟩
/-- The spots of a spill's lines, or the line that stops it. -/
def spillSpots (part t : Nat) : State → List Nat → Except (Nat × Mapped) (List Spot × State)
  | s, [] => .ok ([], s)
  | s, u :: l => match engineSpot s part t u rightsW with
    | .spot p s' => match spillSpots part t s' l with
      | .ok r => .ok (p :: r.1, r.2)
      | .error x => .error x
    | m => .error (u, m)
/-- A word that an engine writes for a port, its tag full, with the number of the first access after it (R178). -/
def Spot.word (q : Spot) (port num off : Nat) (v : Dword) : CopyWord := ⟨q.place + off, q.home, v, true, q.watched, port, num⟩
/-- A spill's words written by a tile, line by line of eight words. -/
def spillPut (s : State) (part t : Nat) (sp : List Spot) (ws : List Dword) : State :=
  let cs := (ws.zipIdx).filterMap fun w => sp[w.2 / 8]?.map fun q => q.word t s.uid (8 * (w.2 % 8)) w.1
  invalidateLines (cs.foldl engineWord s) part cs
/-- Whether a spill's line needs no day that its partition lacks, for its walk or for its DRAM (R33). -/
def spillLineDay (s : State) (part t u : Nat) : Bool :=
  regionOf u != .paged || (!walkWaits s false part (16 * t) u && (match engineSpot s part t u rightsR with | .spot q _ => !dramWait s q.place part | _ => true))
/-- Whether a tile may write a spill record now: a day at its port, and those that the ring's header and the record need (R33, R306). -/
def spillDay (s : State) (t : Nat) : Bool :=
  let part := (partOf s t).getD 0
  let ring := spillRing s part t
  let h := bits ring.1 55 0
  let c := ring.2.toNat
  c == 0 || (hasDay s t part && spillLineDay s part t h && (match engineAt s part t (h + 8) rightsR with
    | some p => (List.range 81).all fun i => spillLineDay s part t (h + 64 + 5184 * ((readDw s p).toNat % c) + 64 * i)
    | none => true))
/-- SPILL_RECORD_WRITE: a refused packet's record is written and the tail counts it, or the entry stays held (R305, R306), or waits for
a day (R33). -/
def trySpill (s : State) (t e : Nat) : State :=
  match sendAt s t e with
  | none => s
  | some x => match x.refused with
    | none => s
    | some why =>
      if !spillDay s t then { s with spillWait := if s.spillWait.contains (16 * t + e) then s.spillWait else s.spillWait ++ [16 * t + e] } else
      let part := (partOf s t).getD 0
      let ring := spillRing s part t
      let h := bits ring.1 55 0
      let c := ring.2.toNat
      if c = 0 then s
      else match engineSpot s part t h rightsR with
        | .absent tr => engineRequest s part t h false tr
        | .now f => spillFails s t e part x .prot h (f.dw3.toNat * 2 + 1) 0
        | .prot f => spillFails s t e part x .prot h (f.dw3.toNat + 1) f.dw4
        | .spot ph s1 =>
          if errIn s1 ph.place 16 then spillFails s1 t e part x .memerr h 1 (if isScratch ph.place then 0 else dw ph.place)
          else
            let head := readDw s1 ph.place
            let tail := readDw s1 (ph.place + 8)
            if (tail - head).toNat = c then s1
            else
              let r := h + 64 + 5184 * (tail.toNat % c)
              match spillSpots part t s1 ((h + 8) :: (List.range 81).map (r + 64 * ·)) with
              | .error (u, .absent tr) => engineRequest s1 part t u true tr
              | .error (u, .now f) => spillFails s1 t e part x .prot u (f.dw3.toNat * 2 + 1) 0
              | .error (u, .prot f) => spillFails s1 t e part x .prot u (f.dw3.toNat + 1) f.dw4
              | .error (_, .spot _ _) => s1
              | .ok (sp, s2) =>
                let s3 := spillPut s2 part t sp.tail (spillWords x.pkt x.since)
                let s4 := spillPut s3 part t [{ sp.headD ph with place := ph.place + 8 }] [tail + 1]
                sendFault (setSend s4 t e none) x.pkt.ctx { ctxFor s4 x.pkt.ctx part t x.pkt.sup with tile := t } x.pkt.pc 11 1
                  ⟨.accgone, dw r, dw x.pkt.d.toNat, dw (2 ^ why.toNat), 0⟩
/-- Every refused packet of a tile tries its ring again (R306). -/
def retrySpills (s : State) (t : Nat) : State := (List.range 16).foldl (fun s e => trySpill s t e) s
/-- Where the head counter of a tile's ring lies, as the tile's engines translate it. -/
def ringHead (s : State) (t : Nat) : Option Nat :=
  match partOf s t with
  | none => none
  | some p => match engineSpot s p t (bits (spillRing s p t).1 55 0) rightsR with | .spot q _ => some q.place | _ => none
/-- The tiles whose refused packets wait for a ring whose head counter lies among n bytes at a place (R306). -/
def spillHeads (s : State) (place n : Nat) : List Nat :=
  (s.sends.filterMap fun e => match e.2 with
    | some x => if x.refused.isSome && (match ringHead s (e.1 / 16) with | some h => decide (h < place + n) && decide (place < h + 8) | none => false)
        then some (e.1 / 16) else none
    | none => none).dedup
/-- The refused packets whose ring's head counter a write of n bytes at a place may have moved try their ring again (R306). -/
def heardWrite (s : State) (place n : Nat) : State := (spillHeads s place n).foldl retrySpills s

-- ACCESS_AT_HOME and the wait lists (R181, R182, R184)

/-- FEWAIT or QWAIT of an access whose wait has ended, or PROT where its home is under repair (R185, R205, R212): the head and
tail are those that the QWAIT last read, which its entry reads again at every write to them. -/
def waitFault (s : State) (a : Access) (l : Long) (c0 : Nat) : Flt :=
  if a.repair.isSome then ⟨.prot, dw a.uaddr, 32, 0, 0⟩
  else match a.kind with
  | .qwait _ => if a.full then ⟨.qwait, l.ea, dword l.acc 0, dword l.acc 1, 0⟩ else ⟨.qwait, l.ea, readDw s a.place, readDw s (a.place + 8), 0⟩
  | k => ⟨.fewait, l.ea, dw ((match k with | .take => 1 | .put _ => 2 | _ => 0) + bitOf a.full * 4), dw c0, 0⟩
/-- A wait ends without its access: the fault of its instruction (R59, R85), or the front end's (R352). -/
def failWait (s : State) (a : Access) (c0 : Nat) : State :=
  if a.land = .frontEnd then feFails s (if a.repair.isSome then ⟨.prot, dw a.uaddr, 32, 0, 0⟩ else ⟨.fewait, dw a.uaddr, dw (1 + bitOf a.full * 4), dw c0, 0⟩)
  else match ctxOf s a.ctx with
  | none => s
  | some x => match x.longs.find? fun l => l.seq == a.seq with
    | none => s
    | some l => if x.hold.isSome || !imageDay s a.ctx x then failLong s a.ctx a.seq (waitFault s a l c0) else reportLate s a.ctx l (waitFault s a l c0)
/-- A bank's mode as an access to scratch meets it, and its tile under repair (R175, R176, R429). -/
def scratchMeets (s : State) (a : Access) : Option Flt :=
  if isScratch a.place then
    let b := bitOf (bankMode s a.home (scratchBank a.place) != .scratch) * 2 + bitOf (underRepair s a.home) * 8
    if b = 0 then none else some (apertureFault a.uaddr b)
  else none
/-- The accesses that a combined add stands for, each with its own summand (R208). -/
def splitAdd (a : Access) : List Access :=
  match a.kind with
  | .atom .add n v =>
    let sums := a.parts.map (·.sum)
    ((⟨a.ctx, a.seq, 0, a.src, a.uid, a.floor, a.core⟩ : Merged) :: a.parts).zipWith
      (fun p next => { a with ctx := p.ctx, seq := p.seq, src := p.src, uid := p.uid, ins := p.uid, floor := p.floor, core := p.core, parts := [], kind := .atom .add n (next - p.sum) })
      (sums ++ [v])
  | _ => [a]
/-- An access that meets its home under repair: its context parks for as long as its fel and then faults PROT (R185, R429); fel is
what it holds when the park begins, DESIGN CHOICE (log 80). A store goes on its way again, since it completes without its context
(R195): DESIGN CHOICE (log 69). -/
def atRepair (s : State) (a : Access) : State :=
  if a.seq = 0 ∧ a.land ≠ .frontEnd then later s (.waitListResend { a with parkedAt := 0, full := false, repair := some (s.cyc, 2 ^ 64) })
  else
    let fel := if a.land = .frontEnd then a.deadline else match ctxOf s a.ctx with | some x => bits x.fel 31 0 | none => 0
    let b := { a with parkedAt := 0, full := false, repair := some (match a.repair with | some w => if w.2 < 2 ^ 64 then w else (s.cyc, fel) | none => (s.cyc, fel)) }
    if (b.repair.getD (0, 0)).2 = 0 then failWait s b s.cyc
    else later (parkLong s b.ctx b.seq .repair) (.waitListResend b)
/-- An access meets its home: performed, or entered in the wait list of 4,096 entries, or returned where that is full; with limit 0
it fails at once (R181, R182, R184). -/
def meetHome (a : Access) (s : State) : State :=
  match scratchMeets s a with
  | some f => failAccess s a f
  | none =>
    if underRepair s a.home then (splitAdd a).foldl atRepair s
    else if proceeds s a then
      let n := bytesOfKind a.kind
      let t := serveFrom a.home a.place ((a.place % 8 + n + 7) / 8) (performOne s a)
      heardWrite t a.place n
    else if a.deadline = 0 then failWait s { a with repair := none } s.cyc
    else
      let b := { a with repair := none, parkedAt := if a.parkedAt = 0 then s.cyc else a.parkedAt }
      let s := parkLong s a.ctx a.seq (match a.kind with | .qwait _ => .qwait | _ => .fe)
      let s := match a.kind with | .qwait _ => updLong s a.ctx a.seq fun l => { l with acc := ofDwords [readDw s a.place, readDw s (a.place + 8)] } | _ => s
      let w := FMap.get [] s.waits a.home
      if 4096 ≤ w.length then later s (.waitListResend { b with full := true })
      else { s with waits := FMap.set [] s.waits a.home (w ++ [{ b with full := false }]) }
/-- ACCESS_AT_HOME (R181, R182, R184). -/
def execAccessAtHome (a : Access) (s : State) : Host.Outcome State Fault Refusal := .next (meetHome a s)
/-- WAIT_LIST_RESEND: the requester sends the access again; its order in its channel begins anew (R182). -/
def execWaitListResend (a : Access) (s : State) : Host.Outcome State Fault Refusal := .next (sendAccess s a 0)
/-- Whether the limit of an access's wait has passed, for its word or for a home under repair; a store waits without one (R85, R181,
R185). -/
def overdue (s : State) (a : Access) : Bool :=
  match a.repair with
  | some (c0, l) => (a.seq != 0 || a.land == .frontEnd) && decide (c0 + l < s.cyc)
  | none => a.parkedAt != 0 && decide (a.parkedAt + a.deadline < s.cyc)
/-- The waiting access of a tile's home with a number, in its wait list or on its way back. -/
def waitingAt (s : State) (t uid : Nat) : Option Access :=
  match (FMap.get [] s.waits t).find? fun a => a.uid == uid with
  | some a => some a
  | none => s.agenda.findSome? fun d => match d.step with
    | .accessAtHome a => if a.home = t ∧ a.uid = uid ∧ waitsAtHome a then some a else none
    | .waitListResend a => if a.home = t ∧ a.uid = uid then some a else none
    | _ => none
/-- A waiting access changed wherever it is on its way. -/
def updTravelling (s : State) (uid : Nat) (f : Access → Access) : State :=
  { s with agenda := s.agenda.map fun d => match d.step with
      | .accessAtHome b => if b.uid = uid then { d with step := .accessAtHome (f b) } else d
      | .waitListResend b => if b.uid = uid then { d with step := .waitListResend (f b) } else d
      | _ => d }
/-- FE_DEADLINE_EXPIRY: the entry is removed and its context faults (R181). A wait for a home under repair that has come back by the limit
has ended, though the access is still on its way there (R85, R185). -/
def execFeDeadlineExpiry (t uid : Nat) (s : State) : Host.Outcome State Fault Refusal :=
  match waitingAt s t uid with
  | none => .next s
  | some a => if a.repair.isSome && !underRepair s a.home then .next (updTravelling s uid fun b => { b with repair := b.repair.map fun w => (w.1, 2 ^ 64) }) else
    let s := { s with waits := FMap.set [] s.waits t ((FMap.get [] s.waits t).filter fun b => b.uid != uid)
                      agenda := s.agenda.filter fun d => match d.step with
                        | .accessAtHome b => b.uid != uid
                        | .waitListResend b => b.uid != uid
                        | _ => true }
    .next (failWait s a (match a.repair with | some p => p.1 | none => a.parkedAt))
/-- LINE_FILL (R172). -/
def execLineFill (t : AtHome) (line : Nat) (s : State) : Host.Outcome State Fault Refusal :=
  .next (if underRepair s t.tile then s else fillWay s t.tile line)
/-- HOME_INVALIDATE (R174). -/
def execHomeInvalidate (t : AtHome) (line : Nat) (s : State) : Host.Outcome State Fault Refusal := .next (dropLine s t.tile line)
/-- SLICE_WRITE_ACCEPT: the slice has the write; a write to a watched page counts (R173, R189). -/
def execSliceWriteAccept (_w : WriteOf) (place : Nat) (watched counts : Bool) (s : State) : Host.Outcome State Fault Refusal :=
  .next (if watched && counts then countWrite s place else s)

-- Combined adds (R208)

/-- A request of the agenda by its number. -/
def travelling (s : State) (uid : Nat) : Option (Nat × Access) :=
  s.agenda.findSome? fun d => match d.step with | .accessAtHome a => if a.uid = uid then some (d.at_, a) else none | _ => none
/-- ATOM_COMBINE: two adds meet in a switch, the first at the upper input, and one request goes on (R208). -/
def execAtomCombine (u v : Nat) (s : State) : Host.Outcome State Fault Refusal :=
  match travelling s u, travelling s v with
  | some (n, a), some (m, b) =>
    if u = v || !combinable s a b then .next s
    else match a.kind, b.kind with
      | .atom .add w x, .atom .add _ y =>
        let c := { a with kind := .atom .add w (x + y), parts := a.parts ++ ⟨b.ctx, b.seq, x, b.src, b.uid, b.floor, b.core⟩ :: b.parts.map fun p => { p with sum := p.sum + x } }
        let rest := s.agenda.filter fun d => match d.step with | .accessAtHome e => e.uid != u && e.uid != v | _ => true
        .next (schedule { s with agenda := rest } (Nat.max n m) (.accessAtHome c))
      | _, _ => .next s
  | _, _ => .next s
/-- COMBINED_REPLY_SPLIT: each requester's old value (R208). -/
def execCombinedReplySplit (a : Access) (old : Dword) (s : State) : Host.Outcome State Fault Refusal :=
  .next (((⟨a.ctx, a.seq, 0, a.src, a.uid, a.floor, a.core⟩ : Merged) :: a.parts).foldl (fun s p => reply s a.home (planeOf a.uaddr) p.ctx p.seq a.land ((old + p.sum).setWidth 512)) s)

-- Messages (R213)

/-- Whether a message is a fault message (R414). -/
def isFaultMessage (m : Reg) : Bool := let c := bits (dword m 0) 7 0; decide (1 ≤ c) && decide (c ≤ 0x19)
/-- A message appended to an inbox. -/
def append (s : State) (dst : Nat) (m : Reg) (sent : Bool) : State := updCtx s dst fun x => { x with inbox := x.inbox ++ [⟨m, sent⟩] }
/-- A fault message whose supervisor has retired on its way goes on as R415 says. -/
def readdress (s : State) (m : Reg) : State :=
  let id := bits (dword m 0) 63 32
  let part := match ctxOf s id with | some x => x.part | none => (partOf s (id / 2 ^ 25)).getD 0
  match faultTarget s id 0 part with
  | some d => post s d m (.part (id / 2 ^ 25 % 128))
  | none => partReset (logFault s [2, dw s.cyc, dword m 0, dword m 1])
/-- The notice that a SEND of a partition has found an inbox full. Its latency is drawn for the port and the sender's partition, so that it
is no draw of the destination's (R34). -/
def fullNotice (s : State) (x : Ctx) (part : Nat) (ds : List Dword) : State :=
  if x.sup = 0 then s
  else
    let r := openDelay s (8 + 8 * x.tile + part)
    schedule r.2 (Nat.max r.1 (invalidatesDue s x.tile)) (.messageArrival x.sup.toNat (ofDwords ds) (.part x.tile))
/-- MESSAGE_ARRIVAL: appended, discarded, or discarded with a notice to the destination's supervisor (R213); a SIGNAL sets its
latch (R222). -/
def execMessageArrival (dst : Nat) (m : Reg) (src : MsgSrc) (s : State) : Host.Outcome State Fault Refusal :=
  match src with
  | .signal _ p k _ => .next (setLatch s p k)
  | .part _ => match ctxOf s dst with
    | none => .next (if isFaultMessage m then readdress s m else s)
    | some _ => .next (append s dst m false)
  | .send c only _ _ => match ctxOf s dst with
    | none => .next s
    | some x =>
      if (match only with | some p => p != x.part | none => false) then .next s
      else if 256 ≤ (x.inbox.filter (·.sent)).length then .next (fullNotice s x (partOfCtx s c) [0x200, dw dst, dw c, dword m 0])
      else .next (append s dst m true)

end Sys2Proof.Machine
end

