-- ==== Sys2Proof/Machine/Matrix.lean ====
section
/-! DEFINITION. Pages 10 and 11, the matrix engines and the accumulate network (R275 to R279, R287 to R324). -/

namespace Sys2Proof.Machine

-- Blocks (R275 to R279, R287)

/-- A physical block of a tile. -/
def blockAt (s : State) (t b : Nat) : Block := FMap.get Block.reset s.blocks (64 * t + b)
/-- A physical block replaced. -/
def setBlock (s : State) (t b : Nat) (k : Block) : State := { s with blocks := FMap.set Block.reset s.blocks (64 * t + b) k }
/-- The physical block a context's block number maps to (R287). -/
def physical (x : Ctx) (blk : RegNo) : Nat := x.grant.getD blk.toNat 0
/-- Element j of a block (R275). -/
def accElem (a : Accum) (j : Nat) : BitVec 160 := FMap.get 0 a.elems j
/-- Element j of a block replaced. -/
def setElem (a : Accum) (j : Nat) (n : BitVec 160) : Accum := { a with elems := FMap.set 0 a.elems j n }
/-- Grid(E, m × 2^e) in units of 2^(E − 120), a tie to the even multiple (R275). -/
def grid (ex : BitVec 10) (m : Nat) (e : Int) : Nat :=
  match e - (ex.toInt - 120) with
  | .ofNat k => m * 2 ^ k
  | .negSucc k =>
    let d := 2 ^ (k + 1)
    let q := m / d
    let r := m % d
    if 2 * r < d then q else if d < 2 * r then q + 1 else if q % 2 = 0 then q else q + 1
/-- Add of R277. -/
def addElem (a : Accum) (j : Nat) (v : FVal) : Accum :=
  match v with
  | .fin neg m e =>
    let g := grid a.e m e
    let a := if 2 ^ 135 ≤ g then { a with range := true } else a
    setElem a j (if neg then accElem a j - BitVec.ofNat 160 g else accElem a j + BitVec.ofNat 160 g)
  | _ => { a with nan := true }
/-- AddCount of R277. -/
def addCount (a : Accum) (c : Nat) : Accum :=
  { a with cnt := a.cnt || decide (0xFFFFFF < a.count + c), count := Nat.min (a.count + c) 0xFFFFFF }
/-- The value of an element: n × 2^(E − 120) (R275). -/
def elemValue (a : Accum) (j : Nat) : FVal := let n := (accElem a j).toInt; .fin (decide (n < 0)) n.natAbs (a.e.toInt - 120)
/-- A block's contents added to another's (R277). -/
def addBlock (a b : Accum) : Accum :=
  let c := (List.range 256).foldl (fun c j => addElem c j (elemValue b j)) a
  addCount { c with nan := c.nan || b.nan, range := c.range || b.range } b.count
/-- The status word (R276). -/
def statusWord (a : Accum) : Dword :=
  dw (a.e.toNat + bitOf a.nan * 2 ^ 10 + bitOf a.range * 2 ^ 11 + bitOf a.cnt * 2 ^ 12 + bitOf a.ovf * 2 ^ 13 + a.count * 2 ^ 16)
/-- Whether an element is beyond 2^135 (R279). -/
def wide (n : BitVec 160) : Bool := let h := n.toNat / 2 ^ 135; h != 0 && h != 2 ^ 25 - 1
/-- The value of Readout(T, blk, j) (R279); r is SR's word. -/
def readoutValue (f : FmtInfo) (rc : Rnd) (a : Accum) (r j : Nat) : Nat :=
  let n := accElem a j
  if a.nan then f.nan
  else if wide n then f.pattern n.msb f.top
  else roundTo f rc r (elemValue a j).exact
/-- OVF after a readout of elements (R279). -/
def readoutOvf (a : Accum) (js : List Nat) : Bool := a.ovf || (!js.isEmpty && (a.cnt || a.range)) || (!a.nan && js.any fun j => wide (accElem a j))
/-- A readout of elements in order under a context's rnd: the patterns, the block and the generator's state (R268, R279). -/
def readout (f : FmtInfo) (x : Ctx) (a : Accum) (js : List Nat) : List Nat × Accum × BitVec 32 :=
  let rc := rndOf x.rnd .dyn
  let p := eachRounded rc (fun r j => readoutValue f rc a r j) (srState x.rnd) js
  (p.1, { a with ovf := readoutOvf a js }, p.2)

-- Format contexts (R290, R291, R310)

/-- The format context of a core (R290). -/
def formatOf (s : State) (core : Nat) : Dword := FMap.get formatReset s.formats core
/-- A format the engine takes, by the code of R132 (R291). -/
def mmaFmt (n : Nat) : Option Fmt := match Fmt.of? n with | some .fp32 => none | f => f
/-- The failed conditions of a record, one bit each (R291, R310). -/
def formatBad (r : Dword) : Nat :=
  let a := mmaFmt (bits r 5 0)
  let b := mmaFmt (bits r 11 6)
  let sm := bits r 13 12
  let w := fun (f : Option Fmt) => match f with | some f => (fmtInfo f).width | none => 0
  bitOf a.isNone + bitOf b.isNone * 2 + bitOf (a.isSome && b.isSome && w a != w b) * 4
    + bitOf (decide (2 ≤ sm) || (sm == 1 && w a == 16 && w b == 16)) * 8 + bitOf (bits r 63 30 != 0) * 16
/-- R310. -/
def execMfmt (a : RegNo) (s : State) :=
  run (.mfmt a) (fun id x => do
    let r := x.scalar a
    raiseIf (formatBad r != 0) (flt .fmt r (dw (formatBad r)) 0)
    charge id 1 0
    upd fun s => { s with formats := FMap.set formatReset s.formats x.at_ r }) s

-- MMA and MMAS (R292 to R300, R311)

/-- The engine of a tile. -/
def engineOf (s : State) (t : Nat) : Engine := FMap.get Engine.reset s.engines t
/-- The engine of a tile replaced. -/
def setEngine (s : State) (t : Nat) (e : Engine) : State := { s with engines := FMap.set Engine.reset s.engines t e }
/-- The format of an operand of a captured format context (R290): A or B. -/
def operandFmt (f : Dword) (b : Bool) : FmtInfo := fmtInfo ((mmaFmt (if b then bits f 11 6 else bits f 5 0)).getD .e2m1)
/-- K, the elements of a row or column (R292). -/
def elemsOfRow (f : Dword) : Nat := 3072 / (operandFmt f false).width
/-- Whether a captured format context has MX scales. -/
def scaled (f : Dword) : Bool := bits f 13 12 == 1
/-- The bytes of a scale region (R293). -/
def scaleBytes (f : Dword) : Nat := 16 * (elemsOfRow f / 32)
/-- The regions an MMA reads, in the order of R311's checks: address and length. -/
def regionsOf (x : Ctx) (f : Dword) (a b : RegNo) : List (Dword × Nat) :=
  let one := fun (r : RegNo) => (x.dword r 0, 6144) :: (if scaled f then [(x.dword r 1, scaleBytes f)] else [])
  one a ++ one b
/-- The lines of a region. -/
def linesFrom (u n : Nat) : List Nat := (List.range ((n + 63) / 64)).map fun i => u + 64 * i
/-- The segment checks of the regions, in order (R162): the lines of each. -/
def regionLines (x : Ctx) : List (Dword × Nat) → Except Flt (List (List Nat))
  | [] => .ok []
  | (a, n) :: t => match segMap x a n 64 rightsR with
    | .error f => .error f
    | .ok u => match regionLines x t with | .error f => .error f | .ok l => .ok (linesFrom u n :: l)
/-- APERTURE where an address is not paged (R311). -/
def onlyPaged (s : State) (x : Ctx) (u : Nat) : Option Flt :=
  match regionOf u with | .paged => none | .hole => some (holeFault s x.part u) | .none => some (apertureFault u 16) | .scratch _ _ => some (apertureFault u 64)
/-- The regions' lines in the order in which a command keeps them: A, B, A's scales, B's scales. -/
def commandOrder (f : Dword) (l : List (List Nat)) : List Nat :=
  if scaled f then (l.getD 0 [] ++ l.getD 2 []) ++ (l.getD 1 [] ++ l.getD 3 []) else l.flatten
/-- A command enters its engine's queue and its issuer parks until the step at the block (R296, R299, R311). -/
def enterQueue (i : Instr) (mmas : Bool) (blk : RegNo) (f : Dword) (lines : List (Nat × Nat)) (bad : Option Flt) (id : Nat) (x : Ctx) (s : State) : State :=
  let e := engineOf s x.tile
  let k : Cmd :=
    { uid := s.uid, ctx := id, part := x.part, pc := x.pc, home := x.tile, blk := physical x blk, mmas := mmas, fmt := f, entered := s.cyc
      core := x.core, migrated := false, lines := lines, data := [], bad := bad }
  let s := setEngine { s with uid := s.uid + 1 } x.tile { e with queue := e.queue ++ [k] }
  let s := updCtx (parkCtx s id ⟨.mma, s.cyc, none, k.uid, (pageOp i).2, x.pc, true⟩) id fun y => { y with retry := none }
  if mmas then later s (.retrieverFetch x.tile k.uid) else s
/-- R311 for MMA: the operands lie in the tile's own scratch. -/
def execMma (blk a b : RegNo) (s : State) :=
  run (.mma blk a b) (fun id x => do
    let t ← get
    let f := formatOf t x.at_
    match regionLines x (regionsOf x f a b) with
    | .error e => raise e
    | .ok l =>
      match l.flatten.findSome? (ownScratch t x) with
      | some e => raise e
      | none =>
        charge id 8 0
        upd (enterQueue (.mma blk a b) false blk f ((commandOrder f l).map fun u => (u, placeOf x.tile (u % 0x200000))) none id x)) s
/-- R300, R311 for MMAS: every line is translated at issue; PROT stops the issuer with its charge taken (R299). A line
whose home is under repair parks it: DESIGN CHOICE (log 93). -/
def execMmas (blk a b : RegNo) (s : State) :=
  run (.mmas blk a b) (fun id x => do
    let t ← get
    let f := formatOf t x.at_
    match regionLines x (regionsOf x f a b) with
    | .error e => raise e
    | .ok l =>
      match l.flatten.findSome? (onlyPaged s x) with
      | some e => raise e
      | none =>
        match mapAll x rightsR t l.flatten with
        | .stop e => trap e
        | .prot e =>
          charge id 8 12288
          upd (enterQueue (.mmas blk a b) true blk f [] (some e) id x)
        | .spots sp t' =>
          match sp.find? fun p => underRepair t p.2.home with
          | some (u, p) => trap (.park (repairPark t x p u))
          | none =>
            set t'
            charge id 8 12288
            upd (enterQueue (.mmas blk a b) true blk f ((commandOrder f l).map fun u => (u, match sp.find? fun p => p.1 == u with | some p => p.2.place | none => 0)) none id x)) s

/-- A command changed wherever it waits or runs at a tile. -/
def updCmd (s : State) (t uid : Nat) (f : Cmd → Cmd) : State :=
  let e := engineOf s t
  let g := fun (k : Cmd) => if k.uid = uid then f k else k
  setEngine s t { e with queue := e.queue.map g, running := e.running.map g }
/-- A command leaves its engine; a migrated one frees the temporary block it ran in (R298, R299). -/
def dropCmd (s : State) (t uid : Nat) : State :=
  let e := engineOf s t
  let took := (e.queue ++ e.running.toList).any fun k => k.uid == uid && k.migrated
  setEngine s t { e with queue := e.queue.filter (fun k => k.uid != uid), running := e.running.filter (fun k => k.uid != uid), temp := if took then none else e.temp }
/-- The issuer of a command goes on: its park ends, and a retirement that waited takes effect (R299). -/
def releaseIssuer (s : State) (id : Nat) : State :=
  let s := settleLate (endPark s id false) id
  match ctxOf s id with
  | some x =>
    if !x.retireReq then s else if imageDay s id x then retire s id false else setCtx s id { x with decided := some true }
  | none => s
/-- The issuer of a command stops at it; a fault that meets its image where it cannot be read is kept, and taken once it can be
(R59, R65, R299). -/
def stopAtCmd (s : State) (id : Nat) (k : Kept) : State :=
  if !imageReady s id then updCtx (keepFault s id k) id fun x => { x with decided := some false }
  else
    let s := readBack s id
    match ctxOf s id with
    | none => s
    | some x =>
      let s := if x.longs.any (·.ended) then settleLate (endPark (keepFault s id k) id false) id
        else restImage (takeFault (setCtx s id { x with pc := k.pc }) id k.pc k.page k.op k.flt) id
      if x.retireReq then retire s id false else s
/-- A fault in a command's operands: no product is added, the issuer stops at the instruction with its charge taken (R299). -/
def failCmd (s : State) (t : Nat) (k : Cmd) (f : Flt) : State :=
  stopAtCmd (dropCmd s t k.uid) k.ctx ⟨k.pc, 10, if k.mmas then 2 else 1, f⟩
/-- MEMERR at a line of a command (R300). -/
def lineErr (s : State) (l : Nat × Nat) : Option Flt :=
  if errIn s l.2 64 then some (flt .memerr (dw l.1) 0 (if isScratch l.2 then 0 else dw l.2)) else none
/-- RETRIEVER_FETCH: the next line of an MMAS is fetched from its slice (R300). -/
def execRetrieverFetch (t uid : Nat) (s : State) : Host.Outcome State Fault Refusal :=
  let e := engineOf s t
  match (e.queue ++ e.running.toList).find? fun k => k.uid == uid with
  | none => .next s
  | some k => match k.bad with
    | some f => .next (failCmd s t k f)
    | none => match k.lines[k.data.length / 64]? with
      | none => .next s
      | some l => match lineErr s l with
        | some f => .next (failCmd s t k f)
        | none =>
          let s := updCmd s t uid fun c => { c with data := c.data ++ readBytes s l.2 64 }
          .next (if k.data.length / 64 + 1 < k.lines.length then later s (.retrieverFetch t uid) else s)
/-- Whether an engine holds a command's operands, or may read them: behind its issuer's earlier accesses (R239, R296). -/
def operandsHeld (s : State) (k : Cmd) : Bool :=
  if k.mmas then k.bad.isNone && k.data.length == 64 * k.lines.length else !k.data.isEmpty || !accessBefore s k.ctx k.uid
/-- MMA_START: the oldest command whose operands the engine holds starts, and takes 8 cycles (R296). -/
def execMmaStart (t : Nat) (s : State) : Host.Outcome State Fault Refusal :=
  let e := engineOf s t
  match e.running, e.queue.find? (operandsHeld s) with
  | none, some k =>
    .next (schedule (setEngine s t { e with queue := e.queue.filter (fun c => c.uid != k.uid), running := some k, started := s.cyc }) (s.cyc + 8) (.mmaStep t))
  | _, _ => .next s

/-- An operand element (R292): format, row or column, index. -/
def operandElem (f : FmtInfo) (d : Array Byte) (base row k : Nat) : FVal :=
  let b := base + 384 * row
  f.value (match f.width with
    | 16 => (d.getD (b + 2 * k) 0).toNat + 256 * (d.getD (b + 2 * k + 1) 0).toNat
    | 8 => (d.getD (b + k) 0).toNat
    | _ => (d.getD (b + k / 2) 0).toNat / 16 ^ (k % 2) % 16)
/-- A product of two element values times a power of two (R294). -/
def product (a b : FVal) (e : Int) : FVal :=
  match a, b with
  | .nan, _ => .nan
  | _, .nan => .nan
  | .inf m, .inf n => .inf (m != n)
  | .inf m, .fin n k _ => if k = 0 then .nan else .inf (m != n)
  | .fin n k _, .inf m => if k = 0 then .nan else .inf (m != n)
  | .fin m k x, .fin n l y => .fin (m != n) (k * l) (x + y + e)
/-- The scale of element k of a row: its E8M0 code, or 127 where there are no scales (R293, R294). -/
def scaleAt (f : Dword) (d : Array Byte) (base row k : Nat) : Nat :=
  if scaled f then (d.getD (base + elemsOfRow f / 32 * row + k / 32) 0).toNat else 127
/-- An 8-bit scale offset, signed (R290). -/
def offsetOf (f : Dword) (lo : Nat) : Int := (BitVec.ofNat 8 (bits f (lo + 7) lo)).toInt
/-- The product p(i, k, j) (R294): A at byte 0 of the data, B at 6,144, the scales of A and B in the lines behind. -/
def productAt (f : Dword) (d : Array Byte) (i k j : Nat) : FVal :=
  let sa := scaleAt f d 12288 i k
  let sb := scaleAt f d (12288 + (scaleBytes f + 63) / 64 * 64) j k
  if sa = 255 ∨ sb = 255 then .nan
  else product (operandElem (operandFmt f false) d 0 i k) (operandElem (operandFmt f true) d 6144 j k)
    (offsetOf f 14 + offsetOf f 22 + (sa : Int) - 127 + (sb : Int) - 127)
/-- All the products of a command added to a block as one step (R295). -/
def addProducts (f : Dword) (bytes : List Byte) (a : Accum) : Accum :=
  let d := bytes.toArray
  addCount ((List.range 16).foldl (fun a i => (List.range 16).foldl (fun a j =>
    (List.range (elemsOfRow f)).foldl (fun a k => addElem a (16 * i + j) (productAt f d i k j)) a) a) a) (elemsOfRow f)
/-- The operand bytes of a command: fetched, or read where they lie. -/
def operandBytes (s : State) (k : Cmd) : List Byte := if k.data.isEmpty then k.lines.flatMap fun l => readBytes s l.2 64 else k.data

-- The accumulate network (R29, R301 to R304)

/-- The tile and the block a destination value names (R301). -/
def destTile (d : BitVec 21) : Nat := fld d.toNat 12 6
def destBlock (d : BitVec 21) : Nat := fld d.toNat 5 0
def destTag (d : BitVec 21) : BitVec 8 := d.extractLsb' 13 8
/-- The links of a packet's route; one that stays in its tile has the tile's own block port for a link. -/
def routeLinks (p : SumPacket) : List (Nat × Nat) :=
  match linksOf p.src (destTile p.d) with | [] => [(p.src, p.src)] | l => l
/-- Whether a packet ranks before another: the cycle of its send, then its source tile, then the order of the sends (R301). -/
def ranksBefore (q p : SumPacket) : Bool :=
  decide (q.sent < p.sent) || (q.sent == p.sent && (decide (q.src < p.src) || (q.src == p.src && decide (q.n < p.n))))
/-- A packet put into a list in the order of rank. -/
def insertPacket : List SumPacket → SumPacket → List SumPacket
  | [], p => [p]
  | q :: t, p => if ranksBefore p q then p :: q :: t else q :: insertPacket t p
/-- The packets on their way, by rank. -/
def packetsOut (s : State) : List SumPacket :=
  (s.agenda.filterMap fun d => match d.step with | .sumPacketArrival q => some q | _ => none).foldl insertPacket []
/-- The links that packets on their way surely still claim: the last of each one's route, and, of one that meets a link claimed by a
packet of earlier rank, that link and those behind it (R301). -/
def claimedLinks (l : List SumPacket) : List (Nat × Nat) :=
  l.foldl (fun u q =>
    let r := routeLinks q
    match r.dropWhile (fun k => !u.contains k) with | [] => u ++ (r.getLast?).toList | c => u ++ c) []
/-- Whether a packet arrives behind others: its route has a link that a packet of earlier rank still claims (R301, R303). -/
def behindPackets (s : State) (p : SumPacket) : Bool :=
  let c := claimedLinks ((packetsOut s).filter (ranksBefore · p))
  (routeLinks p).any c.contains
/-- Whether a step performs an access of a context numbered below n, or one that it comes behind. -/
def comesFirst (s : State) (id n : Nat) : Instr → Bool := performsFirst s fun a => (requestsOf a).any fun q => q.1 == id && decide (q.2.2.1 < n)
/-- A sum packet sent: where none shares a link of its route it takes at most 48 + 2h cycles, in which its sender's earlier
accesses are performed; it arrives behind those of earlier rank (`behindPackets`; R239, R301, R303). -/
def sendPacket (s : State) (p : SumPacket) : State :=
  let dst := destTile p.d
  let alone := (packetsOut s).all fun q => !(routeLinks q).any (routeLinks p).contains
  let part := stepPart s (.sumPacketArrival p)
  let r := if alone then boundedDelay s part (48 + 2 * hops p.src dst) else openDelay s part
  schedule (if alone then hastenRoutes r.2 r.1 (comesFirst r.2 p.ctx p.n) else r.2) r.1 (.sumPacketArrival p)
/-- MMA_STEP: the command's step at its block, or at the temporary block of the engine that computed it (R295, R298, R299). An error in an operand
word of an MMA's own scratch is a MEMERR of the command: DEDUCED (log 92). -/
def execMmaStep (t : Nat) (s : State) : Host.Outcome State Fault Refusal :=
  let e := engineOf s t
  match e.running with
  | none => .next s
  | some k => match (if k.data.isEmpty then k.lines.findSome? (lineErr s) else none) with
    | some f => .next (failCmd s t k f)
    | none =>
      let bytes := operandBytes s k
      if k.migrated then
        let s := setEngine s t { e with running := none, temp := none }
        .next (sendPacket s ⟨k.ctx, t, 0, k.pc, 0, BitVec.ofNat 21 (k.home * 64 + k.blk), addProducts k.fmt bytes (e.temp.getD Accum.zero), true, 0, s.cyc⟩)
      else
        let b := blockAt s k.home k.blk
        let s := setBlock (setEngine s t { e with running := none }) k.home k.blk { b with acc := addProducts k.fmt bytes b.acc }
        .next (releaseIssuer s k.ctx)
/-- Whether an engine has sent a command away in this cycle (R297). -/
def hasMigrated (s : State) (t : Nat) : Bool :=
  s.engines.any fun e => (e.2.queue ++ e.2.running.toList).any fun k => k.migrated && k.home == t && k.entered == s.cyc
/-- The command that would migrate from a tile, the oldest not migrated and 64 cycles old, one in a cycle (R297). -/
def migrant (s : State) (t : Nat) : Option Cmd :=
  if hasMigrated s t then none else (engineOf s t).queue.find? fun k => !k.migrated && decide (k.entered + 64 ≤ s.cyc)
/-- An idle engine (R297). -/
def engineIdle (s : State) (t : Nat) : Bool := let e := engineOf s t; e.queue.isEmpty && e.running.isNone && e.temp.isNone
/-- The tile a command of an engine may move to: the lowest-numbered idle neighbour of the partition; one of a higher number
that has sent a command away in this cycle was not idle when the engine's turn came (R297). -/
def migrationTo (s : State) (t : Nat) : Option Nat :=
  match migrant s t with
  | none => none
  | some _ => (adjacentTiles t).find? fun u => partOf s u == partOf s t && (partOf s t).isSome && !underRepair s u && engineIdle s u
      && !(decide (t < u) && hasMigrated s u)
/-- COMMAND_MIGRATION: the command, its format context and, for MMA, its operand data go to the idle engine, whose
temporary block takes the home block's E; an MMAS is fetched there (R297, R298), and operands that its issuer's earlier accesses
have yet to reach are read there (R239). -/
def execCommandMigration (src dst : Nat) (s : State) : Host.Outcome State Fault Refusal :=
  match migrant s src with
  | none => .next s
  | some k =>
    let early := k.mmas || (k.data.isEmpty && accessBefore s k.ctx k.uid)
    match (if early then none else k.lines.findSome? (lineErr s)) with
    | some f => .next (failCmd s src k f)
    | none =>
      let c := { k with migrated := true, entered := s.cyc, data := if early then [] else operandBytes s k }
      let e := engineOf s dst
      let s := setEngine (dropCmd s src k.uid) dst
        { e with queue := e.queue ++ [c], temp := some { Accum.zero with e := (blockAt s k.home k.blk).acc.e } }
      .next (if k.mmas then later s (.retrieverFetch dst k.uid) else s)
/-- SUM_PACKET_ARRIVAL: added to a reserved block under its tag and acknowledged, or refused; the return of a migrated
command is added without looking at the reservation, and is that command's step (R298, R302). RANGE is tested on what arrives (R277), so that
it can depend on the engine that summed: DESIGN CHOICE (log 90). -/
def execSumPacketArrival (p : SumPacket) (s : State) : Host.Outcome State Fault Refusal :=
  let t := destTile p.d
  let b := blockAt s t (destBlock p.d)
  if p.back then
    .next (releaseIssuer (setBlock s t (destBlock p.d) { b with acc := addBlock b.acc p.blk }) p.ctx)
  else if underRepair s t then .next (later s (.refusalArrival p 2))
  else if !b.reserved then .next (later s (.refusalArrival p 0))
  else if b.tag ≠ destTag p.d then .next (later s (.refusalArrival p 1))
  else
    let n := Nat.min (b.arrived + 1) 0xFFFF
    let b := { b with acc := addBlock b.acc p.blk, arrived := n, x := b.x || decide (b.expected < n) }
    .next (later (setBlock s t (destBlock p.d) b) (.acknowledgementArrival p.src p.entry))
/-- ACKNOWLEDGEMENT_ARRIVAL: the send-store entry is free (R304). -/
def execAcknowledgementArrival (t e : Nat) (s : State) : Host.Outcome State Fault Refusal := .next (setSend s t e none)
/-- REFUSAL_ARRIVAL: the packet is spilled, or stays in the send store until its ring has room (R305, R306). The cycle of the refusal
is this one, in which it reaches the sending tile: DESIGN CHOICE (log 81). -/
def execRefusalArrival (p : SumPacket) (why : BitVec 3) (s : State) : Host.Outcome State Fault Refusal :=
  .next (trySpill (setSend s p.src p.entry (some ⟨p, some why, s.cyc, false⟩)) p.src p.entry)

-- Page 10 (R312 to R316)

/-- The block of an instruction changed as one step. -/
def updBlock (x : Ctx) (blk : RegNo) (f : Block → Block) : M Unit := upd fun s =>
  setBlock s x.tile (physical x blk) (f (blockAt s x.tile (physical x blk)))
/-- The block of an instruction. -/
def readBlock (x : Ctx) (blk : RegNo) : M Block := fun s => .ok (blockAt s x.tile (physical x blk), s)
/-- R312. -/
def execAcce (blk a : RegNo) (s : State) :=
  run (.acce blk a) (fun id x => do charge id 1 0; updBlock x blk fun b => { b with acc := { Accum.zero with e := BitVec.ofNat 10 (x.lane0 a) } }) s
def execAccz (blk : RegNo) (s : State) :=
  run (.accz blk) (fun id x => do charge id 1 0; updBlock x blk fun b => { b with acc := { Accum.zero with e := b.acc.e } }) s
/-- R313. -/
def execAccrd (t : FType) (d blk b : RegNo) (s : State) :=
  run (.accrd t d blk b) (fun id x => do
    checkFmt x .dyn
    charge id 1 0
    let k ← readBlock x blk
    let ls := lanesOf (maskP x.pw 0)
    let r := readout (ftInfo t) x k.acc (ls.map fun l => 16 * (x.lane0 b % 16) + l)
    updBlock x blk fun k => { k with acc := r.2.1 }
    putSr id r.2.2
    vwrite id d (fromElems 32 (ls.map fun l => (l, 0)) r.1) (maskP x.pw 0)) s
/-- ACCWR of one lane (R314). -/
def writeElem (a : Accum) (j : Nat) (v : FVal) : Accum :=
  match v with
  | .fin neg m e =>
    let g := grid a.e m e
    let a := if 2 ^ 135 ≤ g then { a with range := true } else a
    setElem a j (if neg then - BitVec.ofNat 160 g else BitVec.ofNat 160 g)
  | _ => { a with nan := true }
def execAccwr (blk a b : RegNo) (s : State) :=
  run (.accwr blk a b) (fun id x => do
    charge id 1 0
    updBlock x blk fun k => { k with acc := (lanesOf (maskP x.pw 0)).foldl (fun c l =>
      writeElem c (16 * (x.lane0 b % 16) + l) (infoFp32.value (lane (x.reg a.toNat) l).toNat)) k.acc }) s
/-- The lines of an area checked and translated (R162 to R168): its first check that fails decides. -/
def areaLines (s : State) (x : Ctx) (a : Dword) (n : Nat) (r : Rights) : Ready :=
  match segMap x a n 64 r with
  | .error f => .stop (.fault f)
  | .ok u =>
    let us := linesFrom u n
    match us.findSome? (fun v => match regionOf v with
      | .scratch t off => scratchFault s x.part v t off
      | .hole => some (holeFault s x.part v)
      | .none => some (apertureFault v 16)
      | .paged => none) with
    | some f => .stop (.fault f)
    | none => mapAll x r s us
/-- A register of bytes, the first lowest. -/
def ofBytes (l : List Byte) : Reg := BitVec.ofNat 512 (ofBytesLE l)
/-- R315: the area is checked and translated before the charge, the readout is one step, each line is one write. -/
def execAccst (t : FType) (blk a : RegNo) (s : State) :=
  run (.accst t blk a) (fun id x => do
    let w := (ftInfo t).width / 8
    let t0 ← get
    match areaLines t0 x (ea (x.scalar a) 0) (256 * w) rightsW with
    | .stop e => trap e
    | .prot f => raise f
    | .spots sp t1 =>
      match sp.find? fun p => p.2.paged && underRepair t1 p.2.home with
      | some (u, p) => trap (.park (repairPark t1 x p u))
      | none =>
        checkFmt x .dyn
        set t1
        charge id 1 (traffic x sp 64)
        let k ← readBlock x blk
        let r := readout (ftInfo t) x k.acc (List.range 256)
        updBlock x blk fun k => { k with acc := r.2.1 }
        putSr id r.2.2
        let bytes := r.1.flatMap fun v => bytesLE w v
        upd fun u => sendAll ⟨id, 0, x.part, x.tile, 0, .plain, false, 0, none, 0, 0, none⟩ u
          ((sp.zipIdx).map fun p => ((.write 64 (ofBytes ((bytes.drop (64 * p.2)).take 64)) (byteMask 64), .none), p.1))) s
/-- R316. -/
def execAccstat (d blk : RegNo) (s : State) :=
  run (.accstat d blk) (fun id x => do charge id 1 0; let k ← readBlock x blk; swrite id d (statusWord k.acc)) s

-- Page 11 (R319 to R323)

/-- R319. -/
def execChset (blk a : RegNo) (s : State) :=
  run (.chset blk a) (fun id x => do
    charge id 1 0
    updBlock x blk fun k => { k with tag := k.tag + 1, reserved := true, expected := x.lane0 a % 65536, arrived := 0, x := false }) s
/-- The lowest free entry of a send store (R304). -/
def freeSend (s : State) (t : Nat) : Option Nat := (List.range 16).find? fun e => (sendAt s t e).isNone
/-- CHSEND's packet takes an entry and is sent, with what block b holds (R301, R304, R320). -/
def sendSum (s : State) (id : Nat) (x : Ctx) (pc : Dword) (e b : Nat) (d : BitVec 21) : State :=
  let p : SumPacket := ⟨id, x.tile, x.sup, pc, e, d, (blockAt s x.tile b).acc, false, s.uid, s.cyc⟩
  sendPacket (setSend { s with uid := s.uid + 1 } x.tile e (some ⟨p, none, 0, false⟩)) p
/-- R320: a release at device scope; it parks, charged, where the send store is full (R304). -/
def execChsend (blk a : RegNo) (s : State) :=
  run (.chsend blk a) (fun id x => do
    let t ← get
    let d : BitVec 21 := (x.scalar a).setWidth 21
    let out := partOf t (destTile d) != some x.part
    let off := (route x.tile (destTile d)).any fun u => u != destTile d && partOf t u != some x.part
    raiseIf (out || off) (flt .prot (dw d.toNat) (dw (if out then 64 else 128)) 0)
    charge id 1 5120
    match freeSend t x.tile with
    | none => parkAfter .store (some (bits x.fel 31 0)) (physical x blk + 64 * d.toNat) id x
    | some e => upd fun s => sendSum s id x x.pc e (physical x blk) d) s
/-- CHWAIT's fault (R321). -/
def chwaitFault (t : Nat) (b : Nat) (k : Block) : Flt :=
  flt .chwait (dw (b + t * 64 + k.tag.toNat * 8192)) (dw (k.expected + bitOf k.reserved * 65536)) (dw k.arrived)
/-- R321: not reserved faults at issue; the limit's expiry and the reservation's end fault too. -/
def execChwait (blk : RegNo) (limit : Dword) (s : State) :=
  run (.chwait blk limit) (fun id x => do
    let k ← readBlock x blk
    raiseIf (!k.reserved) (chwaitFault x.tile (physical x blk) k)
    charge id 1 0
    if k.expected ≤ k.arrived then pure () else parkAfter .chwait (some limit.toNat) (physical x blk) id x) s
/-- The end of a reservation (R307, R322). -/
def dropReservation (k : Block) : Block := { k with reserved := false }
def execChdrop (blk : RegNo) (s : State) := run (.chdrop blk) (fun id x => do charge id 1 0; updBlock x blk dropReservation) s
/-- CHSTAT's word (R323). -/
def chstatWord (t b : Nat) (k : Block) : Dword :=
  dw (b + t * 64 + k.tag.toNat * 8192 + bitOf k.x * 2 ^ 22 + bitOf k.reserved * 2 ^ 23 + k.expected * 2 ^ 32 + k.arrived * 2 ^ 48)
def execChstat (d blk : RegNo) (s : State) :=
  run (.chstat d blk) (fun id x => do charge id 1 0; let k ← readBlock x blk; swrite id d (chstatWord x.tile (physical x blk) k)) s

end Sys2Proof.Machine
end

