-- ==== Sys2Proof/Machine/CopyInstr.lean ====
section
/-! DEFINITION. Page 9 and the copy engine (R325 to R346), bank modes (R175, R176). -/

namespace Sys2Proof.Machine

-- Banks (R176, R345)

/-- Whether a unified range touches a bank of a tile's scratch. -/
def touches (t b u n : Nat) : Bool :=
  let lo := 0x00FF000000000000 + t * 0x200000 + b * 0x10000
  decide (0 < n) && decide (u < lo + 0x10000) && decide (lo < u + n)
/-- The lines of a copy that have been read and not landed: offset and length (R331). -/
def linesFlying (s : State) (t uid : Nat) : List (Nat × Nat) :=
  s.agenda.filterMap fun d => match d.step with | .copyLineLand t' uid' line ws => if t' = t ∧ uid' = uid then some (line, 8 * ws.length) else none | _ => none
/-- Whether a copy of a tile is pending at a bank: a check that has passed is, for both its ranges; then what it has still to
read there, and what it has still to land there (R330). A check under way at another tile has not passed there (R328). -/
def copyPending (s : State) (e t b : Nat) (c : Copy) : Bool :=
  if c.checking then !(c.cancelled && e != t) && (touches t b c.src c.len || (c.stream.isNone && touches t b c.dst c.len))
  else
    (c.live && (touches t b (c.src + c.next) (c.len - c.next) || (c.stream.isNone && touches t b (c.dst + c.next) (c.len - c.next))))
      || (c.stream.isNone && (linesFlying s e c.uid).any fun l => touches t b (c.dst + l.1) l.2)
      || (e == t && c.stream.isSome && (c.live || c.flying != 0) && (FMap.get (Fifo.mk none []) s.fifos (24 * t + b)).owner == c.stream)
/-- Whether a bank has a copy pending, an operand read of an issued MMA, or as FIFO a bound copy (R299, R330, R345). -/
def bankPending (s : State) (t b : Nat) : Bool :=
  (s.copies.any fun e => e.2.any (copyPending s e.1 t b))
  || (s.engines.any fun e => (e.2.queue ++ e.2.running.toList).any fun k => k.home == t && k.data.isEmpty && !k.mmas
      && k.lines.any fun l => touches t b l.1 64)
/-- Whether a wait-list entry waits on a word of a bank. -/
def waitsInBank (t b : Nat) (a : Access) : Bool := a.place / 0x10000 == placeOf t (b * 0x10000) / 0x10000
/-- A bank's new mode takes effect (R176, R345): lines, words, waiters and streams of the old mode go. -/
def applyMode (s : State) (t b : Nat) (m : BankMode) : State :=
  let old := bankMode s t b
  if old = m then s
  else
    let s := { s with banks := FMap.set .cache s.banks (24 * t + b) m }
    let s := if old = .cache ∨ m = .cache then
        { s with ways := s.ways.filter fun e => e.1 / 1024 != t * 1024 + b, rr := s.rr.filter fun e => e.1 / 1024 != t }
      else s
    let s := if old = .fifo then { s with fifos := FMap.set (Fifo.mk none []) s.fifos (24 * t + b) ⟨none, []⟩ } else s
    let s := if old = .scratch then
        let w := FMap.get [] s.waits t
        (w.filter (waitsInBank t b)).foldl (fun s a => failAccess s a (apertureFault a.uaddr 32))
          { s with waits := FMap.set [] s.waits t (w.filter fun a => !waitsInBank t b a) }
      else s
    if m = .scratch then
      let lo := placeOf t (b * 0x10000)
      let out := fun p => decide (p < lo) || decide (lo + 0x10000 ≤ p)
      { s with mem := s.mem.filter fun c => out c.1, tags := s.tags.filter fun c => out (8 * c.1), errs := s.errs.filter fun c => out (8 * c.1) }
    else s
/-- A mode's code (R345). -/
def modeCode : BankMode → Nat | .cache => 0 | .scratch => 1 | .fifo => 2
def modeOf : Nat → Option BankMode | 0 => some .cache | 1 => some .scratch | 2 => some .fifo | _ => none
/-- The mode changes that wait for a bank's drain, and their replacement (R176, R345). -/
def drainsOf (s : State) (t b : Nat) : List (Nat × BankMode) := FMap.get [] s.drains (24 * t + b)
def setDrains (s : State) (t b : Nat) (l : List (Nat × BankMode)) : State := { s with drains := FMap.set [] s.drains (24 * t + b) l }
/-- R345. -/
def execBankcfg (a : RegNo) (s : State) :=
  run (.bankcfg a) (fun id x => do
    let v := x.lane0 a
    let b := v % 32
    match modeOf (v / 256 % 4), decide (b < 24) with
    | some m, true =>
      charge id 1 0
      let t ← get
      if bankMode t x.tile b = m then pure ()
      else if !(drainsOf t x.tile b).isEmpty || bankPending t x.tile b then
        upd (setDrains · x.tile b (drainsOf t x.tile b ++ [(id, m)]))
        parkAfter .drain (some (bits x.fel 31 0)) b id x
      else upd (applyMode · x.tile b m)
    | _, _ => raise (flt .bankmode (dw (x.lane0 a)) (dw (b + v / 256 % 4 * 32)) 0)) s
/-- R346. -/
def execBankst (d : RegNo) (s : State) :=
  run (.bankst d) (fun id x => do
    charge id 1 0
    let t ← get
    let modes := (List.range 24).foldl (fun acc b => acc + modeCode (bankMode t x.tile b) * 4 ^ b) 0
    let drains := (List.range 24).foldl (fun acc b => acc + bitOf (!(drainsOf t x.tile b).isEmpty) * 2 ^ b) 0
    upd (putReg · id d (mergeLanes 15 (ofDwords [dw modes, dw drains])))) s
/-- BANK_DRAIN_END: the earliest waiting mode takes effect, and its parked issuer goes on; others follow one at a time (R176,
R345). -/
def execBankDrainEnd (t b : Nat) (s : State) : Host.Outcome State Fault Refusal :=
  match drainsOf s t b with
  | [] => .next s
  | (id, m) :: rest =>
    let s := applyMode (setDrains s t b rest) t b m
    .next (match ctxOf s id with
      | some x => (match x.park with
        | some k => if k.kind = .drain ∧ k.arg = b then settleLate (endPark s id false) id else s
        | none => s)
      | none => s)

-- CPY and CPYS at issue (R325 to R330)

/-- Whether an address names scratch (R327). -/
def namesScratch (x : Ctx) (a : Dword) : Bool :=
  let g := segReg x (segOf a)
  bit g.limit 59 || decide (0x00FF000000000000 ≤ bits g.base 55 0 + offOf a)
/-- An end of a copy checked by R162, R165 and R175: its unified address. Which address a fault names, of a range that leaves its
aperture, is DESIGN CHOICE (log 11). -/
def copyEnd (s : State) (x : Ctx) (a : Dword) (n : Nat) (r : Rights) : Except Flt Nat :=
  match segMap x a n 1 r with
  | .error f => .error f
  | .ok u => match regionOf u, regionOf (u + n - 1) with
    | .paged, .paged => .ok u
    | .paged, .scratch t _ =>
      let b := bitOf (partOf s t != some x.part) * 4 + bitOf (underRepair s t) * 8
      if b = 0 then .ok u else .error (apertureFault 0x00FF000000000000 b)
    | .scratch t _, .scratch t' _ =>
      let b := bitOf (t != t') + bitOf (partOf s t != some x.part) * 4 + bitOf (underRepair s t) * 8
      if b = 0 then .ok u else .error (apertureFault u b)
    | .hole, _ => .error (holeFault s x.part u)
    | .none, _ => .error (apertureFault u 16)
    | _, .none => .error (apertureFault (u + n - 1) 16)
    | _, .hole => .error (holeFault s x.part (u + n - 1))
    | _, _ => .error (apertureFault (u + n - 1) 1)
/-- The part of a range that lies in scratch, which one that begins in paged memory may reach: its first address and length. -/
def scratchPart (u n : Nat) : Nat × Nat := let a := Nat.max u 0x00FF000000000000; (a, u + n - a)
/-- The first bank a scratch range touches that is not in scratch mode (R328). -/
def badBank (s : State) (tile u n : Nat) : Option Flt :=
  let p := scratchPart u n
  let u := p.1
  let n := p.2
  if n = 0 then none
  else match regionOf u with
  | .scratch t off =>
    ((List.range 24).find? fun b => decide (off / 0x10000 ≤ b) && decide (b ≤ (off + n - 1) / 0x10000) && bankMode s t b != .scratch).map fun b =>
      flt .bankmode (dw (Nat.max u (0x00FF000000000000 + t * 0x200000 + b * 0x10000))) (dw (b + modeCode (bankMode s t b) * 32 + bitOf (t != tile) * 128)) 0
  | _ => none
/-- The other tile whose scratch a range lies in. -/
def otherTile (tile u : Nat) : Bool := match regionOf u with | .scratch t _ => t != tile | _ => false
/-- The checks of R326 and R327, in the order of R328; the size in dw3 of ALIGN is the unit of alignment: DESIGN CHOICE (log 70). -/
def copyCheck (x : Ctx) (v : Reg) (stream : Bool) : Option Flt :=
  let l := bits (dword v 2) 23 0
  let src := dword v 0
  let dst := dword v 1
  let unit := if stream then 64 else 8
  if !x.priv && bit (dword v 2) 25 then some (flt .priv src 0 0)
  else if !x.priv && !namesScratch x src && !stream && !namesScratch x dst then some (flt .priv src 0 0)
  else if l = 0 ∨ l % unit ≠ 0 then some (valueFault .align (dw l))
  else if 0x100000 < l then some (valueFault .seglim (dw l))
  else if offOf src % unit ≠ 0 then some (addrFault .align x src false unit)
  else if !stream && offOf dst % 8 != 0 then some (addrFault .align x dst false 8)
  else none
/-- The copy a descriptor gives. -/
def copyOf (id : Nat) (x : Ctx) (v : Reg) (uid su du k : Nat) (stream : Option (Nat × Nat)) : Copy :=
  { uid := uid, ctx := id, part := x.part, sup := x.sup, pc := x.pc, src := su, dst := du, dstSeg := dword v 1, len := bits (dword v 2) 23 0
    msg := bit (dword v 2) 24, tags := bit (dword v 2) 25, user := dword v 3, k := k, stream := stream, next := 0, flying := 0
    unreported := 0, held := none, cancelled := false, ended := false, checking := true }
/-- A tile's copies replaced, the ones waiting for room included. -/
def setCopies (s : State) (t : Nat) (f : List Copy → List Copy) : State := { s with copies := FMap.set [] s.copies t (f (FMap.get [] s.copies t)) }
/-- A copy at a tile, one whose lines are still to be reported included. -/
def copyAt (s : State) (t uid : Nat) : Option Copy := (FMap.get [] s.copies t).find? fun c => c.uid == uid && !c.checking
/-- A copy changed. -/
def updCopy (s : State) (t uid : Nat) (f : Copy → Copy) : State := setCopies s t fun l => l.map fun c => if c.uid = uid then f c else c
/-- The copies that are neither outstanding nor have a line on its way or a landing to report are gone (R331, R335). -/
def dropDone (s : State) (t : Nat) : State := setCopies s t fun l => l.filter fun c => c.checking || c.live || c.flying != 0 || c.unreported != 0
/-- The check a context's CPY or CPYS at its pc has passed (R330). -/
def checkedCopy (s : State) (id : Nat) (x : Ctx) : Option Copy := (FMap.get [] s.copies x.tile).find? fun c => c.checking && c.ctx == id && c.pc == x.pc
/-- The lowest-numbered FIFO bank bound to no stream (R337). -/
def freeFifo (s : State) (t : Nat) : Option Nat :=
  (List.range 24).find? fun b => bankMode s t b == .fifo && (FMap.get (Fifo.mk none []) s.fifos (24 * t + b)).owner.isNone
/-- Whether a CPYS finds no bank for its stream (R337). -/
def noFifo (s : State) (t : Nat) (stream : Option (Nat × Nat)) : Bool :=
  match stream with | some (o, q) => (fifoOf s t o q).isNone && (freeFifo s t).isNone | none => false
/-- BANKMODE of a CPYS that finds none; its dw2 and dw3 are DESIGN CHOICE (log 19). -/
def noFifoFault : Flt := flt .bankmode 0 0 0
/-- Steps 1 to 3 of R328 up to the check at another tile: the copy, or none where that check must come first. A check that has
passed stands while its CPY waits for room, but a stream's bank is looked for again. -/
def prepareCopy (id : Nat) (x : Ctx) (v : Reg) (k : Nat) (stream : Option (Nat × Nat)) : M (Option Copy) := fun s =>
  match checkedCopy s id x with
  | some c => if noFifo s x.tile stream then .error (.fault noFifoFault) else .ok (some c, s)
  | none => match copyCheck x v stream.isSome with
    | some f => .error (.fault f)
    | none =>
      let l := bits (dword v 2) 23 0
      match copyEnd s x (dword v 0) l rightsR, (if stream.isSome then .ok 0 else copyEnd s x (dword v 1) l rightsW) with
      | .error f, _ => .error (.fault f)
      | _, .error f => .error (.fault f)
      | .ok su, .ok du =>
        let away := fun u => otherTile x.tile (scratchPart u l).1
        let here := fun u => if away u then none else badBank s x.tile u l
        match here su, (if stream.isSome then none else here du) with
        | some f, _ => .error (.fault f)
        | _, some f => .error (.fault f)
        | none, none =>
          let c := copyOf id x v s.uid su du k stream
          let s' := { s with uid := s.uid + 1 }
          if noFifo s x.tile stream then .error (.fault noFifoFault)
          else if away su || (stream.isNone && away du) then
            let t := within (setCopies s' x.tile (· ++ [{ c with checking := true, cancelled := true }])) 256 (.remoteBankCheck id)
            .ok (none, updCtx t id fun y => { y with hold := some .bankCheck, pc := x.pc, resume := x.resume, longs := x.longs, cb := x.cb })
          else .ok (some c, setCopies s' x.tile (· ++ [c]))
/-- Whether the engine has room (R328 step 4). -/
def copyRoom (s : State) (x : Ctx) (c : Copy) : Bool :=
  decide ((copiesOf s x.tile).length < 256) && (c.stream.isSome || decide (countOf s (x.tile * 256 + c.k) + c.len ≤ 0xFFFFFF))
/-- The mb charge of a copy (R75, R339). -/
def copyTraffic (x : Ctx) (c : Copy) : Nat :=
  let own := fun u => match regionOf u with | .scratch t _ => t == x.tile | _ => false
  if own c.src && (c.stream.isSome || own c.dst) then 0 else c.len
/-- The copy handed to the engine (R340): its count, its owed bytes, its stream's bank; its first line waits for the issuer's
earlier accesses (R239, `mustWait`). -/
def launchCopy (s : State) (id : Nat) (x : Ctx) (c : Copy) : State :=
  let s := setCopies s x.tile fun l => l.map fun e => if e.uid = c.uid then { c with checking := false, cancelled := false } else e
  let b := x.tile * 256 + c.k
  let s := match c.stream with
    | some (o, q) => match fifoOf s x.tile o q, freeFifo s x.tile with
      | none, some f => { s with fifos := FMap.set (Fifo.mk none []) s.fifos (24 * x.tile + f) ⟨some (o, q), []⟩ }
      | _, _ => s
    | none => { s with barriers := FMap.set 0 s.barriers b (countOf s b + c.len)
                       owed := FMap.set 0 s.owed (owedKey id b) (FMap.get 0 s.owed (owedKey id b) + c.len) }
  later s (.copyLineMove x.tile c.uid)
/-- CPY and CPYS (R340). -/
def copyBody (v : Reg) (k : Nat) (stream : Option (Nat × Nat)) (id : Nat) (x : Ctx) : M Unit := do
  match ← prepareCopy id x v k stream with
  | none => pure ()
  | some c =>
    let s ← get
    if copyRoom s x c then
      charge id 1 (copyTraffic x c)
      upd (launchCopy · id x c)
    else
      let arg := match c.stream with | some (_, q) => 132 + q | none => c.k
      upd fun s => updCtx (parkCtx s id ⟨.room, s.cyc, some (bits x.fel 31 0), arg, c.len, x.pc, false⟩) id (fun y => { y with pc := x.pc, resume := x.resume, longs := x.longs, cb := x.cb })
def execCpy (k : BitVec 4) (a : RegNo) (s : State) :=
  run (.cpy k a) (fun id x => copyBody (x.reg a.toNat) (16 * x.group + k.toNat) none id x) s
def execCpys (d a : RegNo) (s : State) :=
  run (.cpys d a) (fun id x => copyBody (x.reg a.toNat) 0 (some (id, d.toNat - 132)) id x) s
/-- REMOTE_BANK_CHECK: the modes are read at the other tile, and the issuer goes on or faults (R328, R330). -/
def execRemoteBankCheck (id : Nat) (s : State) : Host.Outcome State Fault Refusal :=
  match ctxOf s id with
  | none => .next s
  | some x =>
    let s := updCtx s id fun y => { y with hold := none, after := s.cyc + 1 }
    match checkedCopy s id x with
    | none => .next (trySave s id)
    | some c =>
      let far := fun u => if otherTile x.tile (scratchPart u c.len).1 then badBank s x.tile u c.len else none
      match far c.src, (if c.stream.isSome then none else far c.dst) with
      | some f, _ => .next (takeFault s id x.pc 9 (bitOf c.stream.isSome) f)
      | _, some f => .next (takeFault s id x.pc 9 (bitOf c.stream.isSome) f)
      | none, none => .next (trySave (setCopies s x.tile fun l => l.map fun e => if e.uid = c.uid then { e with cancelled := false } else e) id)

-- Barriers (R341 to R343)

def execBinit (k : BitVec 4) (a : RegNo) (s : State) :=
  run (.binit k a) (fun id x => do
    charge id 1 0
    upd fun s => { s with barriers := FMap.set 0 s.barriers (barrierOf x k.toNat) (x.lane0 a % 2 ^ 24)
                          owed := s.owed.filter fun e => e.1 % 32768 != barrierOf x k.toNat }) s
def execBwait (k : BitVec 4) (limit : Dword) (s : State) :=
  run (.bwait k limit) (fun id x => do
    charge id 1 0
    let t ← get
    if countOf t (barrierOf x k.toNat) = 0 then pure ()
    else parkAfter .bwait (some limit.toNat) (16 * x.group + k.toNat) id x) s
def execBpend (d : RegNo) (k : BitVec 4) (s : State) :=
  run (.bpend d k) (fun id x => do
    charge id 1 0
    let t ← get
    let b := 16 * x.group + k.toNat
    let mine := (copiesOf t x.tile).any fun c => c.ctx == id && c.stream.isNone && c.k == b
    swrite id d (dw (countOf t (x.tile * 256 + b) + b * 2 ^ 24 + bitOf mine * 2 ^ 32))) s
/-- R344: cancelled copies begin no further line; the issuer is held until the lines begun have landed, within 256 cycles, so
that those lines land by then. -/
def execCpyq (d : RegNo) (s : State) :=
  run (.cpyq d) (fun id x => do
    charge id 1 0
    let t ← get
    let n := ((copiesOf t x.tile).filter fun c => c.ctx == id).length
    updSelf id fun y => { y with hold := some .cpyq, holdD := d }
    upd fun s =>
      let mine := fun (u : Nat) => (copiesOf s x.tile).any fun c => c.ctx == id && c.uid == u
      withinBehind (setCopies s x.tile fun l => l.map fun c => if c.live && c.ctx == id then { c with cancelled := true, held := none } else c) 256
        (fun i => match i with | .copyLineLand t u _ _ => t == x.tile && mine u | _ => false) (.cpyqComplete id n)) s
/-- CPYQ_COMPLETE: once no line of the cancelled copies is on its way, the count is written (R344). -/
def execCpyqComplete (id n : Nat) (s : State) : Host.Outcome State Fault Refusal :=
  match ctxOf s id with
  | none => .next s
  | some x =>
    if (FMap.get [] s.copies x.tile).any fun c => c.ctx == id && !c.checking && c.cancelled && c.flying != 0 then .next (soon s (.cpyqComplete id n))
    else
      let s := releaseStreams (dropDone s x.tile) x.tile id
      .next (trySave (putReg (updCtx s id fun y => { y with hold := none, after := s.cyc + 1 }) id x.holdD (withScalar · (dw n))) id)

-- The engine (R331 to R335)

/-- A copy that PROT or an uncorrectable error ends at the line that holds an address (R332): its lines on their way do not land,
those landed are still reported, its supervisor hears, and the issuer is not stopped. -/
def failCopy (s : State) (t uid : Nat) (c : Copy) (code : Code) (u dw3 : Nat) : State :=
  let s := releaseStreams (dropDone (updCopy s t uid fun e => { e with ended := true, flying := 0 }) t) t c.ctx
  sendFault s c.ctx (ctxFor s c.ctx c.part t c.sup) c.pc 9 (bitOf c.stream.isSome) ⟨code, dw (u / 64 * 64), dw dw3, c.user, 0⟩
/-- The bytes that a copy moves with its next line: those of the words that begin in the source line, or, for a stream, an element of 64;
where the source segment's base is no multiple of 8, or of 64, the last of them lies in the line behind: DESIGN CHOICE (log 94). -/
def lineBytes (c : Copy) : Nat :=
  Nat.min (if c.stream.isSome then 64 else (71 - (c.src + c.next) % 64) / 8 * 8) (c.len - c.next)
/-- The spots of n bytes of a copy's source from an address on, in its line and in the line behind where they reach it, or what stops
them there. -/
def sourceSpots (s : State) (part t u n : Nat) : Except (Nat × Mapped) (Spot × Spot × State) :=
  match engineSpot s part t u rightsR with
  | .spot p s1 =>
    if u % 64 + n ≤ 64 then .ok (p, p, s1)
    else match engineSpot s1 part t (u / 64 * 64 + 64) rightsR with
      | .spot q s2 => .ok (p, q, s2)
      | m => .error (u / 64 * 64 + 64, m)
  | m => .error (u, m)
/-- Word i of those bytes, off the address's place in its line. -/
def sourceWord (s : State) (p q : Spot) (off i : Nat) : Dword :=
  if off + 8 * i + 8 ≤ 64 then readDw s (p.place + 8 * i)
  else dw (ofBytesLE ((List.range 8).map fun j => let k := off + 8 * i + j; if k < 64 then readByte s (p.place + 8 * i + j) else readByte s (q.place + (k - 64))))
/-- COPY_LINE_MOVE: the next source line is translated and read, and its words sent (R331, R332). -/
def execCopyLineMove (t uid : Nat) (s : State) : Host.Outcome State Fault Refusal :=
  match copyAt s t uid with
  | none => .next s
  | some c =>
    if !c.live || c.held.isSome || decide (c.len ≤ c.next) then .next s
    else
      let u := c.src + c.next
      let n := lineBytes c
      match sourceSpots s c.part t u n with
      | .error (v, .absent _) => .next (engineRequest (updCopy s t uid fun e => { e with held := some v }) c.part t v false false)
      | .error (v, .now f) => .next (failCopy s t uid c .prot v (f.dw3.toNat * 2 + 1))
      | .error (v, .prot f) => .next (failCopy s t uid c .prot v (f.dw3.toNat + 1))
      | .error (_, .spot _ _) => .next s
      | .ok (p, q2, s1) =>
        if errIn s1 p.place (Nat.min n (64 - u % 64)) then .next (failCopy s1 t uid c .memerr u 1)
        else if decide (64 < u % 64 + n) && errIn s1 q2.place (u % 64 + n - 64) then .next (failCopy s1 t uid c .memerr (u + n - 1) 1)
        else
          let ends := if c.stream.isSome then [] else [c.dst + c.next, c.dst + c.next + n - 8]
          match ends.findSome? fun v => match engineSpot s1 c.part t v rightsW with
            | .absent tr => some (v, true, tr, 0)
            | .now f => some (v, false, false, f.dw3.toNat * 2 + 1)
            | .prot f => some (v, false, false, f.dw3.toNat + 1)
            | .spot _ _ => none with
          | some (v, true, tr, _) => .next (engineRequest (updCopy s1 t uid fun e => { e with held := some v }) c.part t v true tr)
          | some (v, false, _, b) => .next (failCopy s1 t uid c .prot v b)
          | none =>
            let words := (List.range (n / 8)).map fun i =>
              let q : Spot := if c.stream.isSome then ⟨placeOf t 0, t, false, false⟩ else
                match engineSpot s1 c.part t (c.dst + c.next + 8 * i) rightsW with | .spot q _ => q | _ => ⟨placeOf t 0, t, false, false⟩
              CopyWord.mk q.place q.home (sourceWord s1 p q2 (u % 64) i) (if c.tags then tagAt s1 (if u % 64 + 8 * i < 64 then p.place + 8 * i else q2.place + (u % 64 + 8 * i - 64)) else true) q.watched t s1.uid
            let after := if c.stream.isSome then s1.agenda.foldl (fun m d => match d.step with
              | .copyLineLand t' uid' _ _ => match copyAt s1 t' uid' with | some e => if t' = t ∧ e.stream = c.stream then Nat.max m d.at_ else m | none => m
              | _ => m) 0 else 0
            let s2 := laterFrom (updCopy s1 t uid fun e => { e with next := e.next + n, flying := e.flying + 1 }) after (.copyLineLand t uid c.next words)
            .next (if c.next + n < c.len then later s2 (.copyLineMove t uid) else s2)
/-- COPY_LINE_LAND: the words of a line land together at the destination, each as one step, or an element enters its stream's queue
(R331, R337, R239). That no other step comes between two words of one line, nor between the reads of two of its source words, is
DESIGN CHOICE (log 71). -/
def execCopyLineLand (t uid line : Nat) (words : List CopyWord) (s : State) : Host.Outcome State Fault Refusal :=
  match copyAt s t uid with
  | none => .next s
  | some c =>
    if c.ended then .next s
    else match c.stream with
    | some (o, q) => match fifoOf s t o q with
      | none => .next (updCopy s t uid fun e => { e with flying := e.flying - 1 })
      | some b =>
        let f := FMap.get (Fifo.mk none []) s.fifos (24 * t + b)
        let s := { s with fifos := FMap.set (Fifo.mk none []) s.fifos (24 * t + b) { f with elems := f.elems ++ [ofDwords (words.map (·.value))] } }
        .next (now (updCopy s t uid fun e => { e with flying := e.flying - 1, unreported := e.unreported + words.length })
          (.copyLandingReport t uid ⟨line, words.length, t⟩))
    | none =>
      let s := words.foldl engineWord s
      let s := invalidateLines (words.foldl (fun s w => heardWrite s w.place 8) s) c.part words
      let s := updCopy s t uid fun e => { e with flying := e.flying - 1, unreported := e.unreported + words.length }
      let from_ := match words with | w :: _ => portOfPlace w.place | [] => t
      let report := Instr.copyLandingReport t uid ⟨c.dst + line, words.length, from_⟩
      .next (if from_ = t then now s report else laterFrom s (invalidatesDue s t) report)
/-- A barrier's count lowered, never below zero (R335). -/
def lower (s : State) (id b n : Nat) : State :=
  { s with barriers := FMap.set 0 s.barriers b (countOf s b - n)
           owed := FMap.set 0 s.owed (owedKey id b) (FMap.get 0 s.owed (owedKey id b) - n) }
/-- The completion message of R340. -/
def copyMessage (c : Copy) : List Dword :=
  [0x400, dw (c.ctx + (if c.stream.isSome then 0xFF else c.k % 16) * 2 ^ 32), match c.stream with | some (_, q) => dw (132 + q) | none => c.dstSeg,
    dw c.len, c.user, c.pc]
/-- COPY_LANDING_REPORT: the count is lowered, and behind the last byte the copy is done, with its message (R335, R340). -/
def execCopyLandingReport (t uid : Nat) (r : Landed) (s : State) : Host.Outcome State Fault Refusal :=
  match copyAt s t uid with
  | none => .next s
  | some c =>
    let s := if c.stream.isSome then s else lower s c.ctx (t * 256 + c.k) (8 * r.words)
    let s := updCopy s t uid fun e => { e with unreported := e.unreported - r.words }
    let last := !c.cancelled && !c.ended && decide (c.len ≤ c.next) && c.flying == 0 && c.unreported == r.words
    let s := releaseStreams (dropDone s t) t c.ctx
    .next (if last && c.msg then notify s t c.ctx (copyMessage c) else s)

end Sys2Proof.Machine
end

