-- ==== Sys2Proof/Machine/Ports.lean ====
section
/-! DEFINITION. The omega ports of devices: their accesses through firewall windows (R453), Ethernet receive, bounce rings
and their replay (R426, R460 to R463). -/

namespace Sys2Proof.Machine

-- Accesses of a port (R453, R178)

/-- Where a word of a port's access lies: paged memory only through the port's windows (R453), scratch where its bank is in
scratch mode. -/
def portSpot (s : State) (port u : Nat) (r : Rights) : Option Spot :=
  match regionOf u with
  | .scratch t off => if bankMode s t (off / 0x10000) = .scratch ∧ !underRepair s t then some ⟨placeOf t off, t, false, false⟩ else none
  | .paged => match windowFor s port u with
    | none => none
    | some (n, w) =>
      let tb : Tables := ⟨bits w 59 58, some (port, n), some w⟩
      match walk s u levels 0 (bits (partReg s tb.part 0) 47 12 * 4096) with
      | .leaf e => if leafFault tb r e u = 0 && !(r.w && bit e 54) then some ⟨leafPa e u, homeOf s tb.part (leafPa e u), bit e 55, true⟩ else none
      | _ => none
  | _ => none
/-- The spots of n words from an address on. -/
def portSpots (s : State) (port u n : Nat) (r : Rights) : Option (List Spot) := (List.range n).mapM fun i => portSpot s port (u + 8 * i) r
/-- The first bytes of a word replaced. -/
def lowBytes (old : Dword) (bs : List Byte) : Dword := dw (ofBytesLE bs + old.toNat / 256 ^ bs.length * 256 ^ bs.length)
/-- A word of an engine's write at its spot, for a port and a partition: its first bytes replaced, its tag
full, the home's copy dropped and a spill ring's refused packets tried again (R174, R178, R306). -/
def putAt (s : State) (port part : Nat) (q : Spot) (bs : List Byte) : State :=
  let w := q.word port s.uid 0 (lowBytes (readDw s q.place) bs)
  heardWrite (invalidateLines (engineWord s w) part [w]) q.place 8
/-- A port's write of bytes at an aligned address; none where one of its words is refused. -/
def portPut (s : State) (port u : Nat) (bs : List Byte) : Option State :=
  let n := (bs.length + 7) / 8
  (portSpots s port u n rightsW).map fun sp =>
    sp.zipIdx.foldl (fun s q => putAt s port (portPart s port u) q.1 ((bs.drop (8 * q.2)).take 8)) s
/-- A port's read of bytes; none where one of its words is refused or erroneous. -/
def portGet (s : State) (port u n : Nat) : Option (List Byte) :=
  match portSpots s port (u / 8 * 8) ((u % 8 + n + 7) / 8) rightsR with
  | none => none
  | some sp =>
    if sp.any fun p => errAt s p.place then none
    else some (((sp.flatMap fun p => readBytes s p.place 8).drop (u % 8)).take n)
/-- A port's read of one doubleword. -/
def portDw (s : State) (port u : Nat) : Option Dword := (portGet s port u 8).map fun b => dw (ofBytesLE b)
/-- The bytes of doublewords. -/
def dwBytes (ds : List Dword) : List Byte := ds.flatMap fun d => bytesLE 8 d.toNat

-- Ethernet (R460 to R462)

/-- Doubleword w of entry e of a port's translation table, and of its registers (R461). -/
def ethEntry (s : State) (port e w : Nat) : Dword := FMap.get 0 s.ethTable (8 * (256 * port + e) + w)
def ethReg (s : State) (port w : Nat) : Dword := FMap.get 0 s.ethPorts (8 * port + w)
def setEthReg (s : State) (port w : Nat) (v : Dword) : State := { s with ethPorts := FMap.set 0 s.ethPorts (8 * port + w) v }
/-- A frame dropped and counted (R460 to R462). -/
def dropFrame (s : State) (port : Nat) : State := setEthReg s port 5 (ethReg s port 5 + 1)
/-- The message of a receive (R462). -/
def receiveMessage (len dest : Nat) (user : Dword) : List Dword := [0x700, dw len, dw dest, user]
/-- A receive for a context that is not Resident: written to the entry's bounce ring, or dropped where that is full or
refused (R426). -/
def bounce (s : State) (port e : Nat) (payload : List Byte) : State :=
  let h := bits (ethEntry s port e 4) 55 0
  let c := bits (ethEntry s port e 5) 31 0
  match portDw s (208 + port) h, portDw s (208 + port) (h + 8) with
  | some head, some tail =>
    if c ≤ (tail - head).toNat then dropFrame s port
    else
      let r := h + 64 + 10304 * (tail.toNat % c)
      let rec_ := dwBytes [0x600, dw (bits (ethEntry s port e 1) 31 0), dw (bits (ethEntry s port e 0) 55 0), dw payload.length, ethEntry s port e 3, dw s.cyc, 0, 0]
      match portPut s (208 + port) r (rec_ ++ payload) with
      | none => dropFrame s port
      | some s1 => match portPut s1 (208 + port) (h + 8) (bytesLE 8 (tail + 1).toNat) with
        | none => dropFrame s port
        | some s2 => s2
  | _, _ => dropFrame s port
/-- Whether a context is Resident (R48). -/
def isResident (s : State) (id : Nat) : Bool := match ctxOf s id with | some x => x.state == .resident | none => false
/-- A frame steered, written and told, bounced or dropped (R460 to R462); the last four bytes are its FCS. -/
def receiveFrame (s : State) (port : Nat) (frame : List Byte) : State :=
  let payload := frame.take (frame.length - 4)
  let steer := bits (ethReg s port 0) 13 0
  if !Config.fcsGood frame || decide (10240 < payload.length) || decide (payload.length < steer + 1) then dropFrame s port
  else
    let e := (payload.getD steer 0).toNat
    let dest := bits (ethEntry s port e 0) 55 0
    let id := bits (ethEntry s port e 1) 31 0
    if !bit (ethEntry s port e 0) 63 || decide (bits (ethEntry s port e 2) 13 0 < payload.length) then dropFrame s port
    else if isResident s id then
      match portPut s (208 + port) dest payload with
      | some s1 => notify s1 (208 + port) id (receiveMessage payload.length dest (ethEntry s port e 3))
      | none => dropFrame s port
    else bounce s port e payload

-- Replay of bounced receives (R426)

/-- The addresses of the lines that n bytes at an address lie in. -/
def linesOfRange (u n : Nat) : List Nat := (List.range ((u % 64 + n + 63) / 64)).map fun i => u / 64 * 64 + 64 * i

/-- A word of a copy engine's access, or none where it cannot be made. -/
def tileWordSpot (s : State) (x : Ctx) (u : Nat) (r : Rights) : Option Spot :=
  match engineSpot s x.part x.tile u r with | .spot p _ => some p | _ => none
def tileDw (s : State) (x : Ctx) (u : Nat) : Option Dword := (tileWordSpot s x u rightsR).map fun p => readDw s p.place
/-- A record of a bounce ring that waits for its replay: where, destination, length and user word. -/
structure Bounced where
  at_ : Nat
  dest : Nat
  len : Nat
  user : Dword
  deriving DecidableEq, Repr
/-- The records of a context in the ring of an entry that have not been replayed, oldest first. -/
def bouncedIn (s : State) (id : Nat) (x : Ctx) (h c : Nat) : List Bounced :=
  match tileDw s x h, tileDw s x (h + 8) with
  | some head, some tail => (List.range (Nat.min (tail - head).toNat c)).filterMap fun i =>
    let r := h + 64 + 10304 * ((head.toNat + i) % c)
    match tileDw s x r, tileDw s x (r + 8), tileDw s x (r + 16), tileDw s x (r + 24), tileDw s x (r + 32) with
    | some t, some w, some d, some l, some u =>
      if t = 0x600 ∧ bits w 31 0 = id ∧ !bit w 32 ∧ (match engineSpot s x.part x.tile (r + 8) rightsW with | .spot _ _ => true | .absent _ => true | _ => false) = true then some ⟨r, bits d 55 0, Nat.min l.toNat 10240, u⟩ else none
    | _, _, _, _, _ => none
  | _, _ => []
/-- The bounced receives of a context that wait for it to be Resident, by port and entry, each once though two entries name
its ring. -/
def bouncedFor (s : State) (id : Nat) (x : Ctx) : List Bounced :=
  if s.ethTable.isEmpty then []
  else ((List.range 512).flatMap fun e =>
    if bits (ethEntry s 0 e 1) 31 0 = id ∧ bits (ethEntry s 0 e 5) 31 0 ≠ 0 then
      bouncedIn s id x (bits (ethEntry s 0 e 4) 55 0) (bits (ethEntry s 0 e 5) 31 0)
    else []).eraseDups
/-- One record replayed: payload, replayed bit and message (R426). -/
def replayOne (id : Nat) (x : Ctx) (s : State) (b : Bounced) : State :=
  let n := (b.len + 7) / 8
  let s := (List.range n).foldl (fun s i => match tileWordSpot s x (b.at_ + 64 + 8 * i) rightsR, tileWordSpot s x (b.dest + 8 * i) rightsW with
    | some p, some q => putAt s x.tile x.part q (readBytes s p.place (Nat.min 8 (b.len - 8 * i)))
    | _, _ => s) s
  match tileWordSpot s x (b.at_ + 8) rightsW with
  | some p => notify (putAt s x.tile x.part p (bytesLE 8 (readDw s p.place ||| dw (2 ^ 32)).toNat)) x.tile id (receiveMessage b.len b.dest b.user)
  | none => s
/-- A context's bounced receives replayed before its first issue (R426). -/
def replayBounced (s : State) (id : Nat) : State :=
  match ctxOf s id with
  | none => s
  | some x => (bouncedFor s id x).foldl (replayOne id x) s
/-- The lines that a context's replay reads and writes, by their addresses. -/
def replayLines (b : Bounced) : List (Nat × Rights) :=
  (b.at_ + 8, rightsW) :: (linesOfRange (b.at_ + 64) b.len).map (·, rightsR) ++ (linesOfRange b.dest b.len).map (·, rightsW)
/-- What comes before a context's first issue where receives for it have bounced: their replay, or the context's park on a page of the
replay that is not present: DESIGN CHOICE (log 97). -/
def replayMove (s : State) (id : Nat) (x : Ctx) : Option State :=
  match bouncedFor s id x with
  | [] => none
  | l => some (match (l.flatMap replayLines).findSome? fun p => match engineSpot s x.part x.tile p.1 p.2 with
      | .absent tr => some (p.1, p.2.w, tr)
      | _ => none with
    | some (u, w, tr) => pagePark s id x u w tr
    | none => replayBounced s id)
/-- Whether a context's replay waits for a day, for a walk or for a line's DRAM command (R33). -/
def replayWaits (s : State) (id : Nat) (x : Ctx) : Bool :=
  ((bouncedFor s id x).flatMap replayLines).any fun p => regionOf p.1 == .paged && (walkWaits s false x.part (16 * x.tile) p.1
    || (match engineSpot s x.part x.tile p.1 p.2 with | .spot q _ => dramWait s q.place x.part | _ => false))

end Sys2Proof.Machine
end

