-- ==== Sys2Proof/Machine/Life.lean ====
section
/-! DEFINITION. Contexts between slots, cores, tiles and the Kennel (R48, R61 to R67, R71), what stops them (R59, R85, R411,
R423, R424), the tile dispatcher (R362, R363), and soft errors (R425). -/

namespace Sys2Proof.Machine

-- At issue (R134, R406, R71, R411, R59)

/-- The page and OP of the chain at a context's pc (R412). -/
def pageOpAt (s : State) (id : Nat) (x : Ctx) : Nat × Nat :=
  match fetchChain s id x with
  | .instr i _ _ => pageOp i
  | .illegal e _ _ => (e.page, e.op)
  | .stop _ ws _ => reached ws
/-- ILLEGAL_CHAIN: the chain at the pc is no legal instruction, or its fetch meets a fault or a park; nothing is charged
(R134, R117). -/
def execIllegalChain (s : State) : Host.Outcome State Fault Refusal :=
  forIssuer (fun id x s =>
    let note := fun (t : State) => updCtx t id fun y => { y with last := t.cyc, gap := 16 }
    match fetchChain s id x with
    | .instr i ws t => (match issueCheck i x with
      | some e => chainFault (note { t with issue := ⟨some id, ws⟩ }) id e
      | none => s)
    | .illegal e ws t => chainFault (note { t with issue := ⟨some id, ws⟩ }) id e
    | .stop k ws t => fetchTrap (note t) id x k ws) s
/-- CANDIDATE_BUDGET_REJECT (R406). -/
def execCandidateBudgetReject (s : State) : Host.Outcome State Fault Refusal :=
  forIssuer (fun id x s =>
    if cbArmed x && bits x.cb 31 16 == 0 then
      let g := match decodeHalves s.issue.words with | .ok (i, _) => gapOf i | _ => 16
      rejectCandidates (updCtx s id fun y => { y with last := s.cyc, gap := g }) id
    else s) s
/-- EQUIPPED_CORE_MOVE (R71): the move begins, or the park where no equipped core has room. -/
def execEquippedCoreMove (s : State) : Host.Outcome State Fault Refusal := forIssuer (fun id _ s => equipMove s id) s
/-- REQUESTED_STOP (R411, R441): Stopped where it would next issue, and swapped out where that was asked. -/
def execRequestedStop (s : State) : Host.Outcome State Fault Refusal :=
  forIssuer (fun id x s =>
    if x.stopReq then
      let t := dropChecks (updCtx s id fun y => { y with state := .stopped, stopReq := false, outReq := false }) id
      if x.outReq then leave t id .swapOut else t
    else s) s
/-- KEPT_FAULT_STOP (R59): the oldest kept fault takes effect; the context would have issued at its pc. -/
def execKeptFaultStop (s : State) : Host.Outcome State Fault Refusal :=
  forIssuer (fun id x s =>
    match x.kept with
    | [] => s
    | k :: t => takeFault (setCtx s id { x with kept := t, pc := k.pc }) id k.pc k.page k.op { k.flt with dw5 := x.pc ||| 1 }) s

-- Limits (R85, R423)

/-- The register whose queue a context parked on queues still waits for: the first in the order of R122, DEDUCED (log 96). -/
def firstLack (s : State) (id : Nat) (x : Ctx) (p : Park) : Nat := match lackOf s id x with | some q => q.1.toNat | none => p.arg
/-- The fault a park's expiry raises (R85, R347, R413); none for WAITM and for the waits without a limit. -/
def expiryFault (s : State) (id : Nat) (x : Ctx) (p : Park) (op : Nat) : Option Flt :=
  match p.kind with
  | .nq => some ⟨.nqwait, dw (firstLack s id x p), 0, dw p.c0, 0⟩
  | .stream => some ⟨.nqwait, dw (firstLack s id x p), 0, dw p.c0, 0⟩
  | .bwait => some ⟨.bwait, dw p.arg, dw (countOf s (x.tile * 256 + p.arg)), dw p.c0, 0⟩
  | .drain => some ⟨.bwait, dw p.arg, dw (2 ^ 24), dw p.c0, 0⟩
  | .room =>
    if op = 1 then some ⟨.bwait, dw p.arg, dw (2 ^ 25), dw p.c0, 0⟩
    else some ⟨.bwait, dw p.arg, dw (countOf s (x.tile * 256 + p.arg) + 2 ^ 25), dw p.c0, 0⟩
  | .chwait => some (chwaitFault x.tile p.arg (blockAt s x.tile p.arg))
  | .equip => some ⟨.noequip, dw p.c0, 0, 0, 0⟩
  | .store => some ⟨.nqwait, dw 0x100, 0, dw p.c0, 0⟩
  | .repair => some ⟨.prot, dw p.arg, 32, 0, 0⟩
  | .waitm | .fe | .qwait | .page | .mma => none
/-- Whether a limit above 0 that counts from a cycle has passed: in the cycle after its last (R85). -/
def limitPassed (s : State) (l c0 : Nat) : Bool := decide (0 < l) && decide (c0 + l < s.cyc)
/-- The first outstanding instruction that has waited for room in its port's queue to its limit, whether or not its context is
parked for it (R85, R122): with `zero` one whose limit is 0, which ends in its cycle. fel is the context's present one: DESIGN CHOICE
(log 80). -/
def portExpired (s : State) (x : Ctx) (zero : Bool) : Option (Long × Nat) :=
  x.longs.findSome? fun l => match l.parked with
    | some (.nq, c0) => if (if zero then bits x.fel 31 0 == 0 else limitPassed s (bits x.fel 31 0) c0) && !l.ended && l.fault.isNone then some (l, c0) else none
    | _ => none
/-- Whether a park with a limit above 0 has expired: the cycle after its last (R85). The waits at a home end there (R181). -/
def expired (s : State) (p : Park) : Bool :=
  match p.limit with
  | none => false
  | some l => p.ofLong.isNone && limitPassed s l p.c0
/-- Whether a park with limit 0 ends in its cycle (R85). -/
def expiresNow (p : Park) : Bool := p.limit == some 0 && p.ofLong.isNone
/-- A fault that ends a park: precise at the instruction that parked, which runs again from there (R85, R413); it is kept
where the context stops for an earlier instruction's (R59). A context that is being swapped out is then saved (R420). -/
def parkFault (s : State) (id : Nat) (x : Ctx) (p : Park) : State :=
  let y := if x.waits then { x with pc := p.pc, resume := dw p.arg2 } else if p.charged && p.pc == x.pc then x.uncounted else x
  let po := pageOpAt s id y
  match expiryFault s id y p po.2 with
  | some f =>
    if x.waits && x.longs.any (·.ended) then settleLate (endPark (keepFault s id ⟨p.pc, po.1, po.2, f⟩) id false) id
    else trySave (takeFault (setCtx s id y) id y.pc po.1 po.2 f) id
  | none => s
/-- Whether a reservation that a parked CHWAIT waits for has ended, which faults it (R321). -/
def lostBlock (s : State) (x : Ctx) (p : Park) : Bool := p.kind == .chwait && !(blockAt s x.tile p.arg).reserved
/-- What ends a park once its context's image is in a core or the Kennel: the event it waited for, or its limit (R85). -/
def settlePark (s : State) (id : Nat) (x : Ctx) (p : Park) (event : Bool) : State :=
  match p.kind, event with
  | .waitm, true => settleLate (endPark (takeMail s id (BitVec.ofNat 8 p.arg)) id false) id
  | .waitm, false => settleLate (endPark (putReg s id (BitVec.ofNat 8 p.arg) fun _ => 0) id false) id
  | .mma, false => match x.kept.getLast? with
    | some k => stopAtCmd (setCtx s id { x with kept := x.kept.dropLast }) id k
    | none => s
  | _, false => parkFault s id x p
  | _, true => settleLate (endPark s id false) id
/-- Whether the end of a park reads or writes its context's image: that of a WAITM, and one that stops its context. -/
def endsInImage (s : State) (x : Ctx) (p : Park) (event : Bool) : Bool := !event || p.kind == .waitm || lostBlock s x p
/-- A park has ended by its event or its limit: at once, or, where its context's image cannot be read yet, in effect once it can be
(R65, R85). -/
def decidePark (s : State) (id : Nat) (x : Ctx) (p : Park) (event : Bool) : State :=
  if endsInImage s x p event && !imageDay s id x then setCtx s id { x with decided := some event }
  else if endsInImage s x p event then
    let s := readBack s id
    restImage (settlePark s id ((ctxOf s id).getD x) p event) id
  else settlePark s id x p event
/-- What has been decided takes effect: the end of a park, a fault that has waited, a retirement. -/
def takeDecided (s : State) (id : Nat) (event : Bool) : State :=
  let s := readBack s id
  match ctxOf s id with
  | none => s
  | some x =>
    let y := { x with decided := none }
    let t := match x.park with | some p => settlePark (setCtx s id y) id y p event | none => settleLate (setCtx s id y) id
    restImage (if x.retireReq then retire t id false else t) id
/-- What a parked context waits for has come: a charged instruction ends, another is issued again, and an outstanding one that
waited for room in its port's queue completes (R55, R85, R122). -/
def finishPark (s : State) (id : Nat) : State :=
  match ctxOf s id with
  | none => s
  | some x => match x.decided, portReady s x, x.park with
    | some b, _, _ => takeDecided s id b
    | none, some l, _ => completeLong s id l
    | none, none, none => s
    | none, none, some p => match p.kind with
      | .waitm | .bwait => decidePark s id x p true
      | .chwait => decidePark s id x p (!lostBlock s x p)
      | .store => match freeSend s x.tile with
        | some e => settleLate (endPark (sendSum s id x p.pc e (p.arg % 64) (BitVec.ofNat 21 (p.arg / 64))) id false) id
        | none => s
      | .nq | .stream | .equip | .room | .repair | .drain | .fe | .qwait | .page | .mma => endPark s id true
/-- PARK_EXPIRY (R85). -/
def execParkExpiry (s : State) : Host.Outcome State Fault Refusal :=
  forIssuer (fun id x s =>
    match (if (portExpired s x false).isSome then portExpired s x false else portExpired s x true), x.park with
    | some (l, c0), _ =>
      let f : Flt := ⟨.nqwait, dw l.d.toNat, 0, dw c0, 0⟩
      if imageDay s id x then reportLate s id l f else failLong s id l.seq f
    | none, none => s
    | none, some p => decidePark s id x p false) s
/-- The watchdog limit in force for a context, in cycles (R422). -/
def wdogLimit (s : State) (x : Ctx) : Nat := (if x.wdog = 0 then bits (partReg s x.part 1) 31 0 else x.wdog) * 1024
/-- The WDOG message of R423; its dw1 and budgets are those when it is sent. -/
def wdogMessage (s : State) (id : Nat) (x : Ctx) : Reg := ofDwords [faultDw0 id 0 0 .wdog, x.pc, dw x.wcount, 0, dw (wdogLimit s x)]
/-- Whether a context's watchdog has reached its limit and has not been acted on (R422, R423). -/
def wdogDue (s : State) (x : Ctx) : Bool :=
  decide (wdogLimit s x ≤ x.wcount) && !x.wdogReq && x.saving.isNone
    && (x.state == .inTransit || (x.state == .resident && !x.halting))
/-- WATCHDOG_EXPIRY (R423): the context leaves the rotation; one that is moving meets it on arrival (R420). -/
def execWatchdogExpiry (s : State) : Host.Outcome State Fault Refusal :=
  forIssuer (fun id x s =>
    if x.moving.isSome then setCtx s id { x with wdogReq := true }
    else leave (setCtx s id { x with stopReq := false, outReq := false }) id (.report (wdogMessage s id x))) s

-- Becoming Resident or Queued (R44, R54, R61, R62)

/-- A context takes a slot of a core: Resident, and ready, from this cycle on (R50, R54). -/
def enterSlot (s : State) (id core slot : Nat) : State :=
  updCtx (kennelDrop (takeSlot s core slot) (core / 16) id) id fun x =>
    { x with state := .resident, tile := core / 16, core := core % 16, slot := slot, moving := none, saving := none, last := (s.cyc : Int) - 64, gap := 16
             wcount := 0, after := s.cyc, wdogReq := false, park := none, inMem := false }
/-- The empty slot that fills next (R62). -/
def nextSlot (s : State) (core : Nat) : Option Nat := ((emptySlots s core).find? fun p => p.1 ≤ s.cyc).map (·.2)
/-- A report: the message of a Held context, with its budgets as they stand (R412, R415, R470). -/
def sendReport (s : State) (id : Nat) (m : Reg) : State :=
  match ctxOf s id with
  | none => s
  | some x =>
    let m := ofDwords [dword m 0, x.pc, dword m 2, dword m 3, dword m 4, dword m 5, x.ib, x.mb]
    match faultTarget s id x.sup.toNat x.part with
    | none => partReset (logFault s [2, dw s.cyc, dword m 0, dword m 1])
    | some d => post s d m (.part x.tile)
/-- A moved context arrives at a core of a tile: Resident where a slot and room allow, else Queued; what waited for its
arrival then takes effect (R48, R66, R67, R420). -/
def arriveAt (s : State) (id core : Nat) : State :=
  match ctxOf s id with
  | none => s
  | some x =>
    if coreHasRoom s core x.window then
      let t := enterSlot s id core ((nextSlot s core).getD 0)
      if x.wdogReq then leave t id (.report (wdogMessage s id x)) else t
    else
      let y := { x with stopReq := false, outReq := false, wdogReq := false, tile := core / 16, core := core % 16, slot := 0, moving := none }
      if x.wdogReq then sendReport (kennelAdd (setCtx s id { y with state := .held }) (core / 16) id) id (wdogMessage s id x)
      else kennelAdd (enqueue (setCtx s id y) id core x.priority) (core / 16) id
/-- CORE_MOVE_ARRIVAL (R66, R71). -/
def execCoreMoveArrival (id core : Nat) (s : State) : Host.Outcome State Fault Refusal :=
  match ctxOf s id with
  | none => .next s
  | some x => .next (if x.moving = some core ∧ x.state ≠ .inTransit then (if x.retireReq then retire s id false else arriveAt s id core) else s)
/-- The contexts queued on a core: in its ready queue or bound for it on the overflow list (R362). -/
def queuedOn (s : State) (core : Nat) : List (Nat × Ctx) :=
  s.ctxs.filter fun p => p.2.state == .queued && p.2.at_ == core && !swapping s p.1
    && ((readyOf s core).any (fun e => e / 4 == p.1) || (overflowList s (core / 16) ++ waitingLinks s (core / 16)).any fun e => e.1 == p.1)
/-- The core of a tile with the fewest queued entries, the lowest-numbered on ties (R67, R362). -/
def shortestQueue (s : State) (t : Nat) : Nat :=
  (List.range 16).foldl (fun b c => if (queuedOn s (16 * t + c)).length < (queuedOn s (16 * t + b)).length then c else b) 0
/-- The core a rover that arrives at a tile goes to (R67). -/
def roverCore (s : State) (t : Nat) : Nat :=
  16 * t + (match (List.range 16).find? fun c => coreHasRoom s (16 * t + c) 24 with | some c => c | none => shortestQueue s t)
/-- MIGRATION_ARRIVAL (R67, R68, R420). -/
def execMigrationArrival (id t : Nat) (s : State) : Host.Outcome State Fault Refusal :=
  match ctxOf s id with
  | none => .next s
  | some x =>
    if x.state = .inTransit ∧ x.moving = some t then
      .next (if x.retireReq then retire s id false else arriveAt (setCtx s id { x with predN := 0 }) id (roverCore s t))
    else .next s

-- Swaps (R62, R63)

/-- The slot that a core fills next and the first queued context that fits (R62); where its image is in memory, it is read on a day
of the partition (R33, R65). A tile of no partition is powered down (R32). -/
def swapChoice (s : State) (core : Nat) : Option (Nat × Nat) :=
  if (swapOf s core).isSome || (partOf s (core / 16)).isNone then none
  else match nextSlot s core with
    | none => none
    | some k => match (readyOf s core).find? fun e => (match ctxOf s (e / 4) with | some x => decide (x.window ≤ freeEntries s core) | none => false) with
      | none => none
      | some e => if (match ctxOf s (e / 4) with | some x => imageDay s (e / 4) x | none => false) then some (k, e / 4) else none
/-- SWAP_START (R62, R435): the context leaves its ready queue and its load begins. -/
def execSwapStart (core : Nat) (s : State) : Host.Outcome State Fault Refusal :=
  match swapChoice s core with
  | none => .next s
  | some (k, id) =>
    let t := readBack (setReady (takeSlot s core k) core ((readyOf s core).filter fun e => e / 4 != id)) id
    .next (within { t with swaps := FMap.set none t.swaps core (some ⟨k, id⟩) } 192 (.swapComplete core))
/-- A context whose image cannot be loaded is lost: its supervisor receives MEMERR (R425). -/
def loseImage (s : State) (id : Nat) : State :=
  match ctxOf s id with
  | none => s
  | some x => retire (sendFault s id x x.pc 0 0 ⟨.memerr, 0, 4, 0, 0⟩) id true
/-- SWAP_COMPLETE (R63): Resident in the slot, or lost where its image cannot be loaded (R425). -/
def execSwapComplete (core : Nat) (s : State) : Host.Outcome State Fault Refusal :=
  match swapOf s core with
  | none => .next s
  | some w =>
    let t := { s with swaps := FMap.set none s.swaps core none }
    if (ctxOf t w.ctx).isNone then .next (emptySlot t core w.slot)
    else if imageBad t w.ctx then .next (loseImage (emptySlot t core w.slot) w.ctx)
    else .next (enterSlot t w.ctx core w.slot)

-- The Kennel (R63 to R65)

/-- The oldest image that a Kennel over its limit of 1 MiB less 128 KiB writes back, on a day of its partition: one that is
neither being saved nor being loaded (R20, R64). -/
def writeBackChoice (s : State) (t : Nat) : Option Nat :=
  if kennelBytes s t ≤ 0x100000 - 0x20000 then none
  else (kennelOf s t).find? fun id => match ctxOf s id with
    | none => false
    | some x => !x.inMem && x.saving.isNone && (x.state == .held || x.state == .parkedOut || (x.state == .queued && !swapping s id))
        && hasDay s t x.part
/-- KENNEL_WRITE_BACK (R64): a write that meets no memory resets the tile (R424). -/
def execKennelWriteBack (t : Nat) (s : State) : Host.Outcome State Fault Refusal :=
  match writeBackChoice s t with
  | none => .next s
  | some id => match ctxOf s id with
    | none => .next s
    | some x =>
      let a := slotAddr s x.part id
      .next (if populated a && populated (a + 8639) then writeBack s id else tileReset s t (some id))
/-- The core of a tile, and the context, that an overflow list serves next: the first context bound for a core whose queue
has room, on a day of its partition (R61, R65). -/
def overflowChoice (s : State) (t : Nat) : Option (Nat × Nat × Nat) :=
  ((overflowList s t).find? fun e => queueRoom s (16 * t + e.2.1)).filter fun e => linkDay s t e.1 && imageReady s e.1
/-- OVERFLOW_LIST_MOVE (R61, R65). -/
def execOverflowListMove (t core : Nat) (s : State) : Host.Outcome State Fault Refusal :=
  match (overflowList s t).find? fun e => e.2.1 == core with
  | none => .next s
  | some (id, c, lv) =>
    if 256 ≤ (readyOf s (16 * t + c)).length then .next s
    else
      let s := readBack (overflowRemove s t id) id
      .next (setReady s (16 * t + c) (insertLevel (readyOf s (16 * t + c)) (4 * id + lv)))
/-- SAVE_COMPLETE (R63, R419, R424): the image is in the Kennel; a save that meets an uncorrectable error resets the
tile. -/
def execSaveComplete (id : Nat) (s : State) : Host.Outcome State Fault Refusal :=
  match ctxOf s id with
  | none => .next s
  | some x => match x.saving with
    | none => .next s
    | some why =>
      if (List.range 48).any (dwErr s id) then .next (tileReset s x.tile (some id))
      else
        let s := kennelAdd s x.tile id
        let held := setCtx s id { x with state := .held, saving := none, stopReq := false, outReq := false, wdogReq := false }
        .next (match why with
          | .parkOut =>
            if x.state = .parkedOut ∧ x.park.isNone ∧ !x.longs.any (·.ended) then enqueue (setCtx s id { x with saving := none }) id x.at_ x.priority
            else setCtx s id { x with saving := none }
          | .yield => enqueue (setCtx s id { x with stopReq := false, outReq := false, wdogReq := false }) id x.at_ x.priority
          | .swapOut => held
          | .report m => sendReport held id m)

-- The tile dispatcher (R362, R363)

/-- The core the dispatcher chooses for a window (R362, R365). -/
def dispatchCore (s : State) (t g : Nat) : Nat :=
  16 * t + (match (List.range 16).find? fun c =>
      let k := 16 * t + c
      let q := queuedOn s k
      !coreBound s k && decide (q.length < ((emptySlots s k).filter fun p => p.1 ≤ s.cyc).length)
        && decide (g + q.foldl (fun n p => n + p.2.window) 0 ≤ freeEntries s k) with
    | some c => c
    | none => shortestQueue s t)
/-- Whether one arrival is placed before another: the earlier cycle, then children before launches, then by key (R363). -/
def Arrival.before (a b : Arrival) : Bool :=
  decide (a.cycle < b.cycle) || (a.cycle == b.cycle && ((!a.launched && b.launched) || (a.launched == b.launched && decide (a.key < b.key))))
/-- The arrival that a tile's dispatcher places next; a child follows its spawner's earlier accesses (R217, R228). -/
def nextArrival (s : State) (t : Nat) : Option Arrival :=
  ((FMap.get [] s.arrivals t).filter fun a => decide (a.cycle ≤ s.cyc) && !accessBefore s a.spawner a.n).foldl (fun b a => match b with
    | none => some a
    | some c => if a.before c then some a else b) none
/-- The dispatcher's later placements of a tile are in later cycles: one context a cycle (R363). -/
def pushPlacements (s : State) (t : Nat) : State :=
  { s with agenda := (s.agenda.map fun d => if d.step = .dispatcherPlace t then { d with at_ := Nat.max d.at_ (s.cyc + 1) } else d).foldl insertDue [] }
/-- DISPATCHER_PLACE (R362). -/
def execDispatcherPlace (t : Nat) (s : State) : Host.Outcome State Fault Refusal :=
  match nextArrival s t with
  | none => .next s
  | some a =>
    let s := pushPlacements { s with arrivals := FMap.set [] s.arrivals t ((FMap.get [] s.arrivals t).filter fun b => b.ctx != a.ctx) } t
    match ctxOf s a.ctx with
    | none => .next s
    | some x => .next (enqueue s a.ctx (dispatchCore s t x.window) x.priority)

-- Soft errors (R425)

/-- Whether a place is a word of memory or of a tile's scratch. -/
def placeOk (p : Nat) : Bool := if isScratch p then decide (p < placeOf 128 0) && decide ((p - scratchPlace) % 0x200000 < 0x180000) else populated p
/-- SOFT_ERROR: corrected and counted, or kept with the word (R425). -/
def execSoftError (site : ErrSite) (corrected : Bool) (s : State) : Host.Outcome State Fault Refusal :=
  match site with
  | .word p =>
    if !placeOk p then .next s
    else if corrected then .next (bumpCounter s (unitOf p) 0)
    else .next (setErr (bumpCounter s (unitOf p) 1) p true)
  | .reg id r i => match ctxOf s id with
    | none => .next s
    | some x =>
      if x.window ≤ r || decide (8 ≤ i) then .next s
      else if corrected then .next (bumpCounter s x.tile 0)
      else
        let t := bumpCounter s x.tile 1
        .next { t with errs := FMap.set false t.errs (dwErrKey id (48 + 8 * r + i)) true }
  | .image id j => match ctxOf s id with
    | none => .next s
    | some x =>
      if x.inMem || decide (48 + 8 * x.window ≤ j) then .next s
      else if corrected then .next (bumpCounter s x.tile 0)
      else
        let t := bumpCounter s x.tile 1
        .next { t with errs := FMap.set false t.errs (dwErrKey id j) true }

end Sys2Proof.Machine
end

