-- ==== Sys2Proof/Machine/Raster.lean ====
section
/-! DEFINITION. Page 12 (R378 to R387). -/

namespace Sys2Proof.Machine

/-- A lane as a signed integer. -/
def laneInt (v : Reg) (l : Nat) : Int := (lane v l).toInt
/-- A signed integer as a lane. -/
def intLane (i : Int) : Lane := BitVec.ofInt 32 i
/-- A triangle record as RCOV, RBARY and RBLK read it (R380, R381). -/
structure Tri2 where
  p : Nat → Int × Int
  area : Int
  empty : Bool
  xmin : Int
  ymin : Int
  xmax : Int
  ymax : Int
/-- The record in a register. -/
def triOf (v : Reg) : Tri2 :=
  ⟨fun i => (laneInt v (2 * i), laneInt v (2 * i + 1)), (dword v 3).toInt, (lane v 8).getLsbD 1, laneInt v 9, laneInt v 10, laneInt v 11, laneInt v 12⟩
/-- RSET's record of a triangle, cull and scissor, and whether it is empty (R379, R380). -/
def rsetRecord (v : Reg) : Reg × Bool :=
  let c := laneInt v
  let range := (List.range 6).any fun i => decide (c i < -(2 : Int) ^ 28) || decide ((2 : Int) ^ 28 ≤ c i)
  let area := if range then 0 else (c 2 - c 0) * (c 5 - c 1) - (c 3 - c 1) * (c 4 - c 0)
  let cull := (lane v 6).toNat % 4
  let back := decide (area < 0)
  let degenerate := decide (area = 0) && !range
  let culled := cull == 3 || (cull == 1 && back) || (cull == 2 && decide (0 < area))
  let lo := fun (a b d : Int) => cdiv (min a (min b d) - 128) 256
  let hi := fun (a b d : Int) => (max a (max b d) - 128) / 256
  let xmin := max (c 7) (lo (c 0) (c 2) (c 4))
  let xmax := min (c 9) (hi (c 0) (c 2) (c 4))
  let ymin := max (c 8) (lo (c 1) (c 3) (c 5))
  let ymax := min (c 10) (hi (c 1) (c 3) (c 5))
  let nopix := decide (xmax < xmin) || decide (ymax < ymin)
  let empty := range || degenerate || culled || nopix
  let flags := bitOf back + bitOf empty * 2 + bitOf degenerate * 4 + bitOf range * 8 + bitOf culled * 16 + bitOf nopix * 32
  let a : Dword := BitVec.ofInt 64 area
  (ofLanes fun l =>
    if l < 6 then lane v l
    else match l with
      | 6 => a.setWidth 32
      | 7 => a.extractLsb' 32 32
      | 8 => BitVec.ofNat 32 flags
      | 9 => if empty then 0 else intLane xmin
      | 10 => if empty then 0 else intLane ymin
      | 11 => if empty then intLane (-1) else intLane xmax
      | 12 => if empty then intLane (-1) else intLane ymax
      | _ => 0, empty)
/-- R380. -/
def execRset (d a : RegNo) (s : State) :=
  run (.rset d a) (fun id x => do
    charge id 2 0
    let r := rsetRecord (x.reg a.toNat)
    wwrite id d r.1
    updSelf id fun y => { y with rsc := if r.2 then y.rsc else y.rsc + 1 }) s

/-- Cover (R381). -/
def cover (t : Tri2) (px0 py0 : Int) : Bool :=
  if t.empty || decide (px0 < t.xmin) || decide (t.xmax < px0) || decide (py0 < t.ymin) || decide (t.ymax < py0) then false
  else
    let sg : Int := if 0 < t.area then 1 else -1
    let px := 256 * px0 + 128
    let py := 256 * py0 + 128
    (List.range 3).all fun i =>
      let p := t.p i
      let q := t.p ((i + 1) % 3)
      let dx := sg * (q.1 - p.1)
      let dy := sg * (q.2 - p.2)
      let e := dx * (py - p.2) - dy * (px - p.1)
      decide (0 < e) || (decide (e = 0) && (decide (dy < 0) || (decide (dy = 0) && decide (0 < dx))))
/-- The pixel of a lane of a block (R378). -/
def pixelOf (o : Dword) (l : Nat) : Int × Int := ((o.setWidth 32).toInt + (l % 4 : Nat), (o.extractLsb' 32 32).toInt + (l / 4 : Nat))
/-- R382. -/
def execRcov (a b : RegNo) (s : State) :=
  run (.rcov a b) (fun id x => do
    charge id 2 0
    let t := triOf (x.reg a.toNat)
    let c := maskOf fun l => inMask (maskP x.pw 0) l && (let p := pixelOf (x.scalar b) l; cover t p.1 p.2)
    updSelf id fun y => { y with pw := withP y.pw 0 c, rpx := y.rpx + dw (maskCount c) }) s

/-- A barycentric weight before rounding (R383): E / area, a zero taking the area's sign. -/
def weight (e area : Int) : Exact :=
  if area = 0 then .nan else .fin (if e = 0 then decide (area < 0) else decide (e < 0) != decide (area < 0)) e.natAbs area.natAbs false
/-- The two numerators of a lane: E2 for v1, E0 for v2 (R383). -/
def numerators (t : Tri2) (o : Dword) (l : Nat) : List Int :=
  let p := pixelOf o l
  let px := 256 * p.1 + 128
  let py := 256 * p.2 + 128
  let v0 := t.p 0
  let v1 := t.p 1
  let v2 := t.p 2
  [(v0.1 - v2.1) * (py - v2.2) - (v0.2 - v2.2) * (px - v2.1), (v1.1 - v0.1) * (py - v0.2) - (v1.2 - v0.2) * (px - v0.1)]
/-- R383: under SR each lane advances the state twice, v1 first. -/
def execRbary (d a b : RegNo) (s : State) :=
  run (.rbary d a b) (fun id x => do
    checkFmt x .dyn
    charge id 2 0
    let t := triOf (x.reg a.toNat)
    let rc := rndOf x.rnd .dyn
    let ls := lanesOf (maskP x.pw 0)
    let p := eachRounded rc (fun r e => roundTo infoFp32 rc r (weight e t.area)) (srState x.rnd) (ls.flatMap (numerators t (x.scalar b)))
    putSr id p.2
    let out := fun (k : Nat) => fromElems 32 (ls.map fun l => (l, 0)) ((List.range ls.length).map fun i => p.1.getD (2 * i + k) 0)
    vwrite id d (out 0) (maskP x.pw 0)
    vwrite id (d + 1) (out 1) (maskP x.pw 0)) s
/-- The next block of a walk (R384). -/
def nextBlock (t : Tri2) (o : Dword) : Dword :=
  let none : Dword := 0xFFFFFFFFFFFFFFFF
  let mk := fun (x y : Int) => (BitVec.ofInt 32 y ++ BitVec.ofInt 32 x : Dword)
  let bx0 := 4 * (t.xmin / 4)
  let bx1 := 4 * (t.xmax / 4)
  let by0 := 4 * (t.ymin / 4)
  let by1 := 4 * (t.ymax / 4)
  let x := (o.setWidth 32).toInt
  let y := (o.extractLsb' 32 32).toInt
  if t.empty then none
  else if o = none then mk bx0 by0
  else if x % 4 = 0 ∧ y % 4 = 0 ∧ bx0 ≤ x ∧ x ≤ bx1 ∧ by0 ≤ y ∧ y ≤ by1 then
    if x < bx1 then mk (x + 4) y else if y < by1 then mk bx0 (y + 4) else none
  else none
/-- R384. -/
def execRblk (d a b : RegNo) (s : State) :=
  run (.rblk d a b) (fun id x => do charge id 2 0; swrite id d (nextBlock (triOf (x.reg a.toNat)) (x.scalar b))) s

-- RZT and RWR (R385 to R387)

/-- The checks of R385 on the line's address: its unified address and place. -/
def depthAddr (x : Ctx) (a : RegNo) (r : Rights) : M (Nat × Nat) := fun s =>
  match segMap x (ea (x.scalar a) 0) 64 64 r with
  | .error f => .error (.fault f)
  | .ok u => match ownScratch s x u with
    | some f => .error (.fault f)
    | none => .ok ((u, placeOf x.tile (u % 0x200000)), s)
/-- The line's place, its words checked where the instruction reads them (R385, R425). -/
def depthLine (x : Ctx) (a : RegNo) (r : Rights) : M (Nat × Nat) := fun s =>
  match depthAddr x a r s with
  | .error e => .error e
  | .ok (p, t) => if r.r && errIn s p.2 64 then .error (.fault (flt .memerr (dw p.1) 0 0)) else .ok (p, t)
/-- An instruction on its own scratch: what it checks of its address, and what it does once it is charged. Where accesses come before
it, it is charged, and its issuer is held until they have been performed; a latch at an odd address keeps where to go on (R226,
R387). -/
def acts (i : Instr) (check : M Unit) (body : M Unit → M Unit) (id : Nat) (x : Ctx) : M Unit := do
  check
  let s ← get
  if mustHold s s.uid id x i then
    charge id 2 0
    let y ← self id
    upd fun s => now (updCtx { s with uid := s.uid + 1 } id fun z => { z with
      hold := some (.acting i), pc := x.pc, resume := x.resume
      retry := some ⟨.page, s.cyc, none, s.uid, y.pc.toNat, x.pc + 1, true⟩ }) (.traversalStepComplete ⟨id, s.uid⟩)
  else body (charge id 2 0)
/-- A write of n bytes by a context to its own tile's scratch in one step, and what follows it (R180, R211, R306, R370). -/
def ownWriteBytes (s : State) (x : Ctx) (place n : Nat) (v : Reg) (mask : BitVec 64) : State :=
  heardWrite (serveFrom x.tile place ((n + 7) / 8) (ringDoorbells (putPlain s place n v mask) place n)) place n
/-- The same for a line. -/
def ownWrite (s : State) (x : Ctx) (place : Nat) (v : Reg) (mask : BitVec 64) : State :=
  ownWriteBytes s x place 64 v mask
/-- Cmp of R385. -/
def depthTest (c : ZCmp) (z old : Nat) : Bool :=
  let x := infoFp32.value z
  let y := infoFp32.value old
  match c with
  | .never => false | .always => true | .lt => fcmpHolds .lt x y | .eq => fcmpHolds .eq x y | .le => fcmpHolds .le x y
  | .gt => fcmpHolds .gt x y | .ne => fcmpHolds .ne x y | .ge => fcmpHolds .ge x y
/-- R385. -/
def rztBody (q : ZQual) (a b : RegNo) (id : Nat) (x : Ctx) (pay : M Unit) : M Unit := do
    let p ← depthLine x a ⟨true, !q.nowr, false, false⟩
    pay
    let t ← get
    let z := x.reg b.toNat
    let pass := maskOf fun l => inMask (maskP x.pw 0) l && depthTest q.cmp (lane z l).toNat (readLE t (p.2 + 4 * l) 4)
    upd fun s => if q.nowr then s else ownWrite s x p.2 z (laneBytes pass)
    updSelf id fun y => { y with pw := withP y.pw 0 pass, qacc := y.qacc + dw (maskCount pass) }
def execRzt (q : ZQual) (a b : RegNo) (s : State) :=
  run (.rzt q a b) (fun id x => acts (.rzt q a b) (do let _ ← depthAddr x a ⟨true, !q.nowr, false, false⟩) (rztBody q a b id x) id x) s
/-- R386. -/
def rwrBody (a b : RegNo) (id : Nat) (x : Ctx) (pay : M Unit) : M Unit := do
    let p ← depthLine x a rightsW
    pay
    upd fun s => ownWrite s x p.2 (x.reg b.toNat) (laneBytes (maskP x.pw 0))
    updSelf id fun y => { y with rwc := y.rwc + dw (maskCount (maskP x.pw 0)) }
def execRwr (a b : RegNo) (s : State) :=
  run (.rwr a b) (fun id x => acts (.rwr a b) (do let _ ← depthAddr x a rightsW) (rwrBody a b id x) id x) s

end Sys2Proof.Machine
end

