-- ==== Sys2Proof/Machine/Traversal.lean ====
section
/-! DEFINITION. Page 13 (R388 to R407). -/

namespace Sys2Proof.Machine

-- Exact geometry (R396, R397)

/-- RoundTo(fp32) in a mode with ovf 0 and no flushing, whatever rnd holds (R396, R397). -/
def roundF (mode : Nat) (x : Exact) : Nat := roundTo infoFp32 ⟨mode, 0, false, false⟩ 0 x
/-- A rational as an exact value. -/
def exactOf (q : ℚ) : Exact := .fin (decide (q < 0)) q.num.natAbs q.den false
/-- A finite value as a rational. -/
def ratOf : FVal → Option ℚ
  | .fin n m e => some ((if n then -1 else 1) * m * (2 : ℚ) ^ e)
  | _ => none
/-- A finite FP32 pattern as a rational; NaNs and infinities have none. -/
def rat (x : Nat) : Option ℚ := ratOf (infoFp32.value x)
/-- The greater and the lesser of two FP32 patterns by value, the first on ties. -/
def maxF (x y : Nat) : Nat := if (infoFp32.value x).cmp (infoFp32.value y) = .lt then y else x
def minF (x y : Nat) : Nat := if (infoFp32.value x).cmp (infoFp32.value y) = .gt then y else x
/-- A ray: o, d, tmin and tmax as FP32 patterns (R395). -/
structure Ray where
  o : Nat → Nat
  d : Nat → Nat
  tmin : Nat
  tmax : Nat
/-- One axis of the box test on n and f (R396). -/
def boxAxis (lo hi o d : ℚ) (nf : Nat × Nat) : Option (Nat × Nat) :=
  if d = 0 then (if o < lo ∨ hi < o then none else some nf)
  else
    let t1 := (lo - o) / d
    let t2 := (hi - o) / d
    some (maxF nf.1 (roundF 2 (exactOf (min t1 t2))), minF nf.2 (roundF 3 (exactOf (max t1 t2))))
/-- Hit (R396): n, or a miss. lo and hi give the axes' patterns. -/
def boxHit (lo hi : Nat → Nat) (r : Ray) : Option Nat :=
  if infoFp32.isNan r.tmax || (rat r.tmin).isNone then none
  else
    let axis := fun (i : Nat) (nf : Nat × Nat) => match rat (lo i), rat (hi i), rat (r.o i), rat (r.d i) with
      | some l, some h, some o, some d => if h < l then none else boxAxis l h o d nf
      | _, _, _, _ => none
    let sound := (List.range 3).all fun i => match rat (lo i), rat (hi i), rat (r.o i), rat (r.d i) with
      | some l, some h, some _, some _ => decide (l ≤ h)
      | _, _, _, _ => false
    if !sound then none
    else match (axis 0 (r.tmin, r.tmax)).bind (axis 1) |>.bind (axis 2) with
      | none => none
      | some nf => if fcmpHolds .le (infoFp32.value nf.1) (infoFp32.value nf.2) then some nf.1 else none
/-- Three patterns as rationals. -/
def vec3 (f : Nat → Nat) : Option (Nat → ℚ) :=
  match rat (f 0), rat (f 1), rat (f 2) with
  | some a, some b, some c => some fun i => match i with | 0 => a | 1 => b | _ => c
  | _, _, _ => none
/-- Tri (R397): t, u, v, or a miss. v gives vertex and axis, flags the record's word at 40. -/
def triHit (v : Nat → Nat → Nat) (flags : Nat) (r : Ray) : Option (Nat × Nat × Nat) :=
  match vec3 (v 0), vec3 (v 1), vec3 (v 2), vec3 r.o, vec3 r.d, rat r.tmin with
  | some v0, some v1, some v2, some o, some d, some tmin =>
    let tmaxOk := match infoFp32.value r.tmax with | .inf false => true | .fin _ _ _ => true | _ => false
    let k := if |d 1| ≤ |d 0| ∧ |d 2| ≤ |d 0| then 0 else if |d 2| ≤ |d 1| then 1 else 2
    if !tmaxOk || decide (d k = 0) then none
    else
      let i := (k + 1) % 3
      let j := (k + 2) % 3
      let vert : Nat → Nat → ℚ := fun m => match m with | 0 => v0 | 1 => v1 | _ => v2
      let px := fun (m : Nat) => (vert m i - o i) - d i / d k * (vert m k - o k)
      let py := fun (m : Nat) => (vert m j - o j) - d j / d k * (vert m k - o k)
      let pz := fun (m : Nat) => (vert m k - o k) / d k
      let e := fun (m : Nat) => let p := (m + 1) % 3; let q := (m + 2) % 3; px p * py q - py p * px q
      let det := e 0 + e 1 + e 2
      if det = 0 then none
      else
        let a := fun (c : Nat) => v1 c - v0 c
        let b := fun (c : Nat) => v2 c - v0 c
        let g := (a 1 * b 2 - a 2 * b 1) * d 0 + (a 2 * b 0 - a 0 * b 2) * d 1 + (a 0 * b 1 - a 1 * b 0) * d 2
        if (flags % 2 = 1 ∧ 0 < g) ∨ (flags / 2 % 2 = 1 ∧ g < 0) then none
        else
          let sg : ℚ := if 0 < det then 1 else -1
          let inside := (List.range 3).all fun m =>
            let p := (m + 1) % 3
            let q := (m + 2) % 3
            let dx := sg * (px q - px p)
            let dy := sg * (py q - py p)
            decide (0 < sg * e m) || (decide (e m = 0) && (decide (dy < 0) || (decide (dy = 0) && decide (0 < dx))))
          let t := (e 0 * pz 0 + e 1 * pz 1 + e 2 * pz 2) / det
          let late := match infoFp32.value r.tmax with | .fin n m x => (match ratOf (.fin n m x) with | some q => decide (q ≤ t) | none => false) | _ => false
          if !inside || decide (t < tmin) || late then none
          else some (roundF 0 (exactOf t), roundF 0 (exactOf (e 1 / det)), roundF 0 (exactOf (e 2 / det)))
  | _, _, _, _, _, _ => none

-- The traversal area (R392)

/-- The place of an offset of a lane's part of the area. -/
def areaPlace (x : Ctx) (l off : Nat) : Nat := placeOf x.tile (areaAddr x % 0x200000) + 1024 * l + off
/-- APERTURE unless the whole area lies in the issuing tile's scratch-mode banks (R392). -/
def checkArea (x : Ctx) : M Unit := fun s =>
  match ownScratch s x (areaAddr x) with
  | some f => .error (.fault f)
  | none => .ok ((), s)
/-- A word written in the area, as any write to scratch is (R392). -/
def area4 (s : State) (x : Ctx) (l off v : Nat) : State :=
  ownWriteBytes s x (areaPlace x l off) 4 (BitVec.ofNat 512 v) (byteMask 4)
/-- A doubleword written in the area. -/
def area8 (s : State) (x : Ctx) (l off : Nat) (v : Dword) : State :=
  ownWriteBytes s x (areaPlace x l off) 8 (v.setWidth 512) (byteMask 8)
/-- A word of the area. -/
def areaGet (s : State) (x : Ctx) (l off : Nat) : Nat := readLE s (areaPlace x l off) 4
/-- MEMERR at the area (R393, R425). -/
def areaErr (s : State) (x : Ctx) (l off n : Nat) : Option Flt :=
  if errIn s (areaPlace x l off) n then some (flt .memerr (dw (areaAddr x + 1024 * l + off)) 0 0) else none

-- State and ray groups (R394, R395)

/-- A lane of a state group (R394). -/
structure TLane where
  item : Dword
  sp : Nat
  inst : Bool
  isp : Nat
  rem : Nat
  status : Nat
  deriving DecidableEq, Repr
/-- A lane read from a state group. -/
def tlane (x : Ctx) (st l : Nat) : TLane :=
  let w := fun (k : Nat) => (lane (x.reg (st + k)) l).toNat
  ⟨dw (w 0 + w 1 * 2 ^ 32), fld (w 2) 31 25, fld (w 2) 24 24 == 1, fld (w 2) 23 17, fld (w 2) 16 11, fld (w 3) 31 28⟩
/-- A register with one lane replaced. -/
def putLane (r : Reg) (l : Nat) (v : Nat) : Reg := ofLanes fun k => if k = l then BitVec.ofNat 32 v else lane r k
/-- A lane of a register of a context written. -/
def setLane (s : State) (id r l v : Nat) : State := updCtx s id fun x => x.setReg r (putLane (x.reg r) l v)
/-- A lane written to a state group. -/
def putTlane (s : State) (id st l : Nat) (t : TLane) : State :=
  let s := setLane s id st l (t.item.toNat % 2 ^ 32)
  let s := setLane s id (st + 1) l (t.item.toNat / 2 ^ 32)
  let s := setLane s id (st + 2) l (t.sp % 128 * 2 ^ 25 + bitOf t.inst * 2 ^ 24 + t.isp % 128 * 2 ^ 17 + t.rem % 64 * 2 ^ 11)
  setLane s id (st + 3) l (t.status % 16 * 2 ^ 28)
/-- A lane's ray in world space. -/
def worldRay (x : Ctx) (ray l : Nat) : Ray :=
  let w := fun (k : Nat) => (lane (x.reg (ray + k)) l).toNat
  ⟨fun i => w i, fun i => w (3 + i), w 6, w 7⟩
/-- The ray TRSTEP and TRTRI use: inside an instance, o and d come from the area (R395). -/
def rayOf (s : State) (x : Ctx) (ray l : Nat) (inst : Bool) : Ray :=
  let r := worldRay x ray l
  if inst then { r with o := fun i => areaGet s x l (544 + 4 * i), d := fun i => areaGet s x l (556 + 4 * i) } else r

-- Reads of the structures (R388 to R391, R393)

/-- Why a read does not complete. -/
inductive ReadStop where
  | absent (u : Nat)
  | fault (f : Flt)
  | repair (u home : Nat)
  /-- a line that waits for a day (R33) -/
  | wait
  deriving DecidableEq, Repr
/-- The places of the lines of n × 64 bytes, translated through the tables with right R, whatever their region, and read at their homes,
where those that miss are filled (R172, R393). An uncorrectable error anywhere in a line of the record faults, with the line's address: DESIGN CHOICE
(log 31). -/
def readLines (s : State) (x : Ctx) (u : Nat) : Nat → Except ReadStop (List Nat × State)
  | 0 => .ok ([], s)
  | n + 1 => match readLines s x u n with
    | .error e => .error e
    | .ok (l, s1) =>
      let v := u + 64 * n
      match mapTables true s1 x.part x.at_ v rightsR with
        | .absent _ => .error (.absent v)
        | .now f => .error (.fault f)
        | .prot f => .error (.fault f)
        | .spot p s2 =>
          if underRepair s2 p.home then .error (.repair v p.home)
          else if walkWaits s1 true x.part x.at_ v || missWaits s2 x.part p.home p.place then .error .wait
          else if errIn s2 p.place 64 then .error (.fault (flt .memerr (dw v) 0 (dw p.place)))
          else .ok (l ++ [p.place], missFill s2 x.part p.home p.place)
/-- n bytes at an offset of a record. -/
def recLE (s : State) (ls : List Nat) (off n : Nat) : Nat := readLE s (ls.getD (off / 64) 0 + off % 64) n
/-- A reference (R388): kind, count, address, and whether it is malformed on the stack. -/
def refKind (r : Dword) : Nat := bits r 63 62
def refCount (r : Dword) : Nat := bits r 61 56
def refAddr (r : Dword) : Nat := bits r 55 6 * 64
def malformed (r : Dword) : Bool :=
  refKind r == 0 || (refKind r == 2 && refCount r == 0) || (refKind r != 2 && refCount r != 0) || bits r 5 0 != 0
/-- The address of an item. -/
def itemAddr (t : TLane) : Nat := bits t.item 55 6 * 64

-- TRSTEP (R400)

/-- The children of a node that the ray hits, with n (R389, R400). -/
def hits (s : State) (ls : List Nat) (r : Ray) : List (Nat × Nat × Dword) :=
  (List.range 8).filterMap fun c =>
    let ref := dw (recLE s ls (192 + 8 * c) 8)
    if refKind ref = 0 then none
    else (boxHit (fun i => recLE s ls (24 * c + 4 * i) 4) (fun i => recLE s ls (24 * c + 12 + 4 * i) 4) r).map fun n => (n, c, ref)
/-- Whether one child lies above another on the stack: the lesser n, then the lower number. -/
def above (a b : Nat × Nat × Dword) : Bool :=
  match (infoFp32.value a.1).cmp (infoFp32.value b.1) with | .lt => true | .gt => false | .eq => decide (a.2.1 < b.2.1)
/-- Children in the order in which they are pushed, the top last. -/
def pushOrder : List (Nat × Nat × Dword) → List (Nat × Nat × Dword)
  | [] => []
  | a :: t => insertPush a (pushOrder t)
where
  insertPush (a : Nat × Nat × Dword) : List (Nat × Nat × Dword) → List (Nat × Nat × Dword)
    | [] => [a]
    | b :: t => if above b a then a :: b :: t else b :: insertPush a t
/-- References pushed on a lane's stack. -/
def pushRefs (s : State) (x : Ctx) (l sp : Nat) (rs : List Dword) : State :=
  (rs.zipIdx).foldl (fun s p => area8 s x l (8 * (sp + p.2)) p.1) s
/-- The loop of Step, with the visits still allowed; a lane that stops at a read keeps the state before it. -/
def stepLoop (x : Ctx) (ray l : Nat) : Nat → State → TLane → Nat → State × TLane × Nat × Option ReadStop
  | 0, s, t, tn => (s, { t with status := 0 }, tn, none)
  | n + 1, s, t, tn =>
    let leaves := t.inst && decide (t.sp = t.isp)
    let s := if leaves then area4 s x l 584 0xFFFFFFFF else s
    let t := if leaves then { t with inst := false } else t
    if t.sp = 0 then (s, { t with status := 3 }, tn, none)
    else match areaErr s x l (8 * (t.sp - 1)) 8 with
    | some f => (s, t, tn, some (.fault f))
    | none =>
      let r := readDw s (areaPlace x l (8 * (t.sp - 1)))
      let u := { t with sp := t.sp - 1 }
      if malformed r then (s, { u with status := 5 }, tn, none)
      else match refKind r with
      | 2 => (s, { u with item := dw (refAddr r), rem := refCount r - 1, status := 1 }, tn, none)
      | 3 => (s, { u with item := dw (refAddr r), status := 2 }, tn, none)
      | _ => match (if t.inst then areaErr s x l 544 24 else none) with
        | some f => (s, t, tn, some (.fault f))
        | none => match readLines s x (refAddr r) 4 with
          | .error e => (s, t, tn, some e)
          | .ok (ls, s) =>
            let h := hits s ls (rayOf s x ray l t.inst)
            if 64 < u.sp + h.length then (s, { u with status := 4 }, tn + 1, none)
            else stepLoop x ray l n (pushRefs s x l u.sp ((pushOrder h).map (·.2.2))) { u with sp := u.sp + h.length } (tn + 1)
/-- Step of a lane (R400), which has visited nodes already where it waited for a day (R33). -/
def stepLane (s : State) (x : Ctx) (ray l : Nat) (t : TLane) : State × TLane × Nat × Option ReadStop :=
  if 6 ≤ t.status then (s, { t with status := 5 }, 0, none)
  else if 3 ≤ t.status then (s, t, 0, none)
  else if t.status = 1 ∧ 0 < t.rem then (s, { t with item := t.item + 64, rem := t.rem - 1 }, 0, none)
  else stepLoop x ray l (64 - x.spent) s t 0
/-- Every lane steps, in ascending order, but those that have; a read that stops one stops the instruction. Each node is counted as
it is visited, and `visits` keeps the count, since an instruction that faults counts nothing (R377, R400). -/
def stepLanes (id st ray : Nat) : List Nat → State → State × BitVec 16 × Option ReadStop
  | [], s => (s, 0, none)
  | l :: ls, s => match ctxOf s id with
    | none => (s, 0, none)
    | some x =>
      let r := stepLane s x ray l (tlane x st l)
      let s := updCtx (putTlane r.1 id st l r.2.1) id fun y =>
        { y with tnv := y.tnv + dw r.2.2.1, visits := y.visits + r.2.2.1, spent := if r.2.2.2 = some .wait then y.spent + r.2.2.1 else 0 }
      match r.2.2.2 with
      | some e => (s, 0, some e)
      | none =>
        let q := stepLanes id st ray ls s
        (q.1, q.2.1 ||| BitVec.ofNat 16 (2 ^ l), q.2.2)
/-- What TRSTEP sets once every lane has stepped (R400). -/
def finishStep (x : Ctx) (pc : Dword) (st : Nat) : Ctx :=
  let p0 := maskP x.pw 0
  let with_ := fun (f : Nat → Bool) => maskOf fun l => inMask p0 l && f (tlane x st l).status
  let p1 := with_ (· == 1)
  let p2 := with_ (· == 2)
  let p3 := with_ (decide <| · ≤ 2)
  let lim := bits x.cb 15 0
  let arm := lim != 0 && (p1 != 0 || p2 != 0)
  let cb := setBits (setBits x.cb 63 48 p0.toNat) 47 40 st
  let cb := if arm then setBits (setBits cb 31 16 lim) 32 32 1 else setBits cb 32 32 0
  { x with pw := withP (withP (withP x.pw 1 p1) 2 p2) 3 p3, cbret := pc, cb := cb, visits := 0 }

-- TRTRI (R401)

/-- Tri of every candidate lane: the hits, or the read that stops the instruction (R390, R401). -/
def triLanes (x : Ctx) (st ray : Nat) : List Nat → State → Except ReadStop (List (Nat × Nat × Nat × Nat × Nat) × State)
  | [], s => .ok ([], s)
  | l :: ls, s =>
    let t := tlane x st l
    if t.status ≠ 1 then triLanes x st ray ls s
    else match (if t.inst then areaErr s x l 544 24 else none) with
    | some f => .error (.fault f)
    | none => match readLines s x (itemAddr t) 1 with
      | .error e => .error e
      | .ok (rs, s1) => match triLanes x st ray ls s1 with
        | .error e => .error e
        | .ok (hs, s2) =>
          .ok (match triHit (fun v i => recLE s1 rs (12 * v + 4 * i) 4) (recLE s1 rs 40 4) (rayOf s1 x ray l t.inst) with
            | some (tt, u, v) => (l, tt, u, v, recLE s1 rs 36 4) :: hs
            | none => hs, s2)
/-- The results of TRTRI written, and p0 (R401). -/
def putHits (s : State) (id d : Nat) (hs : List (Nat × Nat × Nat × Nat × Nat)) : State :=
  let s := hs.foldl (fun s h =>
    setLane (setLane (setLane (setLane s id d h.1 h.2.1) id (d + 1) h.1 h.2.2.1) id (d + 2) h.1 h.2.2.2.1) id (d + 3) h.1 h.2.2.2.2) s
  let m := maskOf fun l => hs.any (·.1 == l)
  updCtx (clearLanes s id d 4 m) id fun y => { y with pw := withP y.pw 0 m }

-- TRINST (R404)

/-- The object-space point or direction of an instance's matrix (R404). -/
def transform (m : Nat → Nat) (v : Nat → Nat) (translate : Bool) (r : Nat) : Nat :=
  let x := fun (p : Nat) => (infoFp32.value p).exact
  let terms := (List.range 3).map fun c => (x (m (4 * r + c))).mul (x (v c))
  roundF 0 (Exact.sum false (terms ++ if translate then [x (m (4 * r + 3))] else []))
/-- One lane of TRINST (R404). -/
def instLane (s : State) (x : Ctx) (ray l : Nat) (t : TLane) : State × TLane × Option ReadStop :=
  if !inMask (maskP x.pw 0) l then (s, { t with status := 0 }, none)
  else if t.inst then (s, { t with status := 5 }, none)
  else if t.sp = 64 then (s, { t with status := 4 }, none)
  else match readLines s x (itemAddr t) 1 with
    | .error e => (s, t, some e)
    | .ok (rs, s) =>
      let m := fun (k : Nat) => recLE s rs (4 * k) 4
      let w := worldRay x ray l
      let s1 := (List.range 3).foldl (fun s r => area4 (area4 s x l (544 + 4 * r) (transform m w.o true r)) x l (556 + 4 * r) (transform m w.d false r)) s
      let s2 := area4 (area8 s1 x l 576 t.item) x l 584 (recLE s rs 56 4)
      (area8 s2 x l (8 * t.sp) (dw (recLE s rs 48 8)), { t with isp := t.sp, inst := true, sp := t.sp + 1, status := 0 }, none)
/-- Every lane with status 2, in ascending order (R404). -/
def instLanes (id st ray : Nat) : List Nat → State → State × Option ReadStop
  | [], s => (s, none)
  | l :: ls, s => match ctxOf s id with
    | none => (s, none)
    | some x =>
      let t := tlane x st l
      if t.status ≠ 2 then instLanes id st ray ls s
      else
        let r := instLane s x ray l t
        match r.2.2 with
        | some e => (r.1, some e)
        | none => instLanes id st ray ls (putTlane r.1 id st l r.2.1)

-- Instructions on the traversal area alone (R399, R403, R405)

/-- R399. -/
def trsetBody (d b : RegNo) (id : Nat) (x : Ctx) (pay : M Unit) : M Unit := do
  checkArea x
  pay
  updSelf id fun y => { y with cb := setBits y.cb 32 32 0 }
  upd fun s => clearLanes ((List.range 16).foldl (fun s l =>
    if inMask (maskP x.pw 0) l then
      let s := area8 s x l 0 (x.scalar b)
      let s := [(512, 0x7F800000), (516, 0), (520, 0), (524, 0xFFFFFFFF), (528, 0xFFFFFFFF), (584, 0xFFFFFFFF)].foldl (fun s p => area4 s x l p.1 p.2) s
      putTlane s id d.toNat l ⟨0, 1, false, 0, 0, 0⟩
    else putTlane s id d.toNat l ⟨0, 0, false, 0, 0, 3⟩) s) id d.toNat 4 (BitVec.allOnes 16)
/-- MEMERR at the words of the area that an instruction reads of its lanes (R425). -/
def checkLanes (x : Ctx) (off n : Nat) : M Unit := fun s =>
  match (lanesOf (maskP x.pw 0)).findSome? fun l => areaErr s x l off n with
  | some f => .error (.fault f)
  | none => .ok ((), s)
/-- R403. -/
def trcmtBody (d b : RegNo) (id : Nat) (x : Ctx) (pay : M Unit) : M Unit := do
  checkArea x
  checkLanes x 584 4
  pay
  let w := fun (k l : Nat) => (lane (x.reg (d.toNat + k)) l).toNat
  upd fun s => clearLanes ((lanesOf (maskP x.pw 0)).foldl (fun s l =>
    let s := area4 s x l 528 (areaGet s x l 584)
    let s := (List.range 4).foldl (fun s k => area4 s x l (512 + 4 * k) (w k l)) s
    setLane s id (b.toNat + 7) l (w 0 l)) s) id (b.toNat + 7) 1 (maskP x.pw 0)
/-- R405. -/
def trresBody (d : RegNo) (id : Nat) (x : Ctx) (pay : M Unit) : M Unit := do
  checkArea x
  checkLanes x 512 20
  pay
  upd fun s => clearLanes ((lanesOf (maskP x.pw 0)).foldl (fun s l =>
    (List.range 5).foldl (fun s k => setLane s id (d.toNat + k) l (areaGet s x l (512 + 4 * k))) s) s) id d.toNat 5 (maskP x.pw 0)

-- Issue and completion (R393, R407)

/-- TRSTEP, TRTRI and TRINST at issue: charged, and their issuer held until their reads complete (R407). The latch of the
hold keeps the operation, its fields and the address to go on at. -/
def traverse (ci cm op d a b : Nat) (id : Nat) (x : Ctx) : M Unit := do
  checkArea x
  charge id ci cm
  let y ← self id
  updSelf id fun z => { z with hold := some .traversal, pc := x.pc, resume := x.resume, progress := if x.paid then x.progress else 0, visits := if x.paid then x.visits else 0 }
  upd fun s => later (updCtx s id fun z => { z with
    retry := some ⟨.page, s.cyc, none, op + 16 * d + 4096 * a + 2 ^ 20 * b, y.pc.toNat, x.pc + 1, true⟩ }) (.traversalStepComplete ⟨id, s.uid⟩)
/-- A read that stops a traversal instruction (R393). -/
def stopTraversal (s : State) (id : Nat) (x : Ctx) (op : Nat) (e : ReadStop) : State :=
  let y := { x with hold := none, retry := none }
  let s := setCtx s id y
  match e with
  | .absent u => updCtx (pagePark s id y u false false) id fun z => { z with park := z.park.map fun p => { p with charged := true } }
  | .fault f => takeFault (updCtx s id Ctx.uncounted) id x.pc 13 op f
  | .wait => s
  | .repair u h => parkCtx s id ⟨.repair, s.cyc, some (bits x.fel 31 0), u, h, x.pc, true⟩
/-- An instruction on its own scratch, past its charge. -/
def actBody (i : Instr) (id : Nat) (x : Ctx) : M Unit :=
  match i with
  | .rzt q a b => rztBody q a b id x (pure ())
  | .rwr a b => rwrBody a b id x (pure ())
  | .trset d b => trsetBody d b id x (pure ())
  | .trcmt d b => trcmtBody d b id x (pure ())
  | .trres d => trresBody d id x (pure ())
  | _ => pure ()
/-- An instruction that its issuer has been held for acts on its scratch, and its issuer goes on, or it faults there (R387). -/
def endActing (s : State) (id : Nat) (x : Ctx) (i : Instr) (k : Park) : State :=
  let y := { x with hold := none, retry := none, after := s.cyc + 1 }
  let s := setCtx s id y
  holdEnds (match actBody i id y s with
    | .ok (_, t) => updCtx t id fun z => { z with pc := dw k.arg2, resume := 0 }
    | .error (.fault f) => issueFault s id i f
    | .error _ => s) id
/-- TRAVERSAL_STEP_COMPLETE: the reads are made, in their order among the tile's accesses (R226, `mustWait`), and the lanes go on
(R400, R401, R404, R407). -/
def execTraversalStepComplete (q : Issued) (s : State) : Host.Outcome State Fault Refusal :=
  let id := q.ctx
  match ctxOf s id with
  | none => .next s
  | some x => match x.hold, x.retry with
    | some (.acting i), some k => .next (endActing s id x i k)
    | some .traversal, some k =>
      let op := k.arg % 16
      let d := k.arg / 16 % 256
      let a := k.arg / 4096 % 256
      let b := k.arg / 2 ^ 20 % 256
      let done := fun (s : State) => holdEnds (updCtx s id fun y =>
        { y with hold := none, retry := none, progress := 0, pc := dw k.arg2, resume := 0, after := s.cyc + 1 }) id
      let stop := fun (s : State) (e : ReadStop) => match ctxOf s id with
        | some y => if e = .wait then soon s (.traversalStepComplete q) else holdEnds (stopTraversal s id y op e) id
        | none => s
      match op with
      | 1 =>
        let r := stepLanes id d a ((lanesOf (maskP x.pw 0)).filter fun l => !inMask x.progress l) s
        (match r.2.2 with
          | some e => .next (stop (updCtx r.1 id fun y => { y with progress := x.progress ||| r.2.1 }) e)
          | none => .next (done (clearLanes (updCtx r.1 id fun y => finishStep y x.pc d) id d 4 (maskP x.pw 0))))
      | 2 => (match triLanes x a b (lanesOf (maskP x.pw 0)) s with
          | .error e => .next (stop s e)
          | .ok (hs, s1) => .next (done (putHits s1 id d hs)))
      | _ =>
        let r := instLanes id d a (List.range 16) s
        (match r.2 with
          | some e => .next (stop r.1 e)
          | none => .next (done (clearLanes r.1 id d 4 (maskOf fun l => (tlane x d l).status == 2))))
    | _, _ => .next s

/-- R400. -/
def execTrstep (d a : RegNo) (s : State) := run (.trstep d a) (traverse 2 4096 1 d.toNat a.toNat 0) s
/-- R401. -/
def execTrtri (d a b : RegNo) (s : State) := run (.trtri d a b) (traverse 2 1024 2 d.toNat a.toNat b.toNat) s
/-- R404. -/
def execTrinst (d a : RegNo) (s : State) := run (.trinst d a) (traverse 2 2048 5 d.toNat a.toNat 0) s
def execTrset (d b : RegNo) (s : State) := run (.trset d b) (fun id x => acts (.trset d b) (checkArea x) (trsetBody d b id x) id x) s
/-- R402. -/
def execTrbox (d a b : RegNo) (s : State) :=
  run (.trbox d a b) (fun id x => do
    charge id 2 0
    let w := fun (k l : Nat) => (lane (x.reg (a.toNat + k)) l).toNat
    let hs := (lanesOf (maskP x.pw 0)).filterMap fun l =>
      (boxHit (fun i => w i l) (fun i => w (3 + i) l) (worldRay x b.toNat l)).map fun n => (l, n)
    let m := maskOf fun l => hs.any (·.1 == l)
    upd fun s => clearLanes (hs.foldl (fun s h => setLane s id d.toNat h.1 h.2) s) id d.toNat 1 m
    updSelf id fun y => { y with pw := withP y.pw 0 m }) s
def execTrcmt (d b : RegNo) (s : State) := run (.trcmt d b) (fun id x => acts (.trcmt d b) (checkArea x) (trcmtBody d b id x) id x) s
def execTrres (d : RegNo) (s : State) := run (.trres d) (fun id x => acts (.trres d) (checkArea x) (trresBody d id x) id x) s

end Sys2Proof.Machine
end

