-- ==== Sys2Proof/Machine/System.lean ====
section
/-! DEFINITION. Page 15 on contexts, queues, images, translations and budgets (R430 to R447), the Almanac and the firewalls
(R452, R453). -/

namespace Sys2Proof.Machine

-- Targets and authority (R430, R431, R433)

/-- The living target of an issuer: for an unprivileged one, only of its own partition (R431). -/
def targetOf (s : State) (x : Ctx) (t : Nat) : Option Ctx :=
  if t = 0 then none
  else match ctxOf s t with
    | some y => if x.priv || y.part == x.part then some y else none
    | none => none
/-- Authority over a target (R431). -/
def authority (id : Nat) (x y : Ctx) : Bool := x.priv || y.sup.toNat == id
/-- A status or a count returned to the issuer's D, lanes 2 to 15 unchanged (R433). -/
def status (id : Nat) (d : RegNo) (v : Nat) : M Unit := swrite id d (dw v)
/-- A context's state as actions see it: one whose swap has begun is no longer Queued (R435). -/
def seenState (s : State) (id : Nat) (x : Ctx) : CtxState := if x.state = .queued ∧ swapping s id then .resident else x.state
/-- A context as actions see it, in the slot that a swap which has begun gives it (R435, R436). -/
def seenCtx (s : State) (id : Nat) (x : Ctx) : Ctx :=
  match (s.swaps.findSome? fun p => p.2.filter fun w => w.ctx == id) with
  | some w => if x.state = .queued then { x with state := .resident, slot := w.slot } else x
  | none => x
/-- The configuration space and the context that space 9 names (R448). -/
def cfgSpace (a : Dword) : Nat := bits a 63 56
/-- Whether an action's issuer releases its earlier accesses with it (R434). -/
def releasing : Action → Bool
  | .ctxwr _ _ | .ctl .resume | .rqput _ _ | .kload _ | .topup _ _ | .pgwakeCtx _ _ | .pgwakeCopy _ _ _ => true
  | .ctl _ | .rqtake _ _ | .ksave _ | .ctxrd _ | .cfgrd _ | .cfgwr _ _ => false
/-- The context that an action reads: its target, or the one that a configuration word of space 9 is of. -/
def readBy (t : Nat) : Action → Nat
  | .ctxrd _ | .ksave _ => t
  | .cfgrd c => if cfgSpace c = 9 then bits c 55 24 else 0
  | _ => 0
/-- The Stopped or Held context that an action reads, whose accesses on their way come first (R434); one that waits at its home holds
nothing: DESIGN CHOICE (log 73). -/
def acquiresFrom (s : State) (t : Nat) (act : Action) : Option Nat :=
  match ctxOf s (readBy t act) with | some y => if y.state = .stopped ∨ y.state = .held then some (readBy t act) else none | none => none
/-- The reads or writes of an image move's lines, as the accesses of its issuer that they are, numbered n (R226, R444). -/
def imageAccesses (s : State) (id n : Nat) (act : Action) : List Access :=
  match ctxOf s id with
  | none => []
  | some x => (actionLines act).map fun l =>
    { uid := n, ctx := id, seq := 0, ins := n, kind := match act with | .ksave _ => .zline | _ => .read 64, land := .none, src := x.tile, home := l.2.2.1
      place := l.2.1, uaddr := l.1, part := x.part, watched := false, sys := false, deadline := 0, parkedAt := 0, full := false, repair := none, rel := false
      acq := false, floor := match act with | .ksave _ => Nat.max x.moved x.fenced | _ => x.moved, parts := [], comb := none, core := some x.at_ }
/-- Whether an action, numbered n, comes behind an access not yet performed: those of its issuer that it releases, those of a context
that it acquires from, and, for the lines of an image move, those that any access of its issuer would come behind (R226, R434, R444). -/
def actsBehind (s : State) (id n t : Nat) (act : Action) (a : Access) : Bool :=
  (releasing act && (requestsOf a).any fun q => q.1 == id && decide (q.2.2.1 < n))
    || (match acquiresFrom s t act with | some j => carries a j && underWay s a | none => false)
    || (imageAccesses s id n act).any fun b => follows s b a
/-- What an action comes behind, with what that comes behind, and the replies that its own may not pass (R27, R434). -/
def actsFirst (s : State) (id n t : Nat) (act : Action) : Instr → Bool :=
  let f := performsFirst s (actsBehind s id n t act)
  fun i => f i || aheadOfReply s (.contextActionAtTile ⟨id, n⟩ 0 t act) i
/-- An action sent to the tile that holds its target, or to base-die control: the issuer is held until it is done, within 2,048
cycles, some of them for the end of a save (`waitsSave`) and for what it comes behind, which is due before it (R434, R435). -/
def sendAction (id : Nat) (d : RegNo) (t : Nat) (act : Action) : M Unit := do
  updSelf id fun y => { y with hold := some .page15, holdD := d }
  upd fun s => withinBehind s 1984 (actsFirst s id s.uid t act) (.contextActionAtTile ⟨id, s.uid⟩ d.toNat t act)
/-- A held instruction of page 15 ends: its result is written and its issuer goes on (R434). -/
def endHold (s : State) (id : Nat) (result : Option (RegNo × Nat)) : State :=
  let s := updCtx s id fun y => { y with hold := none, after := s.cyc + 1, retry := y.retry.filter (·.pc != 1) }
  let s := match result with | some (d, v) => putReg s id d (withScalar · (dw v)) | none => s
  holdEnds s id

-- CTXRD and CTXWR (R438 to R440)

/-- The class and index of a selector (R438). -/
def selClass (sel : Dword) : Nat := bits sel 15 12
def selIndex (sel : Dword) : Nat := bits sel 7 0
/-- Whether a selector names an item (R438). -/
def selectorOk (y : Ctx) (sel : Dword) (write : Bool) : Bool :=
  match selClass sel with
  | 0 => decide (selIndex sel < y.window)
  | 1 => decide (selIndex sel < 38)
  | 2 => selIndex sel == 0
  | 3 => !write
  | _ => false
/-- The doubleword of an image that holds a special register (R437); cid, cyc and part are in none. -/
def specialDw (n : Nat) : Option Nat :=
  if n ≤ 7 then some (n + 2) else if n = 9 ∨ n = 10 then some (n + 1) else if 13 ≤ n ∧ n ≤ 15 then some (n - 1)
  else if 16 ≤ n ∧ n ≤ 31 then some (n + 2) else if 32 ≤ n ∧ n ≤ 37 then some (n + 2) else none
/-- Whether doubleword j of a context's image cannot be read (R425): its mark, or its word's in the backing slot. -/
def imageDwBad (s : State) (t : Nat) (y : Ctx) (j : Nat) : Bool :=
  if y.inMem then errAt s (slotAddr s y.part t + 8 * j) else dwErr s t j
/-- MEMERR of a read of a context's item: of a window register in its core, or of an image (R413, R425). -/
def itemErr (y : Ctx) : Flt := flt .memerr 0 (if y.state == .held || y.state == .queued || y.state == .parkedOut then 4 else 2) 0
/-- The MEMERR that a read of a context's item meets (R425, R454). -/
def readErr (s : State) (t : Nat) (y : Ctx) (sel : Dword) : Option Flt :=
  let ds := match selClass sel with
    | 0 => (List.range 8).map (48 + 8 * selIndex sel + ·)
    | 1 => (specialDw (selIndex sel)).toList
    | 2 => [0, 1]
    | _ => []
  if ds.any (imageDwBad s t y) then some (itemErr y) else none
/-- Whether a lookahead rule holds the instruction at a Resident context's pc (R436). -/
def lookaheadWaits (s : State) (id : Nat) (x : Ctx) : Bool :=
  x.state == .resident && (match fetchChain s id x with | .instr i _ _ => lookaheadHeld s id x i | _ => false)
/-- CTXRD at the target's tile: the item written to the issuer's D; zero where the target lives no more (R439). -/
def readItem (s : State) (issuer : Nat) (d : RegNo) (t : Nat) (sel : Dword) : State :=
  match ctxOf s t with
  | none => putReg s issuer d fun _ => 0
  | some y =>
    let z := seenCtx s t (imageOf s t y)
    match selClass sel with
    | 0 => putReg s issuer d fun _ => z.reg (selIndex sel)
    | 1 => putReg s issuer d (withScalar · (special s t z z.pc (selIndex sel)))
    | 2 => putReg s issuer d (mergeLanes 15 (ofDwords [z.desc0 (lookaheadWaits s t z), z.desc1]))
    | _ => putReg s issuer d fun _ => (z.inbox.map (·.msg)).getD (selIndex sel) 0
/-- R439: what can be refused is judged at issue; the item is read when the action reaches the target's tile. -/
def execCtxrd (d a : RegNo) (s : State) :=
  run (.ctxrd d a) (fun id x => do
    let sel := x.dword a 1
    let s ← get
    match targetOf s x (x.lane0 a) with
    | none => charge id 1 0; wwrite id d 0
    | some y =>
      raiseIf (!authority id x y) (flt .priv (x.scalar a) 0 0)
      raiseIf (!selectorOk y sel false) (valueFault .seglim sel)
      match readErr s (x.lane0 a) y sel with
      | some f => raise f
      | none => charge id 1 0; sendAction id d (x.lane0 a) (.ctxrd sel)) s
/-- Whether CTXWR of classes 0 and 1 finds a target that it may write (R440). -/
def writable (s : State) (t : Nat) (y : Ctx) (sel : Dword) : Bool :=
  !(decide (selClass sel ≤ 1)) || seenState s t y == .stopped || seenState s t y == .held
/-- The fault of a CTXWR beyond its issuer's privilege or of an odd address (R440). -/
def writeFault (x : Ctx) (sel : Dword) (v : Reg) (b : Dword) : Option Flt :=
  match selClass sel with
  | 1 =>
    if specialPriv (selIndex sel) && !x.priv then some (flt .priv b 0 0)
    else if (selIndex sel == 0 || selIndex sel == 5) && bit (dword v 0) 0 then some (valueFault .align (dword v 0))
    else none
  | 2 => if !x.priv && decide (bits (dword v 0) 9 8 < x.priority) then some (flt .priv b 0 0) else none
  | _ => none
/-- R440. -/
def execCtxwr (d a b : RegNo) (s : State) :=
  run (.ctxwr d a b) (fun id x => do
    let sel := x.dword a 1
    let v := x.reg b.toNat
    let s ← get
    match targetOf s x (x.lane0 a) with
    | none => charge id 1 0; status id d 1
    | some y =>
      raiseIf (!authority id x y) (flt .priv (x.scalar a) 0 0)
      raiseIf (!selectorOk y sel true) (valueFault .seglim sel)
      if !writable s (x.lane0 a) y sel then charge id 1 0; status id d 2
      else match writeFault x sel v (x.scalar b) with
        | some f => raise f
        | none => charge id 1 0; sendAction id d (x.lane0 a) (.ctxwr sel v)) s
/-- The write of CTXWR at the target's tile (R440); a bank check that the CPY of a Stopped or Held context has passed is made again
where its registers change (R330). -/
def writeItem (s : State) (t : Nat) (sel : Dword) (v : Reg) : State :=
  let s := if selClass sel ≤ 1 then dropChecks (readBack s t) t else readBack s t
  restImage (match selClass sel with
  | 0 => putReg s t (BitVec.ofNat 8 (selIndex sel)) fun _ => v
  | 1 => updCtx s t fun y => if selIndex sel = 0 then { y with pc := dword v 0, resume := 0, retry := none, aside := none, visits := 0, spent := 0 } else writeSpecial y (selIndex sel) (dword v 0)
  | _ => updCtx s t fun y => { y with priority := bits (dword v 0) 9 8, wdog := bits (dword v 1) 63 32 }) t

-- CTXCTL, RQPUT, RQTAKE (R441 to R443)

/-- The action of CTXCTL (R441). -/
def ctlAct (b : Nat) : CtlAct :=
  match b % 16 with
  | 0 => .stop | 1 => .resume | 2 => .swapOut | 3 => .retire | 4 => .drop (b / 256 % 64) | _ => .bad
/-- CTXCTL at issue (R431, R441). -/
def ctxctl (i : Instr) (d a b : RegNo) (s : State) : Host.Outcome State Fault Refusal :=
  run i (fun id x => do
    let s ← get
    match targetOf s x (x.lane0 a) with
    | none => charge id 1 0; status id d 1
    | some y =>
      raiseIf (!authority id x y) (flt .priv (x.scalar a) 0 0)
      charge id 1 0
      sendAction id d (x.lane0 a) (.ctl (ctlAct (x.lane0 b)))) s
def execCtxctlStop (d a b : RegNo) (s : State) := ctxctl (.ctxctlStop d a b) d a b s
def execCtxctlResume (d a b : RegNo) (s : State) := ctxctl (.ctxctlResume d a b) d a b s
def execCtxctlSwapOut (d a b : RegNo) (s : State) := ctxctl (.ctxctlSwapOut d a b) d a b s
def execCtxctlRetire (d a b : RegNo) (s : State) := ctxctl (.ctxctlRetire d a b) d a b s
def execCtxctlDrop (d a b : RegNo) (s : State) := ctxctl (.ctxctlDrop d a b) d a b s
/-- A Parked context swapped out: its outstanding instructions that wait in no park complete, and its save makes it Parked-out
(R48, R420). -/
def parkOut (s : State) (t : Nat) (y : Ctx) : State :=
  if y.saving.isSome then s
  else trySave (setCtx s t { y with saving := some .parkOut, graceOn := false, graceI := 0, graceM := 0 }) t
/-- A Held context queued on a core of its tile; a tile under repair does not permit it (R427, R441, R442). Nor does one of no
partition, which is powered down (R32): DESIGN CHOICE (log 74). -/
def queueHeld (s : State) (t : Nat) (y : Ctx) (core : Nat) : State × Nat :=
  if underRepair s y.tile || (partOf s y.tile).isNone then (s, 2)
  else
    let u := enqueue (setCtx s t { y with stopReq := false, outReq := false, wdogReq := false }) t core y.priority
    (if (ctxOf u t).any (·.inMem) then u else kennelAdd u y.tile t, 0)
/-- Retirement by CTXCTL: an issued MMA, MMAS, traversal step, access to scratch or instruction whose walk waits completes first, a move ends first (R420,
R441). -/
def retireBy (s : State) (t : Nat) (y : Ctx) : State :=
  if mmaFlying y || (match y.hold with | some .traversal | some (.acting _) | some (.walking _ _ _) => true | _ => false) || y.state == .inTransit then setCtx s t { y with retireReq := true } else retire s t false
/-- An action of CTXCTL on a living target: the state after it and its status (R441). -/
def performCtl (s : State) (t : Nat) (y : Ctx) (a : CtlAct) : State × Nat :=
  let st := seenState s t y
  match a with
  | .stop =>
    (if (st = .resident ∨ st = .parked ∨ st = .inTransit) ∧ y.saving.isNone then setCtx s t { y with stopReq := true } else s, 0)
  | .resume =>
    if st = .stopped ∧ y.saving.isNone then (updCtx (resumeStopped s t) t fun z => { z with stopReq := false }, 0)
    else if st = .held then queueHeld s t y (dispatchCore s y.tile y.window)
    else (s, 2)
  | .swapOut => match st with
    | .parked => (parkOut s t y, 0)
    | .stopped => (if y.saving.isNone then leave s t .swapOut else s, 0)
    | .resident => (if y.saving.isNone then setCtx s t { y with stopReq := true, outReq := true } else s, 0)
    | .inTransit => (setCtx s t { y with stopReq := true, outReq := true }, 0)
    | _ => (s, 2)
  | .retire => (retireBy s t y, 0)
  | .drop b =>
    if y.grant.length ≤ b then (s, 3)
    else
      let k := y.grant.getD b 0
      (setBlock s y.tile k (dropReservation (blockAt s y.tile k)), 0)
  | .bad => (s, 3)
/-- An instruction of page 15 that names a target by R433 and needs no more than its life at issue. -/
def targeted (i : Instr) (d a : RegNo) (act : Ctx → Action) (s : State) : Host.Outcome State Fault Refusal :=
  run i (fun id x => do
    let s ← get
    match targetOf s x (x.lane0 a) with
    | none => charge id 1 0; status id d 1
    | some _ => charge id 1 0; sendAction id d (x.lane0 a) (act x)) s
/-- R442. -/
def execRqput (d a b : RegNo) (s : State) := targeted (.rqput d a b) d a (fun x => .rqput (x.lane0 b % 16) (x.lane0 b / 256 % 2 == 1)) s
/-- The placement of RQPUT (R442). -/
def performRqput (s : State) (t : Nat) (y : Ctx) (c : Nat) (any : Bool) : State × Nat :=
  let core := if any then dispatchCore s y.tile y.window else 16 * y.tile + c
  match seenState s t y with
  | .held => queueHeld s t y core
  | .stopped => if y.saving.isNone then (updCtx (resumeStopped s t) t fun z => { z with stopReq := false }, 0) else (s, 2)
  | .queued => if (partOf s y.tile).isNone then (s, 2) else (enqueue (dequeue s t) t core y.priority, 0)
  | _ => (s, 2)
/-- R443: with target 0 the head of a core's queue of the issuer's tile is named at that tile. -/
def execRqtake (d a b : RegNo) (s : State) :=
  run (.rqtake d a b) (fun id x => do
    charge id 1 0
    sendAction id d (x.lane0 a) (.rqtake x.tile (x.lane0 b % 16))) s
/-- The context that RQTAKE makes Held: the state and its id, or 0 (R443). -/
def performRqtake (s : State) (t tile core : Nat) : State × Nat :=
  let id := if t ≠ 0 then t else match readyOf s (16 * tile + core) with | e :: _ => e / 4 | [] => 0
  match ctxOf s id with
  | none => (s, 0)
  | some y => if id ≠ 0 ∧ seenState s id y = .queued then (updCtx (dequeue s id) id fun z => { z with state := .held, slot := 0 }, id) else (s, 0)

-- KSAVE and KLOAD (R437, R444)

/-- The lines of an image area, checked and translated (R162 to R168, R444). -/
def areaOf (s : State) (x : Ctx) (a : Dword) (n : Nat) (r : Rights) : Ready :=
  match segMap x a n 64 r with
  | .error f => .stop (.fault f)
  | .ok u => mapAll x r s ((List.range (n / 64)).map fun i => u + 64 * i)
/-- The uncorrectable error that KSAVE or KLOAD would read (R454). -/
def imageReadErr (s : State) (t : Nat) (y : Ctx) (load : Bool) (l : List (Nat × Spot)) : Option Flt :=
  if load then
    (l.find? fun p => errIn s p.2.place 64).map fun p => flt .memerr (dw p.1) 0 (if isScratch p.2.place then 0 else dw p.2.place)
  else if (List.range (48 + 8 * y.window)).any (imageDwBad s t y) then some (itemErr y)
  else none
/-- KSAVE and KLOAD at issue; a mark in `retry`, at an odd address that no instruction has, keeps theirs, should a line's home enter
repair (R185, R444). -/
def imageMove (load : Bool) (d a b : RegNo) (id : Nat) (x : Ctx) : M Unit := do
  let s ← get
  let t := x.lane0 a
  match targetOf s x t with
  | none => charge id 1 0; status id d 1
  | some y =>
    if !(seenState s t y == .stopped || seenState s t y == .held) then charge id 1 0; status id d 2
    else match areaOf s x (x.scalar b) (imageBytes y) (if load then rightsR else rightsW) with
      | .stop k => trap k
      | .prot f => raise f
      | .spots l s1 => match l.find? fun p => p.2.paged && underRepair s1 p.2.home with
        | some (u, p) => trap (.park (repairPark s x p u))
        | none => match imageReadErr s1 t y load l with
          | some f => raise f
          | none =>
            upd fun _ => s1
            charge id 1 (traffic x l 64)
            let lines := l.map fun p => (p.1, p.2.place, p.2.home, p.2.watched)
            sendAction id d t (if load then .kload lines else .ksave lines)
            updSelf id fun y => { y with retry := some ⟨.repair, 0, none, x.pc.toNat, x.resume.toNat, 1, true⟩ }
def execKsave (d a b : RegNo) (s : State) := run (.ksave d a b) (imageMove false d a b) s
def execKload (d a b : RegNo) (s : State) := run (.kload d a b) (imageMove true d a b) s
/-- A line of an image written as a plain write at its home (R444). -/
def saveLine (part : Nat) (s : State) (p : (Nat × Nat × Nat × Bool) × Reg) : State :=
  let a : Access := { uid := 0, ctx := 0, seq := 0, ins := 0, kind := .write 64 p.2 (BitVec.allOnes 64), land := .none, src := p.1.2.2.1
                      home := p.1.2.2.1, place := p.1.2.1, uaddr := p.1.1, part := part, watched := p.1.2.2.2, sys := false, deadline := 0
                      parkedAt := 0, full := false, repair := none, rel := false, acq := false, floor := 0, parts := [], comb := none }
  match scratchMeets s a with
  | some _ => s
  | none => heardWrite (serveFrom a.home a.place 8 (performOne s a)) a.place 64
/-- The lines of an image as registers. -/
def imageLines (id : Nat) (y : Ctx) : List Reg :=
  (List.range (6 + y.window)).map fun i => ofDwords ((List.range 8).map fun k => imageDw id y false (8 * i + k))
/-- KSAVE at the target's tile (R444). -/
def performKsave (s : State) (issuer t : Nat) (y : Ctx) (lines : List (Nat × Nat × Nat × Bool)) : State × Nat :=
  if !(seenState s t y == .stopped || seenState s t y == .held) then (s, 2)
  else
    let part := match ctxOf s issuer with | some x => x.part | none => 0
    ((lines.zip (imageLines t (imageOf s t y))).foldl (saveLine part) s, 0)
/-- KLOAD at the target's tile, for a partition, whose lines are read at their homes: refused whole where the window differs or an
address is odd (R172, R444). -/
def performKload (s : State) (part t : Nat) (y : Ctx) (lines : List (Nat × Nat × Nat × Bool)) : State × Nat :=
  if !(seenState s t y == .stopped || seenState s t y == .held) then (s, 2)
  else
    let rd := fun (j : Nat) => match lines[j / 8]? with | some p => readDw s (p.2.1 + 8 * (j % 8)) | none => 0
    let s := lines.foldl (fun s p => missFill s part p.2.2.1 p.2.1) s
    if bits (rd 0) 31 24 ≠ y.window ∨ bit (rd 2) 0 ∨ bit (rd 7) 0 then (s, 3)
    else
      let s := clearImageErrs (readBack s t) t
      (restImage (dropChecks (updCtx s t fun z => { loadImage z rd with retry := none, aside := none, visits := 0, spent := 0 }) t) t, 0)

-- PGWAKE and TOPUP (R446, R447)

/-- Whether an address lies in the aligned range of 4 KiB × 4^k that contains another (R446). -/
def inRange (base k u : Nat) : Bool := u / (4096 * 4 ^ k) == base / (4096 * 4 ^ k)
/-- R446. -/
def execPgwake (d a b : RegNo) (s : State) :=
  run (.pgwake d a b) (fun id x => do
    charge id 1 0
    let u := (x.scalar b).toNat
    let k := bits (x.dword a 1) 3 0
    if x.scalar a = 0 then sendAction id d 0 (.pgwakeCopy (bits (x.dword a 1) 10 4) u k)
    else sendAction id d (x.lane0 a) (.pgwakeCtx u k)) s
/-- Whether a range holds the page that the front end is parked at for its context (R186, R446). -/
def wakesFrontEnd (s : State) (t base k : Nat) : Bool :=
  t == frontEndId s && (match s.fePark with | some (.page u) => inRange base k u | _ => false)
/-- The parks of R186 that PGWAKE ends, a context's and the front end's (R446). -/
def performPgwake (s : State) (t base k : Nat) : State × Nat :=
  let u := if wakesFrontEnd s t base k then { s with fePark := none } else s
  let n := bitOf (wakesFrontEnd s t base k)
  match ctxOf u t with
  | none => (u, n)
  | some y => match y.park with
    | some p => if p.kind = .page ∧ inRange base k p.arg then (endPark u t true, 1) else (u, n)
    | none => (u, n)
/-- The held copies that PGWAKE resumes, and the spills held there (R306, R446). -/
def performCopyWake (s : State) (t base k : Nat) : State × Nat :=
  let l := (copiesOf s t).filter fun c => match c.held with | some u => inRange base k u | none => false
  (retrySpills (l.foldl (fun s c => later (updCopy s t c.uid fun e => { e with held := none }) (.copyLineMove t c.uid)) s) t, l.length)
/-- R447. -/
def execTopup (d a b : RegNo) (s : State) :=
  targeted (.topup d a b) d a (fun x => .topup (bits (x.dword b 0) 47 0) (bits (x.dword b 1) 47 0)) s
/-- TOPUP at the target's tile: it ends grace (R447, R78). -/
def performTopup (s : State) (t ia ma : Nat) : State :=
  restImage (updCtx (readBack s t) t fun y => { creditCtx y ia ma with graceOn := false, graceI := 0, graceM := 0 }) t

-- TLBINV, FWSET and ALMSET (R170, R445, R452, R453)

/-- Translations removed from every TLB of the part. -/
def dropTlbs (s : State) (f : Tlb → Bool) : State :=
  let keep := fun (m : FMap (List Tlb)) => (m.map fun (e : Nat × List Tlb) => (e.1, e.2.filter fun t => !f t)).filter fun e => !e.2.isEmpty
  { s with tlb1 := keep s.tlb1, tlb2 := keep s.tlb2 }
/-- Whether an access translated before a number was given has not completed: one that is not in a wait list, a write that its
slice has yet to accept or whose home has yet to drop its copy, a line of a copy, of an MMAS, or of an image (R170, R173, R174,
R300, R445). -/
def accessesOut (s : State) (n : Nat) : Bool :=
  (s.agenda.any fun d => match d.step with
    | .accessAtHome a => (requestsOf a).any fun q => decide (q.2.2.1 < n)
    | .waitListResend a => decide (a.uid < n)
    | .sliceWriteAccept w _ _ _ => decide (w.uid < n)
    | .copyLineLand _ _ _ ws => ws.any fun w => decide (w.num ≤ n)
    | .homeInvalidate t _ => decide (t.num ≤ n)
    | .contextActionAtTile ⟨_, m⟩ _ _ (.ksave _) | .contextActionAtTile ⟨_, m⟩ _ _ (.kload _) => decide (m ≤ n)
    | _ => false)
  || s.engines.any fun e => (e.2.queue ++ e.2.running.toList).any fun k => k.mmas && decide (k.uid < n) && decide (k.data.length < 64 * k.lines.length)
/-- The issuer is held until the accesses translated so far have completed; a mark in `retry`, at an odd address that no
instruction has, keeps a number above theirs (R170). -/
def holdForAccesses (id : Nat) : M Unit := do
  let s ← get
  updSelf id fun y => { y with hold := some .tlbinv, retry := some ⟨.page, s.cyc, none, s.uid, 0, 1, false⟩ }
  upd fun s => later { s with uid := s.uid + 1 } (.tlbinvComplete id)
/-- TLBINV_COMPLETE: once every access translated before has completed; one in a wait list counts as completed (R170, R445). -/
def execTlbinvComplete (id : Nat) (s : State) : Host.Outcome State Fault Refusal :=
  match ctxOf s id with
  | none => .next s
  | some x => match x.hold, x.retry with
    | some .tlbinv, some k =>
      if accessesOut s k.arg then .next (soon s (.tlbinvComplete id))
      else .next (endHold (setCtx s id { x with retry := none }) id none)
    | _, _ => .next s
/-- TLBINV (R445). -/
def tlbinv (i : Instr) (a b : RegNo) (s : State) : Host.Outcome State Fault Refusal :=
  run i (fun id x => do
    let v := x.lane0 b
    let kind := v % 4
    let k := v / 16 % 16
    let p := v / 256 % 4
    raiseIf (decide (2 ≤ kind) || (kind == 0 && decide (12 ≤ k))) (valueFault .seglim (dw v))
    charge id 1 0
    let u := (x.scalar a).toNat
    let meets := fun (t : Tlb) => decide (t.base < u / (4096 * 4 ^ k) * (4096 * 4 ^ k) + 4096 * 4 ^ k)
      && decide (u / (4096 * 4 ^ k) * (4096 * 4 ^ k) < t.base + 4096 * 4 ^ t.k)
    upd (dropTlbs · fun t => t.part == p && (kind == 1 || meets t))
    holdForAccesses id) s
def execTlbinvPage (a b : RegNo) (s : State) := tlbinv (.tlbinvPage a b) a b s
def execTlbinvAll (a b : RegNo) (s : State) := tlbinv (.tlbinvAll a b) a b s
/-- FWSET (R453): a port above 213 is accepted with no effect. -/
def execFwset (a b : RegNo) (s : State) :=
  run (.fwset a b) (fun id x => do
    charge id 1 0
    let v := x.lane0 a
    let port := v % 256
    let n := v / 256 % 8
    if 213 < port then pure ()
    else
      let fwa := setBits (setBits (x.dword b 0) 57 56 0) 11 0 0
      let fwb := setBits (setBits (x.dword b 1) 63 56 0) 11 0 0
      upd fun s => { dropTlbs s (fun t => t.window == some (port, n)) with windows := FMap.set (0, 0) s.windows (8 * port + n) (fwa, fwb) }
      holdForAccesses id) s
/-- Shadow groups written (R452). -/
def setShadow (s : State) (cs : List Nat) (g : Nat) (v : Dword) : State :=
  { s with shadow := cs.foldl (fun m c => FMap.set 0 m (32 * c + g) v) s.shadow }
/-- ALMSET (R452): a commit holds the issuer until the first frame start after its issue. -/
def execAlmset (a b : RegNo) (s : State) :=
  run (.almset a b) (fun id x => do
    let v := x.lane0 a
    let c := v % 512
    let flag := fun n => v / 2 ^ n % 2 == 1
    raiseIf (decide (261 ≤ c)) (valueFault .seglim (dw v))
    charge id 1 0
    if flag 17 then pure () else upd fun s => setShadow s (if flag 15 then List.range 261 else [c]) (v / 512 % 32) (x.scalar b)
    if flag 16 then
      updSelf id fun y => { y with hold := some .almanac }
      upd fun s => schedule s ((s.cyc / 1024 + 1) * 1024) .almanacCommit
    else pure ()) s
/-- ALMANAC_COMMIT: every shadow calendar becomes live, and the issuers that wait for it go on (R452). -/
def execAlmanacCommit (s : State) : Host.Outcome State Fault Refusal :=
  .next ((s.ctxs.filter fun p => p.2.hold == some .almanac).foldl (fun s p => endHold s p.1 none) { s with live := s.shadow })

end Sys2Proof.Machine
end

