-- ==== Sys2Proof/Machine/Config15.lean ====
section
/-! DEFINITION. Configuration space: CFGRD and CFGWR (R448 to R453, R189, R190, R461 to R471). -/

namespace Sys2Proof.Machine

/-- A configuration address's space and selector (R448). -/
def cfgSel (a : Dword) : Nat := bits a 55 0
/-- Whether a space and selector name a configuration word (R448, R461 to R471); a context that is not living has no image,
and a PCIe offset that is misaligned or beyond the window of 1 TiB names nothing (DESIGN CHOICE, log 79). -/
def cfgNames (s : State) (a : Dword) : Bool :=
  let n := cfgSel a
  match cfgSpace a with
  | 0x01 | 0x02 | 0x04 | 0x0A | 0x0B | 0x14 | 0x17 | 0x19 => true
  | 0x03 => decide (n % 16 < 9)
  | 0x05 => decide (n % 128 < 64)
  | 0x06 => decide (n % 128 < 80)
  | 0x07 => decide (n % 512 < 261)
  | 0x08 => decide (n % 256 < 214)
  | 0x09 => alive s (n / 2 ^ 24 % 2 ^ 32)
  | 0x0C => decide (n / 2 ^ 19 % 4 < 3)
  | 0x0D => n / 128 % 16 == 15 || decide (n / 2048 % 32768 < 384)
  | 0x0E => decide (n / 2 ^ 13 % 1024 < 642)
  | 0x0F => decide (n / 2 ^ 13 % 16 < 9)
  | 0x10 => decide (n % 256 < 208) && decide (n / 256 % 4 < 3)
  | 0x11 => (decide (n % 512 < 256) && decide (n / 1024 % 8 < 6)) || (n % 512 == 256 && decide (n / 1024 % 8 < 7))
  | 0x12 => decide (n % 2 ^ 48 < 2 ^ 40) && n % 8 == 0
  | 0x13 => n % 4 == 0
  | 0x15 => decide (n / 2 % 8 < 4)
  | 0x16 => n / 1024 % 2 == 1 || decide (n / 16 % 64 < 33)
  | 0x18 => decide (n < 8) || n == 0x100
  | _ => false
/-- APERTURE of an address that names nothing (R448). -/
def cfgFault (a : Dword) : Flt := flt .aperture a 16 0

-- What the spaces hold

/-- A repair map entry (R14); 15 names none. -/
def repairEntry (s : State) (e : Nat) : Nat := FMap.get 15 s.repairMap e
/-- A wait-list entry's words (R448 space 0x0C). -/
def waitWord (s : State) (t e w : Nat) : Dword :=
  match (FMap.get [] s.waits t)[e]? with
  | none => 0
  | some a => match w with
    | 0 => dw ((if a.land = .frontEnd then frontEndId s else a.ctx) + (match a.kind with | .take => 1 | .put _ => 2 | .qwait _ => 3 | _ => 0) * 2 ^ 32 + 2 ^ 63)
    | 1 => dw a.place
    | _ => dw (a.parkedAt + a.deadline)
/-- A TLB entry's words (R448 space 0x0D). -/
def tlbWord (s : State) (t core e w : Nat) : Dword :=
  match (if core = 15 then FMap.get [] s.tlb2 t else FMap.get [] s.tlb1 (16 * t + core))[e]? with
  | none => 0
  | some k => if w = 0 then dw (2 ^ 63 + k.part * 2 ^ 60 + k.base / 4096 % 2 ^ 44 * 4096 + k.k) else k.leaf
/-- A block's words (R448 space 0x0E): its elements as bytes, its status and reservation. -/
def blockWord (s : State) (t b w : Nat) : Dword :=
  let k := blockAt s t b
  if w = 640 then statusWord k.acc
  else if w = 641 then chstatWord t b k
  else dw (ofBytesLE ((List.range 8).map fun i =>
    let n := 8 * w + i
    BitVec.ofNat 8 ((accElem k.acc (n / 20)).toNat / 256 ^ (n % 20))))
/-- A port queue's words (R448 space 0x0F). -/
def queueWord (s : State) (c p e w : Nat) : Dword :=
  if e = 8 then dw (portQueue s c p).length else dword ((portQueue s c p).getD e 0) w
/-- The registration of a page at its version slice (R189, R190). -/
def versionOf (s : State) (frame k : Nat) : Option Version := (FMap.get [] s.versions (sliceOf frame)).find? fun v => v.frame == frame && v.k == k
/-- A Vigil word: mask and value of a pattern, or the control word (R467). -/
def vigilKey (p w : Nat) : Nat := if w = 32 then 1024 else 64 * p + w
/-- A head (R465). -/
def headAt (s : State) (h : Nat) : Head := FMap.get Head.reset s.heads h
def setHead (s : State) (h : Nat) (x : Head) : State := { s with heads := FMap.set Head.reset s.heads h x }
def headWord (x : Head) (w : Nat) : Dword := match w with | 0 => x.pending.getD x.surface | 1 => x.geometry | 2 => x.format | _ => x.mode
/-- A doubleword of the fault log (R470). -/
def logWord (s : State) (e w : Nat) : Dword := (FMap.get [] s.faultLog e).getD w 0
/-- The word of a configuration address that names one, PCIe apart (R448). -/
def cfgWord (s : State) (a : Dword) : Dword :=
  let n := cfgSel a
  match cfgSpace a with
  | 0x01 => dw (repairEntry s (n % 16))
  | 0x02 => tileWord s (n % 128)
  | 0x03 => partReg s (n / 256 % 4) (n % 16)
  | 0x04 => let r := spillRing s (n / 256 % 4) (n % 128); if n / 1024 % 2 = 0 then r.1 else r.2
  | 0x05 => let r := wakeReg s (n / 256 % 4) (n % 64); if n / 128 % 2 = 0 then r.1 else r.2
  | 0x06 => wayMap s (n % 128)
  | 0x07 => FMap.get 0 s.live (32 * (n % 512) + n / 512 % 32)
  | 0x08 => let r := windowAt s (n % 256) (n / 256 % 8); if n / 2048 % 2 = 0 then r.1 else r.2
  | 0x09 =>
    let id := n / 2 ^ 24 % 2 ^ 32
    (match ctxOf s id with | some y => imageDw id (seenCtx s id (imageOf s id y)) (lookaheadWaits s id y) (n % 2048) | none => 0)
  | 0x0A => (match (readyOf s (16 * (n % 128) + n / 128 % 16))[n / 2048 % 256]? with | some e => dw (e / 4 + e % 4 * 2 ^ 32) | none => 0)
  | 0x0B => dw (countOf s (256 * (n % 128) + n / 128 % 256))
  | 0x0C => waitWord s (n % 128) (n / 128 % 4096) (n / 2 ^ 19 % 4)
  | 0x0D => tlbWord s (n % 128) (n / 128 % 16) (n / 2048 % 32768) (n / 2 ^ 26 % 2)
  | 0x0E => blockWord s (n % 128) (n / 128 % 64) (n / 2 ^ 13 % 1024)
  | 0x0F => queueWord s (n % 2048) (n / 2048 % 4) (n / 2 ^ 13 % 16) (n / 2 ^ 17 % 8)
  | 0x10 => counterAt s (n % 256) (n / 256 % 4)
  | 0x11 => if n % 512 = 256 then ethReg s (n / 512 % 2) (n / 1024 % 8) else ethEntry s (n / 512 % 2) (n % 512) (n / 1024 % 8)
  | 0x14 => (FMap.get 0 s.msi (n % 64)).setWidth 64
  | 0x15 => headWord (headAt s (n % 2)) (n / 2 % 8)
  | 0x16 => if n / 1024 % 2 = 1 then dw (bitOf s.standby) else FMap.get 0 s.vigil (vigilKey (n % 16) (n / 16 % 64))
  | 0x17 => logWord s (n % 16) (n / 16 % 8)
  | 0x18 => if n = 0x100 then 0 else FMap.get 0 s.measures n
  | 0x19 => (match versionOf s (bits (dw n) 47 12 * 4096) (bits (dw n) 51 48) with | some v => dw (v.count + 2 ^ 16) | none => 0)
  | _ => 0
/-- The MEMERR of a CFGRD that reads a doubleword of an image with an uncorrectable error (R425, R454). -/
def cfgErr (s : State) (a : Dword) : Option Flt :=
  if cfgSpace a = 0x09 then
    let id := cfgSel a / 2 ^ 24 % 2 ^ 32
    match ctxOf s id with
    | some y => let j := cfgSel a % 2048; if decide (j < 48 + 8 * y.window) && imageDwBad s id y j then some (itemErr y) else none
    | none => none
  else none
/-- R448: what can be refused is judged at issue. -/
def execCfgrd (d a : RegNo) (s : State) :=
  run (.cfgrd d a) (fun id x => do
    let c := x.scalar a
    let s ← get
    raiseIf (!cfgNames s c) (cfgFault c)
    match cfgErr s c with
    | some f => raise f
    | none => charge id 1 0; sendAction id d 0 (.cfgrd c)) s

-- Writes (R448 to R453)

/-- A write that a space takes: the state after it and the status. -/
abbrev Written := State × Nat
/-- Whether a tile holds no resident or Kennel-held context (R32); one that is moving to it counts as well: DESIGN CHOICE (log
74). -/
def tileVacant (s : State) (t : Nat) : Bool :=
  s.ctxs.all fun p => match p.2.state with
    | .inTransit => p.2.moving != some t
    | .queued | .held | .parkedOut => p.2.tile != t || p.2.inMem
    | .resident | .parked | .stopped => p.2.tile != t
/-- Every cache way of the tiles of the partitions concerned emptied (R171). -/
def dropPartWays (s : State) (ps : List Nat) : State :=
  { s with ways := s.ways.filter fun e => match partOf s (e.1 / 2 ^ 20) with | some p => !ps.contains p | none => true }
/-- The partitions that a change of a tile state word concerns. -/
def concerned (old v : Dword) : List Nat := (if bit old 3 then [bits old 1 0] else []) ++ (if bit v 3 then [bits v 1 0] else [])
/-- Whether a change of M or part may be made (R32, R171, R449). -/
def membershipOk (s : State) (t : Nat) (old v : Dword) : Bool :=
  tileVacant s t && (concerned old v).all (fun p => (tilesOf s p).all fun u => (FMap.get [] s.waits u).isEmpty)
    && (!inColumn s t || (bit v 3 && bits v 1 0 == 0))
/-- Whether a tile may be placed under repair (R427): no context there but Held ones, their images in memory, none with
tile-bound state; one that is moving between tiles is in none. -/
def repairOk (s : State) (t : Nat) : Bool :=
  (kennelOf s t).isEmpty && s.ctxs.all fun p => p.2.tile != t || p.2.state == .inTransit || (p.2.state == .held && p.2.inMem && !tileBound s p.1 p.2)
/-- A tile leaves repair: its contexts, wait lists and SRAM are those of R21, and images in memory return to its Kennel
where they can be read and the tile is of a partition (R32, R33, R427, R429). -/
def leaveRepair (s : State) (t : Nat) : State :=
  let s := clearTile (dropWaiters s t) t
  (s.ctxs.filter fun p => p.2.tile == t && p.2.inMem && (partOf s t).isSome && imageDay s p.1 p.2).foldl (fun s p => readBack s p.1) s
/-- A tile state word written (R449). A tile that leaves every partition and joins one again keeps what it held, except its cache ways, for
which R32 leaves no choice: DESIGN CHOICE (log 74). -/
def writeTile (s : State) (t : Nat) (v : Dword) : Written :=
  let old := tileWord s t
  let v := dw (bits v 1 0 + bits v 3 3 * 8 + bits v 7 7 * 128)
  let moves := bits old 3 3 != bits v 3 3 || bits old 1 0 != bits v 1 0
  if moves && !membershipOk s t old v then (s, 3)
  else if bit v 7 && !bit old 7 && !repairOk s t then (s, 3)
  else
    let s := if moves then dropPartWays s (concerned old v) else s
    let s := { s with tiles := FMap.set 0 s.tiles t v }
    (if bit old 7 && !bit v 7 then leaveRepair s t else s, 0)
/-- A partition register written (R450, R65). -/
def writePart (s : State) (p i : Nat) (v : Dword) : Written :=
  match i with
  | 0 => (setPartReg s p 0 (dw (bits v 47 12 * 4096)), 0)
  | 1 => if bits v 31 0 = 0 then (s, 3) else (setPartReg s p 1 (dw (bits v 31 0)), 0)
  | 5 => (setPartReg s p 5 (dw (bits v 55 0)), 0)
  | 6 => (setPartReg s p 6 (dw (bits v 55 0)), 0)
  | 7 => (setPartReg s p 7 (dw (bits v 0 0)), 0)
  | 8 =>
    let b := bits v 47 12 * 4096
    if populated b && populated (b + 8640 * 8192 * 128 - 1) then (setPartReg s p 8 (dw b), 0) else (s, 3)
  | i => (setPartReg s p i (dw (bits v 31 0)), 0)
/-- A spill ring's base or capacity written, and held spills tried again (R306). -/
def writeSpill (s : State) (p t w : Nat) (v : Dword) : Written :=
  let r := spillRing s p t
  (retrySpills { s with spills := FMap.set (0, 0) s.spills (128 * p + t) (if w = 0 then (dw (bits v 55 0 / 64 * 64), r.2) else (r.1, v)) } t, 0)
/-- A wake register written; the target hears of a latch that goes from 0 to 1 (R369, R370). -/
def writeWake (s : State) (p k w : Nat) (v : Dword) : Written :=
  let r := wakeReg s p k
  let new := if w = 0 then (setBits v 61 56 0, r.2) else (r.1, dw (bits v 55 0))
  let t := nameUpload { s with wakes := FMap.set (0, 0) s.wakes (64 * p + k) new } p k
  let t := if bit new.1 62 then t else setRung t p k false
  if bit new.1 62 && !bit r.1 62 then
    (notify { t with latched := FMap.set 0 t.latched (64 * p + k) (t.cyc + 1) } frontEndPort (bits (partReg t p 4) 31 0) [0x500, dw k, dw (bits new.1 55 0)], 0)
  else (t, 0)
/-- The bits that each doubleword of a translation entry, and of a port's registers, holds (R461). -/
def entryMask (w : Nat) (v : Dword) : Dword :=
  match w with
  | 0 => setBits (setBits v 62 56 0) 5 0 0
  | 1 => dw (bits v 31 0)
  | 2 => dw (bits v 13 0)
  | 4 => dw (bits v 55 0 / 64 * 64)
  | 5 => dw (bits v 31 0)
  | _ => v
/-- A port's transmission goes on where its tail is ahead of its head (R463). -/
def startTransmit (s : State) (p : Nat) : State :=
  if s.agenda.any fun d => d.step == .transmitFrame p then s else later s (.transmitFrame p)
/-- A port register written (R461, R463). -/
def writePort (s : State) (p w : Nat) (v : Dword) : Written :=
  match w with
  | 0 => (setEthReg s p 0 (dw (bits v 13 0)), 0)
  | 1 => (setEthReg s p 1 (dw (bits v 55 0)), 0)
  | 2 => (setEthReg s p 2 (dw (bits v 31 0)), 0)
  | 3 =>
    let tail := ethReg s p 3
    (match portDw s (208 + p) (ethReg s p 1).toNat with
      | none => (s, 3)
      | some head =>
        if v.toNat < tail.toNat ∨ head.toNat + (ethReg s p 2).toNat < v.toNat then (s, 3)
        else (startTransmit (setEthReg s p 3 v) p, 0))
  | _ => (s, 0)
/-- A head's register written; a surface takes effect at the next vertical blank (R465). -/
def writeHead (s : State) (h w : Nat) (v : Dword) : Written :=
  let x := headAt s h
  match w with
  | 0 => (setHead s h { x with pending := some (dw (bits v 55 12 * 4096)) }, 0)
  | 1 => (setHead s h { x with geometry := dw (bits v 47 0) }, 0)
  | 2 => (setHead s h { x with format := dw (bits v 1 0) }, 0)
  | _ => (s, 0)
/-- Standby begins where every context of the system column is Held or Queued with its image in memory (R467). Any other value powers
what a restore has left gated: DESIGN CHOICE (log 50). -/
def writeStandby (s : State) (v : Dword) : Written :=
  if v ≠ 1 then ({ s with restored := none }, 0)
  else if s.ctxs.all fun p => !inColumn s p.2.tile || ((p.2.state == .held || p.2.state == .queued) && p.2.inMem) then ({ s with standby := true, restored := none }, 0)
  else (s, 3)
/-- A quote requested (R471). -/
def writeQuote (s : State) (id : Nat) (v : Dword) : Written :=
  if s.quote.isSome then (s, 2)
  else (within { s with quote := some (bits v 55 0 / 64 * 64, id) } 3800000000 .quoteComplete, 0)
/-- A page registered for version counting, or its registration ended (R190); status 3 comes before status 2 where both hold:
DESIGN CHOICE (log 75). -/
def writeVersion (s : State) (n : Nat) (v : Dword) : Written :=
  let frame := bits (dw n) 47 12 * 4096
  let k := bits (dw n) 51 48
  let sl := sliceOf frame
  let l := FMap.get [] s.versions sl
  let put := fun (l : List Version) => { s with versions := FMap.set [] s.versions sl l }
  match v.toNat with
  | 1 =>
    if (versionOf s frame k).isSome ∨ 11 < k ∨ frame % (4096 * 4 ^ k) ≠ 0 then (s, 3)
    else if 256 ≤ l.length then (s, 2)
    else (put (l ++ [⟨frame, k, 0⟩]), 0)
  | 0 => if (versionOf s frame k).isSome then (put (l.filter fun e => !(e.frame == frame && e.k == k)), 0) else (s, 3)
  | _ => (s, 3)
/-- A write to a device behind the PCIe port (R464). -/
def writePcie (s : State) (p : Nat) : Written := (drawn s p 1, if Config.pcieWrite p (drawsOf s p) then 0 else 3)
/-- A configuration word written by a context: the state after it and the status; a read-only space changes nothing (R448). -/
def cfgWrite (s : State) (id : Nat) (a v : Dword) : Written :=
  let n := cfgSel a
  match cfgSpace a with
  | 0x02 => writeTile s (n % 128) v
  | 0x03 => writePart s (n / 256 % 4) (n % 16) v
  | 0x04 => writeSpill s (n / 256 % 4) (n % 128) (n / 1024 % 2) v
  | 0x05 => writeWake s (n / 256 % 4) (n % 64) (n / 128 % 2) v
  | 0x06 => ({ s with wayMaps := FMap.set 0 s.wayMaps (n % 128) (dw (bits v 31 0)) }, 0)
  | 0x10 => (setCounter s (n % 256) (n / 256 % 4) v, 0)
  | 0x11 =>
    if n % 512 = 256 then writePort s (n / 512 % 2) (n / 1024 % 8) v
    else ({ s with ethTable := FMap.set 0 s.ethTable (8 * (256 * (n / 512 % 2) + n % 512) + n / 1024 % 8) (entryMask (n / 1024 % 8) v) }, 0)
  | 0x12 => writePcie s (partOfCtx s id)
  | 0x13 => writePcie s (partOfCtx s id)
  | 0x14 => ({ s with msi := FMap.set 0 s.msi (n % 64) (v.setWidth 32) }, 0)
  | 0x15 => writeHead s (n % 2) (n / 2 % 8) v
  | 0x16 =>
    if n / 1024 % 2 = 1 then writeStandby s v
    else ({ s with vigil := FMap.set 0 s.vigil (vigilKey (n % 16) (n / 16 % 64)) (if n / 16 % 64 = 32 then dw (bits v 27 0) else v) }, 0)
  | 0x18 => if n = 0x100 then writeQuote s id v else (s, 0)
  | 0x19 => writeVersion s n v
  | _ => (s, 0)
/-- CFGWR (R448): the space and selector in A decide what is written, when the write reaches base-die control. -/
def cfgwr (i : Instr) (d a b : RegNo) (s : State) : Host.Outcome State Fault Refusal :=
  run i (fun id x => do
    let c := x.scalar a
    let s ← get
    raiseIf (!cfgNames s c) (cfgFault c)
    charge id 1 0
    sendAction id d 0 (.cfgwr c (x.scalar b))) s
def execCfgwrTileMembership (d a b : RegNo) (s : State) := cfgwr (.cfgwrTileMembership d a b) d a b s
def execCfgwrRepairEnter (d a b : RegNo) (s : State) := cfgwr (.cfgwrRepairEnter d a b) d a b s
def execCfgwrReturnToService (d a b : RegNo) (s : State) := cfgwr (.cfgwrReturnToService d a b) d a b s
def execCfgwrPartitionRegister (d a b : RegNo) (s : State) := cfgwr (.cfgwrPartitionRegister d a b) d a b s
def execCfgwrSpillRing (d a b : RegNo) (s : State) := cfgwr (.cfgwrSpillRing d a b) d a b s
def execCfgwrWakeRegister (d a b : RegNo) (s : State) := cfgwr (.cfgwrWakeRegister d a b) d a b s
def execCfgwrWayMap (d a b : RegNo) (s : State) := cfgwr (.cfgwrWayMap d a b) d a b s
def execCfgwrErrorCounter (d a b : RegNo) (s : State) := cfgwr (.cfgwrErrorCounter d a b) d a b s
def execCfgwrPortEntry (d a b : RegNo) (s : State) := cfgwr (.cfgwrPortEntry d a b) d a b s
def execCfgwrTransmitTail (d a b : RegNo) (s : State) := cfgwr (.cfgwrTransmitTail d a b) d a b s
def execCfgwrPcieMemory (d a b : RegNo) (s : State) := cfgwr (.cfgwrPcieMemory d a b) d a b s
def execCfgwrPcieConfig (d a b : RegNo) (s : State) := cfgwr (.cfgwrPcieConfig d a b) d a b s
def execCfgwrMsiRoute (d a b : RegNo) (s : State) := cfgwr (.cfgwrMsiRoute d a b) d a b s
def execCfgwrScanoutHead (d a b : RegNo) (s : State) := cfgwr (.cfgwrScanoutHead d a b) d a b s
def execCfgwrVigil (d a b : RegNo) (s : State) := cfgwr (.cfgwrVigil d a b) d a b s
def execCfgwrStandby (d a b : RegNo) (s : State) := cfgwr (.cfgwrStandby d a b) d a b s
def execCfgwrQuoteRequest (d a b : RegNo) (s : State) := cfgwr (.cfgwrQuoteRequest d a b) d a b s
def execCfgwrPageRegister (d a b : RegNo) (s : State) := cfgwr (.cfgwrPageRegister d a b) d a b s
def execCfgwrPageUnregister (d a b : RegNo) (s : State) := cfgwr (.cfgwrPageUnregister d a b) d a b s
def execCfgwrReadOnly (d a b : RegNo) (s : State) := cfgwr (.cfgwrReadOnly d a b) d a b s
-- CONTEXT_ACTION_AT_TILE (R435)

/-- Whether an action waits for its target to arrive (R440, R447). -/
def waitsArrival (y : Ctx) (act : Action) : Bool :=
  match act with
  | .ctxwr sel _ => y.state == .inTransit && selClass sel == 2
  | .topup _ _ => y.state == .inTransit
  | _ => false
/-- Whether an action that queues its target waits for the end of a save that has begun, which is then at hand (R434, R441,
R442). -/
def waitsSave (s : State) (t : Nat) (act : Action) : Bool :=
  (match act with | .ctl .resume | .rqput _ _ => true | _ => false) && s.agenda.any fun d => d.step == .saveComplete t
/-- CFGRD at the space it names; a PCIe request that does not complete is answered with all ones (R448, R464). -/
def readConfig (s : State) (issuer : Nat) (c : Dword) : Dword × State :=
  if cfgSpace c = 0x12 ∨ cfgSpace c = 0x13 then
    let p := partOfCtx s issuer
    ((Config.pcieRead p (drawsOf s p)).getD (BitVec.allOnes 64), drawn s p 1)
  else (cfgWord s c, s)
/-- An action on a living target: the state after it and the result. -/
def performOn (s : State) (issuer t : Nat) (y : Ctx) : Action → State × Nat
  | .ctxwr sel v => if writable s t y sel then (writeItem s t sel v, 0) else (s, 2)
  | .ctl a => performCtl s t y a
  | .rqput c any => performRqput s t y c any
  | .rqtake tile c => performRqtake s t tile c
  | .ksave l => performKsave s issuer t y l
  | .kload l => performKload s (partOfCtx s issuer) t y l
  | .topup ia ma => (performTopup s t ia ma, 0)
  | .pgwakeCtx u k => performPgwake s t u k
  | .pgwakeCopy tile u k => performCopyWake s tile u k
  | .cfgwr c v => cfgWrite s issuer c v
  | .ctxrd _ | .cfgrd _ => (s, 0)
/-- The result of an action whose target is not living (R433, R443, R446). -/
def performNone (s : State) (issuer t : Nat) : Action → State × Nat
  | .rqtake tile c => if t = 0 then performRqtake s 0 tile c else (s, 0)
  | .pgwakeCtx _ _ => (s, 0)
  | .pgwakeCopy tile u k => performCopyWake s tile u k
  | .cfgwr c v => cfgWrite s issuer c v
  | _ => (s, 1)
/-- The first line of an image move whose home is under repair (R185). -/
def repairedLine (s : State) (act : Action) : Option (Nat × Nat) :=
  ((actionLines act).find? fun l => !isScratch l.2.1 && underRepair s l.2.2.1).map fun l => (l.1, l.2.2.1)
/-- The issuer of an image move parks at it, and issues it again with its charge taken (R76, R185). -/
def repairMove (s : State) (id u home : Nat) : State :=
  match ctxOf s id with
  | none => s
  | some x => match x.hold, x.retry with
    | some .page15, some k =>
      let y := { x with hold := none, retry := none, pc := dw k.arg, resume := dw k.arg2 }
      holdEnds (parkCtx (setCtx s id y) id ⟨.repair, s.cyc, some (bits x.fel 31 0), u, home, dw k.arg, true⟩) id
    | _, _ => s
/-- CONTEXT_ACTION_AT_TILE: performed on the state that earlier actions left; its result goes to the issuer (R434,
R435). An image move that meets a home under repair parks its issuer before any line is moved: DESIGN CHOICE (log 98). -/
def execContextActionAtTile (q : Issued) (d target : Nat) (act : Action) (s : State) : Host.Outcome State Fault Refusal :=
  let done := fun (s : State) (result : Option (RegNo × Nat)) => match ctxOf s q.ctx with
    | some x => if x.hold = some .page15 then endHold s q.ctx result else s
    | none => s
  let reg := BitVec.ofNat 8 d
  match act with
  | .ctxrd sel => .next (done (readItem s q.ctx reg target sel) none)
  | .cfgrd c => .next (let r := readConfig s q.ctx c; done (putReg r.2 q.ctx reg (withScalar · r.1)) none)
  | _ => match ctxOf s target with
    | none => .next (let r := performNone s q.ctx target act; done r.1 (some (reg, r.2)))
    | some y =>
      if waitsArrival y act then .next (soon s (.contextActionAtTile q d target act))
      else if waitsSave s target act then .next (soon (hasten s (s.cyc + 1) (· == .saveComplete target)) (.contextActionAtTile q d target act))
      else match (if seenState s target y == .stopped || seenState s target y == .held then repairedLine s act else none) with
        | some (u, h) => .next (repairMove s q.ctx u h)
        | none => .next (let r := performOn s q.ctx target y act; done r.1 (some (reg, r.2)))

/-- The row of an instruction of page 15 that its registers select (R441, R445, R448). -/
def selectRow (s : State) (x : Ctx) (i : Instr) : Instr :=
  match i with
  | .ctxctlStop d a b => (match x.lane0 b % 16 with
    | 1 => .ctxctlResume d a b | 2 => .ctxctlSwapOut d a b | 3 => .ctxctlRetire d a b | 4 => .ctxctlDrop d a b | _ => .ctxctlStop d a b)
  | .tlbinvPage a b => if x.lane0 b % 4 = 1 then .tlbinvAll a b else .tlbinvPage a b
  | .cfgwrTileMembership d a b =>
    let c := x.scalar a
    let n := cfgSel c
    (match cfgSpace c with
      | 0x02 =>
        let old := tileWord s (n % 128)
        let v := x.scalar b
        if bits old 3 3 = bits v 3 3 ∧ bits old 1 0 = bits v 1 0 ∧ bit v 7 ∧ !bit old 7 then .cfgwrRepairEnter d a b
        else if bits old 3 3 = bits v 3 3 ∧ bits old 1 0 = bits v 1 0 ∧ !bit v 7 ∧ bit old 7 then .cfgwrReturnToService d a b
        else .cfgwrTileMembership d a b
      | 0x03 => .cfgwrPartitionRegister d a b
      | 0x04 => .cfgwrSpillRing d a b
      | 0x05 => .cfgwrWakeRegister d a b
      | 0x06 => .cfgwrWayMap d a b
      | 0x10 => .cfgwrErrorCounter d a b
      | 0x11 => if n % 512 = 256 ∧ n / 1024 % 8 = 3 then .cfgwrTransmitTail d a b else .cfgwrPortEntry d a b
      | 0x12 => .cfgwrPcieMemory d a b
      | 0x13 => .cfgwrPcieConfig d a b
      | 0x14 => .cfgwrMsiRoute d a b
      | 0x15 => .cfgwrScanoutHead d a b
      | 0x16 => if n / 1024 % 2 = 1 then .cfgwrStandby d a b else .cfgwrVigil d a b
      | 0x18 => if n = 0x100 then .cfgwrQuoteRequest d a b else .cfgwrReadOnly d a b
      | 0x19 => if x.scalar b = 0 then .cfgwrPageUnregister d a b else .cfgwrPageRegister d a b
      | _ => .cfgwrReadOnly d a b)
  | i => i

end Sys2Proof.Machine
end

