-- ==== Sys2Proof/Machine/FrontEnd.lean ====
section
/-! DEFINITION. The graph front end (R348 to R372): uploads, runs, the starting and completing of nodes, launches, pipeline
nodes, and the mapping of queues. -/

namespace Sys2Proof.Machine

-- The front end's accesses (R348, R453)

/-- Where a word of a front-end access lies: through the firewall windows of its tile's port (R348, R453). -/
def feSpot (s : State) (u : Nat) (r : Rights) : Option Spot :=
  match roleTile s 1 with
  | none => none
  | some t => match mapFor false s 0 (16 * t) u r with | .spot p _ => some p | _ => none
/-- A doubleword that the front end reads; zero where it cannot. -/
def feRead (s : State) (u : Nat) : Dword := match feSpot s u rightsR with | some p => readDw s p.place | none => 0
/-- Whether a word is full, as the front end finds it. -/
def feFull (s : State) (u : Nat) : Bool := match feSpot s u rightsRS with | some p => tagAt s p.place | none => false
/-- An access of the front end performed at its home, its waiters served (R180, R184). -/
def feDo (s : State) (part u : Nat) (k : AccKind) (r : Rights) : State :=
  match feSpot s u r with
  | none => s
  | some p =>
    let a : Access := { uid := 0, ctx := 0, seq := 0, ins := 0, kind := k, land := .none, src := p.home, home := p.home, place := p.place, uaddr := u
                        part := part, watched := p.watched, sys := false, deadline := 0, parkedAt := 0, full := false, repair := none, rel := false, acq := false, floor := 0
                        parts := [], comb := none }
    if proceeds s a then heardWrite (serveFrom p.home p.place 1 (performOne s a)) p.place 8 else s
def feStf (s : State) (part u : Nat) (v : Dword) : State := feDo s part u (.stf v) rightsRWS
def feSete (s : State) (part u : Nat) : State := feDo s part u .sete rightsRWS
def feTake (s : State) (part u : Nat) : State := feDo s part u .take rightsRWS
def feStore (s : State) (part u : Nat) (v : Dword) : State := feDo s part u (.write 8 (v.setWidth 512) (BitVec.allOnes 64)) rightsW

/-- Whether a fault has stopped the front end (R352, R409). That it is its context that stops is DESIGN CHOICE (log 76). -/
def frontEndStopped (s : State) : Bool := match ctxOf s (frontEndId s) with | some x => x.state == .stopped || x.state == .held | none => false
/-- The front end's own fel (R352). -/
def frontEndFel (s : State) : Nat := match ctxOf s (frontEndId s) with | some x => bits x.fel 31 0 | none => 0
/-- The front end parks at a page that is not present, with its request to the paging service (R186, R187, R352). -/
def fePagePark (s : State) (u : Nat) (write tr : Bool) : State :=
  match ctxOf s (frontEndId s) with
  | none => s
  | some x => notify { s with fePark := some (.page u) } x.tile (bits (partReg s x.part 3) 31 0)
      [0x100, dw (frontEndId s), dw u, x.pc, dw (bitOf write + bitOf tr * 2 + x.tile * 8)]
/-- What the front end meets at a word: nothing that holds it, a day that its walk or its line waits for (none), or the state in which it
parks or a fault has stopped it (R33, R185, R186, R352, R409). The front end of a part without its context meets nothing. -/
def feMeet (s : State) (a : Nat × Rights) : Option (Option State) :=
  match roleTile s 1, ctxOf s (frontEndId s) with
  | some t, some _ =>
    if regionOf a.1 == .paged && walkWaits s false 0 (16 * t) a.1 then some none
    else match mapFor false s 0 (16 * t) a.1 a.2 with
      | .now f => some (some (feFails s f))
      | .prot f => some (some (feFails s f))
      | .absent tr => some (some (fePagePark s a.1 a.2.w tr))
      | .spot p _ =>
        if p.paged && underRepair s p.home then
          some (some (if frontEndFel s = 0 then feFails s ⟨.prot, dw a.1, 32, 0, 0⟩ else { s with fePark := some (.repair a.1 p.home s.cyc) }))
        else if dramWait s p.place (portPart s t a.1) then some none
        else if a.2.r && !a.2.s && errAt s p.place then some (some (feFails s (flt .memerr (dw a.1) 0 (if isScratch p.place then 0 else dw p.place))))
        else none
  | _, _ => none
/-- The front end issues a TAKE, which waits at the word's home as any TAKE does, for as long as the front end's fel (R179 to R182,
R352). -/
def feIssue (s : State) (part u : Nat) (aim : FeAim) : State :=
  let t := (roleTile s 1).getD 0
  match mapFor false s 0 (16 * t) u rightsRWS with
  | .now f => feFails s f
  | .prot f => feFails s f
  | .absent tr => fePagePark s u true tr
  | .spot p _ =>
    meetHome { uid := s.uid, ctx := 0, seq := 0, ins := s.uid, kind := .take, land := .frontEnd, src := t, home := p.home, place := p.place, uaddr := u
               part := part, watched := p.watched, sys := false, deadline := frontEndFel s, parkedAt := 0, full := false, repair := none, rel := false
               acq := false, floor := 0, parts := [], comb := none } { s with uid := s.uid + 1, feWait := some ⟨aim, none⟩ }
/-- The word that the front end's TAKE for an aim has brought, with its cycle. -/
def taken (s : State) (aim : FeAim) : Option (Dword × Nat) := match s.feWait with | some w => if w.aim = aim then w.got else none | none => none
/-- The TAKE for an aim issued where none is out: what it has brought by now, and the state, in which it is out no more. -/
def takeFor (s : State) (part u : Nat) (aim : FeAim) : Option (Dword × Nat) × State :=
  let t := if s.feWait.isNone then feIssue s part u aim else s
  match taken t aim with
  | some v => (some v, { t with feWait := none })
  | none => (none, t)

-- Records (R349, R350, R358)

/-- A graph. -/
def graphAt (s : State) (g : Nat) : Option Graph := s.graphs[g]?
/-- A graph changed. -/
def updGraph (s : State) (g : Nat) (f : Graph → Graph) : State := { s with graphs := s.graphs.mapIdx fun i x => if i = g then f x else x }
/-- A node of a run changed. -/
def updNode (s : State) (g n : Nat) (f : NodeRun → NodeRun) : State :=
  updGraph s g fun x => { x with nodes := x.nodes.mapIdx fun j y => if j = n then f y else y }
/-- A node of a run at its beginning. -/
def NodeRun.fresh : NodeRun := ⟨.waiting, 0, [], false, false, []⟩
/-- Doubleword j of a graph record, and of a node record (R349, R350). -/
def graphDw (s : State) (x : Graph) (j : Nat) : Dword := feRead s (x.addr + 8 * j)
def nodeAddr (x : Graph) (n : Nat) : Nat := x.addr + 64 + 128 * n
def nodeDw (s : State) (x : Graph) (n j : Nat) : Dword := feRead s (nodeAddr x n + 8 * j)
def nodeKind (s : State) (x : Graph) (n : Nat) : Nat := bits (nodeDw s x n 2) 34 32
def nodePrio (s : State) (x : Graph) (n : Nat) : Nat := bits (nodeDw s x n 2) 27 26
def nodeQueue (s : State) (x : Graph) (n : Nat) : Nat := bits (nodeDw s x n 2) 21 16
def nodeAfter (s : State) (x : Graph) (n : Nat) : Option Nat := let a := bits (nodeDw s x n 2) 15 0; if a = 0xFFFF then none else some a
def nodeDeadline (s : State) (x : Graph) (n : Nat) : Nat := bits (nodeDw s x n 1) 63 32
def nodeWork (s : State) (x : Graph) (n : Nat) : Nat := bits (nodeDw s x n 1) 31 0
/-- A node's tile set, ascending (R350). -/
def nodeTiles (s : State) (x : Graph) (n : Nat) : List Nat :=
  (List.range 128).filter fun t => if t < 64 then bit (nodeDw s x n 3) t else bit (nodeDw s x n 4) (t - 64)
/-- The late policy of a node's priority (R349, R357). -/
def nodePolicy (s : State) (x : Graph) (n : Nat) : Nat := let p := nodePrio s x n; bits (graphDw s x 3) (2 * p + 1) (2 * p)
def nodeOptional (s : State) (x : Graph) (n : Nat) : Bool := bit (nodeDw s x n 2) 23
/-- A launch header's doubleword: of a kernel, or of stage k of a pipeline (R350, R358). -/
def headerDw (s : State) (x : Graph) (n k j : Nat) : Dword := feRead s ((nodeDw s x n 0).toNat + 256 * k + 8 * j)

-- Work identifiers (R72, R359, R360)

/-- The width and the placement of field k (R47). -/
def fieldWidth (wfw : Dword) (k : Nat) : Nat := bits wfw (7 * k + 6) (7 * k)
def fieldPlace (wfw : Dword) (k : Nat) : Nat := bits wfw (44 + 3 * k) (42 + 3 * k)
/-- The fields that are present. -/
def present (wfw : Dword) : List Nat := (List.range 6).filter fun k => fieldWidth wfw k != 0
/-- The total width of the fields with a placement. -/
def widthOf (wfw : Dword) (p : Nat) : Nat := ((present wfw).filter fun k => fieldPlace wfw k == p).foldl (fun n k => n + fieldWidth wfw k) 0
/-- The total width. -/
def totalWidth (wfw : Dword) : Nat := (List.range 6).foldl (fun n k => n + fieldWidth wfw k) 0
/-- Whether a field layout is accepted for N work items (R359). -/
def layoutOk (wfw : Dword) (n : Nat) : Bool :=
  let ps := (present wfw).map (fieldPlace wfw)
  decide (totalWidth wfw ≤ 64) && ps.all (fun p => decide (p < 5)) && (ps.zip ps.tail).all (fun p => decide (p.1 ≤ p.2))
    && widthOf wfw 0 == 4 && decide (widthOf wfw 2 ≤ 4) && decide (widthOf wfw 3 ≤ 7) && widthOf wfw 4 == 0
    && decide (n ≤ 2 ^ totalWidth wfw)
/-- v_P(x) of R359: the fields of x with placement P, the lower less significant; `from_` is where field k begins. -/
def placedFrom (wfw : Dword) (p x : Nat) : List Nat → Nat → Nat
  | [], _ => 0
  | k :: t, from_ =>
    let w := fieldWidth wfw k
    if w ≠ 0 ∧ fieldPlace wfw k = p then x / 2 ^ from_ % 2 ^ w + 2 ^ w * placedFrom wfw p x t (from_ + w) else placedFrom wfw p x t (from_ + w)
def placedValue (wfw : Dword) (p x : Nat) : Nat := placedFrom wfw p x (List.range 6) 0

-- Checks (R356)

/-- The reserved fields of a header that are not zero, those of its segments among them (R161, R358). -/
def headerReserved (s : State) (x : Graph) (n k : Nat) : Bool :=
  let h := headerDw s x n k
  bit (h 1) 23 || bit (h 1) 11 || bits (h 2) 63 48 != 0 || bits (h 3) 63 48 != 0 || bits (h 4) 63 60 != 0 || h 6 != 0 || h 7 != 0
    || (List.range 8).any (fun i => h (24 + i) != 0 || bits (h (8 + 2 * i)) 63 56 != 0 || bits (h (9 + 2 * i)) 58 56 != 0)
/-- The first reason of 1 to 6 for which a header fails (R356). -/
def headerReason (s : State) (x : Graph) (n k work : Nat) : Option Nat :=
  let h := headerDw s x n k
  let w := bits (h 1) 7 0
  let arg := bits (h 1) 31 24
  if w % 8 ≠ 0 ∨ w < 8 ∨ 128 < w then some 1
  else if !layoutOk (h 4) work then some 2
  else if (bits (h 2) 47 0 = all1 ∧ x.part ≠ 0) ∨ (bits (h 3) 47 0 = all1 ∧ !bit (partReg s x.part 7) 0) ∨ (bit (h 1) 10 ∧ x.part ≠ 0) then some 3
  else if 64 < bits (h 1) 22 16 ∨ (arg ≠ 0 ∧ w ≤ arg - 1) ∨ headerReserved s x n k then some 4
  else if bit (h 0) 0 then some 6
  else none
/-- Whether a node's tile set is empty or names a tile outside the partition or under repair (R356 reason 5). -/
def tilesBad (s : State) (x : Graph) (n : Nat) : Bool :=
  (nodeTiles s x n).isEmpty || (nodeTiles s x n).any fun t => partOf s t != some x.part || underRepair s t
/-- The contexts of a kernel node (R360). -/
def contextCount (s : State) (x : Graph) (n : Nat) : Nat := (nodeWork s x n + 15) / 16
/-- Every reason for which a node's record or header fails (R350, R356, R360, R364); a tile set is checked for every kind. -/
def nodeReasons (s : State) (x : Graph) (n : Nat) : List Nat :=
  let d2 := nodeDw s x n 2
  let reserved := bits d2 63 44 != 0 || nodeDw s x n 5 != 0 || nodeDw s x n 6 != 0 || nodeDw s x n 7 != 0
  (if reserved then [4] else []) ++ (if tilesBad s x n then [5] else [])
    ++ (if nodeOptional s x n && nodePolicy s x n == 3 then [9] else [])
    ++ match nodeKind s x n with
      | 0 =>
        let wfw := headerDw s x n 0 4
        (headerReason s x n 0 (nodeWork s x n)).toList
          ++ if !tilesBad s x n && widthOf wfw 3 != 0 && (List.range (contextCount s x n)).any (fun i => decide ((nodeTiles s x n).length ≤ placedValue wfw 3 (16 * i))) then [2] else []
      | 1 =>
        let st := bits d2 39 35
        if st < 2 ∨ 16 < st ∨ 16 < bits d2 43 40 + st ∨ (List.range st).any (fun k => (headerReason s x n k 0).isSome) then [7] else []
      | 2 | 3 | 4 => []
      | _ => [6]
/-- The reason for which a node is rejected at its start: of those that hold the lowest, DESIGN CHOICE (log 52). -/
def nodeReason (s : State) (x : Graph) (n : Nat) : Option Nat := (nodeReasons s x n).min?

-- Launching a context (R41, R287, R358, R360, R361)

/-- The free blocks of a tile, ascending (R287). -/
def freeBlocksOf (s : State) (t : Nat) : List Nat := (List.range 64).filter fun b => (blockAt s t b).owner.isNone
/-- Whether a tile has a context-table entry and blocks for a header (R361). -/
def tileHasRoom (s : State) (t acc : Nat) : Bool := (newId s t).isSome && decide (acc ≤ (freeBlocksOf s t).length)
/-- The context that a header gives (R358); no context outside partition 0 is privileged, whatever its header says by now (R430). -/
def launched (s : State) (x : Graph) (n k t wid p0 : Nat) : Ctx :=
  let h := headerDw s x n k
  let arg := bits (h 1) 31 24
  let sup := bits (h 5) 31 0
  let c := Ctx.fresh t (bits (h 1) 7 0)
  { c with
    pc := h 0, wdog := bits (h 1) 63 32, group := bits (h 1) 15 12, priv := bit (h 1) 10 && x.part == 0, priority := bits (h 1) 9 8
    ib := dw (bits (h 2) 47 0), mb := dw (bits (h 3) 47 0), wfw := dw (bits (h 4) 59 0), fel := dw (bits (h 5) 63 32)
    sup := dw (if sup = 0 then bits (graphDw s x 4) 31 0 else sup), wid := dw wid, pw := dw p0, part := x.part
    segs := (List.range 8).foldl (fun m i => FMap.set ⟨0, 0⟩ m i ⟨dw (bits (h (8 + 2 * i)) 55 0), setBits (h (9 + 2 * i)) 58 56 0⟩) []
    regs := if arg = 0 then [] else FMap.set 0 [] (arg - 1) (ofDwords ((List.range 8).map fun i => nodeDw s x n (8 + i))) }
/-- A context of a node created at its tile with its grant, the blocks' tags kept (R319): its id and the state, or none where the
tile has no room. -/
def createAt (s : State) (x : Graph) (n k t wid p0 : Nat) : Option (Nat × State) :=
  let acc := bits (headerDw s x n k 1) 22 16
  if !tileHasRoom s t acc then none
  else match newId s t with
    | none => none
    | some (id, s1) =>
      let bs := (freeBlocksOf s t).take acc
      let s2 := bs.foldl (fun s b => setBlock s t b { Block.reset with owner := some id, tag := (blockAt s t b).tag }) s1
      some (id, setCtx s2 id { launched s x n k t wid p0 with grant := bs })

-- Uploads and queues (R351, R369 to R372)

/-- Whether a wake register maps the trigger word of a registered graph. -/
def isTrigger (s : State) (p k : Nat) : Bool := s.graphs.any fun g => g.part == p && g.reg == some k
/-- The queue that gives up its register where all are mapped: one whose L is 0 and whose latch was set least recently, the
lowest register on ties, and no trigger word; none where no queue qualifies (R372). -/
def victim (s : State) (p : Nat) : Option Nat :=
  let age := fun k => FMap.get 0 s.latched (64 * p + k)
  ((List.range 64).filter fun k => !bit (wakeReg s p k).1 62 && !isTrigger s p k).foldl (fun b k => match b with
    | none => some k
    | some j => if age k < age j then some k else some j) none
/-- The wake register that a trigger word takes: the lowest unmapped one above 0, which is left to the upload doorbell (log 77), else
register 0, else the victim's. -/
def freeWake (s : State) (p : Nat) : Option Nat :=
  match ((List.range 64).tail ++ [0]).find? fun k => !bit (wakeReg s p k).1 63 with
  | some k => some k
  | none => victim s p
/-- A wake register's words replaced. -/
def setWake (s : State) (p k : Nat) (wa wb : Dword) : State := { s with wakes := FMap.set (0, 0) s.wakes (64 * p + k) (wa, wb) }
/-- L of a register cleared by the front end, which has examined its queue (R372). -/
def clearLatch (s : State) (p k : Nat) : State :=
  let w := wakeReg s p k
  setRung (setWake s p k (setBits w.1 62 62 0) w.2) p k false
/-- A register unmapped: its latch goes into the descriptor's pending bit, then M and L are 0 (R371). -/
def unmap (s : State) (p k : Nat) : State :=
  let w := wakeReg s p k
  if bit w.1 63 then setRung (setWake (feStf s p (bits w.2 55 0) (dw (bits w.1 62 62))) p k (setBits w.1 63 62 0) w.2) p k false else s
/-- A register mapped to a doorbell: L is kept, or set where a wake is pending or the doorbell full, and the wake target hears
where it goes to 1 (R370, R371). -/
def mapTo (s : State) (p k bell desc : Nat) (pending : Bool) : State :=
  let was := bit (wakeReg s p k).1 62
  let l := pending || feFull s bell
  let s := setWake (if feFull s bell then setRung s p k true else s) p k (dw (2 ^ 63 + bitOf was * 2 ^ 62 + bell % 2 ^ 56)) (dw (desc % 2 ^ 56))
  if l && !was then setLatch s p k else s
/-- The register that a queue is mapped to: the one named where it is free, else the victim's where all are mapped (R372). -/
def mapReg (s : State) (p k : Nat) : Option Nat :=
  if !bit (wakeReg s p k).1 63 then some k
  else match (List.range 64).find? fun j => !bit (wakeReg s p j).1 63 with
    | some j => some j
    | none => victim s p
/-- QUEUE_MAP: the descriptor is taken, the front end parking while it is empty, and pending wakes are read back (R371); it waits
for a register, and for the end of another TAKE of the front end's. -/
def execQueueMap (p k bell desc : Nat) (s : State) : Host.Outcome State Fault Refusal :=
  let aim := FeAim.map p k bell desc
  if s.feWait.any fun w => w.aim != aim then .next (later s (.queueMap p k bell desc))
  else match mapReg s p k with
    | none => .next (if s.feWait.isSome then s else later s (.queueMap p k bell desc))
    | some j => match takeFor s p desc aim with
      | (none, t) => .next t
      | (some v, t) =>
        let t := unmap t p j
        .next (nameUpload (mapTo (feStore t p desc (dw (2 + 4 * j))) p j bell desc (bit v.1 0)) p j)
/-- QUEUE_UNMAP (R371); a registered graph's trigger word stays mapped (R372). -/
def execQueueUnmap (p k : Nat) (s : State) : Host.Outcome State Fault Refusal := .next (if isTrigger s p k then s else unmap s p k)
/-- Whether a graph record is accepted: its address and the words it names aligned, a node at least, its reserved fields zero, all
in scheduler memory (R348, R349, R351). -/
def graphOk (s : State) (x : Graph) : Bool :=
  let m := bits (graphDw s x 0) 11 0
  let g := graphDw s x
  bits (g 0) 63 12 == 0 && bits (g 3) 63 8 == 0 && bits (g 4) 63 32 == 0 && g 6 == 0 && g 7 == 0 && decide (1 ≤ m) && x.addr % 64 == 0 && (graphDw s x 1).toNat % 8 == 0 && (graphDw s x 2).toNat % 8 == 0
    && decide ((partReg s x.part 5).toNat ≤ x.addr) && decide (x.addr + 64 + 128 * m - 1 ≤ (partReg s x.part 6).toNat)
/-- The wake register that maps a partition's upload doorbell (R351). -/
def uploadReg (s : State) (p : Nat) : Option Nat :=
  match FMap.get none s.uploadBell p with
  | none => none
  | some b => (List.range 64).find? fun k => bit (wakeReg s p k).1 63 && bits (wakeReg s p k).1 55 0 == b && !isTrigger s p k
/-- The register and the graph address of an upload that waits in a partition's upload doorbell, whose wake the front end has seen. -/
def uploadWord (s : State) (p : Nat) : Option (Nat × Nat) :=
  match uploadReg s p with
  | none => none
  | some k =>
    let w := wakeReg s p k
    let u := bits w.1 55 0
    if bit w.1 62 && feFull s u then some (k, (feRead s u).toNat) else none
/-- The upload doorbell taken where it holds an address, its latch cleared before (R351, R372): whether it has been, or need not be, and the state. -/
def takeUpload (s : State) (p addr : Nat) : Bool × State :=
  match s.feWait, uploadWord s p with
  | some w, _ => if w.aim ≠ .upload p then (true, s) else if w.got.isSome then (true, { s with feWait := none }) else (false, s)
  | none, some (k, a) =>
    if a = addr then
      let r := takeFor (clearLatch s p k) p (bits (wakeReg s p k).1 55 0) (.upload p)
      (r.1.isSome, r.2)
    else (true, s)
  | none, none => (true, s)
/-- The graph of a record that a partition uploads. -/
def Graph.named (addr p : Nat) : Graph := ⟨addr, p, none, false, 0, [], 0, 0, 0xFFFF, 0⟩
/-- Whether an upload can be answered: a rejection needs no wake register (R351). -/
def canAnswer (s : State) (p addr : Nat) : Bool := (freeWake s p).isSome || !graphOk s (Graph.named addr p)
/-- GRAPH_UPLOAD: the record is checked; an accepted graph's trigger word is emptied and mapped before its completion word
shows it (R351). The other bits of that word, and reason 4 of a rejection, are DESIGN CHOICE (log 52), and so is wb of a trigger
word's register, for which the record names no descriptor: 0 (log 95). -/
def execGraphUpload (p addr : Nat) (s : State) : Host.Outcome State Fault Refusal :=
  let x := Graph.named addr p
  let r := takeUpload s p addr
  match freeWake s p with
  | none =>
    if graphOk s x then .next (later s (.graphUpload p addr))
    else .next (if r.1 then feStf r.2 p (graphDw r.2 x 2).toNat (dw (2 + 4 * 256)) else r.2)
  | some k =>
    let s := r.2
    let done := (graphDw s x 2).toNat
    if !r.1 then .next s
    else if !graphOk s x then .next (feStf s p done (dw (2 + 4 * 256)))
    else
      let trigger := (graphDw s x 1).toNat
      let s := mapTo (unmap (feSete s p trigger) p k) p k trigger 0 false
      .next (feStf { s with graphs := s.graphs ++ [{ x with reg := some k }] } p done 0)

-- Runs (R352 to R357)

/-- Whether a node counts as started, and as completed, for its queue and for those after it (R354). -/
def NodeStatus.begun : NodeStatus → Bool | .waiting | .chosen => false | _ => true
def NodeStatus.ended : NodeStatus → Bool | .completed | .dropped => true | _ => false
/-- A node that will never complete (R356). -/
def NodeStatus.failed : NodeStatus → Bool | .rejected | .skipped => true | _ => false
/-- The status of a node; an index beyond the graph's counts as completed: DESIGN CHOICE (log 87). -/
def statusOf (x : Graph) (n : Nat) : NodeStatus := match x.nodes[n]? with | some y => y.status | none => .completed
/-- The earlier nodes of a node's queue. -/
def earlier (s : State) (x : Graph) (n : Nat) : List Nat := (List.range n).filter fun m => nodeQueue s x m == nodeQueue s x n
/-- The nodes that a node waits on through its barrier bit and its after field (R354). -/
def waitsOn (s : State) (x : Graph) (n : Nat) : List Nat :=
  (if bit (nodeDw s x n 2) 22 then earlier s x n else []) ++ (nodeAfter s x n).toList
/-- Whether a node keeps later nodes of its queue from starting: none of its contexts is placed, or one has still to be (R354). -/
def stalls (s : State) (x : Graph) (m : Nat) : Bool :=
  !(statusOf x m).begun || (statusOf x m == .started && nodeKind s x m == 0
    && (match x.nodes[m]? with | some y => decide (y.placed < contextCount s x m) | none => false))
/-- Whether a node is eligible (R354). -/
def eligible (s : State) (x : Graph) (n : Nat) : Bool :=
  statusOf x n == .waiting && (earlier s x n).all (fun m => !stalls s x m) && (waitsOn s x n).all fun m => (statusOf x m).ended
/-- The nodes that wait on a rejected or skipped one are skipped, in turn (R356). -/
def skipAll (s : State) (g : Nat) : Nat → State
  | 0 => s
  | k + 1 => match graphAt s g with
    | none => s
    | some x => skipAll ((List.range x.nodes.length).foldl (fun s n =>
        if statusOf x n == .waiting && (waitsOn s x n).any (fun m => (statusOf x m).failed) then updNode s g n fun y => { y with status := .skipped } else s) s) g k
/-- The completion word of a run (R355). -/
def completionWord (x : Graph) : Dword :=
  dw (1 + bitOf (x.reason != 0) * 2 + x.reason * 256 + x.first * 2 ^ 16 + x.dropped % 2 ^ 16 * 2 ^ 32 + x.lowered % 2 ^ 16 * 2 ^ 48)
/-- A run ends once every node has completed, or was dropped, skipped or rejected (R355). -/
def endRun (s : State) (g : Nat) : State :=
  match graphAt s g with
  | none => s
  | some x =>
    if x.running && x.nodes.all (fun y => y.status.ended || y.status.failed) then
      feStf (updGraph s g fun y => { y with running := false }) x.part (graphDw s x 2).toNat (completionWord x)
    else s
/-- A node rejected for a reason; the first in time of a run is remembered (R355, R356): DESIGN CHOICE (log 52). -/
def rejectNode (s : State) (g n r : Nat) : State :=
  let s := updNode s g n fun y => { y with status := .rejected }
  let s := updGraph s g fun x => if x.reason = 0 then { x with first := n, reason := r } else x
  match graphAt s g with
  | some x => endRun (skipAll s g x.nodes.length) g
  | none => s
/-- A node completed (R355). -/
def finishNode (s : State) (g n : Nat) : State := endRun (updNode s g n fun y => { y with status := .completed }) g
/-- The pairs of a patch list: none where it is out of range (R353). -/
def patches (s : State) (x : Graph) (a : Nat) : Option (List (Nat × Dword)) :=
  if a = 0 then some []
  else
    let p := bits (feRead s a) 15 0
    let m := x.nodes.length
    let l := (List.range p).map fun j => ((feRead s (a + 8 * (1 + 2 * j))).toNat, feRead s (a + 8 * (2 + 2 * j)))
    if 4096 < p ∨ l.any (fun e => decide (8 * m ≤ e.1)) then none else some l
/-- Whether the front end goes on with a graph's trigger word: its TAKE of it has been performed, or none is out, no run is under way,
and the wake has shown the word full (R352). -/
def triggered (s : State) (g : Nat) (x : Graph) : Bool :=
  !x.running && (match s.feWait with
    | some w => w.aim == .run g && w.got.isSome
    | none => match x.reg with | some k => bit (wakeReg s x.part k).1 62 && hasRung s x.part k | none => false)
/-- A run begins with the patch list that its trigger word named, in the cycle of the TAKE (R352, R353). -/
def beginRun (s : State) (g : Nat) (x : Graph) (list t0 : Nat) : State :=
  let s := feStore s x.part (x.addr + 40) (dw t0)
  let y := { x with running := true, t0 := t0, nodes := List.replicate (bits (graphDw s x 0) 11 0) NodeRun.fresh, dropped := 0, lowered := 0, first := 0xFFFF, reason := 0 }
  let s := updGraph s g fun _ => y
  match patches s y list with
  | none => feStf (updGraph s g fun z => { z with running := false }) x.part (graphDw s x 2).toNat (completionWord { y with reason := 8 })
  | some l => l.foldl (fun s e => feStore s x.part (nodeAddr x (e.1 / 8) + 64 + 8 * (e.1 % 8)) e.2) s
/-- RUN_START: the trigger word is taken, its latch cleared before, and the patches are applied, all before any node starts (R352,
R353, R372); on an empty word the front end parks. -/
def execRunStart (g : Nat) (s : State) : Host.Outcome State Fault Refusal :=
  match graphAt s g with
  | none => .next s
  | some x =>
    if !triggered s g x then .next s
    else match takeFor (if s.feWait.isNone then clearLatch s x.part (x.reg.getD 0) else s) x.part (graphDw s x 1).toNat (.run g) with
      | (none, t) => .next t
      | (some v, t) => .next (beginRun t g x v.1.toNat v.2)
/-- The message of a net or host node (R466). -/
def serviceMessage (s : State) (x : Graph) (n : Nat) : List Dword :=
  [0xA00, dw x.addr, dw n, nodeDw s x n 0] ++ (List.range 4).map fun i => nodeDw s x n (8 + i)
/-- The network service's context: the boot context of its role (R457, R466). -/
def netService (s : State) : Nat := match roleTile s 5 with | some t => t * 2 ^ 25 + 1 | none => 0
/-- What a service node does at its start (R466). -/
def startService (s : State) (g n : Nat) (x : Graph) : State :=
  let hdr := nodeDw s x n 0
  let s := updNode s g n fun y => { y with status := .started }
  match nodeKind s x n with
  | 2 =>
    let h := headAt s (bits hdr 0 0)
    setHead s (bits hdr 0 0) { h with pending := some (dw (bits hdr 63 12 * 4096)), waiters := h.waiters ++ [(g, n)] }
  | 3 => notify (feSete s x.part (nodeDw s x n 15).toNat) frontEndPort (netService s) (serviceMessage s x n)
  | _ => notify (feSete s x.part (nodeDw s x n 15).toNat) frontEndPort (bits (partReg s (bits hdr 1 0) 4) 31 0) (serviceMessage s x n)
/-- NODE_START: the eligible node is checked, and rejected or chosen; its quality goes to its argument (R354, R356, R357). A kernel
node of no work has no context to place and starts at once (log 60). -/
def execNodeStart (g n : Nat) (s : State) : Host.Outcome State Fault Refusal :=
  match graphAt s g with
  | none => .next s
  | some x =>
    if !(x.running && eligible s x n) then .next s
    else match nodeReason s x n with
      | some r => .next (rejectNode s g n r)
      | none =>
        let d2 := nodeDw s x n 2
        let q := bits d2 31 28
        let s := if q < 8 then feStore s x.part (nodeAddr x n + 64 + 8 * q) (dw (bits d2 25 24)) else s
        let s := updGraph s g fun y => { y with lowered := y.lowered + bitOf (match x.nodes[n]? with | some r => r.lowered | none => false) }
        if 2 ≤ nodeKind s x n then .next (startService s g n x)
        else .next (updNode s g n fun y => { y with status := if nodeKind s x n == 0 && contextCount s x n == 0 then .started else .chosen })
/-- The tile of context i of a kernel node (R360). -/
def contextTile (s : State) (x : Graph) (n i : Nat) : Nat :=
  let wfw := headerDw s x n 0 4
  let ts := nodeTiles s x n
  if widthOf wfw 3 ≠ 0 then ts.getD (placedValue wfw 3 (16 * i)) 0 else ts.getD (i % ts.length) 0
/-- Whether a tile is of a graph's partition and in service: one that has left it since the node was checked is powered down, or another
partition's (R32, R356). -/
def tileServes (s : State) (x : Graph) (t : Nat) : Bool := partOf s t == some x.part && !underRepair s t
/-- Whether a kernel node has a context to place and its tile has room for it (R360, R361). -/
def canPlace (s : State) (x : Graph) (n : Nat) : Bool :=
  match x.nodes[n]? with
  | none => false
  | some y => (y.status == .chosen || y.status == .started) && nodeKind s x n == 0 && decide (y.placed < contextCount s x n)
      && tileServes s x (contextTile s x n y.placed) && tileHasRoom s (contextTile s x n y.placed) (bits (headerDw s x n 0 1) 22 16)
/-- CONTEXT_PLACEMENT (R360, R361). -/
def execContextPlacement (g n : Nat) (s : State) : Host.Outcome State Fault Refusal :=
  match graphAt s g with
  | none => .next s
  | some x => match x.nodes[n]? with
    | none => .next s
    | some y =>
      if !(x.running && canPlace s x n) then .next s
      else
        let i := y.placed
        let t := contextTile s x n i
        let left := nodeWork s x n - 16 * i
        match createAt s x n 0 t (16 * i) (if 16 ≤ left then 0xFFFF else 2 ^ left - 1) with
        | none => .next s
        | some (id, s1) =>
          let s2 := updNode s1 g n fun z => { z with status := .started, placed := i + 1, live := z.live ++ [id] }
          let wfw := headerDw s x n 0 4
          if widthOf wfw 2 ≠ 0 then
            .next (kennelAdd (enqueue s2 id (16 * t + placedValue wfw 2 (16 * i)) (bits (headerDw s x n 0 1) 9 8)) t id)
          else .next (arrive s2 t ⟨id, true, 16 * i, s.cyc + 1, 0, 0⟩)
/-- Whether a node is late and has not been judged (R357). -/
def isLate (s : State) (x : Graph) (n : Nat) : Bool :=
  match x.nodes[n]? with
  | none => false
  | some y => x.running && y.status == .waiting && !y.judged && nodeDeadline s x n != 0 && decide (x.t0 + nodeDeadline s x n ≤ s.cyc)
/-- NODE_LATE (R357). -/
def execNodeLate (g n : Nat) (s : State) : Host.Outcome State Fault Refusal :=
  match graphAt s g with
  | none => .next s
  | some x =>
    if !isLate s x n then .next s
    else
      let judged := updNode s g n fun y => { y with judged := true }
      if !nodeOptional s x n then .next judged
      else match nodePolicy s x n with
        | 1 => .next (endRun (updGraph (updNode s g n fun y => { y with status := .dropped }) g fun y => { y with dropped := y.dropped + 1 }) g)
        | 2 =>
          let d2 := nodeDw s x n 2
          let q := bits d2 25 24
          if q = 0 then .next judged
          else .next (feStore (updNode judged g n fun y => { y with lowered := true }) x.part (nodeAddr x n + 16) (setBits d2 25 24 (q - 1)))
        | 3 => .next (rejectNode s g n 9)
        | _ => .next judged
/-- Whether a dependant of a node is of kind present, net or host, to which its completion releases at system scope (R367). -/
def releasesFar (s : State) (x : Graph) (n : Nat) : Bool :=
  (List.range x.nodes.length).any fun m => decide (2 ≤ nodeKind s x m) && decide (nodeKind s x m ≤ 4) && (waitsOn s x m).contains n
/-- Whether every context of a node has retired and its accesses are done; where it releases at system scope, accepted at their slices
too (R355, R367). -/
def nodeDrained (s : State) (x : Graph) (n : Nat) (y : NodeRun) : Bool :=
  y.live.all fun id => !alive s id && !(pendingAccesses s).any (carries · id) && !(releasesFar s x n && acceptPending s id)
/-- Whether a node has done its work (R355, R466). -/
def nodeDone (s : State) (x : Graph) (n : Nat) : Bool :=
  match x.nodes[n]? with
  | none => false
  | some y => y.status == .started && (match nodeKind s x n with
      | 0 => y.placed == contextCount s x n && nodeDrained s x n y
      | 3 => feFull s (nodeDw s x n 15).toNat
      | 4 => feFull s (nodeDw s x n 15).toNat
      | _ => false)
/-- NODE_COMPLETE (R355). -/
def execNodeComplete (g n : Nat) (s : State) : Host.Outcome State Fault Refusal :=
  match graphAt s g with
  | none => .next s
  | some x => .next (if nodeDone s x n then finishNode s g n else s)

-- Pipeline nodes (R364 to R366)

/-- The snake order of a tile's cores (R364). -/
def snake : List Nat := [0, 1, 2, 3, 7, 6, 5, 4, 8, 9, 10, 11, 15, 14, 13, 12]
/-- The cores that a pipeline node binds, stage 0 first (R364). -/
def stageCores (s : State) (x : Graph) (n : Nat) : List Nat :=
  let d2 := nodeDw s x n 2
  let t := (nodeTiles s x n).headD 0
  (List.range (bits d2 39 35)).map fun k => 16 * t + snake.getD (bits d2 43 40 + k) 0
/-- The free entries of a tile's context table (R42). -/
def freeContexts (s : State) (t : Nat) : Nat :=
  8192 - ((List.range 8192).countP fun i => s.ctxs.any fun p => p.1 / 2 ^ 25 == t && p.1 / 2 ^ 12 % 8192 == i)
/-- Whether every core of a chosen pipeline node is free for its stage, and its tile for its contexts (R361, R365). -/
def canStart (s : State) (x : Graph) (n : Nat) : Bool :=
  let cs := stageCores s x n
  let acc := (List.range cs.length).foldl (fun m k => m + bits (headerDw s x n k 1) 22 16) 0
  statusOf x n == .chosen && nodeKind s x n == 1 && tileServes s x ((nodeTiles s x n).headD 0)
    && (cs.zipIdx).all (fun c => !coreBound s c.1 && coreHasRoom s c.1 (bits (headerDw s x n c.2 1) 7 0))
    && decide (cs.length ≤ freeContexts s ((nodeTiles s x n).headD 0)) && tileHasRoom s ((nodeTiles s x n).headD 0) acc
/-- PIPELINE_START: every stage is placed at once, at level 0 (R365). -/
def execPipelineStart (g n : Nat) (s : State) : Host.Outcome State Fault Refusal :=
  match graphAt s g with
  | none => .next s
  | some x =>
    if !(x.running && canStart s x n) then .next s
    else
      let cs := stageCores s x n
      let t := (nodeTiles s x n).headD 0
      let r := (cs.zipIdx).foldl (fun (r : State × List Nat) c => match createAt r.1 x n c.2 t (16 * c.2) 0xFFFF with
        | none => r
        | some (id, s1) => (kennelAdd (enqueue s1 id c.1 0) t id, r.2 ++ [id])) (s, [])
      .next (updNode r.1 g n fun y => { y with status := .started, live := r.2, bound := cs })
/-- Whether a pipeline node's contexts have all retired and a binding is left (R366). -/
def canRelease (s : State) (x : Graph) (n : Nat) : Bool :=
  match x.nodes[n]? with
  | none => false
  | some y => y.status == .started && !y.bound.isEmpty && nodeDrained s x n y
/-- BINDING_RELEASE: the last stage's binding, with the entries left on the port from the stage before it (R366). -/
def execBindingRelease (g n : Nat) (s : State) : Host.Outcome State Fault Refusal :=
  match graphAt s g with
  | none => .next s
  | some x => match x.nodes[n]? with
    | none => .next s
    | some y =>
      if !(x.running && canRelease s x n) then .next s
      else
        let c := y.bound.getLastD 0
        let rest := y.bound.dropLast
        let s := match rest.getLast? with
          | none => s
          | some b => match (List.range 4).find? fun p => peerCore c p == some b with
            | some p => { s with ports := FMap.set [] s.ports (4 * c + p) [] }
            | none => s
        let s := updNode s g n fun z => { z with bound := rest }
        .next (if rest.isEmpty then finishNode s g n else s)

-- What the front end does next (R354, R357)

/-- The nodes of running graphs that satisfy a test. -/
def nodesWith (s : State) (f : State → Graph → Nat → Bool) : List (Nat × Nat) :=
  (s.graphs.zipIdx).flatMap fun g => if g.1.running then ((List.range g.1.nodes.length).filter (f s g.1)).map fun n => (g.2, n) else []
/-- Whether a node is started before another: priority, absolute deadline, index (R354). -/
def startsBefore (s : State) (a b : Nat × Nat) : Bool :=
  match graphAt s a.1, graphAt s b.1 with
  | some x, some y =>
    let due := fun (x : Graph) (n : Nat) => if nodeDeadline s x n = 0 then (1, 0) else (0, x.t0 + nodeDeadline s x n)
    let p := nodePrio s x a.2
    let q := nodePrio s y b.2
    let d := due x a.2
    let e := due y b.2
    decide (p < q) || (p == q && (decide (d.1 < e.1) || (d.1 == e.1 && (decide (d.2 < e.2) || (d.2 == e.2 && decide (a.2 < b.2))))))
  | _, _ => false
/-- Of several nodes the one that starts first (R354). -/
def firstOf (s : State) (l : List (Nat × Nat)) : Option (Nat × Nat) :=
  l.foldl (fun b a => match b with | none => some a | some c => if startsBefore s a c then some a else b) none
/-- A partition whose upload doorbell holds a graph's address that a wake register is there for (R351). -/
def nextUpload (s : State) : Option Instr :=
  (List.range 4).findSome? fun p => (uploadWord s p).bind fun w => if canAnswer s p w.2 then some (.graphUpload p w.2) else none
/-- Whether a node's deadline has passed before this cycle, in which it could not be judged (R357). -/
def overdueNode (s : State) (x : Graph) (n : Nat) : Bool := isLate s x n && decide (x.t0 + nodeDeadline s x n < s.cyc)
/-- The judgement of a late node, which the front end makes while it is parked too (R357). -/
def lateStep (s : State) : Option Instr := (nodesWith s isLate).head?.map fun p => .nodeLate p.1 p.2
/-- The front end's next step while it is neither stopped nor parked: what has ended first, then placements, then a start, then
what is late, then runs and uploads. Of several stalled nodes that room has come for, the one that R354 starts first takes it: DEDUCED
(log 83). -/
def frontEndNext (s : State) : Option Instr :=
  match (nodesWith s nodeDone).head? with
  | some (g, n) => some (.nodeComplete g n)
  | none => match (nodesWith s canRelease).head? with
    | some (g, n) => some (.bindingRelease g n)
    | none => match firstOf s (nodesWith s fun s x n => canPlace s x n || canStart s x n) with
      | some (g, n) => some (if (graphAt s g).any fun x => canPlace s x n then .contextPlacement g n else .pipelineStart g n)
      | none => match (nodesWith s overdueNode).head? with
       | some (g, n) => some (.nodeLate g n)
       | none => match firstOf s (nodesWith s eligible) with
        | some (g, n) => some (.nodeStart g n)
        | none => match lateStep s with
          | some i => some i
          | none => match (s.graphs.zipIdx).find? fun g => triggered s g.2 g.1 with
            | some g => some (.runStart g.2)
            | none => nextUpload s
/-- The front end's next step: none while a fault stops it, and while it is parked at a TAKE only what that was for, and the judgement of
late nodes (R352, R357). -/
def frontEndStep (s : State) : Option Instr :=
  if frontEndStopped s then none
  else match s.feWait with
    | none => frontEndNext s
    | some ⟨_, none⟩ => lateStep s
    | some ⟨.run g, some _⟩ => some (.runStart g)
    | some ⟨.map p k bell desc, some _⟩ => if (mapReg s p k).isSome then some (.queueMap p k bell desc) else lateStep s
    | some ⟨.upload p, some v⟩ => if canAnswer s p v.1.toNat then some (.graphUpload p v.1.toNat) else lateStep s
/-- The front end examines the queues whose wakes it has seen, and clears their latches: that of a trigger word whose wake has shown it
full waits for its run, that of a full upload doorbell for its upload (R351, R352, R372), but while it is parked at a TAKE whose word has
not come. That it does so in the cycle of the wake is DESIGN CHOICE (log 84). -/
def examineQueues (s : State) : State :=
  if (roleTile s 1).isNone || frontEndStopped s || s.fePark.isSome || (match s.feWait with | some w => w.got.isNone | none => false) then s
  else s.wakes.foldl (fun t e =>
    let p := e.1 / 64
    let k := e.1 % 64
    if bit e.2.1 63 && bit e.2.1 62 && !(isTrigger s p k && hasRung s p k) && !((uploadWord s p).any (·.1 == k)) then clearLatch t p k else t) s

-- The words it needs (R33, R185, R186, R352)

/-- The lines of n bytes at an address, with the rights to them. -/
def feLines (u n : Nat) (r : Rights) : List (Nat × Rights) := (linesOfRange u n).map (·, r)
/-- The lines that the front end reads whenever it decides on a running graph: its record, its nodes' records, the headers of those not
yet ended, and the words that started service nodes wait for: DESIGN CHOICE (log 76). -/
def runLines (s : State) (x : Graph) : List (Nat × Rights) :=
  feLines x.addr (64 + 128 * x.nodes.length) rightsR ++ (List.range x.nodes.length).flatMap fun n =>
    if (statusOf x n).ended || (statusOf x n).failed then []
    else match nodeKind s x n with
      | 0 => feLines (nodeDw s x n 0).toNat 256 rightsR
      | 1 => feLines (nodeDw s x n 0).toNat (256 * bits (nodeDw s x n 2) 39 35) rightsR
      | 3 | 4 => if statusOf x n == .started then [((nodeDw s x n 15).toNat, rightsRS)] else []
      | _ => []
/-- The words that it reads before it decides what to do next. -/
def feReads (s : State) : List (Nat × Rights) :=
  (List.range 4).filterMap (fun p => match uploadReg s p with
    | some k => if bit (wakeReg s p k).1 62 then some (bits (wakeReg s p k).1 55 0, rightsRS) else none
    | none => none)
  ++ s.graphs.flatMap fun x => if x.running then runLines s x else []
/-- The lines of a patch list, and the words that it patches (R353). -/
def patchLines (s : State) (x : Graph) (a : Nat) : List (Nat × Rights) :=
  if a = 0 then []
  else feLines a (8 + 16 * Nat.min (bits (feRead s a) 15 0) 4096) rightsR
    ++ ((patches s { x with nodes := List.replicate (bits (graphDw s x 0) 11 0) NodeRun.fresh } a).getD []).map fun e => (nodeAddr x (e.1 / 8) + 64 + 8 * (e.1 % 8), rightsW)
/-- The words that a step of the front end reads or writes besides. -/
def feTouches (s : State) (i : Instr) : List (Nat × Rights) :=
  let ends := fun (x : Graph) => [((graphDw s x 2).toNat, rightsRWS)]
  let of := fun (g : Nat) (f : Graph → List (Nat × Rights)) => match graphAt s g with | some x => f x | none => []
  match i with
  | .nodeStart g n => of g fun x =>
    let q := bits (nodeDw s x n 2) 31 28
    ends x ++ (if q < 8 then [(nodeAddr x n + 64 + 8 * q, rightsW)] else []) ++ (if nodeKind s x n = 3 ∨ nodeKind s x n = 4 then [((nodeDw s x n 15).toNat, rightsRWS)] else [])
  | .nodeLate g n => of g fun x =>
    ends x ++ (if nodeOptional s x n && nodePolicy s x n == 2 then [(nodeAddr x n + 16, rightsW)] else [])
  | .nodeComplete g _ | .bindingRelease g _ => of g ends
  | .runStart g => of g fun x => feLines x.addr 64 rightsR ++ ends x ++ (x.addr + 40, rightsW) :: (match taken s (.run g) with
    | some v => patchLines s x v.1.toNat
    | none => [((graphDw s x 1).toNat, rightsRWS)])
  | .graphUpload p addr =>
    let x := Graph.named addr p
    feLines addr 64 rightsR ++ ends x ++ (if graphOk s x then [((graphDw s x 1).toNat, rightsRWS)] else [])
      ++ (match uploadWord s p with | some (k, _) => [(bits (wakeReg s p k).1 55 0, rightsRWS)] | none => [])
  | .queueMap p k bell desc => [(desc, rightsRWS), (bell, rightsRS)] ++ (match mapReg s p k with
    | some j => if bit (wakeReg s p j).1 63 then [(bits (wakeReg s p j).2 55 0, rightsRWS)] else []
    | none => [])
  | .queueUnmap p k => if bit (wakeReg s p k).1 63 then [(bits (wakeReg s p k).2 55 0, rightsRWS)] else []
  | _ => []
/-- What the front end meets at the words of a step. -/
def feMeets (s : State) (i : Instr) : Option (Option State) :=
  if (ctxOf s (frontEndId s)).isNone then none else (feTouches s i).findSome? (feMeet s)
/-- Whether a step of the agenda is the front end's. -/
def isFrontEnd : Instr → Bool | .queueMap _ _ _ _ | .queueUnmap _ _ | .graphUpload _ _ => true | _ => false
/-- The state in which the front end parks, or a fault has stopped it, at a word that a due step of its needs. -/
def feDueStop (s : State) : Option State :=
  s.agenda.findSome? fun d => if isFrontEnd d.step && decide (d.at_ ≤ s.cyc) then (feMeets s d.step).join else none
/-- What the front end does: the end of its park (R85, R185), a park or a fault at a word that it needs, or its next step. -/
def frontEndMove (s : State) : Option (State ⊕ Instr) :=
  if frontEndStopped s then none
  else match s.fePark with
    | some (.page _) => none
    | some (.repair u h c0) =>
      if c0 + frontEndFel s < s.cyc then some (.inl (feFails { s with fePark := none } ⟨.prot, dw u, 32, 0, 0⟩))
      else if underRepair s h then none else some (.inl { s with fePark := none })
    | none => match (if (ctxOf s (frontEndId s)).isNone then none else (feReads s).findSome? (feMeet s)) with
      | some r => r.map .inl
      | none => match feDueStop s with
        | some t => some (.inl t)
        | none => match frontEndStep s with
          | none => none
          | some i => match feMeets s i with
            | none => some (.inr i)
            | some r => r.map .inl

end Sys2Proof.Machine
end

