-- ==== Sys2Proof/Machine/Platform.lean ====
section
/-! DEFINITION. Boot, the Ethernet and PCIe ports, scan-out, the Vigil, heat, attestation and power (R455 to R471). -/

namespace Sys2Proof.Machine

-- Boot (R455 to R459)

/-- A byte, and n bytes, of the flash. -/
def flashByte (s : State) (a : Nat) : Byte := FMap.get 0 s.flash a
def flashBytes (s : State) (a n : Nat) : List Byte := (List.range n).map fun i => flashByte s (a + i)
def flashNum (s : State) (a n : Nat) : Nat := ofBytesLE (flashBytes s a n)
/-- The length of the configuration table (R457). -/
def tableLength (s : State) : Nat := flashNum s 0x1000 8
/-- The length of a signature (R456). -/
def sigLength : Nat := 29792
/-- Whether something signed in flash is good (R456). -/
def signed (s : State) (a n : Nat) : Bool := Config.signatureGood s.keyDigest (flashBytes s a n) (flashBytes s (a + n) sigLength)
/-- Whether the configuration table's contents are (R457): the column's width, the zero bytes, the role codes. -/
def tableOk (s : State) : Bool :=
  decide (1 ≤ columnWidth s) && decide (columnWidth s ≤ 4) && flashNum s 0x1009 7 == 0
    && (List.range 64).all fun t => decide (roleOf s t < 6) && (roleOf s t == 0 || inColumn s t)
/-- The physical column of a row that is not used (R13, R14): the repair map's, or column 8. -/
def unusedColumn (s : State) (row : Nat) : Nat := Nat.min (repairEntry s row) 8
/-- The physical tile at which a tile stands: the used columns of its row are its logical columns in ascending order (R13). -/
def physicalTile (s : State) (t : Nat) : Nat := 9 * (t / 8) + (if t % 8 < unusedColumn s (t / 8) then t % 8 else t % 8 + 1)
/-- The count that a row's physical column passes east: a used tile adds one, the unused tile passes it on (R459). -/
def passCount (s : State) (row : Nat) (count : Option Nat) (col : Nat) : Option Nat :=
  if s.findings.silent.contains (9 * row + col) then none
  else if col = unusedColumn s row then count else count.map (· + 1)
/-- Whether a row is good: the count that leaves physical column 8 is 8 (R459). -/
def rowGood (s : State) (row : Nat) : Bool := (List.range 9).foldl (passCount s row) (some 0) == some 8
/-- Whether a tile failed its self-test, so that it is under repair from boot (R459). -/
def failedTest (s : State) (t : Nat) : Bool := s.findings.failed.contains (physicalTile s t)
/-- The code of the step at which boot fails (R458). -/
def bootCode (s : State) : Option Nat :=
  if !((List.range 16).all fun r => rowGood s r) then some 1
  else if tableLength s < 64 ∨ 28672 < tableLength s then some 4
  else if flashNum s 0 8 ≠ 0x4B510007 ∨ !signed s 0x1000 (tableLength s) ∨ !signed s 0x10000 Config.imageLength then some 2
  else if flashNum s 8 8 < s.rollback then some 3
  else if !tableOk s then some 4
  else if !s.findings.dramGood then some 5
  else none
/-- Whether an address lies in the ranges that boot tests and clears (R458). -/
def bootRange (a : Nat) : Bool := decide (a < 0x100000000) || (decide (0x8000000000 ≤ a) && decide (a < 0x8040000000))
/-- The DRAM ranges tested and cleared, every tag full (R458 step 3). -/
def clearDram (s : State) : State :=
  { s with mem := s.mem.filter fun c => !bootRange c.1, tags := s.tags.filter fun c => !bootRange (8 * c.1), errs := s.errs.filter fun c => !bootRange (8 * c.1) }
/-- A digest's doublewords as measurements (R458 step 4, R471). -/
def measure (s : State) (k : Nat) (bs : List Byte) : State :=
  (List.range 4).foldl (fun s i => { s with measures := FMap.set 0 s.measures (4 * k + i) ((Config.digest bs).getD i 0) }) s
/-- The boot page tables of partition 0, its root and its kback (R458 step 5): unified 0 to 0x0FFF_FFFF as physical. -/
def bootTables (s : State) : State :=
  let s := (List.range 4).foldl (fun s l => writeDw s (0x10000000 + 0x1000 * l)
    (if l = 3 then dw (2 ^ 63 + 2 ^ 62 + 8 * 2 ^ 56 + 7) else dw (2 ^ 63 + 0x10000000 + 0x1000 * (l + 1)))) s
  setPartReg (setPartReg s 0 0 (dw 0x10000000)) 0 8 (dw 0x20000000)
/-- The tiles of the system column in partition 0, the failed ones under repair (R458 step 6, R459). -/
def bootTiles (s : State) : State :=
  (List.range 128).foldl (fun s t =>
    { s with tiles := FMap.set 0 s.tiles t (dw (bitOf (inColumn s t) * 8 + bitOf (failedTest s t) * 128)) }) s
/-- The context that a boot core creates (R458 step 7). -/
def bootCtx (t : Nat) (entry : Dword) : Ctx :=
  { Ctx.fresh t 128 with
    pc := entry, ib := dw all1, mb := dw all1, priv := true, wid := dw t
    segs := FMap.set ⟨0, 0⟩ [] 0 ⟨0, dw (0xF * 2 ^ 60 + 0x0FFFFFFF)⟩ }
/-- A boot context created on core 0 of its tile and Resident there. -/
def bootStart (s : State) (t : Nat) (entry : Dword) : State :=
  match newId s t with
  | none => s
  | some (id, s1) => enterSlot (setCtx s1 id (bootCtx t entry)) id (16 * t) 0
/-- The boot contexts of the column's roles (R457, R458 step 7). -/
def bootStarts (s : State) : State :=
  ((List.range 64).filter fun t => inColumn s t && roleOf s t != 0 && !underRepair s t).foldl (fun s t =>
    bootStart s t (dw (flashNum s (0x1000 + 28 + 4 * roleOf s t) 4))) s
/-- What the next sample finds (R469). -/
def readSensors (s : State) : State := drawn { s with temp := Config.junction (drawsOf s 4) } 4 1
/-- The mode index that each head reads from its sink's EDID (R465). -/
def readSinks (s : State) : State := (List.range 2).foldl (fun s h => setHead s h { headAt s h with mode := dw (Config.edidMode h % 2 ^ 64) }) s
/-- BOOT (R458): from reset or at power-up; a failure leaves the part in reset with its code on the pins, where the
base die goes on sampling temperatures (R469). -/
def execBoot (s : State) : Host.Outcome State Fault Refusal :=
  if s.phase = .running then .next s
  else match s.phase with
  | .failed _ => .next s
  | _ => match bootCode s with
    | some c => .next (schedule (readSensors { logFault s [3, dw s.cyc, dw c] with phase := .failed c, pins := c }) (s.cyc + 1900000) .thermalSample)
    | none =>
      let s := clearDram s
      let s := writeBytes s 0 (flashBytes s 0x10000 Config.imageLength)
      let s := measure (measure s 0 (flashBytes s 0x1000 (tableLength s))) 1 (flashBytes s 0x10000 Config.imageLength)
      let s := bootStarts (bootTiles (bootTables s))
      .next (schedule (readSensors (readSinks { s with phase := .running, pins := 0 })) (s.cyc + 1900000) .thermalSample)

-- Ethernet and the Vigil (R460, R462, R463, R467, R468)

/-- AUTONEGOTIATION: the link's rate, 0 where it is down (R460, R461). -/
def execAutonegotiation (port rate : Nat) (s : State) : Host.Outcome State Fault Refusal := .next (setEthReg s port 4 (dw rate))
/-- The Vigil's control word (R467). -/
def vigilControl (s : State) : Dword := FMap.get 0 s.vigil 1024
/-- Byte i of a pattern's mask (from 0) or value (from 16) (R467). -/
def vigilByte (s : State) (p from_ i : Nat) : Byte := (FMap.get 0 s.vigil (64 * p + from_ + i / 8)).extractLsb' (8 * (i % 8)) 8
/-- Whether a frame matches an enabled pattern (R468). -/
def vigilMatches (s : State) (frame : List Byte) : Bool :=
  (List.range 16).any fun p => bit (vigilControl s) p
    && (List.range 128).all fun i => (frame.getD i 0 &&& vigilByte s p 0 i) == (vigilByte s p 16 i &&& vigilByte s p 0 i)
/-- A frame that reaches the standby port: the first match is held and restore begins, every other is dropped and counted,
as one that is too long or fails its FCS is (R460, R467, R468). -/
def vigilFrame (s : State) (port : Nat) (frame : List Byte) : State :=
  if port ≠ bits (vigilControl s) 16 16 then s
  else if !s.restoring && Config.fcsGood frame && decide (frame.length ≤ 10244) && vigilMatches s (frame.take (frame.length - 4)) then
    within { s with restoring := true, heldFrame := some (port, frame) } 1900000 .restoreComplete
  else dropFrame s port
/-- FRAME_RECEIVE (R460 to R462, R468): nothing arrives on a link that is down. -/
def execFrameReceive (port : Nat) (frame : List Byte) (s : State) : Host.Outcome State Fault Refusal :=
  .next (if ethReg s port 4 = 0 then s else if s.standby then vigilFrame s port frame else receiveFrame s port frame)
/-- VIGIL_MATCH (R468). -/
def execVigilMatch (port : Nat) (frame : List Byte) (s : State) : Host.Outcome State Fault Refusal :=
  .next (if s.standby then vigilFrame s port frame else s)
/-- RESTORE_COMPLETE: the named core and module DRAM are powered, and the held frame is received, ahead of any later one (R468). -/
def execRestoreComplete (s : State) : Host.Outcome State Fault Refusal :=
  let t := { s with standby := false, restoring := false, heldFrame := none, restored := some (bits (vigilControl s) 27 17) }
  .next (match s.heldFrame with | some (p, f) => receiveFrame t p f | none => t)
/-- The head of a transmit ring advanced (R463). -/
def advanceHead (s : State) (port : Nat) (head : Dword) : State :=
  (portPut s (208 + port) (ethReg s port 1).toNat (bytesLE 8 (head + 1).toNat)).getD s
/-- The payload of the record at an address, none where it is skipped (R463). -/
def transmitPayload (s : State) (port r : Nat) : Option (List Byte) :=
  match portDw s (208 + port) r, portDw s (208 + port) (r + 8) with
  | some a, some l => let n := bits l 13 0; if 1 ≤ n ∧ n ≤ 10240 then portGet s (208 + port) a.toNat n else none
  | _, _ => none
/-- TRANSMIT_FRAME: the next record up to the tail is sent with its FCS, or skipped and counted (R460, R463). -/
def execTransmitFrame (port : Nat) (s : State) : Host.Outcome State Fault Refusal :=
  let h := (ethReg s port 1).toNat
  match portDw s (208 + port) h with
  | none => .next s
  | some head =>
    if (ethReg s port 3).toNat ≤ head.toNat then .next s
    else if ethReg s port 4 = 0 then .next (later s (.transmitFrame port))
    else
      let r := h + 64 + 16 * (head.toNat % (ethReg s port 2).toNat)
      let t := advanceHead (match transmitPayload s port r with
        | some b => { s with sentFrames := FMap.set [] s.sentFrames port (b ++ Config.fcsBytes b) }
        | none => setEthReg s port 6 (ethReg s port 6 + 1)) port head
      .next (if (head + 1).toNat < (ethReg s port 3).toNat then later t (.transmitFrame port) else t)

-- PCIe and scan-out (R464, R465)

/-- MSI_WRITE (R464). -/
def execMsiWrite (v : Lane) (s : State) : Host.Outcome State Fault Refusal :=
  .next (notify s 210 (FMap.get 0 s.msi (v.toNat % 64)).toNat [0x800, v.setWidth 64])
/-- DEVICE_DMA: only through the windows of port 210; a refused write changes nothing (R453, R464). -/
def execDeviceDma (write : Bool) (u : Nat) (data : List Byte) (s : State) : Host.Outcome State Fault Refusal :=
  if !write || regionOf u != .paged then .next s
  else match portSpot s 210 (u / 8 * 8) rightsW with
    | none => .next s
    | some p => .next ((portPut s 210 (u / 8 * 8) (readBytes s p.place (u % 8) ++ data)).getD s)
/-- The bytes of the pixel that a head shows in a column of a row, read through the windows of port 211; none beyond its picture, where
a format is reserved or where a read is refused (R465). -/
def pixelAt (s : State) (h x y : Nat) : Option (List Byte) :=
  let d := headAt s h
  let n := if bits d.format 1 0 = 0 then 4 else 8
  if 2 ≤ bits d.format 1 0 ∨ bits d.geometry 15 0 ≤ x ∨ bits d.geometry 31 16 ≤ y then none
  else portGet s 211 (d.surface.toNat + 64 * bits d.geometry 47 32 * y + n * x) n
/-- VERTICAL_BLANK: the surface last written takes effect, and every present node that waits for the blank completes, one
whose surface a later write replaced too (R465, R466; DESIGN CHOICE, log 79). -/
def execVerticalBlank (h : Nat) (s : State) : Host.Outcome State Fault Refusal :=
  let x := headAt s h
  match x.pending with
  | none => .next s
  | some a =>
    let s := setHead s h { x with surface := a, pending := none, waiters := [] }
    .next (x.waiters.foldl (fun s w => finishNode s w.1 w.2) s)

-- Heat, attestation and power (R469 to R471)

/-- THERMAL_SAMPLE: every 1,900,000 cycles; an alert at 100 °C, at most one in 190,000,000 cycles, and a trip at 110 °C,
at which the DRAM loses its contents with its power (R469, log 4). -/
def execThermalSample (s : State) : Host.Outcome State Fault Refusal :=
  if 1760 ≤ s.temp then .next (readSensors { partReset (logFault s [1, dw s.cyc]) with mem := [], errs := [] })
  else
    let u := readSensors s
    let s := schedule { s with draws := u.draws } (s.cyc + 1900000) .thermalSample
    if decide (1600 ≤ s.temp) && decide (s.alertFrom ≤ s.cyc) then
      .next { notify { s with alertFrom := s.cyc + 190000000 } 213 (rootSup s 0) [0xB00, dw s.temp] with temp := u.temp }
    else .next { s with temp := u.temp }
/-- The signed part of a quote (R471). -/
def quoteBody (s : State) (nonce : List Byte) : List Byte :=
  nonce ++ dwBytes ((List.range 8).map fun i => FMap.get 0 s.measures i) ++ bytesLE 8 s.rollback ++ (List.range 64).map Config.publicKey
/-- QUOTE_COMPLETE: the quote is written through the windows of port 213, and its issuer told (R471). -/
def execQuoteComplete (s : State) : Host.Outcome State Fault Refusal :=
  match s.quote with
  | none => .next s
  | some (a, id) =>
    let s := { s with quote := none }
    let body := match portGet s 213 a 32 with | some n => some (quoteBody s n) | none => none
    let s := match body with
      | some b => (portPut s 213 (a + 64) (b ++ (List.range sigLength).map fun i => (Config.sign b).getD i 0)).getD s
      | none => s
    .next (notify s 213 id [0xC00])
/-- MODULE_POWER_LOSS: the fault log is cleared with everything else but flash and fuses, and the part halts (R470). -/
def execModulePowerLoss (s : State) : Host.Outcome State Fault Refusal :=
  .next { partReset s with phase := .off, mem := [], errs := [], faultLog := [], logNext := 0 }

end Sys2Proof.Machine
end

