-- ==== Sys2Proof/Machine/Select.lean ====
section
/-! DEFINITION. What the part does next: limits that pass, steps that are due, steps that engines and tables take of
themselves, the selection of each core (R49 to R55), the parks that end (R48, R85), and the end of a cycle. -/

namespace Sys2Proof.Machine

-- Selection (R50 to R54)

/-- Whether a context takes part in the rotation: in its slot and not parked, stopped, held or leaving (R50). -/
def inTurn (x : Ctx) : Bool := x.state == .resident && x.hold.isNone && x.moving.isNone && x.saving.isNone && !x.halting
/-- The same, with what ended in the cycle before behind it (R55). -/
def inRotation (s : State) (x : Ctx) : Bool := inTurn x && decide (x.after ≤ s.cyc)
/-- Whether an outstanding instruction keeps any chain from issuing: its lookahead is used up, it runs alone, or its fault
waits (R56, R59). -/
def windowFull (x : Ctx) : Bool := x.longs.any fun l => l.ended || l.lone || decide (l.la ≤ l.since)
/-- What a context would do if it were selected now; none where it is not ready (R50, R56 to R59, R71, R134, R406, R411). -/
def candidate (s : State) (id : Nat) (x : Ctx) : Option (Instr × List Half × State × Nat) :=
  if !inRotation s x || replayWaits s id x then none
  else match fetchChain s id x with
    | .instr i ws t =>
      if heldBy s id x i then none
      else if x.stopReq then (if x.longs.isEmpty then some (.requestedStop, [], s, gapOf i) else none)
      else if !x.kept.isEmpty && !bit x.resume 0 then some (.keptFaultStop, [], s, gapOf i)
      else if (issueCheck i x).isSome then some (.illegalChain, ws, s, gapOf i)
      else if (match blockOf i with | some b => decide (x.grant.length ≤ b.toNat) | none => false) then some (i, ws, t, gapOf i)
      else if wantsEquipped i x then some (.equippedCoreMove, ws, t, gapOf i)
      else if cbArmed x && bits x.cb 31 16 == 0 then some (.candidateBudgetReject, ws, t, gapOf i)
      else some (selectRow s x i, ws, t, gapOf i)
    | .stop .wait _ _ => if x.stopReq && x.longs.isEmpty then some (.requestedStop, [], s, 16) else none
    | _ =>
      if x.stopReq then (if x.longs.isEmpty then some (.requestedStop, [], s, 16) else none)
      else if windowFull x then none
      else if !x.kept.isEmpty && !bit x.resume 0 then some (.keptFaultStop, [], s, 16)
      else some (.illegalChain, [], s, 16)
/-- The smallest cycle after this one that a slot owns (R52). -/
def ownNext (c slot : Nat) : Nat := c + 1 + (slot + 64 - (c + 1) % 64) % 64
/-- Whether a context may have a cycle that its slot does not own (R52). -/
def mayDonate (s : State) (x : Ctx) (gap : Nat) : Bool :=
  decide ((x.gap : Int) ≤ (s.cyc : Int) - x.last) && decide (s.cyc + gap ≤ ownNext s.cyc x.slot)
/-- A ready context and what it would do. -/
structure Chosen where
  id : Nat
  ctx : Ctx
  step : Instr
  words : List Half
  base : State
  deriving DecidableEq, Repr
/-- The ready contexts of a core that may have this cycle: its owner, and those of E (R52). -/
def contenders (s : State) (core : Nat) : List Chosen :=
  (s.ctxs.filter fun p => p.2.holdsSlot && p.2.at_ == core).filterMap fun p => match candidate s p.1 p.2 with
    | none => none
    | some (i, ws, t, g) => if p.2.slot = s.cyc % 64 ∨ mayDonate s p.2 g then some ⟨p.1, p.2, i, ws, t⟩ else none
/-- The smallest Last, then the lowest slot (R52). -/
def earliest : List Chosen → Option Chosen
  | [] => none
  | a :: t => match earliest t with
    | none => some a
    | some b => if a.ctx.last < b.ctx.last ∨ (a.ctx.last = b.ctx.last ∧ a.ctx.slot < b.ctx.slot) then some a else some b
/-- What a core issues in this cycle (R52, R53): nothing on a tile of no partition, which is powered down (R32), nor, after a restore,
on any core but the one it named (R468). -/
def selectOn (s : State) (core : Nat) : Option Chosen :=
  let l := if (partOf s (core / 16)).isSome && (match s.restored with | some c => c == core | none => true) then contenders s core else []
  match l.find? fun c => c.ctx.slot == s.cyc % 64 with
  | some c => some c
  | none => earliest l
/-- A number put into an ascending list without repeats. -/
def insertNum : List Nat → Nat → List Nat
  | [], n => [n]
  | m :: t, n => if n < m then n :: m :: t else if n = m then m :: t else m :: insertNum t n
/-- The cores still to select in this cycle that have a context in a slot, ascending. -/
def coresLeft (s : State) : List Nat :=
  s.ctxs.foldl (fun l p => if p.2.holdsSlot && !s.issued.contains p.2.at_ then insertNum l p.2.at_ else l) []
/-- What the cores still to issue in this cycle issue. -/
def chosenLeft (s : State) : List (Nat × Chosen) := (coresLeft s).filterMap fun c => (selectOn s c).map fun x => (c, x)
/-- The order of what issues in one cycle: BANKCFG and CPYQ, whose mode change the cycle's accesses meet (R176), first, YIELD and HALT,
to which budget that comes in the cycle is added before they take effect (R157), last. -/
def issueRank (i : Instr) : Nat := match i with | .bankcfg _ | .cpyq _ => 0 | .yield | .halt => 2 | _ => 1
/-- Of the cores whose step has a rank, the first. -/
def firstRanked (l : List (Nat × Chosen)) (r : Nat) : Option (Nat × Chosen) := l.find? fun p => issueRank p.2.step == r
/-- The next core that issues, and what: the lowest of the first rank, but a child that halts before its spawner yields or halts (R81,
R157). -/
def nextIssue (s : State) : Option (Nat × Chosen) :=
  let l := chosenLeft s
  match firstRanked l 0, firstRanked l 1 with
  | some p, _ => some p
  | none, some p => some p
  | none, none => match l.find? fun p => !l.any fun q => q.2.ctx.spawner == p.2.id with
    | some p => some p
    | none => l.head?
/-- The state in which a chosen context's step is executed: the chain read and the core done, unless its context only moves
to an equipped core, which leaves the cycle to another (R71). -/
def issuing (core : Nat) (c : Chosen) : State :=
  { c.base with issue := ⟨some c.id, c.words⟩, issued := if c.step = .equippedCoreMove then c.base.issued else core :: c.base.issued }
/-- The children of a context that halt in this cycle and have budget to leave it. -/
def halters (s : State) (id : Nat) : List (Nat × Ctx) :=
  s.ctxs.filter fun p => p.2.halting && p.2.spawner == id && (bits p.2.ib 47 0 != 0 || bits p.2.mb 47 0 != 0)
/-- What they leave is added to it before its own YIELD or HALT takes effect (R81, R157). -/
def passOn (s : State) (id : Nat) : State :=
  (halters s id).foldl (fun s p =>
    let left := fun (r : Dword) => if bits r 47 0 = all1 then 0 else bits r 47 0
    creditTo (updCtx s p.1 fun y => { y with ib := 0, mb := 0 }) id (left p.2.ib) (left p.2.mb)) s

-- Limits (R85, R181, R423)

/-- A step of a context that is no issue: the context in the issue latch. -/
def onCtx (s : State) (id : Nat) : State := { s with issue := ⟨some id, []⟩ }
/-- The first wait at a home whose deadline has passed (R181). -/
def overdueAt (s : State) : Option (Nat × Nat) :=
  match s.waits.findSome? fun e => (e.2.find? (overdue s)).map fun a => (e.1, a.uid) with
  | some r => some r
  | none => s.agenda.findSome? fun d => match d.step with
    | .accessAtHome a => if overdue s a then some (a.home, a.uid) else none
    | .waitListResend a => if overdue s a then some (a.home, a.uid) else none
    | _ => none
/-- The contexts of which a park, or the wait of an outstanding instruction for its port, has reached its limit: before this
cycle, or with `zero` in it (R85). -/
def expiredCtx (s : State) (zero : Bool) : Option Nat :=
  (List.find? (fun p => (p.2.decided.isNone && (match p.2.park with | some k => if zero then expiresNow k else expired s k | none => false))
    || (portExpired s p.2 zero).isSome) s.ctxs).map (·.1)
/-- A limit that has passed before this cycle began. -/
def limitStep (s : State) : Option (Instr × State) :=
  match expiredCtx s false with
  | some id => some (.parkExpiry, onCtx s id)
  | none => match overdueAt s with
    | some (t, u) => some (.feDeadlineExpiry t u, s)
    | none => (List.find? (fun p => wdogDue s p.2) s.ctxs).map fun p => (.watchdogExpiry, onCtx s p.1)
/-- A park with limit 0 whose cycle ends without the event it waits for (R85). -/
def zeroLimit (s : State) : Option (Instr × State) := (expiredCtx s true).map fun id => (.parkExpiry, onCtx s id)

-- Days (R33, R452)

/-- Whether an access at its home goes on to the slice, which it does but for a read of a line it caches (R172, R173). -/
def toSlice (s : State) (a : Access) : Bool :=
  !isScratch a.place && !(match a.kind with | .read _ | .ldf | .fetag => cached s a.home (a.place / 64) | _ => false)
/-- The lines of a frame's receipt (R462). -/
def frameLines (s : State) (port : Nat) (f : List Byte) : List Nat :=
  let e := (f.getD (bits (ethReg s port 0) 13 0) 0).toNat
  if isResident s (bits (ethEntry s port e 1) 31 0) then linesOfRange (bits (ethEntry s port e 0) 55 0) (f.length - 4)
  else
    let h := bits (ethEntry s port e 4) 55 0
    linesOfRange h 16 ++ (match portDw s (208 + port) (h + 8) with
      | some tail => linesOfRange (h + 64 + 10304 * (tail.toNat % bits (ethEntry s port e 5) 31 0)) (64 + f.length - 4)
      | none => [])
/-- The lines of a frame's transmission (R463). -/
def transmitLines (s : State) (port : Nat) : List Nat :=
  let h := (ethReg s port 1).toNat
  linesOfRange h 8 ++ (match portDw s (208 + port) h with
    | some head =>
      let r := h + 64 + 16 * (head.toNat % (ethReg s port 2).toNat)
      linesOfRange r 16 ++ (match portDw s (208 + port) r, portDw s (208 + port) (r + 8) with
        | some a, some l => linesOfRange a.toNat (bits l 13 0)
        | _, _ => [])
    | none => [])
/-- The lines that a step moves through a port's windows, by their addresses. -/
def windowLines (s : State) (i : Instr) : List (Nat × Nat) :=
  match i with
  | .transmitFrame p => (transmitLines s p).map fun u => (208 + p, u)
  | .frameReceive p f => (frameLines s p f).map fun u => (208 + p, u)
  | .deviceDma _ u d => (linesOfRange u d.length).map fun u => (210, u)
  | .quoteComplete => (match s.quote with | some (a, _) => (linesOfRange a 30000).map fun u => (213, u) | none => [])
  | _ => []
/-- Whether the walk of an address of a port, which keeps no translations, waits for a day of the partition (R33, R453). -/
def portWalkWaits (s : State) (port u : Nat) : Bool :=
  regionOf u == .paged && (match windowFor s port u with
    | some (_, w) => (tableReads s u levels (bits (partReg s (bits w 59 58) 0) 47 12 * 4096)).any fun p => dramWait s p (bits w 59 58)
    | none => false)
/-- The lines that a step reads from, or writes to, their slices, and the partition it does so for. -/
def sliceLines (s : State) (i : Instr) : List (Nat × Nat) :=
  match i with
  | .transmitFrame _ | .frameReceive _ _ | .deviceDma _ _ _ | .quoteComplete =>
    (windowLines s i).filterMap fun l => (portSpot s l.1 l.2 rightsR).map fun p => (p.place, portPart s l.1 l.2)
  | .accessAtHome a => if toSlice s a then [(a.place, a.part)] else []
  | .lineFill _ line => [(64 * line, stepPart s i)]
  | .copyLineMove t uid => (match copyAt s t uid with
    | some c => (match engineSpot s c.part t (c.src + c.next) rightsR with | .spot p _ => [(p.place, c.part)] | _ => [])
    | none => [])
  | .contextActionAtTile ⟨_, _⟩ _ _ (.ksave l) | .contextActionAtTile ⟨_, _⟩ _ _ (.kload l) => l.map fun p => (p.2.1, stepPart s i)
  | .copyLineLand t uid _ ws => (match copyAt s t uid with | some c => ws.map fun w => (w.place, c.part) | none => [])
  | .retrieverFetch t uid => (match ((engineOf s t).queue ++ (engineOf s t).running.toList).find? fun k => k.uid == uid with
    | some k => ((k.lines[k.data.length / 64]?).map fun l => (l.2, k.part)).toList
    | none => [])
  | _ => []
/-- A port from which something goes to another, and its partition. -/
def fromPort (port dst part : Nat) : List (Nat × Nat) := if port = dst then [] else [(port, part)]
/-- The omega ports at which a due step has injected, each with its partition (R26, R27, R33). -/
def injections (s : State) (i : Instr) : List (Nat × Nat) :=
  match i with
  | .accessAtHome a => fromPort a.src a.home a.part ++ (if toSlice s a then [(a.home, a.part)] else [])
  | .longCompletion id seq => (match ctxOf s id with
    | some x => (match x.longs.find? fun l => l.seq == seq with | some l => fromPort l.back.1 x.tile x.part | none => [])
    | none => [])
  | .messageArrival dst _ src => (match src with
    | .send _ _ port _ | .part port => fromPort port (tileOfCtx s dst) (stepPart s i)
    | .signal _ _ _ _ => [])
  | .contextActionAtTile ⟨issuer, _⟩ _ target act => (match act with
    | .ksave _ | .kload _ => [(tileOfCtx s issuer, stepPart s i)]
    | _ => fromPort (tileOfCtx s issuer) (actionTile s issuer target act) (stepPart s i))
  | .traversalStepComplete ⟨id, _⟩ => (match ctxOf s id with | some x => if x.hold = some .traversal then [(x.tile, x.part)] else [] | none => [])
  | .remoteBankCheck id => [(tileOfCtx s id, stepPart s i)]
  | .migrationArrival id t => fromPort (tileOfCtx s id) t (stepPart s i)
  | .sliceWriteAccept w place _ _ => if isScratch place then [] else [(w.home, w.part)]
  | .lineFill _ line | .homeInvalidate _ line => [(portOfPlace (64 * line), stepPart s i)]
  | .copyLineMove t uid => (match copyAt s t uid with
    | some c => if regionOf c.src == .paged || otherTile t c.src then [(t, c.part)] else []
    | none => [])
  | .copyLineLand t uid _ _ => (match copyAt s t uid with
    | some c => if c.stream.isNone && (regionOf c.dst == .paged || otherTile t c.dst) then [(t, c.part)] else []
    | none => [])
  | .copyLandingReport t _ ⟨_, _, src⟩ => fromPort src t (stepPart s i)
  | .retrieverFetch t uid => (match ((engineOf s t).queue ++ (engineOf s t).running.toList).find? fun k => k.uid == uid with
    | some k => [(t, k.part)]
    | none => [])
  | .transmitFrame p => [(208 + p, stepPart s i)]
  | .frameReceive p f =>
    let e := (f.getD (bits (ethReg s p 0) 13 0) 0).toNat
    [(208 + p, portPart s (208 + p) (bits (ethEntry s p e (if isResident s (bits (ethEntry s p e 1) 31 0) then 0 else 4)) 55 0))]
  | .deviceDma _ u _ => [(210, portPart s 210 u)]
  | .quoteComplete => (match s.quote with | some (a, _) => [(213, portPart s 213 a)] | none => [])
  | _ => []
/-- Whether an action on a context reads or writes its image. -/
def readsImage : Action → Bool
  | .ctxrd _ | .ctxwr _ _ | .ksave _ | .kload _ | .topup _ _ | .ctl .retire => true
  | .ctl _ | .rqput _ _ | .rqtake _ _ | .pgwakeCtx _ _ | .pgwakeCopy _ _ _ | .cfgrd _ | .cfgwr _ _ => false
/-- Whether a due step waits for a day on which its context's image, or the links of the overflow list that holds it, can be read
(R65). -/
def imageWaits (s : State) (i : Instr) : Bool :=
  match i with
  | .longCompletion id _ => !imageReady s id
  | .contextActionAtTile _ _ t act => (readsImage act && !imageReady s t)
      || (match act with | .cfgrd c => cfgSpace c == 9 && !imageReady s (bits c 55 24) | _ => false)
      || (match ctxOf s t with
        | some y => y.state == .queued && (overflowList s y.tile).any (fun e => e.1 == t) && !linkDay s y.tile t
        | none => false)
  | _ => false
/-- Whether the walks of a copy's next line, at its source and at its destination, or of a port's lines, wait for a day (R33). -/
def engineWalkWaits (s : State) (i : Instr) : Bool :=
  match i with
  | .copyLineMove t uid => (match copyAt s t uid with
    | some c => ((c.src + c.next) :: (c.src + c.next + lineBytes c - 1) :: (if c.stream.isSome then [] else [c.dst + c.next, c.dst + Nat.min (c.next + 56) (c.len - 8)])).any fun u =>
        regionOf u == .paged && walkWaits s false c.part (16 * t) u
    | none => false)
  | _ => (windowLines s i).any fun l => portWalkWaits s l.1 l.2
/-- Whether a due step waits for a day of its partition at a port or a command slot (R33). -/
def dayWait (s : State) (i : Instr) : Bool :=
  (injections s i).any (fun p => !hasDay s p.1 p.2) || imageWaits s i || engineWalkWaits s i || (sliceLines s i).any fun p => dramWait s p.1 p.2
/-- Whether a due step may not pass one that waits for a day: the packet of its route (R27), or, for what tells of an engine's
writes, the dropping of a home's copy that completes one (R174). -/
def behindWait (s : State) (i h : Instr) : Bool :=
  sharesRoute s i h
    || (match h, i with
      | .homeInvalidate t _, .messageArrival _ _ (.part port) => t.src == port
      | .homeInvalidate t _, .copyLandingReport u _ _ => t.src == u
      | _, _ => false)

-- What waits for accesses (R20, R226, R228, R239, R434)

/-- Whether a step that is still to read or write for a tile as an image move or a traversal step comes before an access. -/
def behindBlock (s : State) (a : Access) (h : Instr) : Bool :=
  match h with
  | .traversalStepComplete ⟨id, n⟩ => decide (n ≤ a.uid) && (match ctxOf s id with
    | some x => x.tile == a.src && (match x.hold with
      | some (.acting _) => a.home == x.tile && x.actsIn.contains (planeOf a.uaddr)
      | _ => true)
    | none => false)
  | .contextActionAtTile ⟨id, n⟩ _ _ (.ksave _) | .contextActionAtTile ⟨id, n⟩ _ _ (.kload _) => tileOfCtx s id == a.src && decide (n ≤ a.uid)
  | _ => false
/-- Whether an access has still to be performed after another, or leaves from a tile that its context has yet to reach (R86), or
releases at system scope behind a write that its slice has yet to accept (R229). -/
def accessWaits (s : State) (a : Access) : Bool :=
  (pendingAccesses s).any (follows s a)
    || (match ctxOf s a.ctx with | some x => x.state == .inTransit && x.moving == some a.src | none => false)
    || (a.sys && a.rel && (requestsOf a).any fun q => acceptPending s q.1)
    || (!waitsAtHome a && s.agenda.any fun d => behindBlock s a d.step)
/-- Whether a message waits: for its destination's arrival, or, where a context sent it, for that context's earlier accesses and
earlier messages there (R213, R214). -/
def messageWaits (s : State) (dst : Nat) (src : MsgSrc) : Bool :=
  (match src with
    | .signal _ _ _ _ => false
    | _ => match ctxOf s dst with | some x => x.state == .inTransit | none => false)
    || (match src with
      | .send c _ _ n => accessBefore s c n || s.agenda.any fun d => match d.step with
        | .messageArrival e _ (.send b _ _ m) => e == dst && b == c && decide (m < n)
        | _ => false
      | .signal c _ _ n => accessBefore s c n
      | .part _ => false)
/-- The elements a stream's queue holds, and those on their way to it (R337). -/
def streamLoad (s : State) (t : Nat) (o q : Nat) : Nat :=
  (match fifoOf s t o q with | some b => (FMap.get (Fifo.mk none []) s.fifos (24 * t + b)).elems.length | none => 0)
    + ((FMap.get [] s.copies t).filter fun c => c.stream == some (o, q)).foldl (fun n c => n + c.flying) 0
/-- Whether a due step waits for accesses that come before it, or for a stream's turn and room (R239, R337), or would pass a reply sent
before its own (R27). -/
def mustWait (s : State) (i : Instr) : Bool :=
  behindReply s i || match i with
  | .accessAtHome a => accessWaits s a
  | .messageArrival dst _ src => messageWaits s dst src
  | .contextActionAtTile ⟨issuer, n⟩ _ target act =>
    (pendingAccesses s).any (actsBehind s issuer n target act)
  | .traversalStepComplete ⟨id, n⟩ => (match ctxOf s id with
    | some x => (match x.hold with
      | some (.acting j) => mustHold s n id x j
      | _ => accessBefore s id n || portBefore s x.tile x.at_ n)
    | none => false)
  | .sumPacketArrival p => accessBefore s p.ctx p.n || behindPackets s p
  | .retrieverFetch t uid => (match ((engineOf s t).queue ++ (engineOf s t).running.toList).find? fun k => k.uid == uid with
    | some k => accessBefore s k.ctx k.uid
    | none => false)
  | .copyLineMove t uid => (match copyAt s t uid with
    | some c => accessBefore s c.ctx c.uid || (match c.stream with
      | some (o, q) => decide (1024 ≤ streamLoad s t o q)
          || (copiesOf s t).any fun e => e.stream == c.stream && decide (e.uid < c.uid) && decide (e.next < e.len)
      | none => false)
    | none => false)
  | .dispatcherPlace t => !(FMap.get [] s.arrivals t).isEmpty && (nextArrival s t).isNone
  | .queueMap _ _ _ _ => frontEndStopped s || s.feWait.isSome || s.fePark.isSome || (feMeets s i).isSome
  | .queueUnmap _ _ | .graphUpload _ _ => frontEndStopped s || s.fePark.isSome || (feMeets s i).isSome
  | _ => false

-- The agenda (R55, R435)

/-- What reaches a part in standby, where every core and all DRAM but module DRAM's refresh is gated: the named port, restore, the
sensors, the links and power (R467, R468). -/
def standsBy (i : Instr) : Bool :=
  match i with
  | .vigilMatch _ _ | .frameReceive _ _ | .restoreComplete | .thermalSample | .modulePowerLoss | .softError _ _ | .autonegotiation _ _ => true
  | _ => false
/-- Whether an access to scratch meets a bank whose mode may change in this cycle: one that drains, or any of a tile of which a core
still issues a BANKCFG or a CPYQ. It is performed once the cores have issued, so that it meets the new mode (R176). -/
def bankTurns (s : State) (i : Instr) : Bool :=
  match i with
  | .accessAtHome a => isScratch a.place
      && (!(drainsOf s a.home (scratchBank a.place)).isEmpty || (chosenLeft s).any fun p => issueRank p.2.step == 0 && p.1 / 16 == a.home)
  | _ => false
/-- The next due entry that waits for nothing, and the agenda without it: the first of the events of the part, or with `late` the
first of the lowest class behind them (R435). `held` are the steps before it that wait for days, or, before the cores have issued
(`early`), for a bank's mode. -/
def takeDue (s : State) (late early : Bool) : List Instr → List Due → Option (Due × List Due)
  | _, [] => none
  | held, d :: t =>
    if s.cyc < d.at_ then none
    else if s.standby then (if standsBy d.step && !late then some (d, t) else (takeDue s late early held t).map fun r => (r.1, d :: r.2))
    else if dayWait s d.step || held.any (behindWait s d.step) || (early && bankTurns s d.step) then (takeDue s late early (d.step :: held) t).map fun r => (r.1, d :: r.2)
    else if (dueRank s d.step == 0) == late || mustWait s d.step then (takeDue s late early held t).map fun r => (r.1, d :: r.2)
    else if !late then some (d, t)
    else match takeDue s late early held t with
      | some (e, r) => if dueRank s d.step ≤ dueRank s e.step then some (d, t) else some (e, d :: r)
      | none => some (d, t)
/-- The step of the agenda that is due. -/
def dueStep (s : State) (late early : Bool) : Option (Instr × State) :=
  (takeDue s late early [] s.agenda).map fun r => (r.1.step, { s with agenda := r.2, issue := ⟨none, []⟩ })

-- Steps that engines and tables take of themselves

/-- The bank drain that has ended, if one has (R176): an access at the bank in the same cycle meets the new mode. -/
def drainStep (s : State) : Option Instr :=
  (List.find? (fun e => !e.2.isEmpty && !bankPending s (e.1 / 24) (e.1 % 24)) s.drains).map fun e => .bankDrainEnd (e.1 / 24) (e.1 % 24)
/-- The next of them: overflow entries that move, swaps, write-backs, and commands that start, or that migrate
before the cores issue (R297). -/
def innerStep (s : State) : Option Instr :=
  match s.ovf.findSome? fun e => (overflowChoice s e.1).map fun c => (e.1, c.2.1) with
  | some (t, c) => some (.overflowListMove t c)
  | none => match List.find? (fun e => (swapChoice s e.1).isSome) s.ready with
      | some e => some (.swapStart e.1)
      | none => match List.find? (fun e => (writeBackChoice s e.1).isSome) s.kennels with
        | some e => some (.kennelWriteBack e.1)
        | none => match List.find? (fun e => e.2.running.isNone && e.2.queue.any (operandsHeld s)) s.engines with
          | some e => some (.mmaStart e.1)
          | none => if !s.issued.isEmpty then none else (s.engines.findSome? fun e => (migrationTo s e.1).map fun u => (e.1, u)).map fun m => .commandMigration m.1 m.2

-- Parks that end (R48, R85)

/-- Whether what a parked context waits for has come, or what was decided of it can take effect; the waits at a home, on a page, for an
engine or for a bank end with their own events. -/
def wakes (s : State) (id : Nat) (x : Ctx) : Bool :=
  if x.decided.isSome then imageDay s id x
  else (portReady s x).isSome || match x.park with
  | none => false
  | some p => match p.kind with
    | .nq | .stream => p.ofLong.isNone && (lackOf s id x).isNone
    | .bwait => countOf s (x.tile * 256 + p.arg) == 0
    | .chwait => let k := blockAt s x.tile p.arg; !k.reserved || decide (k.expected ≤ k.arrived)
    | .waitm => !x.inbox.isEmpty
    | .equip => (equippedRoom s x.tile x.window).isSome
    | .room => (match checkedCopy s id x with | some c => copyRoom s x c | none => true)
    | .store => (freeSend s x.tile).isSome
    | .repair => p.ofLong.isNone && !underRepair s p.arg2
    | .fe | .qwait | .drain | .page | .mma => false
/-- Every context whose park ends in this cycle is ready from the next (R55). -/
def wakeAll (s : State) : State := (s.ctxs.filter fun p => wakes s p.1 p.2).foldl (fun s p => finishPark s p.1) s

-- The end of a cycle

/-- The contexts that have issued HALT in this cycle retire, a child before its spawner, so that what it leaves passes on
(R81, R156, R157). -/
def retireHalted : Nat → State → State
  | 0, s => s
  | n + 1, s =>
    let h := s.ctxs.filter fun p => p.2.halting
    match h.find? fun p => !h.any fun q => q.2.spawner == p.1 with
    | some p => retireHalted n (retire s p.1 false)
    | none => match h with
      | p :: _ => retireHalted n (retire s p.1 false)
      | [] => s
/-- Whether a cycle counts against a context's watchdog (R422). -/
def counted (x : Ctx) : Bool := x.state == .resident && x.moving.isNone && x.saving.isNone
/-- Whether the front end may inject at its tile's port (R33). -/
def frontDay (s : State) : Bool := match roleTile s 1 with | some t => hasDay s t 0 | none => true
/-- What a due action waits for, but for a day, is due in the next cycle (R434). -/
def hurryActions (s : State) : State :=
  s.agenda.foldl (fun t d => match d.step with
    | .contextActionAtTile ⟨id, n⟩ _ tgt act => if d.at_ ≤ t.cyc ∧ mustWait t d.step then hastenRoutes t (t.cyc + 1) (actsFirst t id n tgt act) else t
    | _ => t) s
/-- The next cycle begins (R49, R422). A context whose next instruction is held when it begins is ready again from the cycle after
the one in which the hold ends (R55). -/
def tick (s : State) : State :=
  let s := hurryActions (retireHalted s.ctxs.length s)
  let s := if s.standby || !frontDay s then s else examineQueues s
  { s with cyc := s.cyc + 1, issued := [], issue := ⟨none, []⟩
           ctxs := s.ctxs.map fun (p : Nat × Ctx) =>
             let y := if inTurn p.2 && nextHeld s p.1 p.2 then { p.2 with after := s.cyc + 2 } else p.2
             (p.1, if counted p.2 && !s.standby then { y with wcount := y.wcount + 1 } else y) }

-- The next step

/-- What the part does next: a step of the table, or a change of its own. -/
inductive Move where
  | exec (i : Instr) (s : State)
  | quiet (s : State)
  deriving DecidableEq, Repr
/-- The due TOPUP of a context that is about to issue YIELD or HALT in this cycle, which is applied before that takes effect (R157). -/
def topupFirst (s : State) (id : Nat) (i : Instr) : Option (Instr × State) :=
  if i = .yield ∨ i = .halt then
    (s.agenda.find? fun d => decide (d.at_ ≤ s.cyc) && (match d.step with | .contextActionAtTile _ _ t (.topup _ _) => t == id | _ => false)
      && !dayWait s d.step && !mustWait s d.step).map fun d => (d.step, { s with agenda := s.agenda.erase d, issue := ⟨none, []⟩ })
  else none
/-- The tile whose overflow list can take a link that has waited for a day (R65). -/
def linkReady (s : State) : Option Nat :=
  (List.find? (fun (e : Nat × List (Nat × Nat × Nat)) => linkReadyAt s e.1) s.ovfWait).map (·.1)
/-- What comes last in a cycle: actions on contexts and what else is due behind the cycle's own events (R435), then the front end,
which may stop or park at a word that it needs (R185, R186, R352), then the end of the cycle. -/
def nextLate (s : State) : Move :=
  match dueStep s true false with
  | some (i, t) => .exec i t
  | none => if s.standby || !frontDay s then .quiet (tick s) else match frontEndMove s with
    | some (.inl t) => .quiet t
    | some (.inr i) => .exec i { s with issue := ⟨none, []⟩ }
    | none => .quiet (tick s)
/-- The context whose instruction has waited for a walk that can be made now (R33). -/
def walkReady (s : State) : Option (Instr × State) :=
  s.ctxs.findSome? fun p => match p.2.hold with
    | some (.walking i ws u) =>
      if p.2.state == .resident && p.2.park.isNone && !walkWaits s true p.2.part p.2.at_ u && !heldBy s p.1 { p.2 with hold := none } i then some (i, { s with issue := ⟨some p.1, ws⟩ })
      else none
    | _ => none
/-- Whether a context is about to issue again an instruction whose charge was taken before an earlier one was executed alone (R59, R76). -/
def comesBack (x : Ctx) : Bool := match x.aside with | some p => p.pc == x.pc && !bit x.resume 0 && x.retry.isNone | none => false
/-- What is left of a cycle once every core has issued: what met a bank whose mode could change, parks that the cores end, limits of 0,
and what comes last. -/
def nextClosing (s : State) : Move :=
  match dueStep s false false with
  | some (i, t) => .exec i t
  | none =>
    if s.ctxs.any fun p => wakes s p.1 p.2 then .quiet (wakeAll s)
    else match zeroLimit s with
      | some (i, t) => .exec i t
      | none => nextLate s
/-- A running part's next move (R55): limits passed, drains that end, what is due, what engines do, the parks that all this ends
(R155), then each core in turn, then parks that the cores end, then what comes last. In standby no limit passes and no core issues
(R467). -/
def nextRunning (s : State) : Move :=
  match (if s.standby then none else limitStep s) with
  | some (i, t) => .exec i t
  | none => match (if s.standby then none else drainStep s) with
    | some i => .exec i { s with issue := ⟨none, []⟩ }
    | none => match dueStep s false true with
      | some (i, t) => .exec i t
      | none =>
        if s.standby then nextLate s
        else match linkReady s with
          | some t => .quiet (makeLink s t)
          | none => match s.spillWait.find? fun k => spillDay s (k / 16) with
           | some k => .quiet (trySpill { s with spillWait := s.spillWait.erase k } (k / 16) (k % 16))
           | none => match innerStep s with
            | some i => .exec i { s with issue := ⟨none, []⟩ }
            | none =>
              if s.issued.isEmpty && s.ctxs.any fun p => wakes s p.1 p.2 then .quiet (wakeAll s)
              else match walkReady s with
                | some (i, t) => .exec i t
                | none => match nextIssue s with
                  | some (c, x) =>
                    if let some t := replayMove s x.id x.ctx then .quiet t
                    else if comesBack x.ctx then .quiet (updCtx s x.id fun y => { y with retry := y.aside, aside := none })
                    else if issueRank x.step = 2 ∧ !(halters s x.id).isEmpty then .quiet (passOn s x.id)
                    else match topupFirst s x.id x.step with
                      | some (i, t) => .exec i t
                      | none => .exec x.step (issuing c x)
                  | none => nextClosing s
/-- A part that does not run: it boots from reset; otherwise only power, errors of memory and boot itself reach it, and, after a boot
that failed, the samples of its temperature (R458, R469, R470). -/
def nextStill (s : State) : Move :=
  match s.agenda with
  | d :: t => if (match s.phase with | .failed _ => decide (s.cyc < d.at_) | _ => false) then .quiet { s with cyc := s.cyc + 1 } else (match d.step with
    | .boot => .exec .boot { s with agenda := t }
    | .thermalSample => (match s.phase with | .failed _ => .exec .thermalSample { s with agenda := t } | _ => .quiet { s with agenda := t })
    | .modulePowerLoss => .exec .modulePowerLoss { s with agenda := t }
    | .softError e c => .exec (.softError e c) { s with agenda := t }
    | _ => .quiet { s with agenda := t })
  | [] => if s.phase = .reset then .exec .boot s else .quiet s
/-- The next move. -/
def nextMove (s : State) : Move := if s.phase = .running then nextRunning s else nextStill s

-- An instruction laid where the next step fetches

/-- The context that runs it: one of boot's, on tile 0, with an id of its table (R42, R458). -/
def loadedId : Nat := 1
def loadedCtx : Ctx := { bootCtx 0 0 with state := .resident, last := -64 }
/-- A halfword's bytes in memory order (R110). -/
def halfBytes (h : Half) : List Byte := [h.setWidth 8, (h >>> 8).setWidth 8]
/-- The state of a part that boot has brought to run, one context Resident in slot 0 of core 0 of tile 0, in a cycle of its
slot, and the bits of an instruction at its pc, physical address 0 (R458). -/
def load (s : State) (nbits w : Nat) : State :=
  let s := bootTables { s with
    phase := .running, cyc := 0, issued := [], agenda := [], issue := ⟨none, []⟩, standby := false
    tiles := FMap.set 0 s.tiles 0 8, ctxs := [(loadedId, loadedCtx)], ready := [], waits := [], engines := [], drains := [], ovf := []
    ovfWait := [], spillWait := [], restored := none, kennels := [], graphs := [], ethTable := [], errs := [], tlb1 := [], tlb2 := [], windows := []
    gens := FMap.set 0 s.gens 0 1, emptied := FMap.set ((List.range 64).map fun i => (0, i)) s.emptied 0 ((List.range 63).map fun i => (0, i + 1)) }
  writeBytes s 0 ((tableHalves nbits w).flatMap halfBytes)

end Sys2Proof.Machine
end

