-- ==== Sys2Proof/Machine/Dispatch.lean ====
section
/-! DEFINITION. One arm per constructor of Instr: each a call of its meaning. -/

namespace Sys2Proof.Machine

def exec (i : Instr) (s : State) : Host.Outcome State Fault Refusal :=
  match i with
  | .add d a b => Sys2Proof.Machine.execAdd d a b s
  | .sub d a b => Sys2Proof.Machine.execSub d a b s
  | .and d a b => Sys2Proof.Machine.execAnd d a b s
  | .or d a b => Sys2Proof.Machine.execOr d a b s
  | .xor d a b => Sys2Proof.Machine.execXor d a b s
  | .shl d a b => Sys2Proof.Machine.execShl d a b s
  | .shr d a b => Sys2Proof.Machine.execShr d a b s
  | .sar d a b => Sys2Proof.Machine.execSar d a b s
  | .addi d a imm => Sys2Proof.Machine.execAddi d a imm s
  | .li d imm => Sys2Proof.Machine.execLi d imm s
  | .mov d a => Sys2Proof.Machine.execMov d a s
  | .slt d a b => Sys2Proof.Machine.execSlt d a b s
  | .sltu d a b => Sys2Proof.Machine.execSltu d a b s
  | .mul d a b => Sys2Proof.Machine.execMul d a b s
  | .mulh d a b => Sys2Proof.Machine.execMulh d a b s
  | .mulhu d a b => Sys2Proof.Machine.execMulhu d a b s
  | .div la d a b => Sys2Proof.Machine.execDiv la d a b s
  | .divu la d a b => Sys2Proof.Machine.execDivu la d a b s
  | .rem la d a b => Sys2Proof.Machine.execRem la d a b s
  | .remu la d a b => Sys2Proof.Machine.execRemu la d a b s
  | .min d a b => Sys2Proof.Machine.execMin d a b s
  | .max d a b => Sys2Proof.Machine.execMax d a b s
  | .minu d a b => Sys2Proof.Machine.execMinu d a b s
  | .maxu d a b => Sys2Proof.Machine.execMaxu d a b s
  | .shli d a imm => Sys2Proof.Machine.execShli d a imm s
  | .shri d a imm => Sys2Proof.Machine.execShri d a imm s
  | .sari d a imm => Sys2Proof.Machine.execSari d a imm s
  | .bop op d a => Sys2Proof.Machine.execBop op d a s
  | .bra off => Sys2Proof.Machine.execBra off s
  | .bz a off => Sys2Proof.Machine.execBz a off s
  | .bnz a off => Sys2Proof.Machine.execBnz a off s
  | .beq a b off => Sys2Proof.Machine.execBeq a b off s
  | .bne a b off => Sys2Proof.Machine.execBne a b off s
  | .blt a b off => Sys2Proof.Machine.execBlt a b off s
  | .bltu a b off => Sys2Proof.Machine.execBltu a b off s
  | .call d off => Sys2Proof.Machine.execCall d off s
  | .jmp a => Sys2Proof.Machine.execJmp a s
  | .bmask t off => Sys2Proof.Machine.execBmask t off s
  | .ypoint off => Sys2Proof.Machine.execYpoint off s
  | .vadd q d a b => Sys2Proof.Machine.execVadd q d a b s
  | .vsub q d a b => Sys2Proof.Machine.execVsub q d a b s
  | .vmul q d a b => Sys2Proof.Machine.execVmul q d a b s
  | .vmulh q d a b => Sys2Proof.Machine.execVmulh q d a b s
  | .vand q d a b => Sys2Proof.Machine.execVand q d a b s
  | .vor q d a b => Sys2Proof.Machine.execVor q d a b s
  | .vxor q d a b => Sys2Proof.Machine.execVxor q d a b s
  | .vshl q d a b => Sys2Proof.Machine.execVshl q d a b s
  | .vshr q d a b => Sys2Proof.Machine.execVshr q d a b s
  | .vsar q d a b => Sys2Proof.Machine.execVsar q d a b s
  | .vmin q d a b => Sys2Proof.Machine.execVmin q d a b s
  | .vmax q d a b => Sys2Proof.Machine.execVmax q d a b s
  | .vcmp q pd a b => Sys2Proof.Machine.execVcmp q pd a b s
  | .vsel q d a b => Sys2Proof.Machine.execVsel q d a b s
  | .vfadd q d a b => Sys2Proof.Machine.execVfadd q d a b s
  | .vfsub q d a b => Sys2Proof.Machine.execVfsub q d a b s
  | .vfmul q d a b => Sys2Proof.Machine.execVfmul q d a b s
  | .vfma q d a b => Sys2Proof.Machine.execVfma q d a b s
  | .vfmin q d a b => Sys2Proof.Machine.execVfmin q d a b s
  | .vfmax q d a b => Sys2Proof.Machine.execVfmax q d a b s
  | .vfdiv la q d a b => Sys2Proof.Machine.execVfdiv la q d a b s
  | .vfsqrt la q d a => Sys2Proof.Machine.execVfsqrt la q d a s
  | .vfrcp la q d a => Sys2Proof.Machine.execVfrcp la q d a s
  | .vfcmp op q pd a b => Sys2Proof.Machine.execVfcmp op q pd a b s
  | .vfsgn op q d a b => Sys2Proof.Machine.execVfsgn op q d a b s
  | .vfrnd q d a => Sys2Proof.Machine.execVfrnd q d a s
  | .vfcvti op q d a => Sys2Proof.Machine.execVfcvti op q d a s
  | .vfdot2 q d a b => Sys2Proof.Machine.execVfdot2 q d a b s
  | .vbc d a => Sys2Proof.Machine.execVbc d a s
  | .vget d a imm => Sys2Proof.Machine.execVget d a imm s
  | .vput d a imm => Sys2Proof.Machine.execVput d a imm s
  | .vperm d a b => Sys2Proof.Machine.execVperm d a b s
  | .vrot d a imm => Sys2Proof.Machine.execVrot d a imm s
  | .vred q d a => Sys2Proof.Machine.execVred q d a s
  | .vscan q d a => Sys2Proof.Machine.execVscan q d a s
  | .mop fn pd pa pb => Sys2Proof.Machine.execMop fn pd pa pb s
  | .mget d pa => Sys2Proof.Machine.execMget d pa s
  | .mset pd a => Sys2Proof.Machine.execMset pd a s
  | .mcnt d pa => Sys2Proof.Machine.execMcnt d pa s
  | .vlane d a => Sys2Proof.Machine.execVlane d a s
  | .vzip d a b => Sys2Proof.Machine.execVzip d a b s
  | .vuzp d a b => Sys2Proof.Machine.execVuzp d a b s
  | .ld la q d a imm => Sys2Proof.Machine.execLd la q d a imm s
  | .st q d a imm => Sys2Proof.Machine.execSt q d a imm s
  | .vld la q d a imm => Sys2Proof.Machine.execVld la q d a imm s
  | .vst q d a imm => Sys2Proof.Machine.execVst q d a imm s
  | .vgath la q d a b => Sys2Proof.Machine.execVgath la q d a b s
  | .vscat q d a b => Sys2Proof.Machine.execVscat q d a b s
  | .pref q a imm => Sys2Proof.Machine.execPref q a imm s
  | .lea d a imm => Sys2Proof.Machine.execLea d a imm s
  | .zline q a imm => Sys2Proof.Machine.execZline q a imm s
  | .ldmx la q d a imm => Sys2Proof.Machine.execLdmx la q d a imm s
  | .ldf la q d a imm => Sys2Proof.Machine.execLdf la q d a imm s
  | .take la q d a imm => Sys2Proof.Machine.execTake la q d a imm s
  | .put la q d a imm => Sys2Proof.Machine.execPut la q d a imm s
  | .stf la q d a imm => Sys2Proof.Machine.execStf la q d a imm s
  | .sete la q a imm => Sys2Proof.Machine.execSete la q a imm s
  | .fetag la q d a imm => Sys2Proof.Machine.execFetag la q d a imm s
  | .atom la q d a b => Sys2Proof.Machine.execAtom la q d a b s
  | .cas la q d a b => Sys2Proof.Machine.execCas la q d a b s
  | .fence q => Sys2Proof.Machine.execFence q s
  | .qwait la d a b limit => Sys2Proof.Machine.execQwait la d a b limit s
  | .send a b => Sys2Proof.Machine.execSend a b s
  | .recv d => Sys2Proof.Machine.execRecv d s
  | .waitm d limit => Sys2Proof.Machine.execWaitm d limit s
  | .spawn d a b => Sys2Proof.Machine.execSpawn d a b s
  | .migr a => Sys2Proof.Machine.execMigr a s
  | .gets d n => Sys2Proof.Machine.execGets d n s
  | .sets d n => Sys2Proof.Machine.execSets d n s
  | .bgive d a b => Sys2Proof.Machine.execBgive d a b s
  | .brk code => Sys2Proof.Machine.execBrk code s
  | .signal a => Sys2Proof.Machine.execSignal a s
  | .cpy k a => Sys2Proof.Machine.execCpy k a s
  | .cpys d a => Sys2Proof.Machine.execCpys d a s
  | .binit k a => Sys2Proof.Machine.execBinit k a s
  | .bwait k limit => Sys2Proof.Machine.execBwait k limit s
  | .bpend d k => Sys2Proof.Machine.execBpend d k s
  | .cpyq d => Sys2Proof.Machine.execCpyq d s
  | .bankcfg a => Sys2Proof.Machine.execBankcfg a s
  | .bankst d => Sys2Proof.Machine.execBankst d s
  | .mfmt a => Sys2Proof.Machine.execMfmt a s
  | .mma blk a b => Sys2Proof.Machine.execMma blk a b s
  | .mmas blk a b => Sys2Proof.Machine.execMmas blk a b s
  | .acce blk a => Sys2Proof.Machine.execAcce blk a s
  | .accz blk => Sys2Proof.Machine.execAccz blk s
  | .accrd t d blk b => Sys2Proof.Machine.execAccrd t d blk b s
  | .accwr blk a b => Sys2Proof.Machine.execAccwr blk a b s
  | .accst t blk a => Sys2Proof.Machine.execAccst t blk a s
  | .accstat d blk => Sys2Proof.Machine.execAccstat d blk s
  | .chset blk a => Sys2Proof.Machine.execChset blk a s
  | .chsend blk a => Sys2Proof.Machine.execChsend blk a s
  | .chwait blk limit => Sys2Proof.Machine.execChwait blk limit s
  | .chdrop blk => Sys2Proof.Machine.execChdrop blk s
  | .chstat d blk => Sys2Proof.Machine.execChstat d blk s
  | .rset d a => Sys2Proof.Machine.execRset d a s
  | .rcov a b => Sys2Proof.Machine.execRcov a b s
  | .rbary d a b => Sys2Proof.Machine.execRbary d a b s
  | .rzt q a b => Sys2Proof.Machine.execRzt q a b s
  | .rwr a b => Sys2Proof.Machine.execRwr a b s
  | .rblk d a b => Sys2Proof.Machine.execRblk d a b s
  | .trset d b => Sys2Proof.Machine.execTrset d b s
  | .trstep d a => Sys2Proof.Machine.execTrstep d a s
  | .trtri d a b => Sys2Proof.Machine.execTrtri d a b s
  | .trbox d a b => Sys2Proof.Machine.execTrbox d a b s
  | .trcmt d b => Sys2Proof.Machine.execTrcmt d b s
  | .trinst d a => Sys2Proof.Machine.execTrinst d a s
  | .trres d => Sys2Proof.Machine.execTrres d s
  | .cvt q d a => Sys2Proof.Machine.execCvt q d a s
  | .cvtw q d a => Sys2Proof.Machine.execCvtw q d a s
  | .cvth q d a => Sys2Proof.Machine.execCvth q d a s
  | .mxq q d a b => Sys2Proof.Machine.execMxq q d a b s
  | .mxx q d a => Sys2Proof.Machine.execMxx q d a s
  | .scalb q d a b => Sys2Proof.Machine.execScalb q d a b s
  | .pack q d a b => Sys2Proof.Machine.execPack q d a b s
  | .unpk w d a b => Sys2Proof.Machine.execUnpk w d a b s
  | .ctxrd d a => Sys2Proof.Machine.execCtxrd d a s
  | .ctxwr d a b => Sys2Proof.Machine.execCtxwr d a b s
  | .ctxctlStop d a b => Sys2Proof.Machine.execCtxctlStop d a b s
  | .ctxctlResume d a b => Sys2Proof.Machine.execCtxctlResume d a b s
  | .ctxctlSwapOut d a b => Sys2Proof.Machine.execCtxctlSwapOut d a b s
  | .ctxctlRetire d a b => Sys2Proof.Machine.execCtxctlRetire d a b s
  | .ctxctlDrop d a b => Sys2Proof.Machine.execCtxctlDrop d a b s
  | .rqput d a b => Sys2Proof.Machine.execRqput d a b s
  | .rqtake d a b => Sys2Proof.Machine.execRqtake d a b s
  | .ksave d a b => Sys2Proof.Machine.execKsave d a b s
  | .kload d a b => Sys2Proof.Machine.execKload d a b s
  | .tlbinvPage a b => Sys2Proof.Machine.execTlbinvPage a b s
  | .tlbinvAll a b => Sys2Proof.Machine.execTlbinvAll a b s
  | .pgwake d a b => Sys2Proof.Machine.execPgwake d a b s
  | .topup d a b => Sys2Proof.Machine.execTopup d a b s
  | .cfgrd d a => Sys2Proof.Machine.execCfgrd d a s
  | .cfgwrTileMembership d a b => Sys2Proof.Machine.execCfgwrTileMembership d a b s
  | .cfgwrRepairEnter d a b => Sys2Proof.Machine.execCfgwrRepairEnter d a b s
  | .cfgwrReturnToService d a b => Sys2Proof.Machine.execCfgwrReturnToService d a b s
  | .cfgwrPartitionRegister d a b => Sys2Proof.Machine.execCfgwrPartitionRegister d a b s
  | .cfgwrSpillRing d a b => Sys2Proof.Machine.execCfgwrSpillRing d a b s
  | .cfgwrWakeRegister d a b => Sys2Proof.Machine.execCfgwrWakeRegister d a b s
  | .cfgwrWayMap d a b => Sys2Proof.Machine.execCfgwrWayMap d a b s
  | .cfgwrErrorCounter d a b => Sys2Proof.Machine.execCfgwrErrorCounter d a b s
  | .cfgwrPortEntry d a b => Sys2Proof.Machine.execCfgwrPortEntry d a b s
  | .cfgwrTransmitTail d a b => Sys2Proof.Machine.execCfgwrTransmitTail d a b s
  | .cfgwrPcieMemory d a b => Sys2Proof.Machine.execCfgwrPcieMemory d a b s
  | .cfgwrPcieConfig d a b => Sys2Proof.Machine.execCfgwrPcieConfig d a b s
  | .cfgwrMsiRoute d a b => Sys2Proof.Machine.execCfgwrMsiRoute d a b s
  | .cfgwrScanoutHead d a b => Sys2Proof.Machine.execCfgwrScanoutHead d a b s
  | .cfgwrVigil d a b => Sys2Proof.Machine.execCfgwrVigil d a b s
  | .cfgwrStandby d a b => Sys2Proof.Machine.execCfgwrStandby d a b s
  | .cfgwrQuoteRequest d a b => Sys2Proof.Machine.execCfgwrQuoteRequest d a b s
  | .cfgwrPageRegister d a b => Sys2Proof.Machine.execCfgwrPageRegister d a b s
  | .cfgwrPageUnregister d a b => Sys2Proof.Machine.execCfgwrPageUnregister d a b s
  | .cfgwrReadOnly d a b => Sys2Proof.Machine.execCfgwrReadOnly d a b s
  | .almset a b => Sys2Proof.Machine.execAlmset a b s
  | .fwset a b => Sys2Proof.Machine.execFwset a b s
  | .coreMoveArrival ctx core => Sys2Proof.Machine.execCoreMoveArrival ctx core s
  | .migrationArrival ctx tile => Sys2Proof.Machine.execMigrationArrival ctx tile s
  | .swapStart core => Sys2Proof.Machine.execSwapStart core s
  | .swapComplete core => Sys2Proof.Machine.execSwapComplete core s
  | .kennelWriteBack tile => Sys2Proof.Machine.execKennelWriteBack tile s
  | .overflowListMove tile core => Sys2Proof.Machine.execOverflowListMove tile core s
  | .dispatcherPlace tile => Sys2Proof.Machine.execDispatcherPlace tile s
  | .feDeadlineExpiry tile uid => Sys2Proof.Machine.execFeDeadlineExpiry tile uid s
  | .accessAtHome a => Sys2Proof.Machine.execAccessAtHome a s
  | .waitListResend a => Sys2Proof.Machine.execWaitListResend a s
  | .longCompletion ctx seq => Sys2Proof.Machine.execLongCompletion ctx seq s
  | .lineFill tile line => Sys2Proof.Machine.execLineFill tile line s
  | .sliceWriteAccept w place watched counts => Sys2Proof.Machine.execSliceWriteAccept w place watched counts s
  | .homeInvalidate tile line => Sys2Proof.Machine.execHomeInvalidate tile line s
  | .bankDrainEnd tile bank => Sys2Proof.Machine.execBankDrainEnd tile bank s
  | .messageArrival dst msg src => Sys2Proof.Machine.execMessageArrival dst msg src s
  | .atomCombine u v => Sys2Proof.Machine.execAtomCombine u v s
  | .combinedReplySplit a old => Sys2Proof.Machine.execCombinedReplySplit a old s
  | .mmaStart tile => Sys2Proof.Machine.execMmaStart tile s
  | .mmaStep tile => Sys2Proof.Machine.execMmaStep tile s
  | .commandMigration src dst => Sys2Proof.Machine.execCommandMigration src dst s
  | .retrieverFetch tile uid => Sys2Proof.Machine.execRetrieverFetch tile uid s
  | .sumPacketArrival p => Sys2Proof.Machine.execSumPacketArrival p s
  | .acknowledgementArrival tile entry => Sys2Proof.Machine.execAcknowledgementArrival tile entry s
  | .refusalArrival p why => Sys2Proof.Machine.execRefusalArrival p why s
  | .remoteBankCheck ctx => Sys2Proof.Machine.execRemoteBankCheck ctx s
  | .copyLineMove tile uid => Sys2Proof.Machine.execCopyLineMove tile uid s
  | .copyLineLand tile uid line words => Sys2Proof.Machine.execCopyLineLand tile uid line words s
  | .copyLandingReport tile uid l => Sys2Proof.Machine.execCopyLandingReport tile uid l s
  | .cpyqComplete ctx n => Sys2Proof.Machine.execCpyqComplete ctx n s
  | .traversalStepComplete q => Sys2Proof.Machine.execTraversalStepComplete q s
  | .tlbinvComplete ctx => Sys2Proof.Machine.execTlbinvComplete ctx s
  | .graphUpload part graph => Sys2Proof.Machine.execGraphUpload part graph s
  | .runStart graph => Sys2Proof.Machine.execRunStart graph s
  | .nodeStart graph node => Sys2Proof.Machine.execNodeStart graph node s
  | .contextPlacement graph node => Sys2Proof.Machine.execContextPlacement graph node s
  | .nodeLate graph node => Sys2Proof.Machine.execNodeLate graph node s
  | .nodeComplete graph node => Sys2Proof.Machine.execNodeComplete graph node s
  | .pipelineStart graph node => Sys2Proof.Machine.execPipelineStart graph node s
  | .bindingRelease graph node => Sys2Proof.Machine.execBindingRelease graph node s
  | .queueMap part k bell desc => Sys2Proof.Machine.execQueueMap part k bell desc s
  | .queueUnmap part k => Sys2Proof.Machine.execQueueUnmap part k s
  | .autonegotiation port rate => Sys2Proof.Machine.execAutonegotiation port rate s
  | .frameReceive port frame => Sys2Proof.Machine.execFrameReceive port frame s
  | .transmitFrame port => Sys2Proof.Machine.execTransmitFrame port s
  | .msiWrite v => Sys2Proof.Machine.execMsiWrite v s
  | .deviceDma write uaddr data => Sys2Proof.Machine.execDeviceDma write uaddr data s
  | .verticalBlank head => Sys2Proof.Machine.execVerticalBlank head s
  | .vigilMatch port frame => Sys2Proof.Machine.execVigilMatch port frame s
  | .saveComplete ctx => Sys2Proof.Machine.execSaveComplete ctx s
  | .contextActionAtTile q d target act => Sys2Proof.Machine.execContextActionAtTile q d target act s
  | .softError site corrected => Sys2Proof.Machine.execSoftError site corrected s
  | .yield => Sys2Proof.Machine.execYield s
  | .halt => Sys2Proof.Machine.execHalt s
  | .nop => Sys2Proof.Machine.execNop s
  | .illegalChain => Sys2Proof.Machine.execIllegalChain s
  | .candidateBudgetReject => Sys2Proof.Machine.execCandidateBudgetReject s
  | .equippedCoreMove => Sys2Proof.Machine.execEquippedCoreMove s
  | .requestedStop => Sys2Proof.Machine.execRequestedStop s
  | .keptFaultStop => Sys2Proof.Machine.execKeptFaultStop s
  | .parkExpiry => Sys2Proof.Machine.execParkExpiry s
  | .watchdogExpiry => Sys2Proof.Machine.execWatchdogExpiry s
  | .almanacCommit => Sys2Proof.Machine.execAlmanacCommit s
  | .boot => Sys2Proof.Machine.execBoot s
  | .restoreComplete => Sys2Proof.Machine.execRestoreComplete s
  | .thermalSample => Sys2Proof.Machine.execThermalSample s
  | .quoteComplete => Sys2Proof.Machine.execQuoteComplete s
  | .modulePowerLoss => Sys2Proof.Machine.execModulePowerLoss s

end Sys2Proof.Machine
end

