-- ==== Sys2Proof/Machine/Step.lean ====
section
/-! DEFINITION. One step of the part: its next move, executed where it is a step of the table (R55). -/

namespace Sys2Proof.Machine

/-- One step. -/
def step (s : State) : Host.Outcome State Fault Refusal :=
  match nextMove s with
  | .exec i t => exec i t
  | .quiet t => .next t
/-- The state with an instruction's bits laid where step fetches next (log 1). -/
def State.withFetchWord (s : State) (nbits w : Nat) : State := load s nbits w

end Sys2Proof.Machine
end

