-- ==== Sys2Proof/Safety.lean ====
section
/-! DEFINITION. What counts as a safe run, and the words in which claims speak of an issue: a context that nothing stops
before its instruction's effect (R134), the context as the effect finds it (R52, R56, R59), its charge (R73 to R77), and
the reading of a field (R122, R137). -/

namespace Sys2Proof.Machine

/-- A state from which a step goes on. -/
def goesOn (s : State) : Prop := ∃ t, step s = .next t
/-- The states that a run of n steps from a state passes, while it goes on. -/
def safeRun : Nat → State → Prop
  | 0, _ => True
  | n + 1, s => ∃ t, step s = .next t ∧ safeRun n t

/-- Context id, living as x, is about to issue i, and nothing that comes before the instruction's effect stops it: no
rule holds it (R56 to R59, R210, R226, R434), its chain is legal (R134, R375), its block is granted (R126), it stands on an equipped
core where it must (R71), a candidate is left (R406), its registers are sound (R425), its queues have entries and
room (R122), and it has not issued already and waited for a walk (R33). -/
structure Clear (s : State) (i : Instr) (id : Nat) (x : Ctx) : Prop where
  latched : s.issue.ctx = some id
  living : ctxOf s id = some x
  free : heldBy s id x i = false
  legal : issueCheck i x = none
  granted : ∀ b, blockOf i = some b → b.toNat < x.grant.length
  equipped : wantsEquipped i x = false
  candidates : cbArmed x = true → bits x.cb 31 16 ≠ 0
  sound : ∀ r ∈ readsOf i, r ≤ 127 → regErr s id r = false
  queues : queueLack s id x i = none
  fresh : x.walks i = false
/-- The context as its instruction's effect finds it, before its charge: Last and Gap set (R52, R54), the pc behind the
chain or at the resume word's address (R59), one candidate fewer (R406), one more counted by each lookahead (R56). -/
def issued (s : State) (i : Instr) (x : Ctx) : Ctx := { x with last := s.cyc, gap := gapOf i }.advance s.issue.words.length
/-- A context after the charge of an instruction (R73 to R77); one that was charged before its park pays nothing more
(R76). None where the charge overdraws it. -/
def Ctx.pays (y : Ctx) (ci cm : Nat) : Option Ctx := if y.retry.isSome then some y else charged y ci cm
/-- Context id, living as x, issues i, nothing stops it before its effect, and it pays ci instructions and cm bytes: y is
the context after that charge. -/
def Begins (s : State) (i : Instr) (id : Nat) (x : Ctx) (ci cm : Nat) (y : Ctx) : Prop :=
  Clear s i id x ∧ (issued s i x).pays ci cm = some y
/-- The state once an instruction has completed: what its park left to pay with is gone (R76). -/
def conclude (t : State) (id : Nat) (pc : Dword) : State := updCtx t id fun y => { y with retry := y.retry.filter fun p => p.pc != pc }
/-- What a field reads: a window register, or the oldest entry of a port or stream, which the read removes (R122, R137). -/
def readField (s : State) (id : Nat) (r : RegNo) : Reg × State :=
  match ctxOf s id with
  | none => (0, s)
  | some x => if r.toNat ≤ 127 then (x.reg r.toNat, s) else pop s id x r
/-- How the issue of an instruction ends where its effect meets a trap: nothing but Last and Prev has changed (R9, R52, R76,
R134, R186). -/
def trapped (s : State) (i : Instr) (id : Nat) (x : Ctx) (e : Trap) : State :=
  let s0 := setCtx s id { x with last := s.cyc, gap := gapOf i }
  match e with
  | .fault f => issueFault s0 id i f
  | .chain e => chainFault s0 id e
  | .park p => parkCtx s0 id p
  | .page u w tr => pagePark s0 id x u w tr
  | .exhaust ci cm => exhausted s0 id (pageOp i).1 (pageOp i).2 ci cm
  | .wait => s
  | .walk u => setCtx s id { x with last := s.cyc, gap := gapOf i, hold := some (.walking i s.issue.words u) }

end Sys2Proof.Machine
end

