-- ==== Sys2Proof/Safety/Tables.lean ====
section
/-! DEFINITION. The values the rules give, written from the rules by arithmetic on numbers, element by element and lane by
lane: the tables that claims about pages 0 to 5 and 14 quantify over. -/

namespace Sys2Proof.Machine

-- Pages 0 and 1

/-- The three-register operations (R140, R147) and what each gives from the scalars u of A and v of B. -/
def scalarOps (d a b : RegNo) : List (Instr × (Dword → Dword → Dword)) :=
  [ (.add d a b, fun u v => BitVec.ofInt 64 (u.toInt + v.toInt)),
    (.sub d a b, fun u v => BitVec.ofInt 64 (u.toInt - v.toInt)),
    (.and d a b, fun u v => u &&& v),
    (.or d a b, fun u v => u ||| v),
    (.xor d a b, fun u v => u ^^^ v),
    (.shl d a b, fun u v => BitVec.ofNat 64 (u.toNat * 2 ^ (v.toNat % 64))),
    (.shr d a b, fun u v => BitVec.ofNat 64 (u.toNat / 2 ^ (v.toNat % 64))),
    (.sar d a b, fun u v => BitVec.ofInt 64 (u.toInt / 2 ^ (v.toNat % 64))),
    (.slt d a b, fun u v => if u.toInt < v.toInt then 1 else 0),
    (.sltu d a b, fun u v => if u.toNat < v.toNat then 1 else 0),
    (.mul d a b, fun u v => BitVec.ofInt 64 (u.toInt * v.toInt)),
    (.mulh d a b, fun u v => BitVec.ofInt 64 (u.toInt * v.toInt / 2 ^ 64)),
    (.mulhu d a b, fun u v => BitVec.ofNat 64 (u.toNat * v.toNat / 2 ^ 64)),
    (.min d a b, fun u v => if u.toInt ≤ v.toInt then u else v),
    (.max d a b, fun u v => if u.toInt ≤ v.toInt then v else u),
    (.minu d a b, fun u v => if u.toNat ≤ v.toNat then u else v),
    (.maxu d a b, fun u v => if u.toNat ≤ v.toNat then v else u) ]
/-- The operations of one register (R141 to R143, R146) and what each gives from the scalar of A. -/
def unaryOps (d a : RegNo) (imm : Dword) : List (Instr × (Dword → Dword)) :=
  [ (.mov d a, fun u => u),
    (.addi d a imm, fun u => BitVec.ofInt 64 (u.toInt + imm.toInt)),
    (.shli d a imm, fun u => BitVec.ofNat 64 (u.toNat * 2 ^ (imm.toNat % 64))),
    (.shri d a imm, fun u => BitVec.ofNat 64 (u.toNat / 2 ^ (imm.toNat % 64))),
    (.sari d a imm, fun u => BitVec.ofInt 64 (u.toInt / 2 ^ (imm.toNat % 64))),
    (.bop .clz d a, fun u => BitVec.ofNat 64 (((List.range 64).findIdx? fun k => u.getLsbD (63 - k)).getD 64)),
    (.bop .ctz d a, fun u => BitVec.ofNat 64 (((List.range 64).findIdx? fun k => u.getLsbD k).getD 64)),
    (.bop .popc d a, fun u => BitVec.ofNat 64 ((List.range 64).countP fun k => u.getLsbD k)),
    (.bop .brev d a, fun u => u.reverse),
    (.bop .bswap d a, fun u => BitVec.ofNat 64 (((List.range 8).map fun k => u.toNat / 256 ^ k % 256 * 256 ^ (7 - k)).sum)) ]
/-- The divisions (R144): truncated toward zero, the remainder with the dividend's sign, all ones or the dividend where the
divisor is 0. -/
def divisionOps (la : BitVec 4) (d a b : RegNo) : List (Instr × (Dword → Dword → Dword)) :=
  [ (.div la d a b, fun u v => if v = 0 then BitVec.allOnes 64 else BitVec.ofInt 64 (u.toInt.tdiv v.toInt)),
    (.divu la d a b, fun u v => if v = 0 then BitVec.allOnes 64 else BitVec.ofNat 64 (u.toNat / v.toNat)),
    (.rem la d a b, fun u v => if v = 0 then u else BitVec.ofInt 64 (u.toInt - v.toInt * u.toInt.tdiv v.toInt)),
    (.remu la d a b, fun u v => if v = 0 then u else BitVec.ofNat 64 (u.toNat % v.toNat)) ]

-- Page 2

/-- The branches (R149, R150, R153) and when each is taken, by the registers of the context at issue. -/
def branchOps (a b : RegNo) (off : Dword) : List (Instr × (Ctx → Prop)) :=
  [ (.bra off, fun _ => True),
    (.bz a off, fun x => x.scalar a = 0),
    (.bnz a off, fun x => x.scalar a ≠ 0),
    (.beq a b off, fun x => x.scalar a = x.scalar b),
    (.bne a b off, fun x => x.scalar a ≠ x.scalar b),
    (.blt a b off, fun x => (x.scalar a).toInt < (x.scalar b).toInt),
    (.bltu a b off, fun x => (x.scalar a).toNat < (x.scalar b).toNat),
    (.bmask .any off, fun x => maskP x.pw 0 ≠ 0),
    (.bmask .none off, fun x => maskP x.pw 0 = 0),
    (.bmask .all off, fun x => maskP x.pw 0 = 0xFFFF) ]

-- Page 3

/-- An integer as an element of e bits. -/
def toElem (e : Nat) (z : Int) : Nat := (z % (2 ^ e : Nat)).toNat
/-- An integer moved into a range. -/
def clampInt (lo hi z : Int) : Int := if z < lo then lo else if hi < z then hi else z
/-- An exact sum or difference as VADD and VSUB give it (R251): modulo 2^e, or clamped with sat. -/
def sumElem (q : VIQual) (z : Int) : Nat :=
  let e := elWidth q.el
  if q.sat then (if q.uns then toElem e (clampInt 0 (2 ^ e - 1) z) else toElem e (clampInt (-2 ^ (e - 1)) (2 ^ (e - 1) - 1) z)) else toElem e z
/-- An element as the number that uns says it stands for (R246, R251). -/
def elemInt (q : VIQual) (x : Nat) : Int := if q.uns then x else signedElem (elWidth q.el) x
/-- The integer vector operations (R251) and the element each gives in lane l from the elements of A and B, below 2^e; x is
the context at issue. -/
def vectorOps (q : VIQual) (d a b : RegNo) : List (Instr × (Ctx → Nat → Nat → Nat → Nat)) :=
  let e := elWidth q.el
  [ (.vadd q d a b, fun _ _ u v => sumElem q (elemInt q u + elemInt q v)),
    (.vsub q d a b, fun _ _ u v => sumElem q (elemInt q u - elemInt q v)),
    (.vmul q d a b, fun _ _ u v => u * v % 2 ^ e),
    (.vmulh q d a b, fun _ _ u v => toElem e (elemInt q u * elemInt q v / 2 ^ e)),
    (.vand q d a b, fun _ _ u v => u &&& v),
    (.vor q d a b, fun _ _ u v => u ||| v),
    (.vxor q d a b, fun _ _ u v => u ^^^ v),
    (.vshl q d a b, fun _ _ u v => u * 2 ^ (v % e) % 2 ^ e),
    (.vshr q d a b, fun _ _ u v => u / 2 ^ (v % e)),
    (.vsar q d a b, fun _ _ u v => toElem e (signedElem e u / 2 ^ (v % e))),
    (.vmin q d a b, fun _ _ u v => if elemInt q u ≤ elemInt q v then u else v),
    (.vmax q d a b, fun _ _ u v => if elemInt q u ≤ elemInt q v then v else u),
    (.vsel q d a b, fun x l u v => if (maskP x.pw 1).getLsbD l then u else v) ]
/-- Element i of lane l of B, or of its broadcast (R248): element 0 of the scalar of B. -/
def operandB (bc : Bool) (e : Nat) (v : Reg) (l i : Nat) : Nat := if bc then (scalarOf v).toNat % 2 ^ e else elem e i (lane v l)

/-- A condition on two integers (R252). -/
def condTrue : Cond → Int → Int → Prop
  | .eq, u, v => u = v | .ne, u, v => u ≠ v | .lt, u, v => u < v | .le, u, v => u ≤ v | .gt, u, v => v < u | .ge, u, v => v ≤ u

-- Pages 4 and 14

/-- B of an operation, or its broadcast (R248). -/
def broadcast (bc : Bool) (e : Nat) (v : Reg) : Reg := if bc then ofLanes fun _ => joinElems e fun _ => (scalarOf v).toNat else v
/-- An operation whose elements are rounded one after another (R253, R268): its rounding field, whether B is a source (its
broadcast bit and element width), whether D is one, the width of an element of the result, the elements in their order
(lane, element), and each one's value from the settings of rnd, the random word of SR, and the registers read from A, B
and D. -/
structure RoundedOp where
  instr : Instr
  rm : Rounding
  fromB : Option (Bool × Nat)
  fromD : Bool
  width : Nat
  order : List (Nat × Nat)
  value : Rnd → Nat → Nat × Nat → Reg → Reg → Reg → Nat
/-- The element of a register as an exact input (R253, R269). -/
def inElem (f : FmtInfo) (rc : Rnd) (k : Nat × Nat) (r : Reg) : Exact := inputX f rc (elem f.width k.2 (lane r k.1))
/-- The lanes of a mask as elements of the order, one a lane. -/
def laneOrder (m : BitVec 16) : List (Nat × Nat) := (lanesOf m).map fun l => (l, 0)
/-- The operations of page 4 that round (R254, R258, R259), and of page 14 those that convert lanes or elements (R281, R283,
R284); m is p0. -/
def roundedOps (q : VFQual) (c : CQual) (z : XQual) (m : BitVec 16) (d a b : RegNo) : List RoundedOp :=
  let f := ftInfo q.ty
  let two := some (q.bc, f.width)
  let ks := elemOrder m f.width
  let g := fmtInfo c.fmt
  let h := 2 ^ (32 - g.width)
  [ ⟨.vfadd q d a b, q.rm, two, false, f.width, ks, fun rc r k u v _ => roundTo f rc r (Exact.sum (rc.mode == 2) [inElem f rc k u, inElem f rc k v])⟩,
    ⟨.vfsub q d a b, q.rm, two, false, f.width, ks, fun rc r k u v _ => roundTo f rc r (Exact.sum (rc.mode == 2) [inElem f rc k u, (inElem f rc k v).negate])⟩,
    ⟨.vfmul q d a b, q.rm, two, false, f.width, ks, fun rc r k u v _ => roundTo f rc r ((inElem f rc k u).mul (inElem f rc k v))⟩,
    ⟨.vfma q d a b, q.rm, two, true, f.width, ks,
      fun rc r k u v w => roundTo f rc r (Exact.sum (rc.mode == 2) [(inElem f rc k u).mul (inElem f rc k v), inElem f rc k w])⟩,
    ⟨.vfrnd q d a, q.rm, none, false, f.width, ks, fun rc r k u _ _ => rndElem f rc r (input f rc (elem f.width k.2 (lane u k.1)))⟩,
    ⟨.vfcvti .toi q d a, q.rm, none, false, f.width, ks, fun rc r k u _ _ => cvtiElem .toi f rc r (elem f.width k.2 (lane u k.1))⟩,
    ⟨.vfcvti .touns q d a, q.rm, none, false, f.width, ks, fun rc r k u _ _ => cvtiElem .touns f rc r (elem f.width k.2 (lane u k.1))⟩,
    ⟨.vfcvti .fromi q d a, q.rm, none, false, f.width, ks,
      fun rc r k u _ _ => roundTo f rc r (Exact.ofInt (signedElem f.width (elem f.width k.2 (lane u k.1))))⟩,
    ⟨.vfcvti .fromuns q d a, q.rm, none, false, f.width, ks, fun rc r k u _ _ => roundTo f rc r (Exact.ofInt (elem f.width k.2 (lane u k.1)))⟩,
    ⟨.vfdot2 q d a b, q.rm, some (q.bc, 32), true, 32, laneOrder m, fun rc r k u v w =>
      let product := fun (i : Nat) => (inputX f rc (elem 16 i (lane u k.1))).mul (inputX f rc (elem 16 i (lane v k.1)))
      roundTo infoFp32 rc r (Exact.sum (rc.mode == 2) [product 1, product 0, inputX infoFp32 rc (lane w k.1).toNat])⟩,
    ⟨.cvt c d a, c.rm, none, false, 32, laneOrder m, fun rc r k u _ _ =>
      if c.frm then roundTo infoFp32 rc r (inputX g rc ((lane u k.1).toNat % 2 ^ g.width)) else roundTo g rc r (inputX infoFp32 rc (lane u k.1).toNat)⟩,
    ⟨.cvth c d a, c.rm, none, false, 32, laneOrder m, fun rc r k u _ _ =>
      if c.frm then roundTo infoFp32 rc r (inputX g rc ((lane u k.1).toNat / h)) else h * roundTo g rc r (inputX infoFp32 rc (lane u k.1).toNat)⟩,
    ⟨.mxx z d a, z.rm, none, false, 16, elemOrder m 16, fun rc r k u _ _ =>
      let x := fmtInfo z.fmt
      roundTo infoBf16 rc r (mxValue x rc (u.toNat / 2 ^ (x.width * (2 * k.1 + k.2)) % 2 ^ x.width) (u.toNat / 2 ^ (32 * x.width) % 256))⟩,
    ⟨.scalb q d a b, q.rm, two, false, f.width, ks, fun rc r k u v _ =>
      roundTo f rc r ((inElem f rc k u).scale (max (-1000) (min (signedElem f.width (elem f.width k.2 (lane v k.1))) 1000)))⟩ ]
/-- The long operations of page 4 (R249, R254): the charge, whether B is a source, and the exact value. -/
def longFloatOps (la : BitVec 4) (q : VFQual) (d a b : RegNo) : List (Instr × Nat × Bool × (Exact → Exact → Exact)) :=
  [ (.vfdiv la q d a b, 4, true, fun x y => x.div y),
    (.vfsqrt la q d a, 4, false, fun x _ => x.sqrt),
    (.vfrcp la q d a, 1, false, fun x _ => (Exact.ofInt 1).div x) ]
/-- The operations of page 4 on patterns (R255, R257), which do not round: whether B is a source, and the element from A's and
B's patterns. -/
def patternOps (q : VFQual) (d a b : RegNo) : List (Instr × Bool × (FmtInfo → Rnd → Nat → Nat → Nat)) :=
  [ (.vfmin q d a b, true, minMaxElem false),
    (.vfmax q d a b, true, minMaxElem true),
    (.vfsgn .copy q d a b, true, fun f _ x y => f.pattern (f.neg y) (f.mag x)),
    (.vfsgn .neg q d a b, false, fun f _ x _ => f.pattern (!f.neg x) (f.mag x)),
    (.vfsgn .xor q d a b, true, fun f _ x y => f.pattern (f.neg x != f.neg y) (f.mag x)),
    (.vfsgn .abs q d a b, false, fun f _ x _ => f.mag x) ]

-- Page 5

/-- The lane moves of A and B (R260): lane l of the result. -/
def moveOps2 (d a b : RegNo) : List (Instr × (Reg → Reg → Nat → Lane)) :=
  [ (.vperm d a b, fun u v l => lane u ((lane v l).toNat % 16)),
    (.vzip d a b, fun u v l => if l % 2 = 0 then lane u (l / 2) else lane v (l / 2)),
    (.vuzp d a b, fun u v l => if l < 8 then lane u (2 * l) else lane v (2 * l - 16)) ]
/-- The lane moves of A alone (R260). -/
def moveOps1 (d a : RegNo) (imm : Dword) : List (Instr × (Reg → Nat → Lane)) :=
  [ (.vbc d a, fun u _ => lane u 0),
    (.vrot d a imm, fun u l => lane u ((l + imm.toNat % 16) % 16)),
    (.vlane d a, fun u l => BitVec.ofNat 32 ((lane u 0).toNat + l)) ]
/-- The integer operations of VRED and VSCAN (R261) on two lanes, and the value that changes nothing. -/
def redInt : Nat → (Lane → Lane → Lane) × Lane
  | 0 => (fun x y => x + y, 0)
  | 1 => (fun x y => if x.toInt ≤ y.toInt then x else y, 0x7FFFFFFF)
  | 2 => (fun x y => if x.toInt ≤ y.toInt then y else x, 0x80000000)
  | 3 => (fun x y => if x.toNat ≤ y.toNat then x else y, 0xFFFFFFFF)
  | 4 => (fun x y => if x.toNat ≤ y.toNat then y else x, 0)
  | 5 => (fun x y => x &&& y, 0xFFFFFFFF)
  | 6 => (fun x y => x ||| y, 0)
  | _ => (fun x y => x ^^^ y, 0)

end Sys2Proof.Machine
end

