-- ==== Sys2Proof/Safety/Effects.lean ====
section
/-! DEFINITION. What the instructions of pages 6 and 7 ask of memory, written from the rules, and the state once their accesses
are on their way: the tables that claims about those pages quantify over. -/

namespace Sys2Proof.Machine

/-- The addresses of an ask pass every check, are present, and are of no home under repair; no reserved rounding code waits;
the context stays where it is. l gives their unified addresses and places, and s' is the state after the translations
(R69, R162, R166, R185, R186, R266). -/
structure Reaches (s : State) (id : Nat) (x : Ctx) (q : Ask) (l : List (Nat × Spot)) (s' : State) : Prop where
  mapped : resolve s x q.as q.n q.align q.r = .spots l s'
  served : ∀ p ∈ l, p.2.paged = true → underRepair s p.2.home = false
  format : q.fmt = none
  stays : (migration s id x q.pol l).1 = none
/-- The same of a rover that leaves first for the tile of its line's home (R68, R69). -/
structure ReachesAway (s : State) (id : Nat) (x : Ctx) (q : Ask) (l : List (Nat × Spot)) (tile : Nat) (s' : State) : Prop where
  mapped : resolve s x q.as q.n q.align q.r = .spots l s'
  served : ∀ p ∈ l, p.2.paged = true → underRepair s p.2.home = false
  format : q.fmt = none
  leaves : (migration s id x q.pol l).1 = some tile
/-- What stops an ask before its charge: an address that fails a check, a page that is not present, a walk that waits for a day, or, once
all are translated, a home under repair, at which its context parks for as long as its fel (R33, R162, R165 to R168, R185, R186). -/
def Stops (s : State) (x : Ctx) (q : Ask) (e : Trap) : Prop :=
  resolve s x q.as q.n q.align q.r = .stop e
  ∨ ∃ l s' u p, resolve s x q.as q.n q.align q.r = .spots l s' ∧ l.find? (fun p => p.2.paged && underRepair s' p.2.home) = some (u, p)
    ∧ e = .park ⟨.repair, s.cyc, some (x.fel.toNat % 2 ^ 32), u, p.home, x.pc, x.paid⟩
/-- The mb charge of an ask's accesses (R75): of each whose home is another tile, its bytes; of LDMX, 64 (R203). -/
def Ask.cost (q : Ask) (x : Ctx) (l : List (Nat × Spot)) : Nat :=
  match q.fixed with
  | some n => n
  | none => (l.countP fun p => p.2.home != x.tile) * q.n
/-- The context behind an access: its predictor has seen the home (R68). -/
def predicted (s : State) (id : Nat) (x y : Ctx) (q : Ask) (l : List (Nat × Spot)) : Ctx :=
  { y with predH := (migration s id x q.pol l).2.1, predN := (migration s id x q.pol l).2.2 }
/-- A rover gone for the tile of its line's home, with the predictor as the access leaves it (R67 to R69). -/
def departed (s s' : State) (id : Nat) (x y : Ctx) (q : Ask) (l : List (Nat × Spot)) (tile : Nat) : State :=
  departTile (setCtx s' id { y with predH := (migration s id x q.pol l).2.1 }) id tile
/-- The cycle in which it arrives, before which its access does not leave that tile (R67, R69). -/
def arrivesAt (s : State) (id tile : Nat) : Nat := s.agenda.foldl (fun n d => if d.step = .migrationArrival id tile then Nat.max n d.at_ else n) 0
/-- The accesses of an instruction on their way, each to its place, from a tile and a cycle on (R184, R226). -/
def sendingFrom (s : State) (id seq : Nat) (x : Ctx) (q : Ask) (l : List (Nat × Spot)) (src after : Nat) : State :=
  sendAll (q.sending id seq x src after) s (q.kinds.zip l)
/-- The same from its context's tile, at once. -/
def sending (s : State) (id seq : Nat) (x : Ctx) (q : Ask) (l : List (Nat × Spot)) : State := sendingFrom s id seq x q l x.tile 0
/-- A long instruction is outstanding and its accesses are on their way; one with none completes in the next cycle (R56, R201). -/
def loadingFrom (s : State) (i : Instr) (id : Nat) (x : Ctx) (q : Ask) (l : List (Nat × Spot)) (lg : Long) (src after : Nat) : State :=
  sendingFrom (outstanding s i id x { lg with ea := q.as.headD 0, waiting := l.length } (if l = [] then some 1 else none))
    id s.uid x q l src after
/-- The same from its context's tile, at once. -/
def loading (s : State) (i : Instr) (id : Nat) (x : Ctx) (q : Ask) (l : List (Nat × Spot)) (lg : Long) : State := loadingFrom s i id x q l lg x.tile 0
/-- A long instruction whose address meets PROT is outstanding without an access, and its fault is reported when it completes (R59). -/
def doomed (s : State) (i : Instr) (id : Nat) (x : Ctx) (lg : Long) (f : Flt) : State :=
  later (outstanding s i id x { lg with fault := some f } none) (.longCompletion id s.uid)

/-- The size of a type in bytes (R198). -/
def bytesOf : MType → Nat
  | .ub | .sb => 1
  | .uh | .sh => 2
  | .uw | .sw => 4
  | .d => 8
/-- The lanes of p0, ascending (R201). -/
def p0Lanes (x : Ctx) : List Nat := (List.range 16).filter fun l => (maskP x.pw 0).getLsbD l
/-- The address of a lane of a gather or scatter: the scalar of A plus the lane of B, sign-extended (R193, R201). -/
def laneAddr (x : Ctx) (a b : RegNo) (l : Nat) : Dword := ea (x.scalar a) ((lane (x.reg b.toNat) l).signExtend 64)
/-- An ask of one aligned address of n bytes under layout M. -/
def askOf (q : MQual) (ad : Dword) (n : Nat) (r : Rights) (k : AccKind) (land : Land) : Ask :=
  { as := [ad], n := n, align := n, r := r, pol := q.pol, ord := q.ord, scope := q.scope, kinds := [(k, land)], fixed := none, deadline := 0 }
/-- A full/empty ask: 8 bytes, waited for at most fel cycles (R181, R204). -/
def askFe (q : MQual) (x : Ctx) (ad : Dword) (r : Rights) (o : Order) (k : AccKind) (land : Land) : Ask :=
  { as := [ad], n := 8, align := 8, r := r, pol := q.pol, ord := o, scope := q.scope, kinds := [(k, land)], fixed := none
    deadline := bits x.fel 31 0 }
/-- An atomic's ask: remote, of 4 or 8 bytes (R193, R206). -/
def askAtomic (q : AQual) (x : Ctx) (a : RegNo) (k : Nat → AccKind) : Ask :=
  let n := if q.word then 4 else 8
  { as := [x.scalar a], n := n, align := n, r := rightsRWS, pol := .remote, ord := q.ord, scope := q.scope
    kinds := [(k n, .scalar (if q.word then .uw else .d))], fixed := none, deadline := 0
    comb := if q.comb then some (q.ord, q.scope) else none }
/-- A result of D's scalar, and of D's lanes of p0. -/
def toScalar (d : RegNo) : Long := { Long.blank with d := d, wr := .scalar }
def toLanes (d : RegNo) (x : Ctx) : Long := { Long.blank with d := d, wr := .vector, mask := maskP x.pw 0 }

/-- The loads (R199 to R201), the full/empty accesses and atomics that read no value of D (R204, R206), and QWAIT (R211):
what each asks, and what its result will replace. -/
def loadOps (la : BitVec 4) (q : MQual) (o : AQual) (x : Ctx) (d a b : RegNo) (imm limit : Dword) : List (Instr × Ask × Long) :=
  let ad := ea (x.scalar a) imm
  [ (.ld la q d a imm, askOf q ad (bytesOf q.ty) rightsR (.read (bytesOf q.ty)) (.scalar q.ty), toScalar d),
    (.vld la q d a imm, askOf q ad 64 rightsR (.read 64) .line, toLanes d x),
    (.vgath la q d a b,
      { as := (p0Lanes x).map (laneAddr x a b), n := bytesOf q.ty, align := bytesOf q.ty, r := rightsR, pol := q.pol, ord := q.ord, scope := q.scope
        kinds := (p0Lanes x).map fun l => (.read (bytesOf q.ty), .lane l q.ty), fixed := none, deadline := 0 }, toLanes d x),
    (.ldf la q d a imm, askFe q x ad rightsRS .acq .ldf (.scalar .d), toScalar d),
    (.take la q d a imm, askFe q x ad rightsRWS .acq .take (.scalar .d), toScalar d),
    (.sete la q a imm, askFe q x ad rightsRWS .plain .sete .none, Long.blank),
    (.fetag la q d a imm, askFe q x ad rightsRS .plain .fetag (.scalar .d), toScalar d),
    (.atom la o d a b, askAtomic o x a fun n => .atom o.op n (x.scalar b), toScalar d),
    (.qwait la d a b limit,
      { as := [x.scalar a], n := 16, align := 16, r := rightsR, pol := .remote, ord := .acq, scope := .dev
        kinds := [(.qwait (x.scalar b), .count)], fixed := none, deadline := limit.toNat }, toScalar d) ]
/-- PUT, STF and CAS, which read the scalar v of D first (R204, R207). -/
def storeFeOps (la : BitVec 4) (q : MQual) (o : AQual) (x : Ctx) (d a b : RegNo) (imm v : Dword) : List (Instr × Ask × Long) :=
  let ad := ea (x.scalar a) imm
  [ (.put la q d a imm, askFe q x ad rightsRWS .rel (.put v) .none, Long.blank),
    (.stf la q d a imm, askFe q x ad rightsRWS .rel (.stf v) .none, Long.blank),
    (.cas la o d a b, askAtomic o x a fun n => .cas n v (x.scalar b), toScalar d) ]
/-- The bytes that lanes take in a line (R200). -/
def bytesOfLanes (m : BitVec 16) : BitVec 64 := ((List.range 64).filter fun i => m.getLsbD (i / 4)).foldl (fun w i => w ||| (1 <<< i)) 0
/-- The stores (R199 to R201), from the value v of D: ST and VSCAT write the low bytes of D's scalar and lanes, VST the lanes
of p0. -/
def storeOps (q : MQual) (x : Ctx) (d a b : RegNo) (imm : Dword) (v : Reg) : List (Instr × Ask) :=
  let ad := ea (x.scalar a) imm
  let n := bytesOf q.ty
  let m := BitVec.ofNat 64 (2 ^ n - 1)
  [ (.st q d a imm, askOf q ad n rightsW (.write n (withScalar 0 (scalarOf v)) m) .none),
    (.vst q d a imm, askOf q ad 64 rightsW (.write 64 v (bytesOfLanes (maskP x.pw 0))) .none),
    (.vscat q d a b,
      { as := (p0Lanes x).map (laneAddr x a b), n := n, align := n, r := rightsW, pol := q.pol, ord := q.ord, scope := q.scope
        kinds := (p0Lanes x).map fun l => (.write n ((lane v l).setWidth 512) m, .none), fixed := none, deadline := 0 }) ]

-- Page 8: special registers

/-- The special registers in the order of their numbers (R46), as GETS finds them in context id, living as z, whose instruction
stands at pc. -/
def specials (s : State) (id : Nat) (z : Ctx) (pc : Dword) : List Dword :=
  let seg := fun k => FMap.get (Seg.mk 0 0) z.segs k
  [ pc, z.pw, z.rnd, z.ib, z.mb, z.yc, z.ypc, z.fel,
    dw (id * 2 ^ 32 + z.tile * 2 ^ 10 + z.core * 2 ^ 6 + z.slot), z.wid, z.wfw, dw s.cyc, dw z.part, z.sup, z.cb, z.qacc,
    (seg 0).base, (seg 0).limit, (seg 1).base, (seg 1).limit, (seg 2).base, (seg 2).limit, (seg 3).base, (seg 3).limit,
    (seg 4).base, (seg 4).limit, (seg 5).base, (seg 5).limit, (seg 6).base, (seg 6).limit, (seg 7).base, (seg 7).limit,
    z.rsc, z.rpx, z.rwc, z.tnv, z.tarea, z.cbret ]
/-- What SETS of the value v does to each special register, in the order of their numbers: the writable fields of R47, R161,
R265 and R376 take v, reserved fields stay zero, and a register without a writable field is unchanged. -/
def specialWrites (v : Dword) : List (Ctx → Ctx) :=
  let seg := fun (k : Nat) (f : Seg → Seg) (z : Ctx) => { z with segs := FMap.set (Seg.mk 0 0) z.segs k (f (FMap.get (Seg.mk 0 0) z.segs k)) }
  let base := fun k => seg k fun g => { g with base := v &&& 0x00FFFFFFFFFFFFFF }
  let limit := fun k => seg k fun g => { g with limit := v &&& 0xF8FFFFFFFFFFFFFF }
  let same := fun (z : Ctx) => z
  [ same, fun z => { z with pw := v }, fun z => { z with rnd := v &&& 0xFFFFFFFF0000007F }, fun z => { z with ib := v &&& 0x0000FFFFFFFFFFFF },
    fun z => { z with mb := v &&& 0x0000FFFFFFFFFFFF }, fun z => { z with yc := v }, same, fun z => { z with fel := v &&& 0x00000000FFFFFFFF },
    same, same, same, same, same, fun z => { z with sup := v &&& 0x00000000FFFFFFFF },
    fun z => { z with cb := v &&& 0xFFFFFF01FFFFFFFF }, fun z => { z with qacc := v },
    base 0, limit 0, base 1, limit 1, base 2, limit 2, base 3, limit 3, base 4, limit 4, base 5, limit 5, base 6, limit 6, base 7, limit 7,
    fun z => { z with rsc := v }, fun z => { z with rpx := v }, fun z => { z with rwc := v }, fun z => { z with tnv := v },
    fun z => { z with tarea := v &&& 0x00FFFFFFFFFFC000 }, fun z => { z with cbret := v } ]
/-- The special registers that only privileged code writes (R47, R161). -/
def privilegedSpecials : List Nat := [0x03, 0x04, 0x0D] ++ (List.range 16).map (0x10 + ·)

-- Page 12: records, pixels and weights

/-- Coordinate j of vertex i of a triangle or its record (R379, R380). -/
def vertex (v : Reg) (i j : Nat) : Int := (lane v (2 * i + j)).toInt
/-- Twice the signed area of vertex i, vertex j and a point, seen along the edge from i to j (R381, R383). -/
def edge (v : Reg) (i j : Nat) (px py : Int) : Int :=
  (vertex v j 0 - vertex v i 0) * (py - vertex v i 1) - (vertex v j 1 - vertex v i 1) * (px - vertex v i 0)
/-- Whether a record covers pixel (X, Y) (R381): it is not empty, the pixel is in its box, and its centre lies inside each edge, or
on a top or left one. -/
def Covers (v : Reg) (X Y : Int) : Prop :=
  let sg : Int := if 0 < (dword v 3).toInt then 1 else -1
  (lane v 8).getLsbD 1 = false ∧ (lane v 9).toInt ≤ X ∧ X ≤ (lane v 11).toInt ∧ (lane v 10).toInt ≤ Y ∧ Y ≤ (lane v 12).toInt
  ∧ ∀ p ∈ [(0, 1), (1, 2), (2, 0)],
    let dx := sg * (vertex v p.2 0 - vertex v p.1 0)
    let dy := sg * (vertex v p.2 1 - vertex v p.1 1)
    let e := sg * edge v p.1 p.2 (256 * X + 128) (256 * Y + 128)
    0 < e ∨ e = 0 ∧ (dy < 0 ∨ dy = 0 ∧ 0 < dx)
/-- The coordinates of a block origin (R378). -/
def originX (o : Dword) : Int := (BitVec.ofNat 32 o.toNat).toInt
def originY (o : Dword) : Int := (BitVec.ofNat 32 (o.toNat / 2 ^ 32)).toInt
/-- The block origin of coordinates (R378). -/
def originOf (x y : Int) : Dword := BitVec.ofNat 64 ((x % 2 ^ 32).toNat + (y % 2 ^ 32).toNat * 2 ^ 32)
/-- The line of a depth or colour tile at an address passes the checks of R385: its unified address. Where it is read it holds no
uncorrectable error. -/
def Line (s : State) (x : Ctx) (a : Dword) (r : Rights) (u : Nat) : Prop :=
  segMap x (ea a 0) 64 64 r = .ok u ∧ ownScratch s x u = none
  ∧ (r.r = true → errIn s (placeOf x.tile (u % 0x200000)) 64 = false)
/-- The traversal area passes the check of R392. -/
def Area (s : State) (x : Ctx) : Prop := ownScratch s x (areaAddr x) = none

-- Page 15

/-- An instruction of page 15 that acts on a context at the tile that holds it (R434, R435): its target and action, whether it must name a
living context, and what else it needs for the action to be sent. -/
structure ActionOp where
  instr : Instr
  target : Nat
  action : Action
  living : Bool
  may : Prop
/-- Those instructions (R440 to R443, R446, R447): CTXWR and CTXCTL need authority over the target, and CTXWR a selector it may write. -/
def actionOps (s : State) (id : Nat) (x : Ctx) (d a b : RegNo) : List ActionOp :=
  let c := x.lane0 a
  let v := x.lane0 b
  let sel := x.dword a 1
  let ruled := fun (w : Ctx) => targetOf s x c = some w ∧ (x.priv = true ∨ w.sup.toNat = id)
  let act : CtlAct := if v % 16 = 0 then .stop else if v % 16 = 1 then .resume else if v % 16 = 2 then .swapOut else if v % 16 = 3 then .retire
    else if v % 16 = 4 then .drop (v / 256 % 64) else .bad
  let ctl := fun (i : Instr) => ActionOp.mk i c (.ctl act) true (∃ w, ruled w)
  [ ctl (.ctxctlStop d a b), ctl (.ctxctlResume d a b), ctl (.ctxctlSwapOut d a b), ctl (.ctxctlRetire d a b), ctl (.ctxctlDrop d a b),
    ⟨.ctxwr d a b, c, .ctxwr sel (x.reg b.toNat), true, ∃ w, ruled w ∧ selectorOk w sel true = true ∧ writable s c w sel = true
      ∧ writeFault x sel (x.reg b.toNat) (x.scalar b) = none⟩,
    ⟨.rqput d a b, c, .rqput (v % 16) (v / 256 % 2 == 1), true, targetOf s x c ≠ none⟩,
    ⟨.topup d a b, c, .topup (bits (x.dword b 0) 47 0) (bits (x.dword b 1) 47 0), true, targetOf s x c ≠ none⟩,
    ⟨.rqtake d a b, c, .rqtake x.tile (v % 16), false, True⟩,
    ⟨.pgwake d a b, if x.scalar a = 0 then 0 else c, if x.scalar a = 0 then .pgwakeCopy (bits sel 10 4) (x.scalar b).toNat (bits sel 3 0)
      else .pgwakeCtx (x.scalar b).toNat (bits sel 3 0), false, True⟩ ]
/-- The words of configuration space that a write changes to a value of its own, with no other effect: an address of each, and what the
word reads as after a write of v (R448 to R451, R461, R463, R464, R465, R467). -/
def plainWords (p q k : Nat) (v : Dword) : List (Nat × Nat × Dword) :=
  [ (0x03, 256 * p, v &&& 0x0000FFFFFFFFF000), (0x03, 256 * p + 2, v &&& 0xFFFFFFFF), (0x03, 256 * p + 3, v &&& 0xFFFFFFFF),
    (0x03, 256 * p + 4, v &&& 0xFFFFFFFF), (0x03, 256 * p + 5, v &&& 0x00FFFFFFFFFFFFFF), (0x03, 256 * p + 6, v &&& 0x00FFFFFFFFFFFFFF),
    (0x03, 256 * p + 7, v &&& 1), (0x05, 256 * p + 128 + k, v &&& 0x00FFFFFFFFFFFFFF), (0x06, k, v &&& 0xFFFFFFFF),
    (0x10, k, v), (0x10, 256 + k, v), (0x10, 512 + k, v), (0x11, 256 + 512 * q, v &&& 0x3FFF), (0x11, 256 + 512 * q + 1024, v &&& 0x00FFFFFFFFFFFFFF),
    (0x11, 256 + 512 * q + 2048, v &&& 0xFFFFFFFF), (0x14, k, v &&& 0xFFFFFFFF), (0x15, q, v &&& 0x00FFFFFFFFFFF000), (0x15, 2 + q, v &&& 0x0000FFFFFFFFFFFF),
    (0x15, 4 + q, v &&& 3) ]

-- Accesses at their homes (R177 to R184, R199, R203 to R211)

/-- The n bytes from a place as a number, the lowest first (R6). -/
def numberAt (s : State) (p n : Nat) : Nat := ((List.range n).map fun i => (readByte s (p + i)).toNat * 256 ^ i).sum
/-- What an atomic of n bytes writes over an old value (R206). -/
def atomWrites (op : AtomOp) (n old v : Nat) : Nat :=
  let w := 8 * n
  let sg := fun (z : Nat) => (BitVec.ofNat w z).toInt
  match op with
  | .add => (old + v) % 2 ^ w
  | .and => old &&& (v % 2 ^ w)
  | .or => old ||| (v % 2 ^ w)
  | .xor => old ^^^ (v % 2 ^ w)
  | .min => if sg old ≤ sg v then old else v % 2 ^ w
  | .max => if sg old ≤ sg v then v % 2 ^ w else old
  | .minn => min old (v % 2 ^ w)
  | .maxn => max old (v % 2 ^ w)
  | .swap => v % 2 ^ w
/-- The number an access stores, and in how many bytes: none for one that stores nothing (R183, R204, R206, R207). -/
def storedBy (s : State) (a : Access) : Option (Nat × Nat) :=
  match a.kind with
  | .write n v _ => some (n, v.toNat % 2 ^ (8 * n))
  | .zline => some (64, 0)
  | .put v => some (8, v.toNat)
  | .stf v => some (8, v.toNat)
  | .atom op n v => some (n, atomWrites op n (numberAt s a.place n) v.toNat)
  | .cas n c v => if numberAt s a.place n = c.toNat % 2 ^ (8 * n) then some (n, v.toNat % 2 ^ (8 * n)) else none
  | .read _ | .ldf | .take | .sete | .fetag | .qwait _ => none
/-- What a byte of memory reads after an access: byte i of what it stores, where a plain write's mask takes it, else what it was. -/
def byteAfter (s : State) (a : Access) (p : Nat) : Byte :=
  match storedBy s a with
  | none => readByte s p
  | some (n, v) =>
    let taken := match a.kind with | .write _ _ m => m.getLsbD (p - a.place) | _ => true
    if a.place ≤ p ∧ p < a.place + n ∧ taken = true then BitVec.ofNat 8 (v / 256 ^ (p - a.place)) else readByte s p
/-- The tag of the word at a place after an access (R178, R179, R204). -/
def tagAfter (s : State) (a : Access) (p : Nat) : Bool :=
  match a.kind with
  | .take => if p / 8 = a.place / 8 then false else tagAt s p
  | .sete => if p / 8 = a.place / 8 then false else tagAt s p
  | .put _ => if p / 8 = a.place / 8 then true else tagAt s p
  | .stf _ => if p / 8 = a.place / 8 then true else tagAt s p
  | .zline => if a.place / 8 ≤ p / 8 ∧ p / 8 < a.place / 8 + 8 then true else tagAt s p
  | .read _ | .write _ _ _ | .ldf | .fetag | .atom _ _ _ | .cas _ _ _ | .qwait _ => tagAt s p
/-- The value an access returns (R199 to R211). -/
def valueOf (s : State) (a : Access) : Nat :=
  match a.kind with
  | .read n => numberAt s a.place n
  | .ldf | .take => numberAt s a.place 8
  | .fetag => if tagAt s a.place then 1 else 0
  | .atom _ n _ => numberAt s a.place n
  | .cas n _ _ => numberAt s a.place n
  | .qwait cap => min ((numberAt s (a.place + 8) 8 + 2 ^ 64 - numberAt s a.place 8) % 2 ^ 64) cap.toNat
  | .write _ _ _ | .zline | .put _ | .stf _ | .sete => 0
/-- A loaded value extended by its type (R199). -/
def loaded (ty : MType) (v : Nat) : Dword :=
  match ty with
  | .ub => BitVec.ofNat 64 (v % 2 ^ 8)
  | .sb => BitVec.ofInt 64 (BitVec.ofNat 8 v).toInt
  | .uh => BitVec.ofNat 64 (v % 2 ^ 16)
  | .sh => BitVec.ofInt 64 (BitVec.ofNat 16 v).toInt
  | .uw => BitVec.ofNat 64 (v % 2 ^ 32)
  | .sw => BitVec.ofInt 64 (BitVec.ofNat 32 v).toInt
  | .d => BitVec.ofNat 64 v
/-- How a returned value enters a result (R199 to R203, R211): the lane l of the result so far and of the result with it. -/
def landsAs (land : Land) (acc : Reg) (v l : Nat) : Lane :=
  match land with
  | .none | .frontEnd => lane acc l
  | .scalar ty => if l = 0 then BitVec.ofNat 32 (loaded ty v).toNat else if l = 1 then BitVec.ofNat 32 ((loaded ty v).toNat / 2 ^ 32) else 0
  | .lane k ty => if l = k then BitVec.ofNat 32 (loaded ty v).toNat else lane acc l
  | .line => BitVec.ofNat 32 (v / 2 ^ (32 * l))
  | .count => if l = 0 then BitVec.ofNat 32 v else if l = 1 then BitVec.ofNat 32 (v / 2 ^ 32) else 0
  | .mx =>
    let rnd := scalarOf acc
    let rc := rndOf rnd .dyn
    let sc := v / 2 ^ 128 % 256
    let r := (eachRounded rc (fun n i => roundTo infoBf16 rc n (mxValue infoE2m1 rc (v / 16 ^ i % 16) sc)) (srState rnd) (List.range 32)).1
    BitVec.ofNat 32 (r.getD (2 * l) 0 + r.getD (2 * l + 1) 0 * 2 ^ 16)
/-- Nothing waits at a home, and no refused sum packet waits for its ring. -/
def Unwatched (s : State) (home : Nat) : Prop := FMap.get [] s.waits home = [] ∧ ∀ e ∈ s.sends, ∀ x, e.2 = some x → x.refused = none
/-- Nothing waits at any home, and no refused sum packet waits for its ring. -/
def Quiet (s : State) : Prop := s.waits = [] ∧ ∀ e ∈ s.sends, ∀ x, e.2 = some x → x.refused = none
/-- An access of the front end to a word is served at its home: it is under no repair, and its scratch, if it is scratch, in scratch mode. -/
def Serves (s : State) (p : Spot) : Prop :=
  underRepair s p.home = false ∧ (isScratch p.place = true → bankMode s p.home (scratchBank p.place) = .scratch)
/-- The front end waits at a word for what it is there for: its TAKE is the only entry of the home's list, with its own fel; meanwhile
it judges late nodes alone (R180, R352, R357). -/
def Awaits (s t : State) (p : Spot) (aim : FeAim) : Prop :=
  t.feWait = some ⟨aim, none⟩ ∧ (∀ i, frontEndStep t = some i → ∃ g n, i = .nodeLate g n) ∧ t.graphs = s.graphs ∧ t.mem = s.mem ∧ t.tags = s.tags
    ∧ ∃ a, FMap.get [] t.waits p.home = [a] ∧ a.place = p.place ∧ a.kind = .take ∧ a.land = .frontEnd ∧ a.deadline = frontEndFel s
      ∧ a.parkedAt = s.cyc ∧ a.repair = none ∧ a.full = false
/-- The context behind an access that waits, or would: it has no other instruction out, and nothing keeps its fault from stopping it. -/
structure LoneWait (s : State) (a : Access) (x : Ctx) (l : Long) : Prop where
  living : ctxOf s a.ctx = some x
  only : x.longs = [l]
  itsOwn : l.seq = a.seq
  going : l.ended = false
  atHand : x.inMem = false
  free : x.hold = none
  stays : x.saving = none
  inSlot : x.state = .resident ∨ x.state = .parked
  later : x.waits = false
/-- An instruction on its own scratch that comes behind accesses has issued: charged (y is the context after it), it holds its context at
its own address, with nothing else changed, until it acts (R226, R387). -/
def ActsLater (s t : State) (id : Nat) (i : Instr) (x y : Ctx) : Prop :=
  ∃ z k due, ctxOf t id = some z ∧ z.hold = some (.acting i) ∧ z.retry = some k ∧ k.arg2 = y.pc.toNat ∧ z.pc = x.pc ∧ z.ib = y.ib ∧ z.mb = y.mb
    ∧ z.regs = x.regs ∧ z.pw = x.pw ∧ t.mem = s.mem ∧ t.tags = s.tags ∧ ⟨due, .traversalStepComplete ⟨id, s.uid⟩⟩ ∈ t.agenda

-- Frames, charges, the machine as a whole

/-- The instructions of pages 0, 1, 3 to 5 and 14, which act on registers alone (R137, R194, R246, R280). -/
def registersOnly (i : Instr) : Bool := i.enc.isSome && [0, 1, 3, 4, 5, 14].contains (pageOp i).1
/-- The instruction charge of R74 on those pages: 4 for a division or a square root. -/
def costOf : Instr → Nat
  | .div .. | .divu .. | .rem .. | .remu .. | .vfdiv .. | .vfsqrt .. => 4
  | _ => 1
/-- The instructions that write a mask of pw (R252, R256, R263). -/
def writesMasks : Instr → Bool
  | .vcmp .. | .vfcmp .. | .mop .. | .mset .. => true
  | _ => false
/-- The invariants of every state: memory in its canonical form, and no generation above 4,095 (R42). -/
structure Canonical (s : State) : Prop where
  memory : Memory.wf s.mem = true
  generations : ∀ k, FMap.get 0 s.gens k ≤ 4095
/-- A cycle in which nothing comes before the selection: the part runs, out of standby, no limit has passed, nothing is due, no
engine, table or graph has a step of its own to take, no bank's drain ends, no link is made, no refused packet goes to its ring, no walk that was
waited for can be made and no park ends (R55). -/
structure Selecting (s : State) : Prop where
  running : s.phase = .running
  awake : s.standby = false
  limits : limitStep s = none
  due : dueStep s false true = none
  inner : innerStep s = none
  drains : drainStep s = none
  links : linkReady s = none
  rings : s.spillWait.find? (fun k => spillDay s (k / 16)) = none
  walks : walkReady s = none
  wakers : s.issued.isEmpty = true → s.ctxs.any (fun p => wakes s p.1 p.2) = false

end Sys2Proof.Machine
end

