-- ==== Sys2Proof/Certificates/Slice0/Obligations.lean ====
section
/-! DEFINITION. The statements for the provers. -/

open Sys2Proof Sys2Proof.Machine

-- Pages 0 and 1

/-- R140, R147, R137: D's scalar, from the scalars of A and B read at issue; the charge is ib 1 (R74). The equation is the whole
next state: everything it does not name is unchanged.
R141 to R143, R146: MOV, the immediate forms and BOP; LI gives its immediate. -/
def Obligations.ScalarOperations : Prop :=
  (∀ (s : State) (id : Nat) (x y : Ctx) (d a b : RegNo), ∀ p ∈ scalarOps d a b, Begins s p.1 id x 1 0 y →
    let u := readField (setCtx s id y) id a
    let v := readField u.2 id b
    exec p.1 s = .next (conclude (putReg v.2 id d (withScalar · (p.2 (scalarOf u.1) (scalarOf v.1)))) id x.pc))
  ∧ (∀ (s : State) (id : Nat) (x y : Ctx) (d a : RegNo) (imm : Dword), ∀ p ∈ unaryOps d a imm, Begins s p.1 id x 1 0 y →
    let u := readField (setCtx s id y) id a
    exec p.1 s = .next (conclude (putReg u.2 id d (withScalar · (p.2 (scalarOf u.1)))) id x.pc))
  ∧ ∀ (s : State) (id : Nat) (x y : Ctx) (d : RegNo) (imm : Dword), Begins s (.li d imm) id x 1 0 y →
    exec (.li d imm) s = .next (conclude (putReg (setCtx s id y) id d (withScalar · imm)) id x.pc)

/-- R144, R145: the operands are read at issue, the charge is ib 4, and the division is outstanding until it completes, within
40 cycles.
R249, R253, R254: the long float operations take their operands and their words of the generator at issue, and are outstanding
until they complete, within 40 cycles. -/
def Obligations.LongArithmetic : Prop :=
  (∀ (s : State) (id : Nat) (x y : Ctx) (la : BitVec 4) (d a b : RegNo), ∀ p ∈ divisionOps la d a b, Begins s p.1 id x 4 0 y →
    let u := readField (setCtx s id y) id a
    let v := readField u.2 id b
    exec p.1 s = .next (conclude (outstanding v.2 p.1 id x
      { Long.blank with d := d, wr := .scalar, acc := withScalar 0 (p.2 (scalarOf u.1) (scalarOf v.1)) } (some 40)) id x.pc))
  ∧ ∀ (s : State) (id : Nat) (x y : Ctx) (la : BitVec 4) (q : VFQual) (d a b : RegNo), ∀ o ∈ longFloatOps la q d a b,
    Begins s o.1 id x o.2.1 0 y → fmtFault x.rnd q.rm = none →
    let f := ftInfo q.ty
    let rc := rndOf x.rnd q.rm
    let ks := elemOrder (maskP x.pw 0) f.width
    let u := readField (setCtx s id y) id a
    let v := if o.2.2.1 then ((broadcast q.bc f.width (readField u.2 id b).1), (readField u.2 id b).2) else u
    let r := eachRounded rc (fun n k => roundTo f rc n (o.2.2.2 (inElem f rc k u.1) (inElem f rc k v.1))) (srState x.rnd) ks
    exec o.1 s = .next (conclude (outstanding (updCtx v.2 id fun c => { c with rnd := withSr c.rnd r.2 }) o.1 id x
      { Long.blank with d := d, wr := .vector, mask := maskP x.pw 0, acc := fromElems f.width ks r.1 } (some 40)) id x.pc)

/-- R137, R194: a scalar result replaces lanes 1:0 and leaves lanes 2 to 15; a vector result replaces the lanes of its mask and
leaves the others. -/
def Obligations.ResultsReplaceTheirLanes : Prop :=
  (∀ (r : Reg) (v : Dword), scalarOf (withScalar r v) = v ∧ ∀ l, 2 ≤ l → l < 16 → lane (withScalar r v) l = lane r l)
  ∧ ∀ (m : BitVec 16) (v r : Reg) (l : Nat), l < 16 → lane (mergeLanes m v r) l = if m.getLsbD l then lane v l else lane r l

-- Page 2

/-- R148 to R150, R153: a taken branch sets pc to its own address plus twice its offset, one not taken leaves the pc behind its
chain; nothing else changes but the charge.
R151, R152, R117: CALL links the address behind its chain; JMP goes to an even address, and at an odd one faults ALIGN with
no effect. -/
def Obligations.BranchesCallsAndJumps : Prop :=
  (∀ (s : State) (id : Nat) (x y : Ctx) (a b : RegNo) (off : Dword), ∀ p ∈ branchOps a b off, Begins s p.1 id x 1 0 y →
    (p.2 x → exec p.1 s = .next (conclude (setCtx s id { y with pc := x.pc + 2 * off }) id x.pc))
    ∧ (¬ p.2 x → exec p.1 s = .next (conclude (setCtx s id y) id x.pc)))
  ∧ (∀ (s : State) (id : Nat) (x y : Ctx) (d : RegNo) (off : Dword), Begins s (.call d off) id x 1 0 y →
    exec (.call d off) s = .next (conclude (updCtx (putReg (setCtx s id y) id d (withScalar · y.pc)) id
      fun z => { z with pc := x.pc + 2 * off }) id x.pc))
  ∧ (∀ (s : State) (id : Nat) (x y : Ctx) (a : RegNo), Begins s (.jmp a) id x 1 0 y → bit (x.scalar a) 0 = false →
    exec (.jmp a) s = .next (conclude (setCtx s id { y with pc := x.scalar a }) id x.pc))
  ∧ ∀ (s : State) (id : Nat) (x : Ctx) (a : RegNo), Clear s (.jmp a) id x → bit (x.scalar a) 0 = true →
    exec (.jmp a) s = .next (trapped s (.jmp a) id x (.fault (flt .align (x.scalar a)
      (dw (bits (x.scalar a) 63 61 + 8 + 512)) (segReg x (bits (x.scalar a) 63 61)).limit)))

/-- R154 to R158: YPOINT sets yc to its target, to 0 for a zero offset; NOP does nothing; HALT makes the context leave at the
end of the cycle and turns grace off; YIELD returns the watchdog count to zero, and the context leaves: reported in grace,
to be Queued again where another queued context fits, else it goes on. -/
def Obligations.ContinuationAndLeaving : Prop :=
  (∀ (s : State) (id : Nat) (x y : Ctx) (off : Dword), Begins s (.ypoint off) id x 1 0 y →
    exec (.ypoint off) s = .next (conclude (setCtx s id { y with yc := if off = 0 then 0 else x.pc + 2 * off }) id x.pc))
  ∧ (∀ (s : State) (id : Nat) (x y : Ctx), Begins s .nop id x 1 0 y → exec .nop s = .next (conclude (setCtx s id y) id x.pc))
  ∧ (∀ (s : State) (id : Nat) (x y : Ctx), Begins s .halt id x 1 0 y →
    exec .halt s = .next (conclude (setCtx s id { y with graceOn := false, graceI := 0, graceM := 0, halting := true, after := s.cyc + 1 }) id x.pc))
  ∧ ∀ (s : State) (id : Nat) (x y : Ctx), Begins s .yield id x 1 0 y →
    let z := { y with wcount := 0 }
    let t := setCtx s id z
    exec .yield s = .next (conclude (if z.graceOn then leave t id (.report (yieldMessage id z))
      else if someFits t id z then leave t id .yield else t) id x.pc)

-- Pages 3 to 5 and 14

/-- R246 to R248, R251: element by element, in the lanes of p0; the other lanes of D are unchanged.
R255, R257: the operations of page 4 that do not round. -/
def Obligations.ElementOperations : Prop :=
  (∀ (s : State) (id : Nat) (x y : Ctx) (q : VIQual) (d a b : RegNo), ∀ p ∈ vectorOps q d a b, Begins s p.1 id x 1 0 y →
    let e := elWidth q.el
    let u := readField (setCtx s id y) id a
    let v := readField u.2 id b
    ∃ w : Reg, (∀ l i, l < 16 → i < elemCount e → elem e i (lane w l) = p.2 x l (elem e i (lane u.1 l)) (operandB q.bc e v.1 l i))
      ∧ exec p.1 s = .next (conclude (putReg v.2 id d (mergeLanes (maskP x.pw 0) w)) id x.pc))
  ∧ ∀ (s : State) (id : Nat) (x y : Ctx) (q : VFQual) (d a b : RegNo), ∀ p ∈ patternOps q d a b, Begins s p.1 id x 1 0 y →
    let f := ftInfo q.ty
    let u := readField (setCtx s id y) id a
    let v := if p.2.1 then readField u.2 id b else (0, u.2)
    ∃ w : Reg, (∀ l i, l < 16 → i < elemCount f.width → elem f.width i (lane w l) =
        p.2.2 f (rndOf x.rnd q.rm) (elem f.width i (lane u.1 l)) (operandB (q.bc && p.2.1) f.width v.1 l i) % 2 ^ f.width)
      ∧ exec p.1 s = .next (conclude (putReg v.2 id d (mergeLanes (maskP x.pw 0) w)) id x.pc)

/-- R252, R256: a mask bit is 1 where its lane is in p0 and every element of the lane meets the condition; the other masks are
unchanged. -/
def Obligations.VectorCompares : Prop :=
  (∀ (s : State) (id : Nat) (x y : Ctx) (q : VIQual) (pd : Fin 4) (a b : RegNo), Begins s (.vcmp q pd a b) id x 1 0 y →
    let e := elWidth q.el
    let u := readField (setCtx s id y) id a
    let v := readField u.2 id b
    ∃ m : BitVec 16, (∀ l, l < 16 → (m.getLsbD l = true ↔ (maskP x.pw 0).getLsbD l = true
        ∧ ∀ i, i < elemCount e → condTrue q.cond (elemInt q (elem e i (lane u.1 l))) (elemInt q (operandB q.bc e v.1 l i))))
      ∧ exec (.vcmp q pd a b) s = .next (conclude (updCtx v.2 id fun z => { z with pw := withP z.pw pd.val m }) id x.pc))
  ∧ ∀ (s : State) (id : Nat) (x y : Ctx) (op : FCmp) (q : VFQual) (pd : Fin 4) (a b : RegNo), Begins s (.vfcmp op q pd a b) id x 1 0 y →
    let f := ftInfo q.ty
    let rc := rndOf x.rnd q.rm
    let u := readField (setCtx s id y) id a
    let v := readField u.2 id b
    ∃ m : BitVec 16, (∀ l, l < 16 → (m.getLsbD l = true ↔ (maskP x.pw 0).getLsbD l = true
        ∧ ∀ i, i < elemCount f.width → fcmpHolds op (input f rc (elem f.width i (lane u.1 l))) (input f rc (operandB q.bc f.width v.1 l i)) = true))
      ∧ exec (.vfcmp op q pd a b) s = .next (conclude (updCtx v.2 id fun z => { z with pw := withP z.pw pd.val m }) id x.pc)

/-- R247, R253, R254, R258, R259, R266, R268, R281, R283, R284: with no reserved code in rnd, the elements of p0's lanes are
rounded in ascending order of lane and element, each with its own word of the generator, whose last state goes to rnd;
without SR no word counts and rnd is unchanged. -/
def Obligations.RoundedOperations : Prop :=
  ∀ (s : State) (id : Nat) (x y : Ctx) (q : VFQual) (c : CQual) (z : XQual) (d a b : RegNo), ∀ o ∈ roundedOps q c z (maskP x.pw 0) d a b,
    Begins s o.instr id x 1 0 y → fmtFault x.rnd o.rm = none →
    let rc := rndOf x.rnd o.rm
    let u := readField (setCtx s id y) id a
    let v := match o.fromB with | some f => ((broadcast f.1 f.2 (readField u.2 id b).1), (readField u.2 id b).2) | none => (u.1, u.2)
    let w := if o.fromD then readField v.2 id d else (0, v.2)
    let r := eachRounded rc (fun n k => o.value rc n k u.1 v.1 w.1) (srState x.rnd) o.order
    exec o.instr s = .next (conclude (putReg (updCtx w.2 id fun c => { c with rnd := withSr c.rnd r.2 }) id d
        (mergeLanes (maskP x.pw 0) (fromElems o.width o.order r.1))) id x.pc)
      ∧ (rc.mode ≠ 5 → r.2 = srState x.rnd ∧ ∀ k ∈ o.order,
        elem o.width k.2 (lane (fromElems o.width o.order r.1) k.1) = o.value rc (srState x.rnd).toNat k u.1 v.1 w.1 % 2 ^ o.width)

/-- R281, R282: CVTW converts one element; MXQ makes a record of 32 elements and their scale, and writes all of D. -/
def Obligations.ScalarAndRecordConversions : Prop :=
  (∀ (s : State) (id : Nat) (x y : Ctx) (c : CQual) (d a : RegNo), Begins s (.cvtw c d a) id x 1 0 y → fmtFault x.rnd c.rm = none →
    let rc := rndOf x.rnd c.rm
    let g := fmtInfo c.fmt
    let u := readField (setCtx s id y) id a
    let v := (scalarOf u.1).toNat
    let st := srNext rc (srState x.rnd)
    exec (.cvtw c d a) s = .next (conclude (putReg (updCtx u.2 id fun z => { z with rnd := withSr z.rnd st }) id d (withScalar ·
      (BitVec.ofNat 64 (if c.frm then roundTo infoFp32 rc st.toNat (inputX g rc (v % 2 ^ g.width))
        else roundTo g rc st.toNat (inputX infoFp32 rc (v % 2 ^ 32)))))) id x.pc))
  ∧ ∀ (s : State) (id : Nat) (x y : Ctx) (z : XQual) (d a b : RegNo), Begins s (.mxq z d a b) id x 1 0 y → fmtFault x.rnd z.rm = none →
    let rc := rndOf x.rnd z.rm
    let f := fmtInfo z.fmt
    let u := readField (setCtx s id y) id a
    let v := readField u.2 id b
    let xs := (List.range 32).map fun i => inputX infoFp32 rc (if i < 16 then lane u.1 i else lane v.1 (i - 16)).toNat
    let sc := mxScale f xs
    let r := eachRounded rc (fun n e => if sc = 255 then 0 else mxRound f rc n (e.scale (127 - sc))) (srState x.rnd) xs
    exec (.mxq z d a b) s = .next (conclude (putReg (updCtx v.2 id fun c => { c with rnd := withSr c.rnd r.2 }) id d
      (mergeLanes 0xFFFF (mxRecord f.width r.1 sc))) id x.pc)

/-- R260: the lane moves, in the lanes of p0; VGET gives one lane as a scalar, and VPUT writes one lane where it is in p0.
R261, R262: VRED reduces the lanes of p0 in the tree of R261 and gives a scalar, VSCAN gives each lane of p0 the reduction of
the lanes of p0 up to it; for the integer operations that is the fold of those lanes. A float sum takes the rounding of its
field and faults FMT on a reserved code, which a hypothesis rules out here (R266). That the partial results of a float reduction are
flushed again where rnd[5] is set is the model's choice (log 78). -/
def Obligations.LaneMovesAndReductions : Prop :=
  ((∀ (s : State) (id : Nat) (x y : Ctx) (d a b : RegNo), ∀ p ∈ moveOps2 d a b, Begins s p.1 id x 1 0 y →
    let u := readField (setCtx s id y) id a
    let v := readField u.2 id b
    ∃ w : Reg, (∀ l, l < 16 → lane w l = p.2 u.1 v.1 l)
      ∧ exec p.1 s = .next (conclude (putReg v.2 id d (mergeLanes (maskP x.pw 0) w)) id x.pc))
  ∧ (∀ (s : State) (id : Nat) (x y : Ctx) (d a : RegNo) (imm : Dword), ∀ p ∈ moveOps1 d a imm, Begins s p.1 id x 1 0 y →
    let u := readField (setCtx s id y) id a
    ∃ w : Reg, (∀ l, l < 16 → lane w l = p.2 u.1 l)
      ∧ exec p.1 s = .next (conclude (putReg u.2 id d (mergeLanes (maskP x.pw 0) w)) id x.pc))
  ∧ (∀ (s : State) (id : Nat) (x y : Ctx) (d a : RegNo) (imm : Dword), Begins s (.vget d a imm) id x 1 0 y →
    let u := readField (setCtx s id y) id a
    exec (.vget d a imm) s = .next (conclude (putReg u.2 id d (withScalar · ((lane u.1 (imm.toNat % 16)).setWidth 64))) id x.pc))
  ∧ ∀ (s : State) (id : Nat) (x y : Ctx) (d a : RegNo) (imm : Dword), Begins s (.vput d a imm) id x 1 0 y →
    let n := imm.toNat % 16
    let u := readField (setCtx s id y) id a
    ∃ w : Reg, (∀ l, l < 16 → lane w l = lane u.1 0)
      ∧ exec (.vput d a imm) s = .next (conclude (if (maskP x.pw 0).getLsbD n then putReg u.2 id d (mergeLanes (BitVec.ofNat 16 (2 ^ n)) w)
        else u.2) id x.pc))
  ∧ ∀ (s : State) (id : Nat) (x y : Ctx) (q : LQual) (d a : RegNo), (∀ rm, redRounding q = some rm → fmtFault x.rnd rm = none) →
    let m := maskP x.pw 0
    let rc := redRnd q x
    let u := readField (setCtx s id y) id a
    let r := redTree q rc 4 (srState x.rnd) ((List.range 16).map fun l => if m.getLsbD l then some (redLane q rc (lane u.1 l)) else none)
    let c := scanLanes q rc u.1 (srState x.rnd) none (lanesOf m)
    (Begins s (.vred q d a) id x 1 0 y →
      exec (.vred q d a) s = .next (conclude (putReg (updCtx u.2 id fun z => { z with rnd := withSr z.rnd r.2 }) id d
        (withScalar · ((r.1.getD (redIdentity q)).setWidth 64))) id x.pc))
    ∧ (Begins s (.vscan q d a) id x 1 0 y →
      exec (.vscan q d a) s = .next (conclude (putReg (updCtx u.2 id fun z => { z with rnd := withSr z.rnd c.2 }) id d
        (mergeLanes m (fromElems 32 (c.1.map fun p => (p.1, 0)) (c.1.map fun p => p.2.toNat)))) id x.pc))
    ∧ ∀ op : Fin 8, q = .int op →
      let g := redInt op.val
      r = (if m = 0 then none else some ((lanesOf m).foldl (fun n l => g.1 n (lane u.1 l)) g.2), srState x.rnd) ∧ redIdentity q = g.2
      ∧ c.2 = srState x.rnd ∧ ∀ l, l < 16 → m.getLsbD l = true →
        (l, ((lanesOf m).filter fun k => decide (k ≤ l)).foldl (fun n k => g.1 n (lane u.1 k)) g.2) ∈ c.1

/-- R263: logic on masks, and their moves to and from scalars.
R285: PACK writes the field of each lane of p0 in D and leaves every other bit, UNPK spreads one group of fields over the
lanes of p0; the group is taken from the scalar of B. -/
def Obligations.MasksAndPacking : Prop :=
  ((∀ (s : State) (id : Nat) (x y : Ctx) (fn : BitVec 4) (pd pa pb : Fin 4), Begins s (.mop fn pd pa pb) id x 1 0 y →
    ∃ m : BitVec 16, (∀ l, l < 16 → m.getLsbD l = fn.getLsbD (2 * bitOf ((maskP x.pw pa.val).getLsbD l) + bitOf ((maskP x.pw pb.val).getLsbD l)))
      ∧ exec (.mop fn pd pa pb) s = .next (conclude (setCtx s id { y with pw := withP y.pw pd.val m }) id x.pc))
  ∧ (∀ (s : State) (id : Nat) (x y : Ctx) (d : RegNo) (pa : Fin 4), Begins s (.mget d pa) id x 1 0 y →
    exec (.mget d pa) s = .next (conclude (putReg (setCtx s id y) id d (withScalar · ((maskP x.pw pa.val).setWidth 64))) id x.pc))
  ∧ (∀ (s : State) (id : Nat) (x y : Ctx) (pd : Fin 4) (a : RegNo), Begins s (.mset pd a) id x 1 0 y →
    let u := readField (setCtx s id y) id a
    exec (.mset pd a) s = .next (conclude (updCtx u.2 id fun z => { z with pw := withP z.pw pd.val ((scalarOf u.1).setWidth 16) }) id x.pc))
  ∧ ∀ (s : State) (id : Nat) (x y : Ctx) (d : RegNo) (pa : Fin 4), Begins s (.mcnt d pa) id x 1 0 y →
    exec (.mcnt d pa) s = .next (conclude (putReg (setCtx s id y) id d
      (withScalar · (BitVec.ofNat 64 ((List.range 16).countP fun l => (maskP x.pw pa.val).getLsbD l)))) id x.pc))
  ∧ (∀ (s : State) (id : Nat) (x y : Ctx) (q : PQual) (d a b : RegNo), Begins s (.pack q d a b) id x 1 0 y →
    let w := packWidth q.width
    let u := readField (setCtx s id y) id a
    let n := readField u.2 id b
    let o := readField n.2 id d
    let first := fun (l : Nat) => w * (16 * ((scalarOf n.1).toNat % (32 / w)) + l)
    ∃ r : Reg, (∀ l, l < 16 → (maskP x.pw 0).getLsbD l = true → r.toNat / 2 ^ first l % 2 ^ w =
        if q.sat then toElem w (clampInt (-2 ^ (w - 1)) (2 ^ (w - 1) - 1) (lane u.1 l).toInt) else (lane u.1 l).toNat % 2 ^ w)
      ∧ (∀ j, (∀ l, l < 16 → (maskP x.pw 0).getLsbD l = true → j < first l ∨ first l + w ≤ j) → r.getLsbD j = o.1.getLsbD j)
      ∧ exec (.pack q d a b) s = .next (conclude (putReg o.2 id d fun _ => r) id x.pc))
  ∧ ∀ (s : State) (id : Nat) (x y : Ctx) (k : PWidth) (d a b : RegNo), Begins s (.unpk k d a b) id x 1 0 y →
    let w := packWidth k
    let u := readField (setCtx s id y) id a
    let n := readField u.2 id b
    ∃ r : Reg, (∀ l, l < 16 → (lane r l).toNat = u.1.toNat / 2 ^ (w * (16 * ((scalarOf n.1).toNat % (32 / w)) + l)) % 2 ^ w)
      ∧ exec (.unpk k d a b) s = .next (conclude (putReg n.2 id d (mergeLanes (maskP x.pw 0) r)) id x.pc)

-- Pages 6 and 7

/-- R199 to R201, R204, R206, R211, R56, R75: addresses that pass every check charge ib 1 and, for homes elsewhere, mb their
bytes; the instruction is outstanding and its accesses are on their way.
R204, R207: PUT, STF and CAS read D's scalar before their address is checked, and then issue as the loads do.
R203, R266, R268: LDMX takes the 32 words of its elements from the generator, its mode and saturation from rnd, and charges mb
64 wherever its record lies.
R67 to R70: a rover whose line has its home at another tile leaves for that tile first, for 1,664 bytes more, and its accesses leave from
there. R33, R59, R162, R165 to R168, R185, R186: an address that fails a check faults, a page that is not present and a home under repair
park the context, all with no effect, and PROT is reported when the instruction completes. That fel is taken as it stands at issue is the
model's choice (log 80). -/
def Obligations.LoadsIssue : Prop :=
  (∀ (s s' : State) (id : Nat) (x y : Ctx) (l : List (Nat × Spot)) (la : BitVec 4) (q : MQual) (o : AQual) (d a b : RegNo) (imm limit : Dword),
    ∀ p ∈ loadOps la q o x d a b imm limit, Begins s p.1 id x 1 (p.2.1.cost x l) y →
    let t := setCtx s id (issued s p.1 x)
    Reaches t id x p.2.1 l s' →
    exec p.1 s = .next (conclude (loading (setCtx s' id (predicted t id x y p.2.1 l)) p.1 id x p.2.1 l p.2.2) id x.pc))
  ∧ (∀ (s s' : State) (id : Nat) (x y : Ctx) (l : List (Nat × Spot)) (la : BitVec 4) (q : MQual) (o : AQual) (d a b : RegNo) (imm v : Dword),
    ∀ p ∈ storeFeOps la q o x d a b imm v, Begins s p.1 id x 1 (p.2.1.cost x l) y →
    let u := readField (setCtx s id (issued s p.1 x)) id d
    v = scalarOf u.1 → Reaches u.2 id x p.2.1 l s' →
    exec p.1 s = .next (conclude (loading (setCtx s' id (predicted u.2 id x y p.2.1 l)) p.1 id x p.2.1 l p.2.2) id x.pc))
  ∧ (∀ (s s' : State) (id : Nat) (x y : Ctx) (l : List (Nat × Spot)) (la : BitVec 4) (q : MQual) (d a : RegNo) (imm : Dword),
    let i := Instr.ldmx la q d a imm
    let st := (List.range 32).foldl (fun w _ => if (rndOf x.rnd .dyn).mode = 5 then advance w else w) (srState x.rnd)
    let t := setCtx s id { issued s i x with rnd := withSr x.rnd st }
    let k := { askOf q (ea (x.scalar a) imm) 64 rightsR (.read 64) .mx with fixed := some 64 }
    let lg := { toLanes d x with acc := x.rnd.setWidth 512 }
    (fmtFault x.rnd .dyn = none →
      (Begins s i id x 1 64 y → Reaches t id x k l s' →
        exec i s = .next (conclude (loading (setCtx s' id { predicted t id x y k l with rnd := withSr x.rnd st }) i id x k l lg) id x.pc))
      ∧ (∀ tile, ReachesAway t id x k l tile s' → Begins s i id x 1 1728 y →
        let g := departed t s' id x { y with rnd := withSr x.rnd st } k l tile
        exec i s = .next (conclude (loadingFrom g i id x k l lg tile (arrivesAt g id tile)) id x.pc))
      ∧ ∀ f, resolve t x k.as k.n k.align k.r = .prot f → Begins s i id x 1 64 y →
        exec i s = .next (conclude (doomed (setCtx t id { y with rnd := withSr x.rnd st }) i id x lg f) id x.pc))
    ∧ (Clear s i id x → (∀ e, Stops t x k e → exec i s = .next (trapped s i id x e))
      ∧ ∀ e, fmtFault x.rnd .dyn = some e → (Reaches t id x k l s' ∨ ∃ tile, ReachesAway t id x k l tile s') → exec i s = .next (trapped s i id x (.fault e))))
  ∧ ∀ (s : State) (id : Nat) (x : Ctx) (la : BitVec 4) (q : MQual) (o : AQual) (d a b : RegNo) (imm limit v : Dword),
    let t := fun (i : Instr) => setCtx s id (issued s i x)
    let u := fun (i : Instr) => readField (t i) id d
    let away := fun (i : Instr) (k : Ask) (lg : Long) (t : State) => ∀ (s' : State) (y : Ctx) (l : List (Nat × Spot)) (tile : Nat),
      ReachesAway t id x k l tile s' → Begins s i id x 1 (k.cost x l + 1664) y →
      let g := departed t s' id x y k l tile
      exec i s = .next (conclude (loadingFrom g i id x k l lg tile (arrivesAt g id tile)) id x.pc)
    let stops := fun (i : Instr) (k : Ask) (lg : Long) (t : State) =>
      (∀ e, Stops t x k e → Clear s i id x → exec i s = .next (trapped s i id x e))
      ∧ ∀ f y, resolve t x k.as k.n k.align k.r = .prot f → Begins s i id x 1 (protTraffic t x k) y →
        exec i s = .next (conclude (doomed (setCtx t id y) i id x lg f) id x.pc)
    (∀ p ∈ loadOps la q o x d a b imm limit, away p.1 p.2.1 p.2.2 (t p.1) ∧ stops p.1 p.2.1 p.2.2 (t p.1))
    ∧ ∀ p ∈ storeFeOps la q o x d a b imm v, v = scalarOf (u p.1).1 → away p.1 p.2.1 p.2.2 (u p.1).2 ∧ stops p.1 p.2.1 p.2.2 (u p.1).2

/-- R195, R199 to R201, R177: a store reads D, its addresses pass every check, and its writes are on their way; nothing of it
stays with the context. ZLINE reads no register.
R67 to R70: a rover whose line has its home at another tile leaves for that tile first, for 1,664 bytes more, and its writes leave from
there. R33, R162, R165 to R168, R185, R186: an address that fails a check or meets PROT faults, a page that is not present and a home under
repair park the context, all with no effect. That fel is taken as it stands at issue is the model's choice (log 80). -/
def Obligations.StoresIssue : Prop :=
  (∀ (s s' : State) (id : Nat) (x y : Ctx) (l : List (Nat × Spot)) (q : MQual) (d a b : RegNo) (imm : Dword) (v : Reg),
    ∀ p ∈ storeOps q x d a b imm v, Begins s p.1 id x 1 (p.2.cost x l) y →
    let u := readField (setCtx s id (issued s p.1 x)) id d
    v = u.1 → Reaches u.2 id x p.2 l s' →
    exec p.1 s = .next (conclude (sending (setCtx s' id (predicted u.2 id x y p.2 l)) id 0 x p.2 l) id x.pc))
  ∧ (∀ (s s' : State) (id : Nat) (x y : Ctx) (l : List (Nat × Spot)) (q : MQual) (a : RegNo) (imm : Dword),
    let k := askOf q (ea (x.scalar a) imm) 64 rightsW .zline .none
    let t := setCtx s id (issued s (.zline q a imm) x)
    Begins s (.zline q a imm) id x 1 (k.cost x l) y → Reaches t id x k l s' →
    exec (.zline q a imm) s = .next (conclude (sending (setCtx s' id (predicted t id x y k l)) id 0 x k l) id x.pc))
  ∧ ∀ (s : State) (id : Nat) (x : Ctx) (q : MQual) (d a b : RegNo) (imm : Dword) (v : Reg),
    let away := fun (i : Instr) (k : Ask) (t : State) => ∀ (s' : State) (y : Ctx) (l : List (Nat × Spot)) (tile : Nat),
      ReachesAway t id x k l tile s' → Begins s i id x 1 (k.cost x l + 1664) y →
      let g := departed t s' id x y k l tile
      exec i s = .next (conclude (sendingFrom g id 0 x k l tile (arrivesAt g id tile)) id x.pc)
    let stops := fun (i : Instr) (k : Ask) (t : State) => Clear s i id x →
      (∀ e, Stops t x k e → exec i s = .next (trapped s i id x e))
      ∧ ∀ f, resolve t x k.as k.n k.align k.r = .prot f → exec i s = .next (trapped s i id x (.fault f))
    (∀ p ∈ storeOps q x d a b imm v, let u := readField (setCtx s id (issued s p.1 x)) id d
      v = u.1 → away p.1 p.2 u.2 ∧ stops p.1 p.2 u.2)
    ∧ let i := Instr.zline q a imm
      let k := askOf q (ea (x.scalar a) imm) 64 rightsW .zline .none
      away i k (setCtx s id (issued s i x)) ∧ stops i k (setCtx s id (issued s i x))

/-- R193, R202, R210: LEA gives the address without an access; PREF never faults, and fills the line where every check passes;
FENCE issues only once what it waits for is done, and then does nothing more, but that one of core scope, which waits for no access, puts
its context's earlier accesses before the later ones. That a fence of core scope waits for nothing and orders so, and that every other
scope waits alike, are the model's choices (log 26). That PREF heeds no home policy is the model's choice (log 66): R193 and R202
disagree. -/
def Obligations.AddressesAndFences : Prop :=
  (∀ (s : State) (id : Nat) (x y : Ctx) (d a : RegNo) (imm : Dword), Begins s (.lea d a imm) id x 1 0 y →
    exec (.lea d a imm) s = .next (conclude (putReg (setCtx s id y) id d (withScalar · (ea (x.scalar a) imm))) id x.pc))
  ∧ (∀ (s : State) (id : Nat) (x y : Ctx) (q : MQual) (a : RegNo) (imm : Dword), Begins s (.pref q a imm) id x 1 0 y →
    exec (.pref q a imm) s = .next (conclude (match resolve (setCtx s id y) x [ea (x.scalar a) imm] 64 64 rightsR with
      | .spots [p] t => missFill t x.part p.2.home p.2.place
      | _ => setCtx s id y) id x.pc))
  ∧ (∀ (s : State) (id : Nat) (x y : Ctx) (q : FQual), Begins s (.fence q) id x 1 0 y →
    exec (.fence q) s = .next (conclude (setCtx s id (if q.scope = .core then (match q.kind with
      | .full => { y with moved := s.uid } | .rel => { y with fenced := s.uid } | .acq => y) else y)) id x.pc))
  ∧ ∀ (s : State) (id : Nat) (x : Ctx) (q : FQual), s.issue.ctx = some id → ctxOf s id = some x →
    (q.kind ≠ .acq ∧ q.scope ≠ .core ∧ (pendingOf s id = true ∨ x.longs ≠ []) ∨ q.kind ≠ .rel ∧ x.longs ≠ []) → exec (.fence q) s = .next s

-- Page 8

/-- R213 to R215: SEND sends g[B] to the context that g[A] names, behind the sender's earlier accesses, for mb 64; RECV takes the
head of the inbox, or zero; WAITM takes it, or parks where there is none.
R73, R78, R220, R221, R222: BGIVE moves budget to a child, and gives D 1, or 0 where its target is no child; BRK faults,
uncharged, with its code and the address behind it; SIGNAL sets the latch of one of the 64 wake registers of its partition, once the
context's earlier accesses have been performed. That a parked WAITM holds the pc of the next instruction is the model's choice (log 13). -/
def Obligations.MessagesBudgetsAndSignals : Prop :=
  ((∀ (s : State) (id : Nat) (x y : Ctx) (a b : RegNo), Begins s (.send a b) id x 1 64 y →
    exec (.send a b) s = .next (conclude (post (setCtx { s with uid := s.uid + 1 } id y) (x.lane0 a) (x.reg b.toNat)
      (.send id (if x.priv then none else some x.part) x.tile s.uid)) id x.pc)
    ∧ ∀ (t : State) (n : Nat), accessBefore t id n = true → ∀ dst m only port, mustWait t (.messageArrival dst m (.send id only port n)) = true)
  ∧ ∀ (s : State) (id : Nat) (x y : Ctx) (d : RegNo) (limit : Dword),
    (x.inbox = [] →
      (Begins s (.recv d) id x 1 0 y → exec (.recv d) s = .next (conclude (putReg (setCtx s id y) id d fun _ => 0) id x.pc))
      ∧ (Begins s (.waitm d limit) id x 1 0 y → exec (.waitm d limit) s = .next (conclude (parkCtx (setCtx s id y) id
          ⟨.waitm, s.cyc, some limit.toNat, d.toNat, x.resume.toNat, x.pc, true⟩) id x.pc)))
    ∧ ∀ (m : Mail) (ms : List Mail), x.inbox = m :: ms →
      let t := putReg (setCtx s id { y with inbox := ms }) id d fun _ => m.msg
      (Begins s (.recv d) id x 1 0 y → exec (.recv d) s = .next (conclude t id x.pc))
      ∧ (Begins s (.waitm d limit) id x 1 0 y → exec (.waitm d limit) s = .next (conclude t id x.pc)))
  ∧ (∀ (s : State) (id : Nat) (x y : Ctx) (d a b : RegNo),
    let ia := bits (x.dword b 0) 47 0
    let ma := bits (x.dword b 1) 47 0
    let c := x.lane0 a
    (x.priv = false → ia ≠ all1 ∧ ma ≠ all1) →
    (isChild s id c = true → c ≠ id → Begins s (.bgive d a b) id x (1 + if ia = all1 then 0 else ia) (if ma = all1 then 0 else ma) y →
      exec (.bgive d a b) s = .next (conclude (putReg (updCtx (setCtx s id y) c fun z =>
        if z.inMem then { z with credits := z.credits ++ [(ia, ma)] }
        else { z with ib := if ia = all1 then dw all1 else credit z.ib ia, mb := if ma = all1 then dw all1 else credit z.mb ma }) id d (withScalar · 1)) id x.pc))
    ∧ (isChild s id c = false → c ≠ id → Begins s (.bgive d a b) id x 1 0 y →
      exec (.bgive d a b) s = .next (conclude (putReg (setCtx s id y) id d (withScalar · 0)) id x.pc)))
  ∧ (∀ (s : State) (id : Nat) (x : Ctx) (code : Dword), Clear s (.brk code) id x →
    exec (.brk code) s = .next (trapped s (.brk code) id x (.fault (flt .brk code (issued s (.brk code) x).pc 0))))
  ∧ ∀ (s : State) (id : Nat) (x y : Ctx) (a : RegNo), Begins s (.signal a) id x 1 0 y →
    (accessBefore s id s.uid = false → exec (.signal a) s = .next (conclude (setLatch (setCtx s id y) x.part (x.lane0 a % 64)) id x.pc))
    ∧ (accessBefore s id s.uid = true → ∃ t due n, exec (.signal a) s = .next t ∧ t.wakes = s.wakes
      ∧ ⟨due, .messageArrival 0 0 (.signal id x.part (x.lane0 a % 64) n)⟩ ∈ t.agenda
      ∧ ∀ u : State, exec (.messageArrival 0 0 (.signal id x.part (x.lane0 a % 64) n)) u = .next (setLatch u x.part (x.lane0 a % 64)))

/-- R46, R47, R161, R219, R265, R376: GETS reads every special register; SETS replaces the writable fields of its register and
leaves the rest of the context; without the privilege bit it faults PRIV at a register of privileged fields, and an odd yc
faults ALIGN. -/
def Obligations.SpecialRegisters : Prop :=
  (∀ (s : State) (id : Nat) (x y : Ctx) (d : RegNo) (n : Fin 38) (v : Dword), Begins s (.gets d n) id x 1 0 y →
    (specials (setCtx s id y) id y x.pc)[n.val]? = some v →
    exec (.gets d n) s = .next (conclude (putReg (setCtx s id y) id d (withScalar · v)) id x.pc))
  ∧ (∀ (s : State) (id : Nat) (x y : Ctx) (d : RegNo) (n : Fin 38) (f : Ctx → Ctx), Begins s (.sets d n) id x 1 0 y →
    (n.val ∈ privilegedSpecials → x.priv = true) → (n = 5 → bit (x.scalar d) 0 = false) →
    (specialWrites (x.scalar d))[n.val]? = some f →
    exec (.sets d n) s = .next (conclude (setCtx s id (f y)) id x.pc))
  ∧ (∀ (s : State) (id : Nat) (x : Ctx) (d : RegNo) (n : Fin 38), Clear s (.sets d n) id x → n.val ∈ privilegedSpecials → x.priv = false →
    exec (.sets d n) s = .next (trapped s (.sets d n) id x (.fault (flt .priv (dw n.val) 0 0))))
  ∧ ∀ (s : State) (id : Nat) (x : Ctx) (d : RegNo), Clear s (.sets d 5) id x → bit (x.scalar d) 0 = true →
    exec (.sets d 5) s = .next (trapped s (.sets d 5) id x (.fault (flt .align (x.scalar d) 16 0)))

/-- R41 to R43, R216, R217, R81: a legal descriptor and a free table entry make a context as the descriptor says, paid by its
spawner, with the spawner's supervisor, segments, partition and group, and g0 taken from g[B]; D gets its id. A malformed
descriptor makes none: D gets 0. -/
def Obligations.Creation : Prop :=
  (∀ (s : State) (id : Nat) (x y : Ctx) (d a b : RegNo) (c : Nat) (u : State),
    let v := x.reg a.toNat
    let ib := bits (dword v 1) 47 0
    let mb := bits (dword v 2) 47 0
    (x.priv = false → bit (dword v 3) 10 = false ∧ ib ≠ all1 ∧ mb ≠ all1) → bit (dword v 0) 0 = false → spawnOk v = true →
    newId s x.tile = some (c, u) → ctxOf s c = none → Begins s (.spawn d a b) id x (1 + if ib = all1 then 0 else ib) (if mb = all1 then 0 else mb) y →
    ∃ t z, exec (.spawn d a b) s = .next t ∧ ctxOf t c = some z
      ∧ z.state = .queued ∧ z.tile = x.tile ∧ z.window = bits (dword v 3) 7 0 ∧ z.pc = dword v 0 ∧ z.reg 0 = x.reg b.toNat
      ∧ (∀ r, r ≠ 0 → z.reg r = 0) ∧ z.pw = 0xFFFF ∧ z.ib = dw ib ∧ z.mb = dw mb ∧ z.wid = dword v 4 ∧ z.priv = bit (dword v 3) 10
      ∧ z.priority = (if x.priv then bits (dword v 3) 9 8 else Nat.max (bits (dword v 3) 9 8) x.priority) ∧ z.spawner = id
      ∧ z.sup = x.sup ∧ z.wdog = x.wdog ∧ z.segs = x.segs ∧ z.wfw = x.wfw ∧ z.fel = x.fel ∧ z.rnd = x.rnd ∧ z.part = x.part ∧ z.group = x.group
      ∧ (d.toNat ≤ 127 → ctxOf t id = some { (y.setReg d.toNat (withScalar (y.reg d.toNat) (dw c))) with retry := y.retry.filter fun p => p.pc != x.pc }))
  ∧ ∀ (s : State) (id : Nat) (x y : Ctx) (d a b : RegNo),
    let v := x.reg a.toNat
    (x.priv = false → bit (dword v 3) 10 = false ∧ bits (dword v 1) 47 0 ≠ all1 ∧ bits (dword v 2) 47 0 ≠ all1) →
    bit (dword v 0) 0 = false → spawnOk v = false ∨ newId s x.tile = none → Begins s (.spawn d a b) id x 1 0 y →
    exec (.spawn d a b) s = .next (conclude (putReg (setCtx s id y) id d (withScalar · 0)) id x.pc)

/-- R66 to R69, R218: MIGR to its own core does nothing, to another core of its tile moves there, and to another tile moves a
rover without tile-bound state for 26 messages of traffic, in a tile of its partition that is not under repair; else MIGFAIL
with every reason that holds. R218 lists the reasons' bits; that dw3 is the sum of all that hold is the model's choice (log 10). -/
def Obligations.Migration : Prop :=
  ∀ (s : State) (id : Nat) (x y : Ctx) (a : RegNo),
    let tile := bits (x.scalar a) 10 4
    let core := bits (x.scalar a) 3 0
    let why := bitOf (x.window != 24) + bitOf (tileBound s id x) * 2 + bitOf (partOf s tile != some x.part) * 4 + bitOf (underRepair s tile) * 8
    (tile = x.tile → Begins s (.migr a) id x 1 0 y →
      exec (.migr a) s = .next (conclude (if core = x.core then setCtx s id y else moveWithin (setCtx s id y) id (16 * tile + core)) id x.pc))
    ∧ (tile ≠ x.tile → why = 0 → Begins s (.migr a) id x 1 1664 y →
      exec (.migr a) s = .next (conclude (departTile (setCtx s id y) id tile) id x.pc))
    ∧ (tile ≠ x.tile → why ≠ 0 → Clear s (.migr a) id x →
      exec (.migr a) s = .next (trapped s (.migr a) id x (.fault (flt .migfail (x.scalar a) (dw why) 0))))

-- Page 9

/-- R325 to R328, R337, R340, R75: a descriptor that passes the checks, its ends in memory or in this tile's scratch, and an engine with
room: the copy is outstanding and its first line is due; CPY adds its bytes to the barrier, CPYS binds its stream register to a
FIFO bank. The charge is the length where an end lies outside the tile's scratch. -/
def Obligations.CopiesIssue : Prop :=
  ∀ (s : State) (id : Nat) (x y : Ctx) (k : BitVec 4) (d a : RegNo) (su du : Nat),
    let v := x.reg a.toNat
    let n := bits (dword v 2) 23 0
    let b := 16 * x.group + k.toNat
    let own : Nat → Bool := fun u => match regionOf u with | .scratch t _ => t == x.tile | _ => false
    let starts := fun (t : State) (c : Copy) => c ∈ copiesOf t x.tile ∧ (∃ at_, ⟨at_, .copyLineMove x.tile c.uid⟩ ∈ t.agenda)
      ∧ c.ctx = id ∧ c.src = su ∧ c.dst = du ∧ c.len = n ∧ c.msg = bit (dword v 2) 24 ∧ c.tags = bit (dword v 2) 25 ∧ c.user = dword v 3
      ∧ c.next = 0 ∧ c.flying = 0 ∧ c.cancelled = false ∧ t.mem = s.mem ∧ ctxOf t id = some { y with retry := y.retry.filter fun p => p.pc != x.pc }
    checkedCopy s id x = none → copyEnd s x (dword v 0) n rightsR = .ok su → otherTile x.tile (scratchPart su n).1 = false → badBank s x.tile su n = none →
    (copiesOf s x.tile).length < 256 →
    (copyCheck x v false = none → copyEnd s x (dword v 1) n rightsW = .ok du → otherTile x.tile (scratchPart du n).1 = false → badBank s x.tile du n = none →
      countOf s (x.tile * 256 + b) + n ≤ 0xFFFFFF → Begins s (.cpy k a) id x 1 (if own su && own du then 0 else n) y →
      ∃ t c, exec (.cpy k a) s = .next t ∧ starts t c ∧ c.stream = none ∧ c.k = b ∧ countOf t (x.tile * 256 + b) = countOf s (x.tile * 256 + b) + n)
    ∧ (copyCheck x v true = none → du = 0 → (fifoOf s x.tile id (d.toNat - 132) ≠ none ∨ freeFifo s x.tile ≠ none) →
      Begins s (.cpys d a) id x 1 (if own su then 0 else n) y →
      ∃ t c, exec (.cpys d a) s = .next t ∧ starts t c ∧ c.stream = some (id, d.toNat - 132) ∧ fifoOf t x.tile id (d.toNat - 132) ≠ none)

/-- R334, R336, R341 to R344: BINIT sets a barrier's count; BWAIT goes on where it is zero, else parks until it is or the limit ends;
BPEND gives the count, the barrier's number and whether an outstanding copy of the context counts on it; CPYQ cancels the context's
copies, of which none is outstanding any more, and holds the context until their lines have landed, its answer due within 256 cycles. That a
parked BWAIT holds the pc of the next instruction is the model's choice (log 13). -/
def Obligations.BarriersAndCancellation : Prop :=
  (∀ (s : State) (id : Nat) (x y : Ctx) (k : BitVec 4) (a : RegNo), Begins s (.binit k a) id x 1 0 y →
    let b := x.tile * 256 + 16 * x.group + k.toNat
    ∃ t, exec (.binit k a) s = .next t ∧ countOf t b = x.lane0 a % 2 ^ 24 ∧ (∀ c, c ≠ b → countOf t c = countOf s c)
      ∧ (∀ e ∈ t.owed, e.1 % 32768 ≠ b) ∧ ctxOf t id = some { y with retry := y.retry.filter fun p => p.pc != x.pc })
  ∧ (∀ (s : State) (id : Nat) (x y : Ctx) (k : BitVec 4) (limit : Dword), Begins s (.bwait k limit) id x 1 0 y →
    let n := 16 * x.group + k.toNat
    exec (.bwait k limit) s = .next (conclude (if countOf s (x.tile * 256 + n) = 0 then setCtx s id y
      else parkCtx (setCtx s id y) id ⟨.bwait, s.cyc, some limit.toNat, n, x.resume.toNat, x.pc, true⟩) id x.pc))
  ∧ (∀ (s : State) (id : Nat) (x y : Ctx) (d : RegNo) (k : BitVec 4), Begins s (.bpend d k) id x 1 0 y →
    let n := 16 * x.group + k.toNat
    exec (.bpend d k) s = .next (conclude (putReg (setCtx s id y) id d (withScalar · (dw (countOf s (x.tile * 256 + n) + n * 2 ^ 24
      + (if ∃ c ∈ copiesOf s x.tile, c.ctx = id ∧ c.stream = none ∧ c.k = n then 2 ^ 32 else 0))))) id x.pc))
  ∧ ∀ (s : State) (id : Nat) (x y : Ctx) (d : RegNo), Begins s (.cpyq d) id x 1 0 y →
    ∃ t at_, exec (.cpyq d) s = .next t ∧ s.cyc < at_ ∧ at_ ≤ s.cyc + 256 ∧ ⟨at_, .cpyqComplete id ((copiesOf s x.tile).countP fun c => c.ctx == id)⟩ ∈ t.agenda
      ∧ (∀ c ∈ copiesOf t x.tile, c.ctx ≠ id)
      ∧ (∀ c ∈ copiesOf s x.tile, c.ctx ≠ id → c ∈ copiesOf t x.tile)
      ∧ ctxOf t id = some { y with hold := some .cpyq, holdD := d, retry := y.retry.filter fun p => p.pc != x.pc }

/-- R175, R176, R345, R346: BANKCFG of the mode a bank has does nothing; of a bank with nothing pending it takes effect at once; else the
bank drains, the change waits behind those that wait there already, and the context parks until it takes effect. A value that names no bank or mode faults BANKMODE. BANKST gives the modes,
two bits a bank, and the drains, a bit a bank.
R172 to R174, R176, R189: a fill makes the line cached where the home has a bank of ways, an invalidation drops it, an accepted write of a
watched page counts once, and a drain that ends gives the bank the earliest mode that waits and lets its issuer go on; none of them
changes a byte of physical memory. The model's choices: dw2 of BANKMODE is lane 0 zero-extended (log 16), what counts as pending in a bank
(log 19), and that a parked BANKCFG holds the pc of the next instruction, where it goes on (log 13). -/
def Obligations.BankModesAndCaches : Prop :=
  ((∀ (s : State) (id : Nat) (x y : Ctx) (a : RegNo) (m : BankMode),
    let v := x.lane0 a
    let b := v % 32
    b < 24 → modeOf (v / 256 % 4) = some m → Begins s (.bankcfg a) id x 1 0 y →
    (bankMode s x.tile b = m → exec (.bankcfg a) s = .next (conclude (setCtx s id y) id x.pc))
    ∧ (bankMode s x.tile b ≠ m → drainsOf s x.tile b = [] → bankPending s x.tile b = false → FMap.get [] s.waits x.tile = [] →
      ∃ t, exec (.bankcfg a) s = .next t ∧ bankMode t x.tile b = m ∧ ∀ c, c < 24 → c ≠ b → bankMode t x.tile c = bankMode s x.tile c)
    ∧ (bankMode s x.tile b ≠ m → drainsOf s x.tile b ≠ [] ∨ bankPending s x.tile b = true →
      ∃ t, exec (.bankcfg a) s = .next t ∧ drainsOf t x.tile b = drainsOf s x.tile b ++ [(id, m)]
        ∧ bankMode t x.tile b = bankMode s x.tile b
        ∧ ∃ z p, ctxOf t id = some z ∧ z.state = .parked ∧ z.park = some p ∧ p.kind = .drain ∧ p.arg = b ∧ p.charged = true))
  ∧ (∀ (s : State) (id : Nat) (x : Ctx) (a : RegNo),
    let v := x.lane0 a
    24 ≤ v % 32 ∨ modeOf (v / 256 % 4) = none → Clear s (.bankcfg a) id x →
    exec (.bankcfg a) s = .next (trapped s (.bankcfg a) id x (.fault (flt .bankmode (dw v) (dw (v % 32 + v / 256 % 4 * 32)) 0))))
  ∧ ∀ (s : State) (id : Nat) (x y : Ctx) (d : RegNo), Begins s (.bankst d) id x 1 0 y →
    ∃ w : Reg, (∀ b, b < 24 → modeOf ((dword w 0).toNat / 4 ^ b % 4) = some (bankMode s x.tile b)
        ∧ (bit (dword w 1) b = true ↔ drainsOf s x.tile b ≠ []))
      ∧ (dword w 0).toNat < 2 ^ 48 ∧ (dword w 1).toNat < 2 ^ 24
      ∧ exec (.bankst d) s = .next (conclude (putReg (setCtx s id y) id d (mergeLanes 15 w)) id x.pc))
  ∧ (∀ (s : State) (h : AtHome) (line : Nat), underRepair s h.tile = false → cacheBanks s h.tile ≠ [] → FMap.get 0 s.rr (1024 * h.tile + line % 1024) < (cacheBanks s h.tile).length →
    ∃ t, exec (.lineFill h line) s = .next t ∧ cached t h.tile line = true ∧ t.mem = s.mem ∧ t.banks = s.banks)
  ∧ (∀ (s : State) (h : AtHome) (line : Nat), ∃ t, exec (.homeInvalidate h line) s = .next t ∧ cached t h.tile line = false ∧ t.mem = s.mem)
  ∧ (∀ (s : State) (w : WriteOf) (place : Nat) (watched counts : Bool), ∃ t, exec (.sliceWriteAccept w place watched counts) s = .next t ∧ t.mem = s.mem
    ∧ ∀ sl, FMap.get [] t.versions sl = (FMap.get [] s.versions sl).map fun v =>
      if watched = true ∧ counts = true ∧ v.frame ≤ place ∧ place < v.frame + 4096 * 4 ^ v.k then { v with count := min (v.count + 1) 0xFFFF } else v)
  ∧ ∀ (s : State) (tile b id : Nat) (m : BankMode) (rest : List (Nat × BankMode)), drainsOf s tile b = (id, m) :: rest →
    ((∀ x k, ctxOf s id = some x → x.park = some k → k.kind ≠ .drain) → (∀ a ∈ FMap.get [] s.waits tile, a.land ≠ .frontEnd) →
      ∃ t, exec (.bankDrainEnd tile b) s = .next t ∧ bankMode t tile b = m ∧ drainsOf t tile b = rest
        ∧ ∀ p, isScratch p = false → readByte t p = readByte s p)
    ∧ ∀ x k, ctxOf s id = some x → x.park = some k → k.kind = .drain → k.arg = b → x.state = .parked → x.stopReq = false → x.longs = [] →
      x.inMem = false → x.saving = none → FMap.get [] s.waits tile = [] →
      ∃ t, exec (.bankDrainEnd tile b) s = .next t ∧ bankMode t tile b = m ∧ drainsOf t tile b = rest
        ∧ ctxOf t id = some { x with state := .resident, park := none, retry := none, after := s.cyc + 1, decided := none, needs := [] }

-- Pages 10 and 11

/-- R290, R291, R310: a record of two formats of one width, with no scales, or with scales for formats narrower than 16 bits, becomes
its core's format context; any other faults FMT, uncharged.
R296, R299, R300, R311: a matrix command whose operands pass their checks, for MMA in the tile's own scratch and for MMAS in paged memory,
joins the queue of its tile's engine with its core's format context, and its context parks until the step at the block. The charge is
ib 8, and for MMAS mb 12,288. -/
def Obligations.FormatsAndMatrixCommands : Prop :=
  (∀ (s : State) (id : Nat) (x y : Ctx) (a : RegNo),
    let r := x.scalar a
    let legal := ∃ f g : Fmt, mmaFmt (r.toNat % 64) = some f ∧ mmaFmt (r.toNat / 64 % 64) = some g ∧ (fmtInfo f).width = (fmtInfo g).width
      ∧ (r.toNat / 4096 % 4 = 0 ∨ r.toNat / 4096 % 4 = 1 ∧ (fmtInfo f).width ≠ 16) ∧ r.toNat < 2 ^ 30
    (legal → Begins s (.mfmt a) id x 1 0 y → ∃ t, exec (.mfmt a) s = .next t ∧ formatOf t (16 * x.tile + x.core) = r
      ∧ (∀ c, c ≠ 16 * x.tile + x.core → formatOf t c = formatOf s c) ∧ t.mem = s.mem ∧ t.blocks = s.blocks)
    ∧ (¬ legal → Clear s (.mfmt a) id x → ∃ b : Nat, b ≠ 0 ∧ b < 32
      ∧ exec (.mfmt a) s = .next (trapped s (.mfmt a) id x (.fault (flt .fmt r (dw b) 0)))))
  ∧ ∀ (s s' : State) (id : Nat) (x y : Ctx) (blk a b : RegNo) (l : List (List Nat)) (sp : List (Nat × Spot)),
    let f := formatOf s (16 * x.tile + x.core)
    let queued := fun (i : Instr) (mmas : Bool) (places : List (Nat × Nat)) => ∃ t k z p, exec i s = .next t
      ∧ engineOf t x.tile = { engineOf s x.tile with queue := (engineOf s x.tile).queue ++ [k] }
      ∧ k.ctx = id ∧ k.home = x.tile ∧ k.blk = x.grant.getD blk.toNat 0 ∧ k.fmt = f ∧ k.mmas = mmas ∧ k.lines = places ∧ k.data = [] ∧ k.bad = none
      ∧ k.entered = s.cyc ∧ t.blocks = s.blocks ∧ ctxOf t id = some z ∧ z.state = .parked ∧ z.ib = y.ib ∧ z.mb = y.mb
      ∧ z.park = some p ∧ p.kind = .mma ∧ p.arg = k.uid ∧ p.limit = none
    regionLines x (regionsOf x f a b) = .ok l →
    ((∀ u ∈ l.flatten, ownScratch s x u = none) → Begins s (.mma blk a b) id x 8 0 y →
      queued (.mma blk a b) false ((commandOrder f l).map fun u => (u, placeOf x.tile (u % 0x200000))))
    ∧ ((∀ u ∈ l.flatten, regionOf u = .paged) → mapAll x rightsR (setCtx s id (issued s (.mmas blk a b) x)) l.flatten = .spots sp s' →
      (∀ p ∈ sp, underRepair s p.2.home = false) → Begins s (.mmas blk a b) id x 8 12288 y →
      queued (.mmas blk a b) true ((commandOrder f l).map fun u => (u, match sp.find? fun p => p.1 == u with | some p => p.2.place | none => 0)))

/-- R275, R276, R287, R312, R316: ACCE clears the block and sets E, ACCZ clears it and keeps E, ACCSTAT gives its status word; each
acts on the block its grant maps, and on no other. -/
def Obligations.BlockSetting : Prop :=
  ∀ (s : State) (id : Nat) (x y : Ctx) (d blk a : RegNo),
    let b := x.grant.getD blk.toNat 0
    let k := blockAt s x.tile b
    let cleared := fun (e : BitVec 10) => setBlock (setCtx s id y) x.tile b
      { k with acc := { elems := [], e := e, count := 0, ovf := false, cnt := false, range := false, nan := false } }
    (Begins s (.acce blk a) id x 1 0 y → exec (.acce blk a) s = .next (conclude (cleared (BitVec.ofNat 10 (x.lane0 a))) id x.pc))
    ∧ (Begins s (.accz blk) id x 1 0 y → exec (.accz blk) s = .next (conclude (cleared k.acc.e) id x.pc))
    ∧ (Begins s (.accstat d blk) id x 1 0 y → exec (.accstat d blk) s = .next (conclude (putReg (setCtx s id y) id d (withScalar ·
        (dw (k.acc.e.toNat + bitOf k.acc.nan * 2 ^ 10 + bitOf k.acc.range * 2 ^ 11 + bitOf k.acc.cnt * 2 ^ 12 + bitOf k.acc.ovf * 2 ^ 13
          + k.acc.count * 2 ^ 16)))) id x.pc))

/-- R268, R275, R279, R313, R314: ACCRD rounds the elements of one row in the lanes of p0, each with its word of the generator, and may set
OVF; ACCWR sets the elements of one row in the lanes of p0 to their values on the grid of E, and leaves every other element.
R268, R279, R315: ACCST rounds all 256 elements in order as one readout, and its lines are on their way as plain writes. -/
def Obligations.BlockReadsAndWrites : Prop :=
  (∀ (s : State) (id : Nat) (x y : Ctx) (t : FType) (d blk a b : RegNo),
    let n := x.grant.getD blk.toNat 0
    let k := blockAt s x.tile n
    let row := x.lane0 b % 16
    let m := maskP x.pw 0
    (fmtFault x.rnd .dyn = none → Begins s (.accrd t d blk b) id x 1 0 y →
      let rc := rndOf x.rnd .dyn
      let ls := p0Lanes x
      let r := eachRounded rc (fun w l => readoutValue (ftInfo t) rc k.acc w (16 * row + l)) (srState x.rnd) ls
      exec (.accrd t d blk b) s = .next (conclude (putReg (updCtx (setBlock (setCtx s id y) x.tile n
        { k with acc := { k.acc with ovf := readoutOvf k.acc (ls.map fun l => 16 * row + l) } }) id fun z => { z with rnd := withSr z.rnd r.2 }) id d
        (mergeLanes m (fromElems 32 (ls.map fun l => (l, 0)) r.1))) id x.pc))
    ∧ (Begins s (.accwr blk a b) id x 1 0 y → ∃ c : Accum,
      exec (.accwr blk a b) s = .next (conclude (setBlock (setCtx s id y) x.tile n { k with acc := c }) id x.pc)
      ∧ c.e = k.acc.e ∧ c.count = k.acc.count ∧ c.ovf = k.acc.ovf ∧ c.cnt = k.acc.cnt
      ∧ (∀ j, (j / 16 ≠ row ∨ m.getLsbD (j % 16) = false) → accElem c j = accElem k.acc j)
      ∧ (∀ l, l < 16 → m.getLsbD l = true → accElem c (16 * row + l) =
          match infoFp32.value (lane (x.reg a.toNat) l).toNat with
          | .fin neg p e => BitVec.ofInt 160 (if neg then -(grid k.acc.e p e : Int) else grid k.acc.e p e)
          | _ => accElem k.acc (16 * row + l))
      ∧ (c.nan = true ↔ k.acc.nan = true ∨ ∃ l, l < 16 ∧ m.getLsbD l = true ∧ (match infoFp32.value (lane (x.reg a.toNat) l).toNat with | .fin _ _ _ => False | _ => True))
      ∧ (c.range = true ↔ k.acc.range = true ∨ ∃ l, l < 16 ∧ m.getLsbD l = true ∧ (match infoFp32.value (lane (x.reg a.toNat) l).toNat with
          | .fin _ p e => 2 ^ 135 ≤ grid k.acc.e p e | _ => False))))
  ∧ ∀ (s s' : State) (id : Nat) (x y : Ctx) (t : FType) (blk a : RegNo) (sp : List (Nat × Spot)),
    let n := x.grant.getD blk.toNat 0
    let k := blockAt s x.tile n
    let w := (ftInfo t).width / 8
    let rc := rndOf x.rnd .dyn
    let r := eachRounded rc (fun p j => readoutValue (ftInfo t) rc k.acc p j) (srState x.rnd) (List.range 256)
    let bytes := r.1.flatMap (bytesLE w)
    areaLines (setCtx s id (issued s (.accst t blk a) x)) x (ea (x.scalar a) 0) (256 * w) rightsW = .spots sp s' →
    (∀ p ∈ sp, p.2.paged = true → underRepair s p.2.home = false) → fmtFault x.rnd .dyn = none →
    Begins s (.accst t blk a) id x 1 ((sp.countP fun p => p.2.home != x.tile) * 64) y →
    exec (.accst t blk a) s = .next (conclude (sendAll ⟨id, 0, x.part, x.tile, 0, .plain, false, 0, none, 0, 0, none⟩
      (setBlock (setCtx s' id { y with rnd := withSr y.rnd r.2 }) x.tile n { k with acc := { k.acc with ovf := readoutOvf k.acc (List.range 256) } })
      ((sp.zipIdx).map fun p => ((.write 64 (ofBytes ((bytes.drop (64 * p.2)).take 64)) (BitVec.ofNat 64 (2 ^ 64 - 1)), .none), p.1))) id x.pc)

/-- R301, R304, R307, R319 to R323: CHSET reserves the block under the next tag for a number of arrivals, CHDROP ends the reservation, CHSTAT
gives its words; CHWAIT goes on once they have arrived, else parks, and faults CHWAIT where nothing is reserved; CHSEND sends what the
block holds for mb 5,120, or parks where the send store is full, and faults PROT where its route leaves the partition. That a parked CHWAIT or
CHSEND holds the pc of the next instruction is the model's choice (log 13). -/
def Obligations.AccumulateNetwork : Prop :=
  ∀ (s : State) (id : Nat) (x y : Ctx) (d blk a : RegNo) (limit : Dword),
    let b := x.grant.getD blk.toNat 0
    let k := blockAt s x.tile b
    let dst : BitVec 21 := (x.scalar a).setWidth 21
    let tile := dst.toNat / 64 % 128
    (Begins s (.chset blk a) id x 1 0 y → exec (.chset blk a) s = .next (conclude (setBlock (setCtx s id y) x.tile b
      { k with tag := k.tag + 1, reserved := true, expected := x.lane0 a % 65536, arrived := 0, x := false }) id x.pc))
    ∧ (Begins s (.chdrop blk) id x 1 0 y → exec (.chdrop blk) s = .next (conclude (setBlock (setCtx s id y) x.tile b { k with reserved := false }) id x.pc))
    ∧ (Begins s (.chstat d blk) id x 1 0 y → exec (.chstat d blk) s = .next (conclude (putReg (setCtx s id y) id d (withScalar ·
        (dw (b + x.tile * 64 + k.tag.toNat * 2 ^ 13 + bitOf k.x * 2 ^ 22 + bitOf k.reserved * 2 ^ 23 + k.expected * 2 ^ 32 + k.arrived * 2 ^ 48)))) id x.pc))
    ∧ (k.reserved = true → Begins s (.chwait blk limit) id x 1 0 y → exec (.chwait blk limit) s = .next (conclude (if k.expected ≤ k.arrived then setCtx s id y
      else parkCtx (setCtx s id y) id ⟨.chwait, s.cyc, some limit.toNat, b, x.resume.toNat, x.pc, true⟩) id x.pc))
    ∧ (k.reserved = false → Clear s (.chwait blk limit) id x → exec (.chwait blk limit) s = .next (trapped s (.chwait blk limit) id x
      (.fault (flt .chwait (dw (b + x.tile * 64 + k.tag.toNat * 2 ^ 13)) (dw k.expected) (dw k.arrived)))))
    ∧ ((∀ u ∈ tile :: route x.tile tile, partOf s u = some x.part) → Begins s (.chsend blk a) id x 1 5120 y →
      exec (.chsend blk a) s = .next (conclude (match freeSend s x.tile with
        | some e => let p := { ctx := id, src := x.tile, sup := x.sup, pc := x.pc, entry := e, d := dst, blk := k.acc, back := false, n := s.uid, sent := s.cyc }
          sendPacket (setSend { setCtx s id y with uid := s.uid + 1 } x.tile e (some ⟨p, none, 0, false⟩)) p
        | none => parkCtx (setCtx s id y) id ⟨.store, s.cyc, some (bits x.fel 31 0), b + 64 * dst.toNat, x.resume.toNat, x.pc, true⟩) id x.pc))
    ∧ ((∃ u ∈ tile :: route x.tile tile, partOf s u ≠ some x.part) → Clear s (.chsend blk a) id x →
      exec (.chsend blk a) s = .next (trapped s (.chsend blk a) id x (.fault (flt .prot (dw dst.toNat) (dw (if partOf s tile = some x.part then 128 else 64)) 0))))

-- Pages 12 and 13

/-- R378 to R380, R377: RSET's record keeps the six coordinates, holds the exact area, and its box is the pixels of the scissor whose
centres lie between the least and the greatest coordinate; it is empty for the reasons of its flags, and rsc counts one that is
not. -/
def Obligations.TriangleSetup : Prop :=
  ∀ (s : State) (id : Nat) (x y : Ctx) (d a : RegNo), Begins s (.rset d a) id x 2 0 y →
    let v := x.reg a.toNat
    let c := fun i => (lane v i).toInt
    let range := ∃ i, i < 6 ∧ ¬ (-2 ^ 28 ≤ c i ∧ c i < 2 ^ 28)
    let area := (c 2 - c 0) * (c 5 - c 1) - (c 3 - c 1) * (c 4 - c 0)
    let inX := fun (X : Int) => c 7 ≤ X ∧ X ≤ c 9 ∧ min (c 0) (min (c 2) (c 4)) ≤ 256 * X + 128 ∧ 256 * X + 128 ≤ max (c 0) (max (c 2) (c 4))
    let inY := fun (Y : Int) => c 8 ≤ Y ∧ Y ≤ c 10 ∧ min (c 1) (min (c 3) (c 5)) ≤ 256 * Y + 128 ∧ 256 * Y + 128 ≤ max (c 1) (max (c 3) (c 5))
    let cull := (lane v 6).toNat % 4
    ∃ (w : Reg) (e : Bool), exec (.rset d a) s = .next (conclude (updCtx (putReg (setCtx s id y) id d fun _ => w) id
        fun z => { z with rsc := if e then z.rsc else z.rsc + 1 }) id x.pc)
      ∧ (∀ i, i < 6 → lane w i = lane v i) ∧ (range → (dword w 3).toInt = 0) ∧ (¬ range → (dword w 3).toInt = area)
      ∧ (lane w 8).toNat < 64 ∧ (∀ i, 13 ≤ i → i < 16 → lane w i = 0)
      ∧ ((lane w 8).getLsbD 0 = true ↔ (dword w 3).toInt < 0) ∧ ((lane w 8).getLsbD 2 = true ↔ ¬ range ∧ area = 0)
      ∧ ((lane w 8).getLsbD 3 = true ↔ range)
      ∧ ((lane w 8).getLsbD 4 = true ↔ cull = 3 ∨ cull = 1 ∧ (dword w 3).toInt < 0 ∨ cull = 2 ∧ 0 < (dword w 3).toInt)
      ∧ ((lane w 8).getLsbD 5 = true ↔ ¬ ∃ X Y, inX X ∧ inY Y)
      ∧ (lane w 8).getLsbD 1 = e ∧ (e = true ↔ ∃ i, 2 ≤ i ∧ i < 6 ∧ (lane w 8).getLsbD i = true)
      ∧ (e = true → (lane w 9).toInt = 0 ∧ (lane w 10).toInt = 0 ∧ (lane w 11).toInt = -1 ∧ (lane w 12).toInt = -1)
      ∧ (e = false → ∀ X Y : Int, (lane w 9).toInt ≤ X ∧ X ≤ (lane w 11).toInt ∧ (lane w 10).toInt ≤ Y ∧ Y ≤ (lane w 12).toInt ↔ inX X ∧ inY Y)

/-- R381 to R384: RCOV leaves in p0 the lanes whose pixels the record covers, and rpx counts them; RBARY gives the weights of the second
and third vertices, rounded under rnd; RBLK walks the blocks of the box, row by row. -/
def Obligations.CoverageAndWeights : Prop :=
  (∀ (s : State) (id : Nat) (x y : Ctx) (a b : RegNo), Begins s (.rcov a b) id x 2 0 y →
    let o := x.scalar b
    ∃ m : BitVec 16, (∀ l : Nat, l < 16 → (m.getLsbD l = true ↔ (maskP x.pw 0).getLsbD l = true
        ∧ Covers (x.reg a.toNat) (originX o + (l % 4 : Nat)) (originY o + (l / 4 : Nat))))
      ∧ exec (.rcov a b) s = .next (conclude (setCtx s id { y with pw := withP y.pw 0 m, rpx := y.rpx + dw ((List.range 16).countP (m.getLsbD ·)) }) id x.pc))
  ∧ (∀ (s : State) (id : Nat) (x y : Ctx) (d a b : RegNo), fmtFault x.rnd .dyn = none → Begins s (.rbary d a b) id x 2 0 y →
    let v := x.reg a.toNat
    let area := (dword v 3).toInt
    let rc := rndOf x.rnd .dyn
    let ls := p0Lanes x
    let num := fun (i j l : Nat) => edge v i j (256 * (originX (x.scalar b) + (l % 4 : Nat)) + 128) (256 * (originY (x.scalar b) + (l / 4 : Nat)) + 128)
    let r := eachRounded rc (fun n e => roundTo infoFp32 rc n (weight e area)) (srState x.rnd) (ls.flatMap fun l => [num 2 0 l, num 0 1 l])
    let out := fun (k : Nat) => fromElems 32 (ls.map fun l => (l, 0)) ((List.range ls.length).map fun i => r.1.getD (2 * i + k) 0)
    exec (.rbary d a b) s = .next (conclude (putReg (putReg (setCtx s id { y with rnd := withSr y.rnd r.2 }) id d
      (mergeLanes (maskP x.pw 0) (out 0))) id (d + 1) (mergeLanes (maskP x.pw 0) (out 1))) id x.pc))
  ∧ ∀ (s : State) (id : Nat) (x y : Ctx) (d a b : RegNo), Begins s (.rblk d a b) id x 2 0 y →
    let v := x.reg a.toNat
    let o := x.scalar b
    let X := originX o
    let Y := originY o
    let down := fun (z : Int) => 4 * (z / 4)
    let bx0 := down (lane v 9).toInt
    let by0 := down (lane v 10).toInt
    let bx1 := down (lane v 11).toInt
    let by1 := down (lane v 12).toInt
    exec (.rblk d a b) s = .next (conclude (putReg (setCtx s id y) id d (withScalar · (
      if (lane v 8).getLsbD 1 then originOf (-1) (-1)
      else if X = -1 ∧ Y = -1 then originOf bx0 by0
      else if down X = X ∧ down Y = Y ∧ bx0 ≤ X ∧ X ≤ bx1 ∧ by0 ≤ Y ∧ Y ≤ by1 then
        (if X < bx1 then originOf (X + 4) Y else if Y < by1 then originOf bx0 (Y + 4) else originOf (-1) (-1))
      else originOf (-1) (-1)))) id x.pc)

/-- R385 to R387, R377: RZT compares the depths of p0's lanes with those of its line, writes the ones that pass in one step, leaves them in
p0 and counts them in qacc; RWR writes the lanes of p0 and counts them in rwc. Where accesses that come before it are on their way, it
holds its context, charged, and does the same when they have been performed (R226); that it holds its own context for them is the
model's choice (log 32). -/
def Obligations.DepthAndColour : Prop :=
  ∀ (s : State) (id : Nat) (x y : Ctx) (q : ZQual) (a b : RegNo) (u : Nat),
    let p := placeOf x.tile (u % 0x200000)
    let z := x.reg b.toNat
    let count := fun (m : BitVec 16) => dw ((List.range 16).countP (m.getLsbD ·))
    let rights : Rights := ⟨true, !q.nowr, false, false⟩
    let passes := fun (m : BitVec 16) => ∀ l, l < 16 → (m.getLsbD l = true ↔ (maskP x.pw 0).getLsbD l = true ∧
      let new := infoFp32.value (lane z l).toNat
      let old := infoFp32.value (readLE s (p + 4 * l) 4)
      match q.cmp with
      | .never => False | .always => True
      | .lt => fcmpHolds .lt new old = true | .eq => fcmpHolds .eq new old = true | .le => fcmpHolds .le new old = true
      | .gt => fcmpHolds .gt new old = true | .ne => fcmpHolds .ne new old = true | .ge => fcmpHolds .ge new old = true)
    let depth := fun (m : BitVec 16) (w : Ctx) => updCtx (if q.nowr then setCtx s id w else ownWrite (setCtx s id w) x p z (bytesOfLanes m)) id
      fun c => { c with pw := withP c.pw 0 m, qacc := c.qacc + count m }
    let colour := fun (w : Ctx) => updCtx (ownWrite (setCtx s id w) x p z (bytesOfLanes (maskP x.pw 0))) id
      fun c => { c with rwc := c.rwc + count (maskP x.pw 0) }
    let held := fun (i : Instr) => mustHold (setCtx s id (issued s i x)) s.uid id x i
    let goesOn := fun (t : State) (k : Park) => holdEnds (updCtx t id fun c => { c with pc := dw k.arg2, resume := 0 }) id
    let free := { x with hold := none, retry := none, after := s.cyc + 1 }
    (held (.rzt q a b) = false → Line s x (x.scalar a) rights u → Begins s (.rzt q a b) id x 2 0 y →
      ∃ m : BitVec 16, passes m ∧ exec (.rzt q a b) s = .next (conclude (depth m y) id x.pc))
    ∧ (held (.rwr a b) = false → Line s x (x.scalar a) rightsW u → Begins s (.rwr a b) id x 2 0 y →
      exec (.rwr a b) s = .next (conclude (colour y) id x.pc))
    ∧ (∀ e ∈ [(Instr.rzt q a b, rights), (Instr.rwr a b, rightsW)], held e.1 = true → segMap x (ea (x.scalar a) 0) 64 64 e.2 = .ok u →
      ownScratch s x u = none → Begins s e.1 id x 2 0 y → ∃ t, exec e.1 s = .next t ∧ ActsLater s t id e.1 x y)
    ∧ ∀ (n : Nat) (k : Park), ctxOf s id = some x → x.retry = some k →
      (x.hold = some (.acting (.rzt q a b)) → Line s x (x.scalar a) rights u →
        ∃ m : BitVec 16, passes m ∧ exec (.traversalStepComplete ⟨id, n⟩) s = .next (goesOn (depth m free) k))
      ∧ (x.hold = some (.acting (.rwr a b)) → Line s x (x.scalar a) rightsW u →
        exec (.traversalStepComplete ⟨id, n⟩) s = .next (goesOn (colour free) k))

/-- R392, R394, R399, R403, R405: TRSET starts the lanes of p0 at the root with an empty hit record, and the others done; TRCMT commits the
hits of p0's lanes to the area and to tmax; TRRES reads the hit records. Where accesses that come before it are on their way, it holds
its context, charged, and does the same when they have been performed (R226, R387); that it holds its own context for them is the
model's choice (log 32). -/
def Obligations.TraversalRecords : Prop :=
  ∀ (s : State) (id : Nat) (x y : Ctx) (d b : RegNo), Area s x → Unwatched s x.tile →
    let on := fun (l : Nat) => l < 16 ∧ (maskP x.pw 0).getLsbD l = true
    let off := fun (l : Nat) => l < 16 ∧ (maskP x.pw 0).getLsbD l = false
    let sound := fun (o n : Nat) => ∀ l, on l → errIn s (areaPlace x l o) n = false
    let started := fun (t : State) (z : Ctx) => bit z.cb 32 = false
      ∧ (∀ l, on l → tlane z d.toNat l = ⟨0, 1, false, 0, 0, 0⟩ ∧ readDw t (areaPlace x l 0) = x.scalar b
        ∧ [0, 1, 2, 3, 4].map (fun k => readLE t (areaPlace x l (512 + 4 * k)) 4) = [0x7F800000, 0, 0, 0xFFFFFFFF, 0xFFFFFFFF]
        ∧ readLE t (areaPlace x l 584) 4 = 0xFFFFFFFF)
      ∧ ∀ l, off l → tlane z d.toNat l = ⟨0, 0, false, 0, 0, 3⟩ ∧ ∀ k, k < 1024 → readByte t (areaPlace x l k) = readByte s (areaPlace x l k)
    let committed := fun (t : State) (z : Ctx) =>
      (∀ l, on l → readLE t (areaPlace x l 528) 4 = readLE s (areaPlace x l 584) 4
        ∧ (∀ k, k < 4 → readLE t (areaPlace x l (512 + 4 * k)) 4 = (lane (x.reg (d.toNat + k)) l).toNat)
        ∧ lane (z.reg (b.toNat + 7)) l = lane (x.reg d.toNat) l)
      ∧ (∀ l, off l → lane (z.reg (b.toNat + 7)) l = lane (x.reg (b.toNat + 7)) l)
      ∧ ∀ r, r ≠ b.toNat + 7 → z.reg r = x.reg r
    let read := fun (t : State) (z : Ctx) => (∀ l, on l → ∀ k, k < 5 → (lane (z.reg (d.toNat + k)) l).toNat = readLE s (areaPlace x l (512 + 4 * k)) 4)
      ∧ (∀ l, off l → ∀ r, lane (z.reg r) l = lane (x.reg r) l)
      ∧ (∀ r, r < d.toNat ∨ d.toNat + 5 ≤ r → z.reg r = x.reg r) ∧ t.mem = s.mem
    let forms : List (Instr × Prop × (State → Ctx → Prop)) :=
      [(.trset d b, True, started), (.trcmt d b, sound 584 4, committed), (.trres d, sound 512 20, read)]
    ∀ e ∈ forms,
      let held := mustHold (setCtx s id (issued s e.1 x)) s.uid id x e.1
      (held = false → e.2.1 → Begins s e.1 id x 2 0 y → ∃ t z, exec e.1 s = .next t ∧ ctxOf t id = some z ∧ e.2.2 t z)
      ∧ (held = true → Begins s e.1 id x 2 0 y → ∃ t, exec e.1 s = .next t ∧ ActsLater s t id e.1 x y)
      ∧ ∀ (n : Nat) (k : Park), ctxOf s id = some x → x.hold = some (.acting e.1) → x.retry = some k → x.retireReq = false → x.saving = none → e.2.1 →
        ∃ t z, exec (.traversalStepComplete ⟨id, n⟩) s = .next t ∧ ctxOf t id = some z ∧ e.2.2 t z ∧ z.hold = none ∧ z.pc = dw k.arg2

/-- R393, R400 to R402, R404, R407: TRSTEP, TRTRI and TRINST are charged their fixed traffic and hold their context, at their own address, until
their reads are done; TRBOX tests the boxes of p0's lanes at once and leaves the hits in p0. -/
def Obligations.TraversalSteps : Prop :=
  (∀ (s : State) (id : Nat) (x y : Ctx) (d a b : RegNo),
    ∀ p ∈ [(Instr.trstep d a, 4096, 1, 0), (Instr.trtri d a b, 1024, 2, b.toNat), (Instr.trinst d a, 2048, 5, 0)],
    Area s x → Begins s p.1 id x 2 p.2.1 y →
    ∃ t z k at_, exec p.1 s = .next t ∧ ctxOf t id = some z ∧ z.hold = some .traversal ∧ z.pc = x.pc ∧ z.ib = y.ib ∧ z.mb = y.mb ∧ z.regs = x.regs
      ∧ z.retry = some k ∧ k.arg = p.2.2.1 + 16 * d.toNat + 4096 * a.toNat + 2 ^ 20 * p.2.2.2 ∧ k.arg2 = y.pc.toNat
      ∧ ⟨at_, .traversalStepComplete ⟨id, s.uid⟩⟩ ∈ t.agenda ∧ t.mem = s.mem)
  ∧ ∀ (s : State) (id : Nat) (x y : Ctx) (d a b : RegNo), Begins s (.trbox d a b) id x 2 0 y →
    let w := fun (k l : Nat) => (lane (x.reg (a.toNat + k)) l).toNat
    let hit := fun (l : Nat) => if (maskP x.pw 0).getLsbD l then boxHit (fun i => w i l) (fun i => w (3 + i) l) (worldRay x b.toNat l) else none
    ∃ t z, exec (.trbox d a b) s = .next t ∧ ctxOf t id = some z
      ∧ (∀ l, l < 16 → ((maskP z.pw 0).getLsbD l = true ↔ (hit l).isSome = true)
        ∧ (lane (z.reg d.toNat) l).toNat = ((hit l).map (· % 2 ^ 32)).getD (lane (x.reg d.toNat) l).toNat)
      ∧ (∀ i, 1 ≤ i → i < 4 → maskP z.pw i = maskP x.pw i) ∧ (∀ r, r ≠ d.toNat → z.reg r = x.reg r) ∧ t.mem = s.mem

-- Page 15

/-- R431, R433 to R435, R438, R439, R454: CTXRD of a living context over which its issuer has authority is sent to the tile that holds it, and
what it finds there when it arrives goes to the issuer's D: a window register, a special register, the descriptor or a message of the
inbox, or zero where the target has ceased to live; of a target that is not living at issue, zero at once. An issuer without authority
faults PRIV, a selector that names nothing SEGLIM, an item with an uncorrectable error MEMERR. That those are judged at issue is log 39,
and the state that a swap under way gives its context is log 42: both are the model's choice. -/
def Obligations.ContextReads : Prop :=
  (∀ (s : State) (id : Nat) (x y : Ctx) (d a : RegNo),
    let c := x.lane0 a
    let sel := x.dword a 1
    (targetOf s x c = none → Begins s (.ctxrd d a) id x 1 0 y →
      exec (.ctxrd d a) s = .next (conclude (putReg (setCtx s id y) id d fun _ => 0) id x.pc))
    ∧ ∀ w, targetOf s x c = some w →
      let ruled := x.priv = true ∨ w.sup.toNat = id
      (¬ ruled → Clear s (.ctxrd d a) id x → exec (.ctxrd d a) s = .next (trapped s (.ctxrd d a) id x (.fault (flt .priv (x.scalar a) 0 0))))
      ∧ (ruled → selectorOk w sel false = false → Clear s (.ctxrd d a) id x →
          exec (.ctxrd d a) s = .next (trapped s (.ctxrd d a) id x (.fault (flt .seglim sel 16 0))))
      ∧ (∀ f, ruled → selectorOk w sel false = true → readErr s c w sel = some f → Clear s (.ctxrd d a) id x →
          f.code = .memerr ∧ exec (.ctxrd d a) s = .next (trapped s (.ctxrd d a) id x (.fault f)))
      ∧ (ruled → selectorOk w sel false = true → readErr s c w sel = none → Begins s (.ctxrd d a) id x 1 0 y →
          ∃ t at_, exec (.ctxrd d a) s = .next t ∧ s.cyc < at_ ∧ at_ ≤ s.cyc + 2048
            ∧ ⟨at_, .contextActionAtTile ⟨id, s.uid⟩ d.toNat c (.ctxrd sel)⟩ ∈ t.agenda ∧ t.mem = s.mem
            ∧ ctxOf t id = some { y with hold := some .page15, holdD := d, retry := y.retry.filter fun k => k.pc != x.pc }))
  ∧ ∀ (s : State) (q : Issued) (x : Ctx) (d c : Nat) (sel : Dword), ctxOf s q.ctx = some x → x.hold = some .page15 → x.retireReq = false →
    x.saving = none → d ≤ 127 →
    let n := bits sel 7 0
    let ends := fun (v : Reg) => ∃ t, exec (.contextActionAtTile q d c (.ctxrd sel)) s = .next t ∧ t.mem = s.mem
      ∧ ctxOf t q.ctx = some { x.setReg d v with hold := none, after := s.cyc + 1, retry := x.retry.filter fun k => k.pc != 1 }
    (ctxOf s c = none → ends 0)
    ∧ ∀ z, ctxOf s c = some z → z.inMem = false →
      let w := seenCtx s c z
      (bits sel 15 12 = 0 → n < z.window → ends (z.reg n))
      ∧ (∀ v, bits sel 15 12 = 1 → (specials s c w z.pc)[n]? = some v → ends (withScalar (x.reg d) v))
      ∧ (bits sel 15 12 = 2 → n = 0 → ends (mergeLanes 15 (ofDwords [w.desc0 (lookaheadWaits s c w), w.desc1]) (x.reg d)))
      ∧ (bits sel 15 12 = 3 → ends (((z.inbox[n]?).map (·.msg)).getD 0))

/-- R434, R435: such an instruction is charged and holds its context until its action is done at the tile, its accesses before it first
where it releases them, and due within 2,048 cycles; where it must name a living target and does not, it answers 1.
R437, R444: KSAVE and KLOAD of a Stopped or Held context check and translate the whole area first, are charged the traffic of its
lines, and hold their context until the image has moved; of a context in another state they answer 2. -/
def Obligations.ActionsAndImageMoves : Prop :=
  (∀ (s : State) (id : Nat) (x y : Ctx) (d a b : RegNo), ∀ p ∈ actionOps s id x d a b, Begins s p.instr id x 1 0 y →
    (p.may → ∃ t at_, exec p.instr s = .next t ∧ s.cyc < at_ ∧ at_ ≤ s.cyc + 2048
        ∧ ⟨at_, .contextActionAtTile ⟨id, s.uid⟩ d.toNat p.target p.action⟩ ∈ t.agenda ∧ t.mem = s.mem
        ∧ (∀ u : State, releasing p.action = true → accessBefore u id s.uid = true → mustWait u (.contextActionAtTile ⟨id, s.uid⟩ d.toNat p.target p.action) = true)
        ∧ ctxOf t id = some { y with hold := some .page15, holdD := d, retry := y.retry.filter fun k => k.pc != x.pc })
    ∧ (p.living = true → targetOf s x p.target = none →
      exec p.instr s = .next (conclude (putReg (setCtx s id y) id d (withScalar · 1)) id x.pc)))
  ∧ ∀ (s s' : State) (id : Nat) (x y w : Ctx) (d a b : RegNo) (l : List (Nat × Spot)), ∀ load : Bool,
    let i : Instr := if load then .kload d a b else .ksave d a b
    let c := x.lane0 a
    targetOf s x c = some w →
    ((seenState s c w = .stopped ∨ seenState s c w = .held) →
      areaOf (setCtx s id (issued s i x)) x (x.scalar b) (imageBytes w) (if load then rightsR else rightsW) = .spots l s' →
      (∀ p ∈ l, p.2.paged = true → underRepair s' p.2.home = false) → imageReadErr s' c w load l = none →
      Begins s i id x 1 ((l.countP fun p => p.2.home != x.tile) * 64) y →
      ∃ t at_, exec i s = .next t ∧ s.cyc < at_ ∧ at_ ≤ s.cyc + 2048 ∧ ⟨at_, .contextActionAtTile ⟨id, s'.uid⟩ d.toNat c (let ls := l.map fun p => (p.1, p.2.place, p.2.home, p.2.watched)
          if load then .kload ls else .ksave ls)⟩ ∈ t.agenda
        ∧ ctxOf t id = some { y with hold := some .page15, holdD := d, retry := (some (⟨.repair, 0, none, x.pc.toNat, x.resume.toNat, 1, true⟩ : Park)).filter fun k => k.pc != x.pc })
    ∧ (seenState s c w ≠ .stopped → seenState s c w ≠ .held → Begins s i id x 1 0 y →
      exec i s = .next (conclude (putReg (setCtx s id y) id d (withScalar · 2)) id x.pc))

/-- R170, R445, R453: TLBINV removes from every TLB the entries of the partition it names, of every page or of the pages that meet its
range, and FWSET writes its window and removes the entries made under it; no other entry goes, and the context is held until every access
translated before has completed. A port above 213 is accepted with no effect.
R452: ALMSET writes one group of a shadow calendar, or of every one, unless it only commits; a commit holds the context until the next
frame start. An index above 260 faults SEGLIM.
R33: an access that leaves its tile comes to its home only while the live calendar of its tile's port gives its partition a day. That TLBINV
waits for every access translated before it, whatever its page, and that an access on its way when a commit takes the days waits too, are
the model's choices (logs 26 and 8), as is dw2 of ALMSET's SEGLIM, lane 0 zero-extended (log 16). -/
def Obligations.TranslationsAndCalendars : Prop :=
  (∀ (s : State) (id : Nat) (x y : Ctx) (a b : RegNo),
    let removes := fun (t : State) (gone : Tlb → Prop) =>
      (∀ c, (∀ e ∈ FMap.get [] t.tlb1 c, ¬ gone e) ∧ (∀ e ∈ FMap.get [] s.tlb1 c, ¬ gone e → e ∈ FMap.get [] t.tlb1 c)
        ∧ (∀ e ∈ FMap.get [] t.tlb2 c, ¬ gone e) ∧ ∀ e ∈ FMap.get [] s.tlb2 c, ¬ gone e → e ∈ FMap.get [] t.tlb2 c)
      ∧ ∃ z at_, ctxOf t id = some z ∧ z.hold = some .tlbinv ∧ z.pc = y.pc ∧ ⟨at_, .tlbinvComplete id⟩ ∈ t.agenda
    (∀ i ∈ [Instr.tlbinvPage a b, .tlbinvAll a b],
      let v := x.lane0 b
      let k := v / 16 % 16
      let size := 4096 * 4 ^ k
      let low := (x.scalar a).toNat / size * size
      (v % 4 = 1 ∨ v % 4 = 0 ∧ k < 12) → Begins s i id x 1 0 y →
      ∃ t, exec i s = .next t ∧ removes t fun e => e.part = v / 256 % 4 ∧ (v % 4 = 1 ∨ e.base < low + size ∧ low < e.base + 4096 * 4 ^ e.k))
    ∧ let port := x.lane0 a % 256
      let n := x.lane0 a / 256 % 8
      (port ≤ 213 → Begins s (.fwset a b) id x 1 0 y → ∃ t, exec (.fwset a b) s = .next t
        ∧ windowAt t port n = (x.dword b 0 &&& 0xFCFFFFFFFFFFF000, x.dword b 1 &&& 0x00FFFFFFFFFFF000)
        ∧ (∀ p m, m < 8 → (p, m) ≠ (port, n) → windowAt t p m = windowAt s p m) ∧ removes t fun e => e.window = some (port, n))
      ∧ (213 < port → Begins s (.fwset a b) id x 1 0 y → exec (.fwset a b) s = .next (conclude (setCtx s id y) id x.pc)))
  ∧ ∀ (s : State) (id : Nat) (x y : Ctx) (a b : RegNo),
    let v := x.lane0 a
    let c := v % 512
    let g := v / 512 % 32
    (c < 261 → Begins s (.almset a b) id x 1 0 y → ∃ t, exec (.almset a b) s = .next t ∧ t.live = s.live
      ∧ (∀ k h, k < 261 → h < 32 → FMap.get 0 t.shadow (32 * k + h) =
        if v.testBit 17 = false ∧ h = g ∧ (k = c ∨ v.testBit 15 = true) then x.scalar b else FMap.get 0 s.shadow (32 * k + h))
      ∧ (v.testBit 16 = false → ctxOf t id = some { y with retry := y.retry.filter fun k => k.pc != x.pc })
      ∧ (v.testBit 16 = true → ctxOf t id = some { y with hold := some .almanac, retry := y.retry.filter fun k => k.pc != x.pc }
        ∧ ⟨(s.cyc / 1024 + 1) * 1024, .almanacCommit⟩ ∈ t.agenda))
    ∧ (261 ≤ c → Clear s (.almset a b) id x →
      exec (.almset a b) s = .next (trapped s (.almset a b) id x (.fault (flt .seglim (dw v) 16 0))))
    ∧ ∀ (e : Access) (early : Bool), (dueStep s false early).map (·.1) = some (.accessAtHome e) → e.src ≠ e.home →
      ∃ k, k < 1024 ∧ bits (FMap.get 0 s.live (32 * e.src + k / 32)) (2 * (k % 32) + 1) (2 * (k % 32)) = e.part

/-- R434, R448, R454, R464: CFGRD and CFGWR of an address that names a word are sent to base-die control and hold their context; when they
arrive CFGRD gives the word, behind PCIe what the device answers, or all ones, and CFGWR writes the word its address names and answers
with the status. An address that names nothing faults APERTURE. A plain word reads as what was written, reserved bits zero, and no
context and no memory changes with it. That the address is judged at issue is log 39, that in space 0x09 an id with no living context
names nothing is log 55, and what an odd PCIe offset and the selectors of standby name is log 79: all three are the model's choice. -/
def Obligations.Configuration : Prop :=
  (∀ (s : State) (id : Nat) (x y : Ctx) (d a b : RegNo),
    let c := x.scalar a
    let writes : List Instr := [ .cfgwrTileMembership d a b, .cfgwrRepairEnter d a b, .cfgwrReturnToService d a b, .cfgwrPartitionRegister d a b,
      .cfgwrSpillRing d a b, .cfgwrWakeRegister d a b, .cfgwrWayMap d a b, .cfgwrErrorCounter d a b, .cfgwrPortEntry d a b, .cfgwrTransmitTail d a b,
      .cfgwrPcieMemory d a b, .cfgwrPcieConfig d a b, .cfgwrMsiRoute d a b, .cfgwrScanoutHead d a b, .cfgwrVigil d a b, .cfgwrStandby d a b,
      .cfgwrQuoteRequest d a b, .cfgwrPageRegister d a b, .cfgwrPageUnregister d a b, .cfgwrReadOnly d a b ]
    let sent := fun (i : Instr) (act : Action) => Begins s i id x 1 0 y → ∃ t at_, exec i s = .next t ∧ s.cyc < at_ ∧ at_ ≤ s.cyc + 2048
      ∧ ⟨at_, .contextActionAtTile ⟨id, s.uid⟩ d.toNat 0 act⟩ ∈ t.agenda ∧ t.mem = s.mem
      ∧ ctxOf t id = some { y with hold := some .page15, holdD := d, retry := y.retry.filter fun k => k.pc != x.pc }
    let unnamed := fun (i : Instr) => cfgNames s c = false → Clear s i id x → exec i s = .next (trapped s i id x (.fault (flt .aperture c 16 0)))
    (cfgNames s c = true → cfgErr s c = none → sent (.cfgrd d a) (.cfgrd c))
    ∧ unnamed (.cfgrd d a)
    ∧ ∀ i ∈ writes, (cfgNames s c = true → sent i (.cfgwr c (x.scalar b))) ∧ unnamed i)
  ∧ (∀ (s : State) (q : Issued) (x : Ctx) (d : Nat) (c v : Dword), ctxOf s q.ctx = some x → ctxOf s 0 = none → x.hold = some .page15 →
    x.retireReq = false → x.saving = none → d ≤ 127 →
    (∃ t, exec (.contextActionAtTile q d 0 (.cfgrd c)) s = .next t ∧ t.mem = s.mem ∧ ctxOf t q.ctx = some { x.setReg d (withScalar (x.reg d)
        (if cfgSpace c = 0x12 ∨ cfgSpace c = 0x13 then (Config.pcieRead x.part (drawsOf s x.part)).getD 0xFFFFFFFFFFFFFFFF else cfgWord s c))
        with hold := none, after := s.cyc + 1, retry := x.retry.filter fun k => k.pc != 1 })
    ∧ ∀ z, ctxOf (cfgWrite s q.ctx c v).1 q.ctx = some z → z.hold = some .page15 →
      exec (.contextActionAtTile q d 0 (.cfgwr c v)) s
        = .next (endHold (cfgWrite s q.ctx c v).1 q.ctx (some (BitVec.ofNat 8 d, (cfgWrite s q.ctx c v).2))))
  ∧ ∀ (s : State) (id p q k : Nat) (v : Dword), p < 4 → q < 2 → k < 64 → ∀ w ∈ plainWords p q k v,
    let r := cfgWrite s id (dw (w.1 * 2 ^ 56 + w.2.1)) v
    r.2 = 0 ∧ cfgWord r.1 (dw (w.1 * 2 ^ 56 + w.2.1)) = w.2.2 ∧ r.1.ctxs = s.ctxs ∧ r.1.mem = s.mem

/-- R177 to R179, R183, R184, R199 to R211: an access that may proceed is performed at its home as one step: each byte it stores takes its new
value and every other byte of memory is unchanged, tags change only at the words of synchronising accesses and ZLINE, and the value it
returns enters its instruction's result, or goes to the front end with its cycle; the last value of an instruction completes it. That an access of more than
eight bytes is one step is the model's choice (log 6): R183 gives one step to each word. -/
def Obligations.AccessesAtHome : Prop :=
  ∀ (s : State) (a : Access), scratchMeets s a = none → underRepair s a.home = false ∨ isScratch a.place = true → proceeds s a = true → errIn s a.place 64 = false → Unwatched s a.home →
    bytesOfKind a.kind ≤ 64 → (a.kind = .zline → a.place % 64 = 0) →
    ∃ t, exec (.accessAtHome a) s = .next t ∧ (∀ p, readByte t p = byteAfter s a p) ∧ (∀ p, tagAt t p = tagAfter s a p)
      ∧ (∀ x l, a.seq ≠ 0 → a.land ≠ .frontEnd → a.parts = [] → ctxOf s a.ctx = some x → x.longs.find? (fun m => m.seq == a.seq) = some l →
        ∃ z m, ctxOf t a.ctx = some z ∧ z.longs.find? (fun m => m.seq == a.seq) = some m ∧ m.waiting = l.waiting - 1
          ∧ (∀ k, k < 16 → lane m.acc k = landsAs a.land l.acc (valueOf s a) k)
          ∧ (l.waiting ≤ 1 → ∃ at_, ⟨at_, .longCompletion a.ctx a.seq⟩ ∈ t.agenda))
      ∧ ∀ w, a.land = .frontEnd → s.feWait = some w → t.feWait = some { w with got := some (BitVec.ofNat 64 (valueOf s a), s.cyc) }

/-- R175, R181, R182, R184, R185, R205, R212, R429, R85: an access that cannot proceed parks its context and waits at the tail of its home's
list, or goes back where the list is full, or fails at once with limit 0. One whose home is under repair parks its context and is sent
again, and fails at once with fel 0. A wait past its limit leaves the list, and its instruction faults FEWAIT, QWAIT, or PROT where the
home is still under repair: its context is Stopped there, and its supervisor is told why. An access to a bank that is no longer scratch, or of
a tile under repair, faults APERTURE at its instruction's completion. That a wait for a repair takes fel as it stands when it begins is the
model's choice (log 80), as are dw3 where both reasons of APERTURE hold, their sum (log 10), and dw5 where an instruction that runs alone
faults again (log 68). -/
def Obligations.WaitingAtHome : Prop :=
  let why := fun (a : Access) => if a.repair.isSome then Code.prot else match a.kind with | .qwait _ => .qwait | _ => .fewait
  let told := fun (s : State) (a : Access) (l : Long) (c0 : Nat) => if a.repair.isSome then [dw a.uaddr, 32, 0] else match a.kind with
    | .qwait _ => l.ea :: if a.full then [dword l.acc 0, dword l.acc 1] else [readDw s a.place, readDw s (a.place + 8)]
    | k => [l.ea, dw ((match k with | .take => 1 | .put _ => 2 | _ => 0) + if a.full then 4 else 0), dw c0]
  let fails := fun (s t : State) (a : Access) (x : Ctx) (l : Long) (d c0 : Nat) => t.mem = s.mem ∧ ∃ z due, ctxOf t a.ctx = some z
    ∧ z.state = .stopped ∧ z.pc = l.pc ∧ z.park = none ∧ z.longs = [] ∧ z.regs = x.regs
    ∧ ⟨due, .messageArrival d (ofDwords ([dw (a.ctx * 2 ^ 32 + l.op % 16 * 2 ^ 14 + l.page % 64 * 2 ^ 8 + (why a).num), l.pc] ++ told s a l c0
        ++ [if l.since = 0 ∧ l.lone = false then 0 else x.pc ||| 1, x.ib, x.mb])) (.part x.tile)⟩ ∈ t.agenda
  (∀ (s : State) (a : Access), scratchMeets s a = none → underRepair s a.home = false ∨ isScratch a.place = true → proceeds s a = false →
    (a.deadline ≠ 0 →
      let b := fun full => { a with repair := none, parkedAt := if a.parkedAt = 0 then s.cyc else a.parkedAt, full := full }
      ((FMap.get [] s.waits a.home).length < 4096 → ∃ t, exec (.accessAtHome a) s = .next t
        ∧ FMap.get [] t.waits a.home = FMap.get [] s.waits a.home ++ [b false] ∧ t.mem = s.mem ∧ t.tags = s.tags)
      ∧ (4096 ≤ (FMap.get [] s.waits a.home).length → ∃ t at_, exec (.accessAtHome a) s = .next t ∧ t.waits = s.waits ∧ t.mem = s.mem
        ∧ ⟨at_, .waitListResend (b true)⟩ ∈ t.agenda)
      ∧ (∀ x l, ctxOf s a.ctx = some x → x.longs.find? (fun m => m.seq == a.seq) = some l → x.state = .resident → x.saving = none → x.moving = none →
        l.parked = none → ∃ t z p, exec (.accessAtHome a) s = .next t ∧ ctxOf t a.ctx = some z ∧ z.state = .parked ∧ z.park = some p
          ∧ p.kind = (match a.kind with | .qwait _ => .qwait | _ => .fe) ∧ p.arg2 = 4 + a.seq ∧ p.c0 = s.cyc))
    ∧ ∀ x l d, a.deadline = 0 → LoneWait s a x l → faultTarget s a.ctx x.sup.toNat x.part = some d →
      ∃ t, exec (.accessAtHome a) s = .next t ∧ t.waits = s.waits ∧ fails s t { a with repair := none } x l d s.cyc)
  ∧ (∀ (s : State) (a : Access) (x : Ctx) (l : Long), underRepair s a.home = true → isScratch a.place = false → splitAdd a = [a] → a.seq ≠ 0 →
    a.land ≠ .frontEnd → a.repair = none → ctxOf s a.ctx = some x → x.longs.find? (fun m => m.seq == a.seq) = some l →
    (bits x.fel 31 0 ≠ 0 → x.state = .resident → x.saving = none → x.moving = none → l.parked = none →
      ∃ t z p due, exec (.accessAtHome a) s = .next t ∧ t.mem = s.mem ∧ ctxOf t a.ctx = some z ∧ z.state = .parked
        ∧ z.park = some p ∧ p.kind = .repair ∧ p.c0 = s.cyc
        ∧ ⟨due, .waitListResend { a with parkedAt := 0, full := false, repair := some (s.cyc, bits x.fel 31 0) }⟩ ∈ t.agenda)
    ∧ ∀ d, bits x.fel 31 0 = 0 → LoneWait s a x l → faultTarget s a.ctx x.sup.toNat x.part = some d →
      ∃ t, exec (.accessAtHome a) s = .next t ∧ fails s t { a with full := false, repair := some (s.cyc, 0) } x l d s.cyc)
  ∧ (∀ (s : State) (a : Access), ∃ t at_, exec (.waitListResend a) s = .next t ∧ s.cyc < at_ ∧ t.mem = s.mem ∧ t.waits = s.waits
      ∧ ⟨at_, .accessAtHome a⟩ ∈ t.agenda)
  ∧ (∀ (s : State) (tile uid : Nat), (waitingAt s tile uid = none → exec (.feDeadlineExpiry tile uid) s = .next s)
    ∧ (∀ a, waitingAt s tile uid = some a → a.repair.isSome = true → underRepair s a.home = false →
      ∃ t, exec (.feDeadlineExpiry tile uid) s = .next t ∧ t.ctxs = s.ctxs ∧ t.waits = s.waits ∧ t.mem = s.mem)
    ∧ ∀ a x l d, waitingAt s tile uid = some a → (a.repair.isSome = true → underRepair s a.home = true) → a.land ≠ .frontEnd → LoneWait s a x l →
      faultTarget s a.ctx x.sup.toNat x.part = some d →
      ∃ t, exec (.feDeadlineExpiry tile uid) s = .next t ∧ (∀ b ∈ FMap.get [] t.waits tile, b.uid ≠ uid)
        ∧ fails s t a x l d (match a.repair with | some r => r.1 | none => a.parkedAt))
  ∧ ∀ (s : State) (a : Access) (x : Ctx) (l : Long), isScratch a.place = true → a.seq ≠ 0 → a.land ≠ .frontEnd →
    let moded := bankMode s a.home (scratchBank a.place) ≠ .scratch
    moded ∨ underRepair s a.home = true → ctxOf s a.ctx = some x → x.longs.find? (fun m => m.seq == a.seq) = some l →
    ∃ t z m, exec (.accessAtHome a) s = .next t ∧ t.mem = s.mem ∧ ctxOf t a.ctx = some z ∧ z.longs.find? (fun m => m.seq == a.seq) = some m
      ∧ (moded → m.fault = some (flt .aperture (dw a.uaddr) (dw (2 + if underRepair s a.home then 8 else 0)) 0))
      ∧ (¬ moded → m.fault = some (flt .aperture (dw a.uaddr) 8 0))
      ∧ ∃ due, s.cyc < due ∧ ⟨due, .longCompletion a.ctx a.seq⟩ ∈ t.agenda

/-- R56, R58 to R60, R122, R137, R194: an outstanding instruction whose last value has come writes its result, and only that register, and is
outstanding no more; one that met a fault stops its context at its own address, with the address to go on at in the message.
R208: two adds of one place that meet combine into one of their sum; the old value that comes back is split so that each requester sees
the adds as one after the other. -/
def Obligations.LongCompletions : Prop :=
  (∀ (s : State) (id : Nat) (x : Ctx) (l : Long), ctxOf s id = some x → x.longs.find? (fun m => m.seq == l.seq) = some l → l.waiting = 0 →
    l.ended = false → x.inMem = false →
    (l.fault = none → x.park = none → x.saving = none → (∀ m ∈ x.longs, m.ended = false) → (l.wr ≠ .none → l.d.toNat ≤ 127) →
      x.holdsSlot = true ∨ (partOf s x.tile).isSome = true →
      ∃ t z, exec (.longCompletion id l.seq) s = .next t ∧ ctxOf t id = some z ∧ z.longs = x.longs.filter (fun m => m.seq != l.seq)
        ∧ (∀ r, (l.wr ≠ .none → r ≠ l.d.toNat) → z.reg r = x.reg r)
        ∧ (l.wr = .scalar → z.reg l.d.toNat = withScalar (x.reg l.d.toNat) (scalarOf l.acc))
        ∧ (l.wr = .vector → z.reg l.d.toNat = mergeLanes l.mask l.acc (x.reg l.d.toNat))
        ∧ z.pc = x.pc ∧ z.state = x.state ∧ t.mem = s.mem ∧ t.tags = s.tags ∧ ∀ j, j ≠ id → ctxOf t j = ctxOf s j)
    ∧ ∀ f, l.fault = some f → x.hold = none → x.state = .resident → x.saving = none → x.park = none → x.longs = [l] →
      faultTarget s id x.sup.toNat x.part ≠ none →
      ∃ t z at_ dst, exec (.longCompletion id l.seq) s = .next t ∧ ctxOf t id = some z ∧ z.state = .stopped ∧ z.pc = l.pc ∧ z.longs = []
        ∧ (∀ r, z.reg r = x.reg r)
        ∧ (0 < l.since → ⟨at_, .messageArrival dst (ofDwords [dw (id * 2 ^ 32 + l.op % 16 * 2 ^ 14 + l.page % 64 * 2 ^ 8 + f.code.num), l.pc, f.dw2, f.dw3,
          f.dw4, x.pc ||| 1, x.ib, x.mb]) (.part x.tile)⟩ ∈ t.agenda))
  ∧ (∀ (s : State) (u v n m : Nat) (a b : Access) (w : Nat) (p q : Dword), travelling s u = some (n, a) → travelling s v = some (m, b) → u ≠ v →
    combinable s a b = true → a.kind = .atom .add w p → b.kind = .atom .add w q → b.parts = [] →
    ∃ t due, exec (.atomCombine u v) s = .next t ∧ t.mem = s.mem ∧ n ≤ due ∧ m ≤ due
      ∧ ⟨due, .accessAtHome { a with kind := .atom .add w (p + q), parts := a.parts ++ [⟨b.ctx, b.seq, p, b.src, b.uid, b.floor, b.core⟩] }⟩ ∈ t.agenda
      ∧ ∀ d ∈ t.agenda, ∀ e, d.step = .accessAtHome e → e.uid = u ∨ e.uid ≠ v)
  ∧ ∀ (s : State) (a : Access) (old : Dword) (x y : Ctx) (j k src u fl : Nat) (co : Option Nat) (n : Dword) (l m : Long), a.parts = [⟨j, k, n, src, u, fl, co⟩] → j ≠ a.ctx → a.land = .scalar .d →
    ctxOf s a.ctx = some x → ctxOf s j = some y → x.longs.find? (fun e => e.seq == a.seq) = some l → y.longs.find? (fun e => e.seq == k) = some m →
    ∃ t x' y' l' m', exec (.combinedReplySplit a old) s = .next t ∧ t.mem = s.mem ∧ ctxOf t a.ctx = some x' ∧ ctxOf t j = some y'
      ∧ x'.longs.find? (fun e => e.seq == a.seq) = some l' ∧ y'.longs.find? (fun e => e.seq == k) = some m'
      ∧ scalarOf l'.acc = old ∧ scalarOf m'.acc = old + n

-- Contexts between slots, cores, tiles and the Kennel

/-- R61 to R68, R71, R362, R419: a move, a swap, a save, a placement and a write-back each leave the context's registers, pc and budgets as they
are, and put it where the rule says: Resident in a slot of the core where there is room, Queued, or Held; an image that is written back
stands in its slot of memory, doubleword by doubleword. -/
def Obligations.ContextsMove : Prop :=
  let same := fun (z x : Ctx) => z.regs = x.regs ∧ z.pc = x.pc ∧ z.pw = x.pw ∧ z.rnd = x.rnd ∧ z.ib = x.ib ∧ z.mb = x.mb ∧ z.segs = x.segs ∧ z.longs = x.longs
  let at_ := fun (z : Ctx) (st : CtxState) (core : Nat) => z.state = st ∧ 16 * z.tile + z.core = core ∧ z.moving = none ∧ z.saving = none
  (∀ (s : State) (id core : Nat) (x : Ctx), ctxOf s id = some x → x.moving = some core → x.state ≠ .inTransit → x.retireReq = false → x.wdogReq = false →
    x.inMem = false → ∃ t z, exec (.coreMoveArrival id core) s = .next t ∧ ctxOf t id = some z ∧ same z x
      ∧ at_ z (if coreHasRoom s core x.window then .resident else .queued) core)
  ∧ (∀ (s : State) (id tile : Nat) (x : Ctx), ctxOf s id = some x → x.moving = some tile → x.state = .inTransit → x.retireReq = false → x.wdogReq = false →
    x.inMem = false → ∃ t z core, exec (.migrationArrival id tile) s = .next t ∧ ctxOf t id = some z ∧ same z x ∧ core / 16 = tile ∧ z.predN = 0
      ∧ (at_ z .resident core ∨ at_ z .queued core ∧ coreHasRoom (setCtx s id { x with predN := 0 }) core x.window = false))
  ∧ (∀ (s : State) (core slot id : Nat), swapChoice s core = some (slot, id) → ∃ t due, exec (.swapStart core) s = .next t ∧ swapOf t core = some ⟨slot, id⟩
    ∧ (∀ e ∈ readyOf t core, e / 4 ≠ id) ∧ (∀ e ∈ emptySlots t core, e.2 ≠ slot) ∧ due ≤ s.cyc + 192 ∧ ⟨due, .swapComplete core⟩ ∈ t.agenda
    ∧ (∀ x, ctxOf s id = some x → if x.inMem then ctxOf t id = some { imageOf s id x with inMem := false, credits := [] } else t.ctxs = s.ctxs))
  ∧ (∀ (s : State) (core : Nat) (w : Swap) (x : Ctx), swapOf s core = some w → ctxOf s w.ctx = some x → imageBad s w.ctx = false →
    ∃ t z, exec (.swapComplete core) s = .next t ∧ swapOf t core = none ∧ ctxOf t w.ctx = some z ∧ same z x ∧ at_ z .resident core ∧ z.slot = w.slot
      ∧ z.wcount = 0 ∧ z.after = s.cyc)
  ∧ (∀ (s : State) (id : Nat) (x : Ctx) (why : SaveWhy), ctxOf s id = some x → x.saving = some why → (∀ j, j < 48 → dwErr s id j = false) →
    x.inMem = false → x.core < 16 → x.moving = none → (∀ m, why = .report m → faultTarget s id x.sup.toNat x.part ≠ none) →
    (why ≠ .parkOut → ∃ t z, exec (.saveComplete id) s = .next t ∧ ctxOf t id = some z ∧ same z x
      ∧ at_ z (if why = .yield then .queued else .held) (16 * x.tile + x.core) ∧ id ∈ kennelOf t x.tile)
    ∧ (why = .parkOut → x.park ≠ none → ∃ t, exec (.saveComplete id) s = .next t ∧ ctxOf t id = some { x with saving := none } ∧ id ∈ kennelOf t x.tile))
  ∧ (∀ (s : State) (tile id : Nat) (x : Ctx), writeBackChoice s tile = some id → ctxOf s id = some x →
    let a := slotAddr s x.part id
    populated a = true → populated (a + 8639) = true →
    ∃ t, exec (.kennelWriteBack tile) s = .next t ∧ ctxOf t id = some { x with inMem := true } ∧ id ∉ kennelOf t x.tile
      ∧ (∀ j, j < 48 + 8 * x.window → readDw t (a + 8 * j) = imageDw id x false j)
      ∧ ∀ p, (p < a ∨ a + 8 * (48 + 8 * x.window) ≤ p) → readByte t p = readByte s p)
  ∧ (∀ (s : State) (tile core id c lv : Nat), (overflowList s tile).find? (fun e => e.2.1 == core) = some (id, c, lv) →
    (readyOf s (16 * tile + c)).length < 256 → ∃ t, exec (.overflowListMove tile core) s = .next t
      ∧ 4 * id + lv ∈ readyOf t (16 * tile + c) ∧ ∀ e ∈ readyOf s (16 * tile + c), e ∈ readyOf t (16 * tile + c))
  ∧ ∀ (s : State) (tile : Nat) (a : Arrival) (x : Ctx), nextArrival s tile = some a → ctxOf s a.ctx = some x → x.inMem = false →
    ∃ t z, exec (.dispatcherPlace tile) s = .next t ∧ ctxOf t a.ctx = some z ∧ same z x ∧ z.state = .queued ∧ z.tile = tile
      ∧ 16 * z.tile + z.core = dispatchCore { s with arrivals := FMap.set [] s.arrivals tile ((FMap.get [] s.arrivals tile).filter fun b => b.ctx != a.ctx) } tile x.window

/-- R48, R59, R71, R85, R134, R136, R406, R411, R423: what stops or moves a context that would issue. A chain that is no instruction stops it at the
chain, a requested stop where it would next issue, a kept fault at its own instruction; a spent candidate budget returns it to its TRSTEP;
an instruction of pages 12 and 13 moves it to an equipped core of its tile, or parks it; a watchdog at its limit makes it leave; a WAITM
past its limit gives D zero and goes on. That the budget's return loads cbret also where it is odd is the model's choice (log 72): R117
lets no odd value reach the pc. -/
def Obligations.ContextsStop : Prop :=
  ∀ (s : State) (id : Nat) (x : Ctx), s.issue.ctx = some id → ctxOf s id = some x →
    (∀ (e : ChainFault) (ws : List Half) (u : State), fetchChain s id x = .illegal e ws u → faultTarget s id x.sup.toNat x.part ≠ none → x.state = .resident →
      ∃ t z due dst, exec .illegalChain s = .next t ∧ ctxOf t id = some z ∧ z.state = .stopped ∧ z.pc = x.pc ∧ z.ib = x.ib ∧ z.mb = x.mb ∧ z.regs = x.regs
        ∧ ⟨due, .messageArrival dst (ofDwords [faultDw0 id e.page e.op e.code, x.pc, (chainFlt ws e).dw2, (chainFlt ws e).dw3, (chainFlt ws e).dw4, 0, x.ib, x.mb]) (.part x.tile)⟩ ∈ t.agenda)
    ∧ (cbArmed x = true → bits x.cb 31 16 = 0 → ∃ t z, exec .candidateBudgetReject s = .next t ∧ ctxOf t id = some z ∧ z.pc = x.cbret ∧ bit z.cb 32 = false
      ∧ (maskP z.pw 0).toNat = bits x.cb 63 48 ∧ z.ib = x.ib ∧ z.mb = x.mb
      ∧ ∀ l, l < 16 → lane (z.reg (bits x.cb 47 40 + 3)) l = (let v := lane (x.reg (bits x.cb 47 40 + 3)) l
        if v.toNat / 2 ^ 28 = 2 then v &&& 0x0FFFFFFF else v))
    ∧ (∀ c, equippedRoom s x.tile x.window = some c → ∃ t due, exec .equippedCoreMove s = .next t
      ∧ ctxOf t id = some { x with moving := some (16 * x.tile + c), moved := s.uid } ∧ due ≤ s.cyc + 192
      ∧ ⟨due, .coreMoveArrival id (16 * x.tile + c)⟩ ∈ t.agenda)
    ∧ (equippedRoom s x.tile x.window = none → exec .equippedCoreMove s = .next (parkCtx s id ⟨.equip, s.cyc, some (bits x.fel 31 0), 0, 0, x.pc, false⟩))
    ∧ (x.stopReq = true → x.outReq = false → ∃ t, exec .requestedStop s = .next t ∧ ctxOf t id = some { x with state := .stopped, stopReq := false, outReq := false }
      ∧ t.mem = s.mem ∧ ∀ k, ∀ c ∈ FMap.get [] t.copies k, c.checking = true → c.ctx ≠ id)
    ∧ (∀ k ks, x.kept = k :: ks → x.state = .resident → faultTarget s id x.sup.toNat x.part ≠ none → ∃ t z, exec .keptFaultStop s = .next t
      ∧ ctxOf t id = some z ∧ z.state = .stopped ∧ z.pc = k.pc ∧ z.kept = ks ∧ z.resume = x.pc ||| 1 ∧ z.regs = x.regs)
    ∧ (∀ p, x.park = some p → p.kind = .waitm → p.arg ≤ 127 → x.longs = [] → x.inMem = false → x.state = .parked → x.saving = none → x.stopReq = false →
      ∃ t z, exec .parkExpiry s = .next t ∧ ctxOf t id = some z ∧ z.state = .resident ∧ z.park = none ∧ z.pc = x.pc ∧ z.reg p.arg = 0
        ∧ ∀ r, r ≠ p.arg → z.reg r = x.reg r)
    ∧ (∀ p, x.park = some p → p.kind = .bwait → x.longs = [] → x.inMem = false → x.state = .parked → faultTarget s id x.sup.toNat x.part ≠ none →
      ∃ t z, exec .parkExpiry s = .next t ∧ ctxOf t id = some z ∧ z.state = .stopped ∧ z.park = none ∧ z.pc = p.pc ∧ z.regs = x.regs)
    ∧ (x.moving = none → ∃ t z, exec .watchdogExpiry s = .next t ∧ ctxOf t id = some z ∧ z.saving = some (.report (wdogMessage s id x)) ∧ z.pc = x.pc
      ∧ z.regs = x.regs ∧ z.stopReq = false)

-- Holds and actions

/-- R170, R404, R407, R434, R452, R400, R401: a hold of page 13 or page 15 ends with its result, and its context goes on with the next instruction from the
next cycle: TRSTEP leaves in p1, p2 and p3 its triangle candidates, its instance candidates and the lanes that go on, and p0 as it was;
and arms cb where its limit is not 0 and candidates are left; TRTRI leaves the hits in p0 and their t, u, v and primitive in D's group;
TRINST puts its lanes into their instances, with the ray in object space and the root on the stack, or passes over them; a commit makes
every shadow calendar live.
That TLBINV waits for every access translated before it, whatever its page, is the model's choice (log 26). -/
def Obligations.HoldsEnd : Prop :=
  let goes := fun (s t : State) (id : Nat) (z x : Ctx) (k : Park) => ctxOf t id = some z ∧ z.hold = none ∧ z.retry = none ∧ z.pc = dw k.arg2 ∧ z.after = s.cyc + 1
    ∧ z.ib = x.ib ∧ z.mb = x.mb
  (∀ (s : State) (id : Nat) (x : Ctx) (k : Park), ctxOf s id = some x → x.hold = some .traversal → x.retry = some k → x.retireReq = false → x.saving = none →
    let op := k.arg % 16
    let d := k.arg / 16 % 256
    let a := k.arg / 4096 % 256
    let b := k.arg / 2 ^ 20 % 256
    let m := maskP x.pw 0
    ∀ n, (op = 1 → Unwatched s x.tile → ∀ r, stepLanes id d a ((lanesOf m).filter fun l => !inMask x.progress l) s = r → r.2.2 = none →
      ∃ t z, exec (.traversalStepComplete ⟨id, n⟩) s = .next t ∧ goes s t id z x k ∧ maskP z.pw 0 = m ∧ z.cbret = x.pc
        ∧ (∀ l, l < 16 → ((maskP z.pw 1).getLsbD l = true ↔ m.getLsbD l = true ∧ (tlane z d l).status = 1)
          ∧ ((maskP z.pw 2).getLsbD l = true ↔ m.getLsbD l = true ∧ (tlane z d l).status = 2)
          ∧ ((maskP z.pw 3).getLsbD l = true ↔ m.getLsbD l = true ∧ (tlane z d l).status ≤ 2)
          ∧ (m.getLsbD l = false → ∀ r, lane (z.reg r) l = lane (x.reg r) l)
          ∧ tlane z d l = tlane ((ctxOf r.1 id).getD x) d l)
        ∧ bits z.cb 63 48 = m.toNat ∧ bits z.cb 47 40 = d ∧ bits z.cb 15 0 = bits x.cb 15 0
        ∧ (bit z.cb 32 = true ↔ bits x.cb 15 0 ≠ 0 ∧ (maskP z.pw 1 ≠ 0 ∨ maskP z.pw 2 ≠ 0)) ∧ (bit z.cb 32 = true → bits z.cb 31 16 = bits x.cb 15 0))
    ∧ (op = 2 → ∀ hs u, triLanes x a b (lanesOf m) s = .ok (hs, u) → ∃ t z, exec (.traversalStepComplete ⟨id, n⟩) s = .next t ∧ goes s t id z x k
      ∧ t.mem = s.mem ∧ (∀ l, l < 16 → ((maskP z.pw 0).getLsbD l = true ↔ ∃ h ∈ hs, h.1 = l)) ∧ (∀ r, r < d ∨ d + 4 ≤ r → z.reg r = x.reg r)
      ∧ (∀ h ∈ hs, (List.range 4).map (fun k => lane (z.reg (d + k)) h.1) = [h.2.1, h.2.2.1, h.2.2.2.1, h.2.2.2.2].map (BitVec.ofNat 32))
      ∧ ∀ l, (∀ h ∈ hs, h.1 ≠ l) → ∀ r, lane (z.reg r) l = lane (x.reg r) l)
    ∧ (op = 5 → Unwatched s x.tile → ∀ u, instLanes id d a (List.range 16) s = (u, none) → ∃ t z, exec (.traversalStepComplete ⟨id, n⟩) s = .next t ∧ goes s t id z x k
      ∧ z.pw = x.pw ∧ ∀ l, l < 16 → let w := tlane x d l
        (w.status ≠ 2 → tlane z d l = w)
        ∧ (w.status = 2 → m.getLsbD l = false → tlane z d l = { w with status := 0 })
        ∧ (w.status = 2 → m.getLsbD l = true → w.inst = true → tlane z d l = { w with status := 5 })
        ∧ (w.status = 2 → m.getLsbD l = true → w.inst = false → w.sp = 64 → tlane z d l = { w with status := 4 })
        ∧ (w.status = 2 → m.getLsbD l = true → w.inst = false → w.sp < 64 → Area s x →
          tlane z d l = { w with isp := w.sp, inst := true, sp := w.sp + 1, status := 0 }
          ∧ ∃ v q v', readLines v x (itemAddr w) 1 = .ok ([q], v') ∧ (∀ p, isScratch p = false → readByte v p = readByte s p)
            ∧ readDw t (areaPlace x l 576) = w.item ∧ readLE t (areaPlace x l 584) 4 = readLE v (q + 56) 4
            ∧ readDw t (areaPlace x l (8 * w.sp)) = dw (readLE v (q + 48) 8)
            ∧ let row := fun k => readLE v (q + 4 * k) 4
              ∀ r, r < 3 → readLE t (areaPlace x l (544 + 4 * r)) 4 = transform row (worldRay x a l).o true r
                ∧ readLE t (areaPlace x l (556 + 4 * r)) 4 = transform row (worldRay x a l).d false r)))
  ∧ (∀ (s : State) (id : Nat) (x : Ctx) (k : Park), ctxOf s id = some x → x.hold = some .tlbinv → x.retry = some k → x.retireReq = false → x.saving = none →
    let out := (∃ d ∈ s.agenda, (∃ a, d.step = .accessAtHome a ∧ ∃ q ∈ requestsOf a, q.2.2.1 < k.arg) ∨ (∃ a, d.step = .waitListResend a ∧ a.uid < k.arg)
        ∨ (∃ w p e c, d.step = .sliceWriteAccept w p e c ∧ w.uid < k.arg) ∨ (∃ t u l ws, d.step = .copyLineLand t u l ws ∧ ∃ w ∈ ws, w.num ≤ k.arg)
        ∨ (∃ h l, d.step = .homeInvalidate h l ∧ h.num ≤ k.arg)
        ∨ (∃ i b c m l, (d.step = .contextActionAtTile ⟨i, m⟩ b c (.ksave l) ∨ d.step = .contextActionAtTile ⟨i, m⟩ b c (.kload l)) ∧ m ≤ k.arg))
      ∨ ∃ e ∈ s.engines, ∃ c ∈ e.2.queue ++ e.2.running.toList, c.mmas = true ∧ c.uid < k.arg ∧ c.data.length < 64 * c.lines.length
    (out → ∃ t, exec (.tlbinvComplete id) s = .next t ∧ ctxOf t id = some x ∧ ⟨s.cyc + 1, .tlbinvComplete id⟩ ∈ t.agenda)
    ∧ (¬ out → ∃ t, exec (.tlbinvComplete id) s = .next t ∧ ctxOf t id = some { x with hold := none, retry := none, after := s.cyc + 1 }))
  ∧ (∀ (s : State), ∃ t, exec .almanacCommit s = .next t ∧ t.live = s.shadow
    ∧ ((∀ p ∈ s.ctxs, p.2.hold = some .almanac → p.2.retireReq = false) → ∀ id x, ctxOf s id = some x → x.hold = some .almanac → x.saving = none →
      ctxOf t id = some { x with hold := none, after := s.cyc + 1, retry := x.retry.filter fun k => k.pc != 1 }))

/-- R435, R441 to R443, R440, R446, R447: an action is performed on its target as earlier actions left it, and the issuer goes on with its answer
in D: 0 where it was done, 1 where the target is not living, 2 where its state does not permit it, 3 where an operand names nothing; RQTAKE of
id 0 takes the head of the core's ready queue. R185: where a line of an image is of a home under repair, KSAVE and KLOAD park their issuer with
their charge taken before any line is moved, which is the model's choice (log 98). -/
def Obligations.ActionsAtTheTile : Prop :=
  ∀ (s : State) (id c d : Nat) (x y : Ctx), ctxOf s id = some x → x.hold = some .page15 → x.retireReq = false → x.saving = none → d ≤ 127 → id ≠ c →
    let answers := fun (act : Action) (v : Nat) (P : State → Prop) => ∀ n, ∃ t z, exec (.contextActionAtTile ⟨id, n⟩ d c act) s = .next t ∧ ctxOf t id = some z
      ∧ z.hold = none ∧ z.after = s.cyc + 1 ∧ z.reg d = withScalar (x.reg d) (dw v) ∧ z.pc = x.pc ∧ P t
    (ctxOf s c = none → ∀ act, (∀ t k, act ≠ .rqtake t k) → (∀ u k, act ≠ .pgwakeCtx u k) → (∀ t u k, act ≠ .pgwakeCopy t u k) →
      (∀ q v, act ≠ .cfgwr q v) → (∀ q, act ≠ .cfgrd q) → (∀ q, act ≠ .ctxrd q) → answers act 1 fun t => t.mem = s.mem)
    ∧ (ctxOf s c = some y → swapping s c = false → y.saving = none → y.inMem = false → y.longs = [] →
      partOf s y.tile ≠ none →
      let becomes := fun (z : Ctx) (t : State) => ctxOf t c = some z
      let settled := ∀ e ∈ s.agenda, e.step ≠ .saveComplete c
      (y.state = .resident → answers (.ctl .stop) 0 (becomes { y with stopReq := true }))
      ∧ (y.state = .stopped → settled → answers (.ctl .resume) 0 (becomes { y with
          state := .resident, wcount := 0, after := s.cyc + 1, stopReq := false }))
      ∧ (y.state = .held → settled → underRepair s y.tile = false → ∀ core any, core < 16 → answers (.rqput core any) 0 fun t => ∃ z, ctxOf t c = some z ∧ z.state = .queued
          ∧ z.tile = y.tile ∧ z.regs = y.regs ∧ z.pc = y.pc)
      ∧ (y.state = .resident ∨ y.state = .parked → settled → ∀ core any, answers (.rqput core any) 2 (becomes y))
      ∧ (y.state = .queued ∨ y.state = .resident ∨ y.state = .parked → settled → answers (.ctl .resume) 2 (becomes y))
      ∧ (y.state = .resident → answers (.ctl .swapOut) 0 (becomes { y with stopReq := true, outReq := true }))
      ∧ (y.state = .parked → y.hold = none → answers (.ctl .swapOut) 0 fun t => ∃ z due, ctxOf t c = some z ∧ z.state = .parkedOut ∧ z.park = y.park
          ∧ z.graceOn = false ∧ z.saving = some .parkOut ∧ due ≤ s.cyc + 192 ∧ ⟨due, .saveComplete c⟩ ∈ t.agenda)
      ∧ (y.state = .held ∨ y.state = .stopped → y.park = none → y.hold = none → answers (.ctl .retire) 0 fun t => ctxOf t c = none)
      ∧ (∀ b, b < y.grant.length → answers (.ctl (.drop b)) 0 fun t => (blockAt t y.tile (y.grant.getD b 0)).reserved = false)
      ∧ (∀ b, y.grant.length ≤ b → answers (.ctl (.drop b)) 3 (becomes y))
      ∧ answers (.ctl .bad) 3 (becomes y)
      ∧ (y.state = .stopped ∨ y.state = .held → ∀ n v, n < 128 → answers (.ctxwr (dw n) v) 0 (becomes (y.setReg n v)))
      ∧ (y.state = .stopped ∨ y.state = .held → ∀ v, answers (.ctxwr 0x1000 v) 0 (becomes { y with pc := dword v 0, resume := 0, retry := none, aside := none, visits := 0, spent := 0 }))
      ∧ (y.state = .resident → ∀ n v, answers (.ctxwr (dw (n % 8192)) v) 2 (becomes y))
      ∧ (y.state ≠ .inTransit → ∀ v, answers (.ctxwr 0x2000 v) 0 (becomes { y with priority := bits (dword v 0) 9 8, wdog := bits (dword v 1) 63 32 }))
      ∧ (y.state ≠ .inTransit → ∀ ia ma, answers (.topup ia ma) 0 (becomes { y with
          ib := if ia = all1 then dw all1 else credit y.ib ia, mb := if ma = all1 then dw all1 else credit y.mb ma, graceOn := false, graceI := 0, graceM := 0 }))
      ∧ (∀ p, y.state = .parked → y.stopReq = false → y.park = some p → p.kind = .page → ∀ u k, u / (4096 * 4 ^ k) = p.arg / (4096 * 4 ^ k) →
          answers (.pgwakeCtx u k) 1 fun t => ∃ z, ctxOf t c = some z ∧ z.state = .resident ∧ z.park = none ∧ z.pc = y.pc)
      ∧ (y.park = none → ∀ u k, (wakesFrontEnd s c u k = false → answers (.pgwakeCtx u k) 0 (becomes y))
          ∧ (wakesFrontEnd s c u k = true → answers (.pgwakeCtx u k) 1 fun t => becomes y t ∧ t.fePark = none))
      ∧ (y.state = .queued → c ≠ 0 → ∀ tile k, answers (.rqtake tile k) c fun t => ∃ z, ctxOf t c = some z ∧ z.state = .held ∧ z.regs = y.regs ∧ z.pc = y.pc)
      ∧ (y.state ≠ .queued → c ≠ 0 → ∀ tile k, answers (.rqtake tile k) 0 (becomes y))
      ∧ (y.state ≠ .stopped → y.state ≠ .held → ∀ l, answers (.ksave l) 2 (becomes y) ∧ answers (.kload l) 2 (becomes y))
      ∧ (y.state = .stopped ∨ y.state = .held → ∀ l, (∀ p ∈ l, isScratch p.2.1 = true ∨ underRepair s p.2.2.1 = false) →
          bits (match l[0]? with | some p => readDw s p.2.1 | none => 0) 31 24 ≠ y.window → answers (.kload l) 3 (becomes y))
      ∧ (y.state = .stopped ∨ y.state = .held → settled → ∀ l k, (∃ p ∈ l, isScratch p.2.1 = false ∧ underRepair s p.2.2.1 = true) → x.retry = some k → x.state = .resident →
          ∀ act ∈ [Action.ksave l, .kload l], ∀ n, ∃ t z p, exec (.contextActionAtTile ⟨id, n⟩ d c act) s = .next t ∧ t.mem = s.mem ∧ ctxOf t id = some z
            ∧ z.state = .parked ∧ z.hold = none ∧ z.pc = dw k.arg ∧ z.park = some p ∧ p.kind = .repair ∧ p.c0 = s.cyc ∧ p.charged = true ∧ ctxOf t c = some y))
    ∧ (c = 0 → ctxOf s 0 = none → ∀ tile k, (readyOf s (16 * tile + k) = [] → answers (.rqtake tile k) 0 fun t => t.mem = s.mem)
        ∧ ∀ e r w, readyOf s (16 * tile + k) = e :: r → e / 4 ≠ 0 → e / 4 ≠ id → ctxOf s (e / 4) = some w → w.state = .queued → swapping s (e / 4) = false →
          answers (.rqtake tile k) (e / 4) fun t => ∃ z, ctxOf t (e / 4) = some z ∧ z.state = .held ∧ z.regs = w.regs ∧ z.pc = w.pc)
    ∧ (∀ tile u k, c = 0 → ctxOf s c = none → (∀ e ∈ s.sends, ∀ q, e.2 = some q → q.refused = none) → answers (.pgwakeCopy tile u k)
        ((copiesOf s tile).countP fun e => match e.held with | some v => decide (u / (4096 * 4 ^ k) = v / (4096 * 4 ^ k)) | none => false)
        fun t => ∀ e ∈ copiesOf t tile, ∀ v, e.held = some v → u / (4096 * 4 ^ k) ≠ v / (4096 * 4 ^ k))

-- Matrix engines, copies

/-- R294 to R302, R304 to R306: the oldest command whose operands are held starts and takes 8 cycles; its step adds every product to its block and the
row's elements to its count, and its context goes on; a retriever fetches a command's lines one by one; a command 64 cycles old moves to an
idle neighbour whose temporary block takes the home block's exponent; a sum packet is added to a block reserved under its tag, or refused;
a refused one is recorded in its tile's spill ring, once its partition has the days for that (R33), and its sender's supervisor hears, or it
stays in the send store where the ring is full or absent. The model's choices: a ring in scratch or in a hole (log 85), the zero budgets of
a sender that has retired (log 86), a command's operands are read whole at its step (log 38), a refusal gives one reason, repair before an
unreserved block before a wrong tag (log 35), and the cycle of a refusal is that of its arrival at the sender (log 81). -/
def Obligations.MatrixSteps : Prop :=
  (∀ (s : State) (tile : Nat) (k : Cmd), (engineOf s tile).running = none → (engineOf s tile).queue.find? (operandsHeld s) = some k →
    ∃ t, exec (.mmaStart tile) s = .next t ∧ (engineOf t tile).running = some k ∧ (∀ c ∈ (engineOf t tile).queue, c.uid ≠ k.uid)
      ∧ ⟨s.cyc + 8, .mmaStep tile⟩ ∈ t.agenda ∧ t.blocks = s.blocks)
  ∧ (∀ (s : State) (tile : Nat) (k : Cmd), (engineOf s tile).running = some k → (k.data = [] → ∀ l ∈ k.lines, errIn s l.2 64 = false) →
    let bytes := if k.data = [] then k.lines.flatMap (fun l => readBytes s l.2 64) else k.data
    (k.migrated = false → ctxOf s k.ctx = none → ∃ t, exec (.mmaStep tile) s = .next t ∧ (engineOf t tile).running = none
      ∧ blockAt t k.home k.blk = { blockAt s k.home k.blk with acc := addProducts k.fmt bytes (blockAt s k.home k.blk).acc } ∧ t.mem = s.mem)
    ∧ (∀ x p, k.migrated = false → ctxOf s k.ctx = some x → x.park = some p → x.state = .parked → x.longs = [] → x.inMem = false → x.saving = none →
      x.stopReq = false → x.retireReq = false → ∃ t z, exec (.mmaStep tile) s = .next t ∧ ctxOf t k.ctx = some z ∧ z.state = .resident ∧ z.park = none
        ∧ z.pc = x.pc ∧ z.regs = x.regs ∧ z.after = s.cyc + 1
        ∧ blockAt t k.home k.blk = { blockAt s k.home k.blk with acc := addProducts k.fmt bytes (blockAt s k.home k.blk).acc })
    ∧ (∀ a, k.migrated = true → (engineOf s tile).temp = some a → k.home < 128 → k.blk < 64 → ∃ t due p, exec (.mmaStep tile) s = .next t ∧ (engineOf t tile).temp = none
      ∧ t.blocks = s.blocks ∧ ⟨due, .sumPacketArrival p⟩ ∈ t.agenda ∧ p.back = true ∧ p.blk = addProducts k.fmt bytes a ∧ destTile p.d = k.home
      ∧ destBlock p.d = k.blk))
  ∧ (∀ (f : Dword) (bytes : List Byte) (a : Accum), a.count + elemsOfRow f ≤ 0xFFFFFF → (addProducts f bytes a).count = a.count + elemsOfRow f
    ∧ (addProducts f bytes a).e = a.e ∧ (addProducts f bytes a).ovf = a.ovf ∧ (a.nan = true → (addProducts f bytes a).nan = true))
  ∧ (∀ (s : State) (tile : Nat) (k : Cmd) (l : Nat × Nat), ((engineOf s tile).queue ++ (engineOf s tile).running.toList).find? (fun c => c.uid == k.uid) = some k →
    k.bad = none → k.lines[k.data.length / 64]? = some l → errIn s l.2 64 = false → ∃ t, exec (.retrieverFetch tile k.uid) s = .next t ∧ t.mem = s.mem
      ∧ { k with data := k.data ++ readBytes s l.2 64 } ∈ (engineOf t tile).queue ++ (engineOf t tile).running.toList
      ∧ (k.data.length / 64 + 1 < k.lines.length → ∃ due, ⟨due, .retrieverFetch tile k.uid⟩ ∈ t.agenda))
  ∧ (∀ (s : State) (src dst : Nat) (k : Cmd), migrant s src = some k → src ≠ dst → (k.mmas = false → ∀ l ∈ k.lines, errIn s l.2 64 = false) →
    ∃ t c, exec (.commandMigration src dst) s = .next t ∧ c ∈ (engineOf t dst).queue ∧ c.uid = k.uid ∧ c.migrated = true ∧ c.home = k.home ∧ c.fmt = k.fmt
      ∧ c.blk = k.blk ∧ (∀ e ∈ (engineOf t src).queue, e.uid ≠ k.uid) ∧ ∃ b, (engineOf t dst).temp = some b ∧ b.e = (blockAt s k.home k.blk).acc.e ∧ b.elems = [] ∧ b.count = 0)
  ∧ (∀ (s : State) (p : SumPacket), p.back = false →
    let tile := destTile p.d
    let b := blockAt s tile (destBlock p.d)
    let refused := fun (why : BitVec 3) => ∃ t due, exec (.sumPacketArrival p) s = .next t ∧ t.blocks = s.blocks ∧ ⟨due, .refusalArrival p why⟩ ∈ t.agenda
    (underRepair s tile = true → refused 2) ∧ (underRepair s tile = false → b.reserved = false → refused 0)
    ∧ (underRepair s tile = false → b.reserved = true → b.tag ≠ destTag p.d → refused 1)
    ∧ (underRepair s tile = false → b.reserved = true → b.tag = destTag p.d → ∃ t due, exec (.sumPacketArrival p) s = .next t
      ∧ blockAt t tile (destBlock p.d) = { b with acc := addBlock b.acc p.blk, arrived := min (b.arrived + 1) 0xFFFF, x := b.x || decide (b.expected < min (b.arrived + 1) 0xFFFF) }
      ∧ ⟨due, .acknowledgementArrival p.src p.entry⟩ ∈ t.agenda))
  ∧ (∀ (s : State) (tile e : Nat), ∃ t, exec (.acknowledgementArrival tile e) s = .next t ∧ sendAt t tile e = none
    ∧ ∀ f, f ≠ e → f < 16 → e < 16 → sendAt t tile f = sendAt s tile f)
  ∧ ∀ (s : State) (p : SumPacket) (why : BitVec 3),
    let part := (partOf s p.src).getD 0
    let h := bits (spillRing s part p.src).1 55 0
    let c := (spillRing s part p.src).2.toNat
    let entry : SendEntry := ⟨p, some why, s.cyc, false⟩
    (c = 0 → exec (.refusalArrival p why) s = .next (setSend s p.src p.entry (some entry)))
    ∧ (spillDay (setSend s p.src p.entry (some entry)) p.src = false → exec (.refusalArrival p why) s = .next { setSend s p.src p.entry (some entry) with
        spillWait := if s.spillWait.contains (16 * p.src + p.entry) then s.spillWait else s.spillWait ++ [16 * p.src + p.entry] })
    ∧ ∀ ph s1, c ≠ 0 → spillDay (setSend s p.src p.entry (some entry)) p.src = true → engineSpot (setSend s p.src p.entry (some entry)) part p.src h rightsR = .spot ph s1 → errIn s1 ph.place 16 = false →
      let head := readDw s1 ph.place
      let tail := readDw s1 (ph.place + 8)
      let r := h + 64 + 5184 * (tail.toNat % c)
      ((tail - head).toNat = c → exec (.refusalArrival p why) s = .next s1)
      ∧ ∀ sp s2, (tail - head).toNat ≠ c → spillSpots part p.src s1 ((h + 8) :: (List.range 81).map (r + 64 * ·)) = .ok (sp, s2) →
        let s4 := spillPut (spillPut s2 part p.src sp.tail (spillWords p s.cyc)) part p.src [{ sp.headD ph with place := ph.place + 8 }] [tail + 1]
        exec (.refusalArrival p why) s = .next (sendFault (setSend s4 p.src p.entry none) p.ctx { ctxFor s4 p.ctx part p.src p.sup with tile := p.src } p.pc 11 1
          ⟨.accgone, dw r, dw p.d.toNat, dw (2 ^ why.toNat), 0⟩)

/-- R328, R331, R332, R335, R337, R340, R344: the checked copy lets its context go on; a line is read and its words fly; they land at their places
with their tags, or enter the stream; each report lowers the barrier by its bytes, and the last ends the copy with its message; a
cancellation answers once no line flies. The model's choices: the words of a line are read in one step and land in one step (log 71), and
a line that has landed is reported also after its copy has ended (log 59); what a source segment whose base is no multiple of 8, or of 64 for a
stream, makes of a line (log 94) is not stated here. -/
def Obligations.CopySteps : Prop :=
  (∀ (s : State) (id : Nat) (x : Ctx) (c : Copy), ctxOf s id = some x → checkedCopy s id x = some c → x.saving = none →
    (∀ u ∈ [c.src, c.dst], badBank s x.tile u c.len = none) → ∃ t e, exec (.remoteBankCheck id) s = .next t
      ∧ ctxOf t id = some { x with hold := none, after := s.cyc + 1 } ∧ checkedCopy t id x = some e ∧ e = { c with cancelled := false })
  ∧ (∀ (s : State) (tile uid : Nat) (c : Copy) (p : Spot) (u : State), copyAt s tile uid = some c → c.cancelled = false → c.ended = false → c.held = none → c.next < c.len → c.stream ≠ none →
    let a := c.src + c.next
    let n := min 64 (c.len - c.next)
    a % 64 = 0 → engineSpot s c.part tile a rightsR = .spot p u → errIn u p.place n = false →
    ∃ t due e, exec (.copyLineMove tile uid) s = .next t ∧ t.mem = s.mem
      ∧ ⟨due, .copyLineLand tile uid c.next ((List.range (n / 8)).map fun i => ⟨placeOf tile 0, tile, readDw s (p.place + 8 * i), if c.tags then tagAt s (p.place + 8 * i) else true, false, tile, u.uid⟩)⟩ ∈ t.agenda
      ∧ copyAt t tile uid = some e ∧ e.next = c.next + n ∧ e.flying = c.flying + 1
      ∧ (c.next + n < c.len → ∃ at_, ⟨at_, .copyLineMove tile uid⟩ ∈ t.agenda))
  ∧ (∀ (s : State) (tile uid : Nat) (c : Copy) (p : Spot) (u : State) (q : Nat → Spot), copyAt s tile uid = some c → c.cancelled = false → c.ended = false → c.held = none → c.next < c.len → c.stream = none →
    let a := c.src + c.next
    let n := min (64 - a % 64) (c.len - c.next)
    c.src % 8 = 0 → c.next % 8 = 0 → c.len % 8 = 0 → engineSpot s c.part tile a rightsR = .spot p u → errIn u p.place n = false →
    (∀ i, i < n / 8 → ∃ v, engineSpot u c.part tile (c.dst + c.next + 8 * i) rightsW = .spot (q i) v) →
    ∃ t due e, exec (.copyLineMove tile uid) s = .next t ∧ t.mem = s.mem
      ∧ ⟨due, .copyLineLand tile uid c.next ((List.range (n / 8)).map fun i => ⟨(q i).place, (q i).home, readDw s (p.place + 8 * i), if c.tags then tagAt s (p.place + 8 * i) else true, (q i).watched, tile, u.uid⟩)⟩ ∈ t.agenda
      ∧ copyAt t tile uid = some e ∧ e.next = c.next + n ∧ e.flying = c.flying + 1
      ∧ (c.next + n < c.len → ∃ at_, ⟨at_, .copyLineMove tile uid⟩ ∈ t.agenda))
  ∧ (∀ (s : State) (tile uid line : Nat) (ws : List CopyWord) (c : Copy) (o q b : Nat), copyAt s tile uid = some c → c.ended = false → c.stream = some (o, q) → fifoOf s tile o q = some b →
    let f := FMap.get (Fifo.mk none []) s.fifos (24 * tile + b)
    ∃ t e, exec (.copyLineLand tile uid line ws) s = .next t ∧ t.mem = s.mem
      ∧ FMap.get (Fifo.mk none []) t.fifos (24 * tile + b) = { f with elems := f.elems ++ [ofDwords (ws.map (·.value))] }
      ∧ copyAt t tile uid = some e ∧ e.flying = c.flying - 1 ∧ ⟨s.cyc, .copyLandingReport tile uid ⟨line, ws.length, tile⟩⟩ ∈ t.agenda)
  ∧ (∀ (s : State) (tile uid line pl : Nat) (ws : List CopyWord) (c : Copy), copyAt s tile uid = some c → c.ended = false → c.stream = none →
    pl % 8 = 0 → ws ≠ [] → (∀ i w, ws[i]? = some w → w.place = pl + 8 * i ∧ Unwatched s w.home) →
    ∃ t due, exec (.copyLineLand tile uid line ws) s = .next t ∧ (∀ i w, ws[i]? = some w → readDw t (pl + 8 * i) = w.value ∧ tagAt t (pl + 8 * i) = w.full)
      ∧ (∀ p, (p < pl ∨ pl + 8 * ws.length ≤ p) → readByte t p = readByte s p ∧ tagAt t p = tagAt s p)
      ∧ copyAt t tile uid = some { c with flying := c.flying - 1, unreported := c.unreported + ws.length }
      ∧ ⟨due, .copyLandingReport tile uid ⟨c.dst + line, ws.length, portOfPlace pl⟩⟩ ∈ t.agenda)
  ∧ (∀ (s : State) (tile uid line n src : Nat) (c : Copy), copyAt s tile uid = some c → c.stream = none →
    let b := tile * 256 + c.k
    ∃ t, exec (.copyLandingReport tile uid ⟨line, n, src⟩) s = .next t ∧ countOf t b = countOf s b - 8 * n ∧ (∀ k, k ≠ b → countOf t k = countOf s k) ∧ t.mem = s.mem
      ∧ ((c.cancelled = false ∧ c.ended = false ∧ c.len ≤ c.next ∧ c.flying = 0 ∧ c.unreported = n) →
        ((∀ e ∈ FMap.get [] s.copies tile, e.uid = uid → e = c) → ∀ e ∈ FMap.get [] t.copies tile, e.uid ≠ uid)
        ∧ (c.msg = true → c.ctx ≠ 0 → ∃ due, ⟨due, .messageArrival c.ctx (ofDwords [0x400, dw (c.ctx + c.k % 16 * 2 ^ 32), c.dstSeg, dw c.len, c.user, c.pc]) (.part tile)⟩ ∈ t.agenda)))
  ∧ ∀ (s : State) (id n : Nat) (x : Ctx), ctxOf s id = some x → x.saving = none → x.holdD.toNat ≤ 127 →
    let flies := ∃ c ∈ FMap.get [] s.copies x.tile, c.ctx = id ∧ c.checking = false ∧ c.cancelled = true ∧ c.flying ≠ 0
    (flies → ∃ t, exec (.cpyqComplete id n) s = .next t
      ∧ ctxOf t id = some x ∧ ⟨s.cyc + 1, .cpyqComplete id n⟩ ∈ t.agenda)
    ∧ (¬ flies → ∃ t z, exec (.cpyqComplete id n) s = .next t
      ∧ ctxOf t id = some z ∧ z.hold = none ∧ z.after = s.cyc + 1 ∧ z.reg x.holdD.toNat = withScalar (x.reg x.holdD.toNat) (dw n)
      ∧ ∀ c ∈ FMap.get [] t.copies x.tile, c.ctx = id → c.cancelled = true → c.checking = true ∨ c.unreported ≠ 0)

-- The front end

/-- R352 to R357, R466, R205, R85: a full trigger word is taken in t0 and begins a run of waiting nodes, once the pairs of its patch list have been
applied in order, or ends it rejected with reason 8 where one is out of range; on an empty one the front end's TAKE
waits, and past its fel it stops the front end's context with FEWAIT, or PROT where the home is under repair; an eligible node that passes the checks is chosen,
or a service node started, and one that fails is rejected with its reason; a late optional node meets its policy; a node whose contexts have
all retired completes, and the last one ends the run with its completion word. The model's choices: rejected and skipped nodes count as ended, the first rejected node is the first in time, and of
several reasons the lowest holds (log 52), an after field beyond the graph rejects its node (log 87), a step of the front end comes in the
cycle its condition holds (log 51), the network service is the first context of the lowest tile with that role (log 53), messages of the
front end leave from port 213 (log 67), and it stops and waits with the boot context of its role and has that context's fel (log 76). -/
def Obligations.GraphRuns : Prop :=
  (∀ (s : State) (g k : Nat) (x : Graph) (p : Spot), graphAt s g = some x → x.running = false → x.reg = some k →
    let begins := fun (c0 : Nat) (t : State) => ∃ y, graphAt t g = some y ∧ y.running = true ∧ y.t0 = c0 ∧ y.addr = x.addr ∧ y.reason = 0 ∧ y.first = 0xFFFF
      ∧ y.dropped = 0 ∧ y.lowered = 0 ∧ y.nodes.length = (graphDw t x 0).toNat % 4096 ∧ (∀ n ∈ y.nodes, n.status = .waiting) ∧ t.feWait = none
    let woken := s.feWait = none ∧ bit (wakeReg s x.part k).1 62 = true ∧ hasRung s x.part k = true
    (woken → feSpot s (graphDw s x 1).toNat rightsRWS = some p → Serves s p → errAt s p.place = false →
      (tagAt s p.place = true → readDw s p.place = 0 → Quiet s → ∃ t, exec (.runStart g) s = .next t ∧ begins s.cyc t ∧ tagAt t p.place = false)
      ∧ (tagAt s p.place = false → FMap.get [] s.waits p.home = [] → frontEndFel s ≠ 0 → ∃ t, exec (.runStart g) s = .next t ∧ Awaits s t p (.run g)))
    ∧ (∀ c0, s.feWait = some ⟨.run g, some (0, c0)⟩ → Quiet s → ∃ t, exec (.runStart g) s = .next t ∧ begins c0 t)
    ∧ ∀ list c0, s.feWait = some ⟨.run g, some (list, c0)⟩ → list ≠ 0 →
      let u := feStore { s with feWait := none } x.part (x.addr + 40) (dw c0)
      let m := (graphDw u x 0).toNat % 4096
      let word := fun k => feRead u (list.toNat + 8 * k)
      let n := (word 0).toNat % 65536
      let pairs := (List.range n).map fun j => ((word (1 + 2 * j)).toNat, word (2 + 2 * j))
      let y := { x with running := true, t0 := c0, nodes := List.replicate m NodeRun.fresh, dropped := 0, lowered := 0, first := 0xFFFF, reason := 0 }
      (n ≤ 4096 → (∀ e ∈ pairs, e.1 < 8 * m) → exec (.runStart g) s = .next (pairs.foldl
        (fun t e => feStore t x.part (x.addr + 64 + 128 * (e.1 / 8) + 64 + 8 * (e.1 % 8)) e.2) (updGraph u g fun _ => y)))
      ∧ (4096 < n ∨ (∃ e ∈ pairs, 8 * m ≤ e.1) → Quiet s → ∃ t z, exec (.runStart g) s = .next t ∧ graphAt t g = some z ∧ z.running = false
        ∧ ∀ p, feSpot u (graphDw u x 2).toNat rightsRWS = some p → tagAt t p.place = true ∧ readDw t p.place = dw (1 + 2 + 8 * 2 ^ 8 + 0xFFFF * 2 ^ 16)))
  ∧ (∀ (s : State) (tile uid d : Nat) (a : Access) (y : Ctx), waitingAt s tile uid = some a → (a.repair.isSome = true → underRepair s a.home = true) → a.land = .frontEnd → ctxOf s (frontEndId s) = some y →
    y.state = .resident → faultTarget s (frontEndId s) y.sup.toNat y.part = some d →
    let fault := if a.repair.isSome then (Code.prot, 32, 0) else (.fewait, dw (1 + if a.full then 4 else 0), dw a.parkedAt)
    ∃ t z due, exec (.feDeadlineExpiry tile uid) s = .next t ∧ ctxOf t (frontEndId s) = some z ∧ z.state = .stopped ∧ z.pc = y.pc ∧ t.feWait = none
      ∧ t.mem = s.mem ∧ (∀ b ∈ FMap.get [] t.waits tile, b.uid ≠ uid)
      ∧ ⟨due, .messageArrival d (ofDwords [dw (frontEndId s * 2 ^ 32 + 0x4000 + 0x700 + fault.1.num), y.pc, dw a.uaddr, fault.2.1, fault.2.2, 0, y.ib,
        y.mb]) (.part y.tile)⟩ ∈ t.agenda)
  ∧ (∀ (s : State) (g n : Nat) (x : Graph), graphAt s g = some x → x.running = true → statusOf x n = .waiting →
    let same := fun m => nodeQueue s x m = nodeQueue s x n
    (∀ m, m < n → same m → statusOf x m ≠ .waiting ∧ statusOf x m ≠ .chosen
      ∧ (statusOf x m = .started → nodeKind s x m = 0 → ∀ r, x.nodes[m]? = some r → (nodeWork s x m + 15) / 16 ≤ r.placed)) →
    (bit (nodeDw s x n 2) 22 = true → ∀ m, m < n → same m → statusOf x m = .completed ∨ statusOf x m = .dropped) →
    (∀ a, nodeAfter s x n = some a → statusOf x a = .completed ∨ statusOf x a = .dropped) →
    let q := (nodeDw s x n 2).toNat / 2 ^ 28 % 16
    let hdr := nodeDw s x n 0
    let asks := fun (id : Nat) => id ≠ 0 → ∀ p, feSpot s (nodeDw s x n 15).toNat rightsRWS = some p → Quiet s → ∃ t y due, exec (.nodeStart g n) s = .next t
      ∧ graphAt t g = some y ∧ statusOf y n = .started ∧ tagAt t p.place = false
      ∧ ⟨due, .messageArrival id (ofDwords ([0xA00, dw x.addr, dw n, hdr, nodeDw s x n 8, nodeDw s x n 9, nodeDw s x n 10, nodeDw s x n 11])) (.part 213)⟩ ∈ t.agenda
    (∀ r, nodeReason s x n = some r → Quiet s → ∃ t y, exec (.nodeStart g n) s = .next t ∧ graphAt t g = some y ∧ statusOf y n = .rejected
      ∧ y.nodes.length = x.nodes.length ∧ (x.reason = 0 → y.first = n ∧ y.reason = r))
    ∧ (nodeReason s x n = none → 8 ≤ q →
      (nodeKind s x n < 2 → nodeWork s x n ≠ 0 → ∃ t y, exec (.nodeStart g n) s = .next t ∧ graphAt t g = some y ∧ statusOf y n = .chosen ∧ t.mem = s.mem
        ∧ ∀ m, m ≠ n → statusOf y m = statusOf x m)
      ∧ (nodeKind s x n = 2 → ∃ t y, exec (.nodeStart g n) s = .next t ∧ graphAt t g = some y ∧ statusOf y n = .started
        ∧ headAt t (hdr.toNat % 2) = { headAt s (hdr.toNat % 2) with pending := some (dw (hdr.toNat / 4096 * 4096)), waiters := (headAt s (hdr.toNat % 2)).waiters ++ [(g, n)] })
      ∧ (nodeKind s x n = 3 → asks (netService s)) ∧ (nodeKind s x n = 4 → asks ((partReg s (hdr.toNat % 4) 4).toNat % 2 ^ 32)))
    ∧ (nodeReason s x n = none → q < 8 → ∀ p, feSpot s (nodeAddr x n + 64 + 8 * q) rightsW = some p → Quiet s → ∃ t, exec (.nodeStart g n) s = .next t
      ∧ readDw t p.place = dw ((nodeDw s x n 2).toNat / 2 ^ 24 % 4)))
  ∧ (∀ (s : State) (g n : Nat) (x : Graph) (y : NodeRun), graphAt s g = some x → x.nodes[n]? = some y → x.running = true → y.status = .waiting → y.judged = false →
    nodeDeadline s x n ≠ 0 → x.t0 + nodeDeadline s x n ≤ s.cyc →
    let policy := (graphDw s x 3).toNat / 4 ^ (nodePrio s x n) % 4
    let quality := (nodeDw s x n 2).toNat / 2 ^ 24 % 4
    let judged := fun (t : State) => ∃ z, graphAt t g = some z ∧ z.nodes[n]? = some { y with judged := true } ∧ z.running = true ∧ t.mem = s.mem
    (nodeOptional s x n = false ∨ policy = 0 ∨ policy = 2 ∧ quality = 0 → ∃ t, exec (.nodeLate g n) s = .next t ∧ judged t)
    ∧ (nodeOptional s x n = true → policy = 1 → Quiet s → ∃ t z, exec (.nodeLate g n) s = .next t ∧ graphAt t g = some z ∧ statusOf z n = .dropped ∧ z.dropped = x.dropped + 1)
    ∧ (nodeOptional s x n = true → policy = 2 → quality ≠ 0 → ∀ p, feSpot s (nodeAddr x n + 16) rightsW = some p → Quiet s → ∃ t z,
      exec (.nodeLate g n) s = .next t ∧ graphAt t g = some z ∧ z.nodes[n]? = some { y with judged := true, lowered := true }
        ∧ readDw t p.place = nodeDw s x n 2 - 2 ^ 24)
    ∧ (nodeOptional s x n = true → policy = 3 → Quiet s → ∃ t z, exec (.nodeLate g n) s = .next t ∧ graphAt t g = some z ∧ statusOf z n = .rejected
        ∧ (x.reason = 0 → z.first = n ∧ z.reason = 9)))
  ∧ ∀ (s : State) (g n : Nat) (x : Graph) (y : NodeRun), graphAt s g = some x → x.nodes[n]? = some y → y.status = .started → nodeKind s x n = 0 →
    y.placed = (nodeWork s x n + 15) / 16 → (∀ id ∈ y.live, ctxOf s id = none ∧ (pendingAccesses s).any (carries · id) = false ∧ (releasesFar s x n = true → acceptPending s id = false)) →
    x.running = true →
    let others := ∀ m, m ≠ n → ∀ z, x.nodes[m]? = some z → z.status = .completed ∨ z.status = .dropped ∨ z.status = .rejected ∨ z.status = .skipped
    (¬ others → ∃ t z, exec (.nodeComplete g n) s = .next t ∧ graphAt t g = some z ∧ statusOf z n = .completed ∧ z.running = true ∧ t.mem = s.mem)
    ∧ (others → ∀ p, feSpot s (graphDw s x 2).toNat rightsRWS = some p → Quiet s → ∃ t z, exec (.nodeComplete g n) s = .next t ∧ graphAt t g = some z
      ∧ statusOf z n = .completed ∧ z.running = false ∧ tagAt t p.place = true ∧ readDw t p.place =
        dw (1 + (if x.reason = 0 then 0 else 2) + x.reason * 256 + x.first * 2 ^ 16 + x.dropped % 65536 * 2 ^ 32 + x.lowered % 65536 * 2 ^ 48))

/-- R358, R360, R361, R364 to R366: a context of a kernel node is created at its tile as its header says, and goes to its core or to the tile's
dispatcher; a pipeline starts all its stages at once at level 0, each at its core of the snake; its bindings go from the last to the first,
each with the entries left on its port, and with the first one the node completes. -/
def Obligations.NodesAtTheirTiles : Prop :=
  (∀ (s u : State) (g n id : Nat) (x : Graph) (y : NodeRun), graphAt s g = some x → x.nodes[n]? = some y → x.running = true →
    y.status = .chosen ∨ y.status = .started → nodeKind s x n = 0 → y.placed < (nodeWork s x n + 15) / 16 →
    let i := y.placed
    let h := headerDw s x n 0
    let t := contextTile s x n i
    let acc := (h 1).toNat / 2 ^ 16 % 128
    let left := nodeWork s x n - 16 * i
    partOf s t = some x.part → underRepair s t = false → newId s t = some (id, u) → acc ≤ (freeBlocksOf s t).length → ∃ r z c, exec (.contextPlacement g n) s = .next r ∧ graphAt r g = some z
      ∧ z.nodes[n]? = some { y with status := .started, placed := i + 1, live := y.live ++ [id] } ∧ ctxOf r id = some c
      ∧ c.state = .queued ∧ c.tile = t ∧ c.pc = h 0 ∧ c.window = (h 1).toNat % 256 ∧ c.priority = (h 1).toNat / 256 % 4 ∧ c.priv = (bit (h 1) 10 && x.part == 0)
      ∧ c.group = (h 1).toNat / 4096 % 16 ∧ c.wdog = (h 1).toNat / 2 ^ 32 ∧ c.ib = dw ((h 2).toNat % 2 ^ 48) ∧ c.mb = dw ((h 3).toNat % 2 ^ 48)
      ∧ c.wfw = dw ((h 4).toNat % 2 ^ 60) ∧ c.fel = dw ((h 5).toNat / 2 ^ 32) ∧ c.wid = dw (16 * i) ∧ c.rnd = 0 ∧ c.spawner = 0 ∧ c.part = x.part
      ∧ c.sup = dw (if (h 5).toNat % 2 ^ 32 = 0 then (graphDw s x 4).toNat % 2 ^ 32 else (h 5).toNat % 2 ^ 32)
      ∧ (∀ l, l < 16 → (maskP c.pw 0).getLsbD l = decide (l < left)) ∧ c.grant = (freeBlocksOf s t).take acc
      ∧ (∀ k, k < 128 → c.reg k = if k + 1 = (h 1).toNat / 2 ^ 24 % 256 then ofDwords ((List.range 8).map fun j => nodeDw s x n (8 + j)) else 0)
      ∧ (widthOf (h 4) 2 = 0 → ⟨id, true, 16 * i, s.cyc + 1, 0, 0⟩ ∈ FMap.get [] r.arrivals t)
      ∧ (widthOf (h 4) 2 ≠ 0 → let core := 16 * t + placedValue (h 4) 2 (16 * i)
          (readyOf s core).length < 256 → 4 * id + c.priority ∈ readyOf r core))
  ∧ (∀ (s : State) (g n : Nat) (x : Graph) (y : NodeRun), graphAt s g = some x → x.nodes[n]? = some y → x.running = true → y.status = .chosen → nodeKind s x n = 1 →
    let d2 := nodeDw s x n 2
    let st := d2.toNat / 2 ^ 35 % 32
    let b := d2.toNat / 2 ^ 40 % 16
    let t := (nodeTiles s x n).headD 0
    let core := fun k => 16 * t + snake.getD (b + k) 0
    let h := fun k => headerDw s x n k
    partOf s t = some x.part → underRepair s t = false → 2 ≤ st → b + st ≤ 16 → st ≤ freeContexts s t → (∀ k, FMap.get 0 s.gens k ≤ 4095) →
    ((List.range st).map fun k => (h k 1).toNat / 2 ^ 16 % 128).sum ≤ (freeBlocksOf s t).length →
    (∀ k, k < st → coreBound s (core k) = false ∧ coreHasRoom s (core k) ((h k 1).toNat % 256) = true ∧ (readyOf s (core k)).length < 256) →
    ∃ r z w, exec (.pipelineStart g n) s = .next r ∧ graphAt r g = some z ∧ z.nodes[n]? = some w ∧ w.status = .started ∧ w.bound = (List.range st).map core
      ∧ w.live.length = st ∧ ∀ k, k < st → ∃ id c, w.live[k]? = some id ∧ ctxOf r id = some c ∧ c.state = .queued ∧ 16 * c.tile + c.core = core k ∧ c.pc = h k 0
        ∧ c.wid = dw (16 * k) ∧ c.pw = 0xFFFF ∧ 4 * id ∈ readyOf r (core k))
  ∧ ∀ (s : State) (g n : Nat) (x : Graph) (y : NodeRun) (rest : List Nat) (c : Nat), graphAt s g = some x → x.nodes[n]? = some y → x.running = true →
    y.status = .started → (∀ id ∈ y.live, ctxOf s id = none ∧ (pendingAccesses s).any (carries · id) = false ∧ (releasesFar s x n = true → acceptPending s id = false)) →
    y.bound = rest ++ [c] → (rest = [] → Quiet s) → ∃ t z w, exec (.bindingRelease g n) s = .next t
      ∧ graphAt t g = some z ∧ z.nodes[n]? = some w ∧ w.bound = rest ∧ (rest = [] → w.status = .completed)
      ∧ ∀ b, rest.getLast? = some b → w.status = .started
        ∧ ∀ p, p < 4 → peerCore c p = some b → (∀ q, q < p → peerCore c q ≠ some b) → FMap.get [] t.ports (4 * c + p) = []

/-- R351, R370 to R372: an accepted graph's trigger word is emptied and mapped before its completion word shows it, a rejected one's is left;
a rejection needs no wake register; a map takes the descriptor and latches what was pending or is full; an unmap puts the latch into the descriptor. The
model's choices: which queue is the upload doorbell and which register a trigger word takes (log 77), that a reserved field not zero makes
a record malformed and a rejection carries bit 1 (log 52), and that the front end waits with its context's fel (log 76). -/
def Obligations.QueuesAndUploads : Prop :=
  (∀ (s : State) (p addr : Nat) (b q : Spot),
    let x : Graph := ⟨addr, p, none, false, 0, [], 0, 0, 0xFFFF, 0⟩
    let m := (graphDw s x 0).toNat % 4096
    let u := (graphDw s x 1).toNat
    let done := (graphDw s x 2).toNat
    let legal := 1 ≤ m ∧ addr % 64 = 0 ∧ u % 8 = 0 ∧ done % 8 = 0 ∧ (partReg s p 5).toNat ≤ addr ∧ addr + 64 + 128 * m - 1 ≤ (partReg s p 6).toNat
      ∧ (graphDw s x 0).toNat < 4096 ∧ (graphDw s x 3).toNat < 256 ∧ (graphDw s x 4).toNat < 2 ^ 32 ∧ graphDw s x 6 = 0 ∧ graphDw s x 7 = 0
    (freeWake s p = none → legal → ∃ t due, exec (.graphUpload p addr) s = .next t ∧ ⟨due, .graphUpload p addr⟩ ∈ t.agenda ∧ t.mem = s.mem ∧ t.graphs = s.graphs)
    ∧ (s.feWait = none → feSpot s done rightsRWS = some q → Quiet s →
    let elsewhere := ∀ j, uploadWord s p ≠ some (j, addr)
    let heard := fun (j : Nat) (d : Spot) => uploadWord s p = some (j, addr) ∧ feSpot s ((wakeReg s p j).1.toNat % 2 ^ 56) rightsRWS = some d
      ∧ Serves s d ∧ errAt s d.place = false ∧ tagAt s d.place = true
    let emptied := fun (t : State) => ∀ j d, heard j d → d.place / 8 ≠ q.place / 8 → tagAt t d.place = false
    elsewhere ∨ (∃ j d, heard j d) →
    (∀ k, freeWake s p = some k → legal → feSpot s u rightsRWS = some b → b.place / 8 ≠ q.place / 8 → bit (wakeReg s p k).1 63 = false → ∃ t, exec (.graphUpload p addr) s = .next t
      ∧ t.graphs = s.graphs ++ [{ x with reg := some k }] ∧ tagAt t b.place = false ∧ tagAt t q.place = true ∧ readDw t q.place = 0
      ∧ bit (wakeReg t p k).1 63 = true ∧ (wakeReg t p k).1.toNat % 2 ^ 56 = u % 2 ^ 56 ∧ (wakeReg t p k).2 = 0 ∧ emptied t)
    ∧ (¬ legal → ∃ t, exec (.graphUpload p addr) s = .next t ∧ t.graphs = s.graphs ∧ tagAt t q.place = true ∧ bit (readDw t q.place) 1 = true
      ∧ (elsewhere → ∀ w, w / 8 ≠ q.place / 8 → tagAt t w = tagAt s w) ∧ emptied t)))
  ∧ (∀ (s : State) (p k bell desc : Nat) (q : Spot), feSpot s desc rightsRWS = some q → Quiet s → FMap.wf (0, 0) s.wakes = true →
    bit (wakeReg s p k).1 63 = false → s.feWait = none → Serves s q → errAt s q.place = false →
    (tagAt s q.place = false → frontEndFel s ≠ 0 → ∃ t, exec (.queueMap p k bell desc) s = .next t ∧ Awaits s t q (.map p k bell desc) ∧ t.wakes = s.wakes)
    ∧ (tagAt s q.place = true → ∃ t, exec (.queueMap p k bell desc) s = .next t ∧ tagAt t q.place = false ∧ readDw t q.place = dw (2 + 4 * k)
      ∧ wakeReg t p k = (dw (2 ^ 63 + (if bit (wakeReg s p k).1 62 || bit (readDw s q.place) 0 || feFull t bell then 2 ^ 62 else 0) + bell % 2 ^ 56), dw (desc % 2 ^ 56))))
  ∧ ∀ (s : State) (p k : Nat) (q : Spot), let w := wakeReg s p k
    (bit w.1 63 = true → isTrigger s p k = false → feSpot s (w.2.toNat % 2 ^ 56) rightsRWS = some q → Quiet s → ∃ t, exec (.queueUnmap p k) s = .next t
      ∧ wakeReg t p k = (w.1 &&& 0x3FFFFFFFFFFFFFFF, w.2) ∧ tagAt t q.place = true ∧ readDw t q.place = dw (if bit w.1 62 then 1 else 0))
    ∧ (bit w.1 63 = false ∨ isTrigger s p k = true → exec (.queueUnmap p k) s = .next s)

-- Messages, links, faults of the hardware, power

/-- R213, R414, R425: a message of the part is appended; one of SEND is discarded outside its partition, appended where fewer than 256 of SEND wait,
else discarded with a notice to the destination's supervisor; one for a context that is gone is discarded, a fault message apart. A
corrected soft error is counted, an uncorrectable one counted and kept with its word, register or image. -/
def Obligations.MessagesAndSoftErrors : Prop :=
  (∀ (s : State) (dst c port n : Nat) (m : Reg) (only : Option Nat) (x : Ctx), ctxOf s dst = some x →
    let sent := (x.inbox.filter fun e => e.sent).length
    exec (.messageArrival dst m (.part port)) s = .next (setCtx s dst { x with inbox := x.inbox ++ [⟨m, false⟩] })
    ∧ ((∃ p, only = some p ∧ p ≠ x.part) → exec (.messageArrival dst m (.send c only port n)) s = .next s)
    ∧ ((∀ p, only = some p → p = x.part) → sent < 256 → exec (.messageArrival dst m (.send c only port n)) s = .next (setCtx s dst { x with inbox := x.inbox ++ [⟨m, true⟩] }))
    ∧ ((∀ p, only = some p → p = x.part) → 256 ≤ sent → ∃ t, exec (.messageArrival dst m (.send c only port n)) s = .next t ∧ ctxOf t dst = some x
      ∧ (x.sup ≠ 0 → ∃ due, ⟨due, .messageArrival x.sup.toNat (ofDwords [0x200, dw dst, dw c, dword m 0]) (.part x.tile)⟩ ∈ t.agenda)))
  ∧ (∀ (s : State) (dst c port n : Nat) (m : Reg) (only : Option Nat), ctxOf s dst = none → exec (.messageArrival dst m (.send c only port n)) s = .next s
    ∧ ((dword m 0).toNat % 256 = 0 ∨ 0x19 < (dword m 0).toNat % 256 → exec (.messageArrival dst m (.part port)) s = .next s))
  ∧ (∀ (s : State) (p : Nat), placeOk p = true →
    let u := if isScratch p then scratchTile p else 128 + sliceOf p
    (∃ t, exec (.softError (.word p) true) s = .next t ∧ counterAt t u 0 = counterAt s u 0 + 1 ∧ t.mem = s.mem ∧ t.errs = s.errs)
    ∧ ∃ t, exec (.softError (.word p) false) s = .next t ∧ counterAt t u 1 = counterAt s u 1 + 1 ∧ t.mem = s.mem ∧ errAt t p = true
      ∧ ∀ q, q / 8 ≠ p / 8 → errAt t q = errAt s q)
  ∧ ∀ (s : State) (id r i j : Nat) (x : Ctx), ctxOf s id = some x →
    let counts := fun (e : ErrSite) (k : Nat) => (∃ t, exec (.softError e true) s = .next t ∧ counterAt t x.tile 0 = counterAt s x.tile 0 + 1 ∧ t.errs = s.errs)
      ∧ ∃ t, exec (.softError e false) s = .next t ∧ counterAt t x.tile 1 = counterAt s x.tile 1 + 1 ∧ dwErr t id k = true ∧ ctxOf t id = some x
    (r < x.window → i < 8 → counts (.reg id r i) (48 + 8 * r + i)) ∧ (x.inMem = false → j < 48 + 8 * x.window → counts (.image id j) j)

/-- R426, R453, R460 to R468: the rate that a link negotiates; a received frame goes to the entry its steering byte names, with a message to a
Resident context, to the entry's bounce ring for another, or is dropped and counted; the next record of a transmit ring is sent or counted;
in standby only a frame that matches a pattern is kept, and it is received when restore is complete; interrupts become messages; a device writes
through its windows alone; a surface takes effect at vertical blank, and the present nodes that wait for it complete (one whose surface a later
write replaced too). The model's choices: that, a transmit that waits while its link is down, and the other small points of log 79; the
bounce ring for a context that is not Resident (log 46); a port's write that its windows refuse is dropped, and one that they admit sets
the tag (log 47); a restore that ends standby with only the named core running (log 50). -/
def Obligations.LinksAndDevices : Prop :=
  (∀ (s : State) (p rate : Nat), ∃ t, exec (.autonegotiation p rate) s = .next t ∧ ethReg t p 4 = dw rate ∧ t.mem = s.mem
    ∧ ∀ q w, w < 8 → (q ≠ p ∨ w ≠ 4) → ethReg t q w = ethReg s q w)
  ∧ (∀ (s : State) (p : Nat) (f : List Byte), s.standby = false →
    let e := ((f.take (f.length - 4)).getD ((ethReg s p 0).toNat % 16384) 0).toNat
    let n := f.length - 4
    let entry := fun w => ethEntry s p e w
    let dest := (entry 0).toNat % 2 ^ 56
    let id := (entry 1).toNat % 2 ^ 32
    let h := (entry 4).toNat % 2 ^ 56
    let cap := (entry 5).toNat % 2 ^ 32
    let drop := setEthReg s p 5 (ethReg s p 5 + 1)
    let kept := n ≤ 10240 ∧ (ethReg s p 0).toNat % 16384 + 1 ≤ n ∧ bit (entry 0) 63 = true ∧ n ≤ (entry 2).toNat % 16384
    (ethReg s p 4 = 0 → exec (.frameReceive p f) s = .next s)
    ∧ (ethReg s p 4 ≠ 0 → ¬ kept → exec (.frameReceive p f) s = .next drop)
    ∧ (∀ x, ethReg s p 4 ≠ 0 → kept → ctxOf s id = some x → x.state = .resident → exec (.frameReceive p f) s = .next (if Config.fcsGood f = false then drop
      else match portPut s (208 + p) dest (f.take n) with
        | none => drop
        | some s1 => notify s1 (208 + p) id [0x700, dw n, dw dest, entry 3]))
    ∧ (∀ head tail, ethReg s p 4 ≠ 0 → kept → (∀ x, ctxOf s id = some x → x.state ≠ .resident) → portDw s (208 + p) h = some head → portDw s (208 + p) (h + 8) = some tail →
      (cap ≤ (tail - head).toNat → exec (.frameReceive p f) s = .next drop)
      ∧ ∀ s1 s2, (tail - head).toNat < cap → portPut s (208 + p) (h + 64 + 10304 * (tail.toNat % cap))
          (dwBytes [0x600, dw id, dw dest, dw n, entry 3, dw s.cyc, 0, 0] ++ f.take n) = some s1 → portPut s1 (208 + p) (h + 8) (bytesLE 8 (tail + 1).toNat) = some s2 →
        exec (.frameReceive p f) s = .next (if Config.fcsGood f then s2 else drop)))
  ∧ (∀ (s : State) (p : Nat) (head a l : Dword),
    let h := (ethReg s p 1).toNat
    let r := h + 64 + 16 * (head.toNat % (ethReg s p 2).toNat)
    let more := fun (t : State) => (head + 1).toNat < (ethReg s p 3).toNat → ∃ due, ⟨due, .transmitFrame p⟩ ∈ t.agenda
    portDw s (208 + p) h = some head →
    ((ethReg s p 3).toNat ≤ head.toNat → exec (.transmitFrame p) s = .next s)
    ∧ (head.toNat < (ethReg s p 3).toNat → ethReg s p 4 ≠ 0 → portDw s (208 + p) r = some a → portDw s (208 + p) (r + 8) = some l →
      (1 ≤ l.toNat % 16384 → l.toNat % 16384 ≤ 10240 → ∀ bs s1, portGet s (208 + p) a.toNat (l.toNat % 16384) = some bs →
        let out := FMap.set [] s.sentFrames p (bs ++ Config.fcsBytes bs)
        portPut { s with sentFrames := out } (208 + p) h (bytesLE 8 (head + 1).toNat) = some s1 → ∃ t, exec (.transmitFrame p) s = .next t ∧ t.mem = s1.mem
          ∧ t.ethPorts = s1.ethPorts ∧ t.sentFrames = out ∧ more t)
      ∧ (l.toNat % 16384 = 0 ∨ 10240 < l.toNat % 16384 ∨ portGet s (208 + p) a.toNat (l.toNat % 16384) = none → ∀ s1, portPut (setEthReg s p 6 (ethReg s p 6 + 1)) (208 + p) h (bytesLE 8 (head + 1).toNat) = some s1 →
        ∃ t, exec (.transmitFrame p) s = .next t ∧ t.mem = s1.mem ∧ t.ethPorts = s1.ethPorts ∧ more t)))
  ∧ (∀ (s : State) (p : Nat) (f : List Byte), s.standby = true → p < 2 →
    let hit := ∃ k, k < 16 ∧ bit (vigilControl s) k = true ∧ ∀ i, i < 128 →
      ((f.take (f.length - 4)).getD i 0) &&& vigilByte s k 0 i = vigilByte s k 16 i &&& vigilByte s k 0 i
    let drop := setEthReg s p 5 (ethReg s p 5 + 1)
    ((if bit (vigilControl s) 16 then 1 else 0) ≠ p → exec (.vigilMatch p f) s = .next s)
    ∧ ((if bit (vigilControl s) 16 then 1 else 0) = p → (s.restoring = true ∨ ¬ hit) → exec (.vigilMatch p f) s = .next drop)
    ∧ ((if bit (vigilControl s) 16 then 1 else 0) = p → s.restoring = false → hit → ∃ t, exec (.vigilMatch p f) s = .next t
      ∧ (Config.fcsGood f = true → f.length ≤ 10244 → t.restoring = true ∧ t.heldFrame = some (p, f) ∧ t.standby = true ∧ ∃ due, due ≤ s.cyc + 1900000 ∧ ⟨due, .restoreComplete⟩ ∈ t.agenda)
      ∧ ((Config.fcsGood f = false ∨ 10244 < f.length) → t = drop)))
  ∧ (∀ (s : State) (p : Nat) (f : List Byte), s.heldFrame = some (p, f) → exec .restoreComplete s
    = .next (receiveFrame { s with standby := false, restoring := false, heldFrame := none, restored := some ((vigilControl s).toNat / 2 ^ 17 % 2 ^ 11) } p f))
  ∧ (∀ (s : State) (v : Lane), let id := (FMap.get 0 s.msi (v.toNat % 64)).toNat
    id ≠ 0 → ∃ t due, exec (.msiWrite v) s = .next t ∧ ⟨due, .messageArrival id (ofDwords [0x800, v.setWidth 64]) (.part 210)⟩ ∈ t.agenda ∧ t.ctxs = s.ctxs ∧ t.mem = s.mem)
  ∧ (∀ (s : State) (u : Nat) (v : Dword) (data : List Byte), regionOf u = .paged →
    exec (.deviceDma false u data) s = .next s
    ∧ (portSpot s 210 (u / 8 * 8) rightsW = none → exec (.deviceDma true u data) s = .next s)
    ∧ (∀ p, u % 8 = 0 → portSpot s 210 u rightsW = some p → Quiet s → ∃ t, exec (.deviceDma true u (bytesLE 8 v.toNat)) s = .next t ∧ readDw t p.place = v
      ∧ tagAt t p.place = true ∧ ∀ q, (q < p.place ∨ p.place + 8 ≤ q) → readByte t q = readByte s q))
  ∧ ∀ (s : State) (h : Nat) (a : Dword), (headAt s h).pending = some a →
    ((∀ w ∈ (headAt s h).waiters, ∃ x, graphAt s w.1 = some x ∧ w.2 < x.nodes.length) → Quiet s → ∃ t, exec (.verticalBlank h) s = .next t
      ∧ headAt t h = { headAt s h with surface := a, pending := none, waiters := [] }
      ∧ ∀ w ∈ (headAt s h).waiters, ∃ y, graphAt t w.1 = some y ∧ statusOf y w.2 = .completed)
    ∧ ((headAt s h).waiters = [] → ∃ t, exec (.verticalBlank h) s = .next t ∧ t.mem = s.mem ∧ headAt t h = { headAt s h with surface := a, pending := none })

/-- R457 to R459, R469 to R471, R21: boot ends with the part running or with its code on the pins; the thermal alert and trip; a quote is written
and told; a loss of power leaves the flash and the fuses alone. The model's choices: the order of the boot codes (log 49), what a loss of
power and a thermal trip leave (log 4), and a quote's message that goes also where its write is refused (log 50). -/
def Obligations.BootHeatAndPower : Prop :=
  (∀ (s : State), s.phase = .reset → s.ctxs = [] → s.gens = [] → ∃ t, exec .boot s = .next t ∧ match bootCode s with
    | some c => t.phase = .failed c ∧ t.pins = c ∧ t.mem = s.mem ∧ t.ctxs = [] ∧ ⟨s.cyc + 1900000, .thermalSample⟩ ∈ t.agenda
    | none => t.phase = .running ∧ t.pins = 0 ∧ t.temp = Config.junction (drawsOf s 4) ∧ (∀ h, h < 2 → (headAt t h).mode = dw (Config.edidMode h % 2 ^ 64)) ∧ ⟨s.cyc + 1900000, .thermalSample⟩ ∈ t.agenda ∧ partReg t 0 0 = 0x10000000
      ∧ (∀ l, l < 3 → readDw t (0x10000000 + 0x1000 * l) = dw (2 ^ 63 + 0x10000000 + 0x1000 * (l + 1)))
      ∧ readDw t 0x10003000 = dw (2 ^ 63 + 2 ^ 62 + 8 * 2 ^ 56 + 7)
      ∧ (∀ a, a < Config.imageLength → a < 0x10000000 → readByte t a = FMap.get 0 s.flash (0x10000 + a))
      ∧ (∀ p, p < 128 → (partOf t p = if inColumn s p then some 0 else none) ∧ underRepair t p = s.findings.failed.contains (9 * (p / 8) + (if p % 8 < Nat.min (repairEntry s (p / 8)) 8 then p % 8 else p % 8 + 1)))
      ∧ ∀ p, p < 64 → inColumn s p = true → roleOf s p ≠ 0 → failedTest s p = false → ∃ c, ctxOf t (p * 2 ^ 25 + 1) = some c ∧ c.state = .resident
        ∧ c.tile = p ∧ c.core = 0 ∧ c.slot = 0 ∧ c.priv = true ∧ c.part = 0 ∧ c.window = 128 ∧ c.pc = dw (ofBytesLE ((List.range 4).map fun i =>
          FMap.get 0 s.flash (0x101C + 4 * roleOf s p + i))) ∧ c.ib = dw 0xFFFFFFFFFFFF ∧ c.mb = dw 0xFFFFFFFFFFFF)
  ∧ (∀ (s : State), (1760 ≤ s.temp → ∃ t, exec .thermalSample s = .next t ∧ t.phase = .reset ∧ t.ctxs = [] ∧ t.mem = [] ∧ t.agenda = [] ∧ t.cyc = 0 ∧ t.temp = Config.junction (drawsOf s 4)
      ∧ FMap.get [] t.faultLog (s.logNext % 16) = [1, dw s.cyc] ∧ t.flash = s.flash)
    ∧ (s.temp < 1760 → ∃ t, exec .thermalSample s = .next t ∧ ⟨s.cyc + 1900000, .thermalSample⟩ ∈ t.agenda ∧ t.ctxs = s.ctxs ∧ t.mem = s.mem
      ∧ t.temp = Config.junction (drawsOf s 4) ∧ t.alertFrom = (if 1600 ≤ s.temp ∧ s.alertFrom ≤ s.cyc then s.cyc + 190000000 else s.alertFrom)
      ∧ (1600 ≤ s.temp → s.alertFrom ≤ s.cyc → (partReg s 0 2).toNat % 2 ^ 32 ≠ 0 → ∃ due,
        ⟨due, .messageArrival ((partReg s 0 2).toNat % 2 ^ 32) (ofDwords [0xB00, dw s.temp]) (.part 213)⟩ ∈ t.agenda)))
  ∧ (∀ (s : State) (a id : Nat), s.quote = some (a, id) → id ≠ 0 → ∃ t due, exec .quoteComplete s = .next t ∧ t.quote = none
    ∧ ⟨due, .messageArrival id (ofDwords [0xC00]) (.part 213)⟩ ∈ t.agenda
    ∧ ∀ nonce, portGet s 213 a 32 = some nonce →
      let body := nonce ++ dwBytes ((List.range 8).map fun i => FMap.get 0 s.measures i) ++ bytesLE 8 s.rollback ++ (List.range 64).map Config.publicKey
      ∀ s1, portPut s 213 (a + 64) (body ++ (List.range 29792).map fun i => (Config.sign body).getD i 0) = some s1 → t.mem = s1.mem)
  ∧ ∀ (s : State), ∃ t, exec .modulePowerLoss s = .next t ∧ t.phase = .off ∧ t.mem = [] ∧ t.ctxs = [] ∧ t.agenda = [] ∧ t.faultLog = []
    ∧ t.flash = s.flash ∧ t.repairMap = s.repairMap ∧ t.rollback = s.rollback ∧ t.keyDigest = s.keyDigest

-- Frames, faults and charges

/-- R137, R194, R246 to R266, the frame of pages 0, 1, 3 to 5 and 14: such an instruction goes on; memory and its tags, the other contexts,
accumulator blocks, barriers and engines are as they were, and so is everything of its context but the registers it writes, the masks of those
that write one, the generator's state, the charge and its outstanding work. Second, the frame of pages 2, 6 to 8, 10 and 11: one that leaves its
context Resident changes no byte of memory, no tag and no register but those it writes; its stores are on their way. -/
def Obligations.RegisterAndMemoryFrames : Prop :=
  (∀ (s : State) (id : Nat) (x y : Ctx) (i : Instr), registersOnly i = true → Begins s i id x (costOf i) 0 y → (∀ rm, fmtFault x.rnd rm = none) →
    ∃ t z, exec i s = .next t ∧ ctxOf t id = some z
      ∧ (∀ p, readByte t p = readByte s p ∧ tagAt t p = tagAt s p) ∧ (∀ j, j ≠ id → ctxOf t j = ctxOf s j)
      ∧ (∀ r, r < 128 → r ∉ writesOf i → z.reg r = x.reg r) ∧ (writesMasks i = false → z.pw = x.pw) ∧ z.rnd.toNat % 128 = x.rnd.toNat % 128
      ∧ z.ib = y.ib ∧ z.mb = y.mb ∧ z.pc = y.pc ∧ z.state = x.state ∧ z.segs = x.segs ∧ z.yc = x.yc ∧ z.ypc = x.ypc ∧ z.fel = x.fel ∧ z.wid = x.wid
      ∧ z.wfw = x.wfw ∧ z.sup = x.sup ∧ z.qacc = x.qacc ∧ z.rsc = x.rsc ∧ z.rpx = x.rpx ∧ z.rwc = x.rwc ∧ z.tnv = x.tnv ∧ z.tarea = x.tarea
      ∧ z.cbret = x.cbret ∧ z.inbox = x.inbox ∧ z.grant = x.grant
      ∧ t.blocks = s.blocks ∧ t.barriers = s.barriers ∧ t.engines = s.engines ∧ t.banks = s.banks ∧ t.waits = s.waits ∧ t.parts = s.parts)
  ∧ ∀ (s t : State) (id : Nat) (x z : Ctx) (i : Instr), [2, 6, 7, 8, 10, 11].contains (pageOp i).1 = true → Clear s i id x → x.inMem = false →
    exec i s = .next t → ctxOf t id = some z → z.state = .resident →
    (∀ p, readByte t p = readByte s p ∧ tagAt t p = tagAt s p) ∧ ∀ r, r < 128 → r ∉ writesOf i → z.reg r = x.reg r

/-- R9, R409, R412, R415, R129, R430: a fault stops its context at the faulting instruction, registers, masks and budgets as they were, and sends its
supervisor one message of eight doublewords; memory, its tags, every other context, the accumulator blocks and the barriers are as they were. An instruction of page 15 of a context without the privilege bit,
CTXRD, CTXWR and CTXCTL apart, faults PRIV before any effect. -/
def Obligations.TakingAFault : Prop :=
  (∀ (s : State) (id d : Nat) (x : Ctx) (i : Instr) (f : Flt), ctxOf s id = some x → x.state = .resident → bit f.dw5 0 = false →
    faultTarget s id x.sup.toNat x.part = some d →
    let t := trapped s i id x (.fault f)
    let p := (pageOp i).1
    let o := (pageOp i).2
    ctxOf t id = some { x with
        state := .stopped, saving := x.saving.map fun w => if w = .parkOut then .swapOut else w, last := s.cyc, gap := gapOf i, park := none, retry := none, hold := none, stopReq := false, outReq := false, wdogReq := false
        decided := none, needs := [], spent := 0, tnv := if x.paid then x.tnv - dw x.visits else x.tnv, visits := if x.paid then 0 else x.visits }
      ∧ (∃ due, ⟨due, .messageArrival d (ofDwords [dw (id * 2 ^ 32 + o % 16 * 2 ^ 14 + p % 64 * 2 ^ 8 + f.code.num), x.pc, f.dw2, f.dw3, f.dw4, f.dw5, x.ib, x.mb]) (.part x.tile)⟩
        ∈ t.agenda)
      ∧ t.mem = s.mem ∧ t.tags = s.tags ∧ (∀ j, j ≠ id → ctxOf t j = ctxOf s j) ∧ t.blocks = s.blocks ∧ t.barriers = s.barriers)
  ∧ ∀ (s : State) (id : Nat) (x : Ctx) (i : Instr), s.issue.ctx = some id → ctxOf s id = some x → heldBy s id x i = false → i.enc.isSome = true →
    x.walks i = false → (pageOp i).1 = 15 → 3 ≤ (pageOp i).2 → x.priv = false →
    exec i s = .next (trapped s i id x (.chain ⟨.priv, 15, (pageOp i).2, 0, .none, 0⟩))

/-- R76, R77, R79: a charge that overdraws has no effect and is not taken; with a continuation the context goes on there in grace, with 1,024
instructions and 65,536 bytes; without one, or in grace already, it leaves its slot and BUDGET waits to be sent. -/
def Obligations.Exhaustion : Prop :=
  ∀ (s : State) (id : Nat) (x : Ctx) (i : Instr), registersOnly i = true → Clear s i id x → (∀ rm, fmtFault x.rnd rm = none) → x.saving = none → x.moving = none →
    (issued s i x).pays (costOf i) 0 = none →
    let p := (pageOp i).1
    let o := (pageOp i).2
    (x.graceOn = false → x.yc ≠ 0 → ∃ t z, exec i s = .next t ∧ ctxOf t id = some z ∧ z.graceOn = true ∧ z.graceI = 1024 ∧ z.graceM = 65536 ∧ z.pc = x.yc
      ∧ z.ypc = x.pc ∧ z.regs = x.regs ∧ z.pw = x.pw ∧ z.ib = x.ib ∧ z.mb = x.mb ∧ z.state = x.state ∧ t.mem = s.mem)
    ∧ (x.graceOn = true ∨ x.yc = 0 → ∃ t z, exec i s = .next t ∧ ctxOf t id = some z ∧ z.graceOn = false ∧ z.pc = x.pc ∧ z.regs = x.regs ∧ z.pw = x.pw
      ∧ z.ib = x.ib ∧ z.mb = x.mb ∧ t.mem = s.mem
      ∧ z.saving = some (.report (ofDwords [dw (id * 2 ^ 32 + o % 16 * 2 ^ 14 + p % 64 * 2 ^ 8 + 0x12), x.pc, 0, dw (if x.graceOn then 6 else 4),
          if x.graceOn then x.ypc else x.pc, dw (costOf i)])))

-- Encoding, fetch and step

/-- R106, R110 to R136: the decoder reads back every instruction that the encoder emits, with every operand and qualifier, and the length of its chain,
whatever follows it; rows that share a word come back as the first of them, which is the model's reading (log 64). -/
def Obligations.DecodeOfEncode : Prop :=
  ∀ (i : Instr) (hs t : List Half), i.wf = true → encode i = some hs → decodeHalves (hs ++ t) = .ok (i.wordRow, hs.length)

/-- R110 to R115, R139, R140, R144, R149, R199: words written out from the encoding tables, and the chains of the notes on
decoding, decode to their instructions. -/
def Obligations.DecodedWords : Prop :=
  decodeHalves [0x0123] = .ok (.add 1 2 3, 1)
  ∧ decodeHalves [0xF120, 0x1345] = .ok (.sub 0x13 0x24 5, 2)
  ∧ decodeHalves [0xE010, 0x0123] = .ok (.mulh 1 2 3, 2)
  ∧ decodeHalves [0xE017, 0x2123] = .ok (.div 7 1 2 3, 2)
  ∧ decodeHalves [0xE801, 0x812F] = .ok (.addi 1 2 31, 2)
  ∧ decodeHalves [0xE020, 0x0FFE] = .ok (.bra (-2), 2)
  ∧ decodeHalves [0x9264] = .ok (.li 2 100, 1)
  ∧ decodeHalves [0xE803, 0x92E8] = .ok (.li 2 1000, 2)
  ∧ decodeHalves [0xF110, 0xE83E, 0x8448] = .ok (.addi 20 20 1000, 3)
  ∧ decodeHalves [0xE062, 0xE700, 0xE83E, 0x0428] = .ok (.ld 2 ⟨.d, .pred, .plain, .core⟩ 4 2 1000, 4)
  ∧ decodeHalves [0xE063, 0xE68A, 0xF120, 0xE806, 0x0414] = .ok (.ld 3 ⟨.sw, .pred, .acq, .tile⟩ 20 33 100, 5)
  ∧ decodeHalves [0xEC00, 0x0123] = .error (.illegal ⟨.illenc, 0, 14, 1, .none, 0⟩)
  ∧ decodeHalves [0xF000] = .error .truncated

/-- R110, R117, R134: the chain at the pc is what its halfwords, fetched one after another, decode to. -/
def Obligations.FetchedChains : Prop :=
  ∀ (s : State) (id : Nat) (x : Ctx) (i : Instr) (hs : List Half) (ts : Nat → State), decodeHalves hs = .ok (i, hs.length) → ts 0 = s →
    (∀ k h, hs[k]? = some h → fetchHalf (ts k) id x (x.pc + BitVec.ofNat 64 (2 * k)) = .ok (h, ts (k + 1))) →
    fetchChain s id x = .instr i hs (ts hs.length)

/-- R49, R52, R53, R55: in a cycle that the slot of a ready context owns, the step executes the instruction its chain decodes to, at the row that its
operands select (log 64), with the chain in the issue latch and its core done for the cycle. That cores issue one after another within a
cycle, ascending, BANKCFG and CPYQ first and YIELD and HALT last, is the model's choice (log 2). -/
def Obligations.StepRunsDecoded : Prop :=
  ∀ (s t : State) (id : Nat) (x : Ctx) (i : Instr) (ws : List Half),
    let first := issueRank (selectRow s x i)
    Selecting s → (id, x) ∈ s.ctxs → inRotation s x = true → x.slot = s.cyc % 64 →
    s.issued.contains x.at_ = false → (partOf s (x.at_ / 16)).isSome = true → i.enc.isSome = true → (∀ p ∈ s.ctxs, p.2.holdsSlot = true → p = (id, x) ∨ p.2.at_ ∈ s.issued ∨ (p.2.at_ = x.at_ ∧ p.2.slot ≠ x.slot)
      ∨ (x.at_ < p.2.at_ ∧ (first = 0 ∨ first = 1 ∧ ∀ r, candidate s p.1 p.2 = some r → issueRank r.1 ≠ 0))) →
    fetchChain s id x = .instr i ws t → heldBy s id x i = false → issueCheck i x = none → x.stopReq = false → x.kept = [] →
    (∀ b, blockOf i = some b → b.toNat < x.grant.length) → wantsEquipped i x = false → (cbArmed x = true → bits x.cb 31 16 ≠ 0) → bouncedFor s id x = [] →
    (first = 2 → halters s id = []) → comesBack x = false → (∀ c, s.restored = some c → c = x.at_) → topupFirst s id (selectRow s x i) = none →
    step s = exec (selectRow s x i) { t with issue := ⟨some id, ws⟩, issued := x.at_ :: t.issued }

-- Reset and invariants

/-- R21: at reset every bank is in cache-way mode, every block unreserved, and every wait list, ready queue and neighbour queue is empty; scratch
offsets lie in banks of 64 KiB, in an aperture for each tile, and the last half megabyte of an aperture lies in no bank. -/
def Obligations.ResetAndScratch : Prop :=
  (∀ t b, bankMode State.reset t b = .cache) ∧ (∀ t b, (blockAt State.reset t b).reserved = false) ∧ (∀ t, FMap.get [] State.reset.waits t = [])
  ∧ (∀ c, readyOf State.reset c = []) ∧ (∀ c p, portQueue State.reset c p = [])
  ∧ ∀ t off, t < 128 → (off < 0x180000 → regionOf (0x00FF000000000000 + t * 0x200000 + off) = .scratch t off ∧ scratchTile (placeOf t off) = t
      ∧ scratchBank (placeOf t off) = off / 0x10000)
    ∧ (0x180000 ≤ off → off < 0x200000 → regionOf (0x00FF000000000000 + t * 0x200000 + off) = .hole)

/-- The state after reset is canonical; it is in reset with no context living and nothing due, every word is full and free of errors, every barrier
is zero, and the format contexts and partition registers hold their reset values (R178, R290, R450). The model's choices: a byte that nothing
has written reads as zero (log 5), and every entry of the repair map is 15, no row of it fused, as partition registers past the last are 0
(log 4). -/
def Obligations.ResetIsCanonical : Prop :=
  Canonical State.reset ∧ State.reset.phase = .reset ∧ State.reset.ctxs = [] ∧ State.reset.agenda = [] ∧ State.reset.cyc = 0
  ∧ (∀ p, tagAt State.reset p = true ∧ errAt State.reset p = false ∧ readByte State.reset p = 0) ∧ (∀ b, countOf State.reset b = 0)
  ∧ (∀ c, formatOf State.reset c = 0x8E3) ∧ (∀ p, partReg State.reset p 1 = 65536) ∧ (∀ p i, i ≠ 1 → partReg State.reset p i = 0)
  ∧ ∀ e, repairEntry State.reset e = 15

/-- Every step keeps the canonical form of memory, and no generation of a context-table entry passes 4,095 (R42). -/
def Obligations.StepKeepsCanonical : Prop := ∀ s t : State, Canonical s → step s = .next t → Canonical t

/-- R43: the privilege bit and the window size of a context never change, whatever the part does; nor do its partition, its spawner and its barrier
group. -/
def Obligations.PrivilegeAndWindowNeverChange : Prop :=
  ∀ (s t : State) (id : Nat) (x z : Ctx), Canonical s → step s = .next t → ctxOf s id = some x → ctxOf t id = some z →
    z.priv = x.priv ∧ z.window = x.window ∧ z.part = x.part ∧ z.spawner = x.spawner ∧ z.group = x.group
end

