-- ==== Sys2Proof/Laws/FMap.lean ====
section
/-! SUPPORT. The laws of finite maps: a read after a change, a change after a change, and the canonical form that
every change keeps. -/

namespace Sys2Proof.Laws
open Sys2Proof.Machine

variable {α : Type}

theorem find_erase_self (m : FMap α) (k : Nat) : FMap.find? (FMap.erase m k) k = none := by
  induction m with
  | nil => rfl
  | cons p m ih =>
    obtain ⟨j, v⟩ := p
    by_cases h : j = k <;> simp [FMap.erase, FMap.find?, h, ih]
theorem find_erase_of_ne (m : FMap α) {k j : Nat} (h : j ≠ k) : FMap.find? (FMap.erase m k) j = FMap.find? m j := by
  induction m with
  | nil => rfl
  | cons p m ih =>
    obtain ⟨i, v⟩ := p
    by_cases hk : i = k
    · subst hk; simp [FMap.erase, FMap.find?, ih, Ne.symm h]
    · by_cases hj : i = j
      · subst hj; simp [FMap.erase, FMap.find?, hk]
      · simp [FMap.erase, FMap.find?, hk, hj, ih]
theorem find_insert_self (m : FMap α) (k : Nat) (v : α) (h : FMap.find? m k = none) : FMap.find? (FMap.insert m k v) k = some v := by
  induction m with
  | nil => simp [FMap.insert, FMap.find?]
  | cons p m ih =>
    obtain ⟨j, w⟩ := p
    by_cases hj : j = k
    · simp [FMap.find?, hj] at h
    · simp only [FMap.find?, if_neg hj] at h
      by_cases hl : k < j <;> simp [FMap.insert, FMap.find?, hl, hj, ih h]
theorem find_insert_of_ne (m : FMap α) {k j : Nat} (v : α) (h : j ≠ k) : FMap.find? (FMap.insert m k v) j = FMap.find? m j := by
  induction m with
  | nil => simp [FMap.insert, FMap.find?, Ne.symm h]
  | cons p m ih =>
    obtain ⟨i, w⟩ := p
    by_cases hl : k < i
    · simp [FMap.insert, FMap.find?, hl, Ne.symm h]
    · by_cases hj : i = j
      · subst hj; simp [FMap.insert, FMap.find?, hl]
      · simp [FMap.insert, FMap.find?, hl, hj, ih]
/-- The entry at a key after it is put there. -/
@[simp] theorem find_put_self (m : FMap α) (k : Nat) (v : α) : FMap.find? (FMap.put m k v) k = some v :=
  find_insert_self _ _ _ (find_erase_self m k)
/-- Every other entry stays. -/
theorem find_put_of_ne (m : FMap α) {k j : Nat} (v : α) (h : j ≠ k) : FMap.find? (FMap.put m k v) j = FMap.find? m j := by
  rw [FMap.put, find_insert_of_ne _ _ h, find_erase_of_ne _ h]
theorem erase_erase (m : FMap α) (k : Nat) : FMap.erase (FMap.erase m k) k = FMap.erase m k := by
  induction m with
  | nil => rfl
  | cons p m ih =>
    obtain ⟨j, v⟩ := p
    by_cases h : j = k <;> simp [FMap.erase, h, ih]
theorem erase_insert_self (m : FMap α) (k : Nat) (v : α) : FMap.erase (FMap.insert m k v) k = FMap.erase m k := by
  induction m with
  | nil => simp [FMap.insert, FMap.erase]
  | cons p m ih =>
    obtain ⟨j, w⟩ := p
    by_cases hl : k < j
    · simp [FMap.insert, FMap.erase, hl]
    · by_cases hj : j = k <;> simp [FMap.insert, FMap.erase, hl, hj, ih]
/-- The later of two entries put at a key is the one that counts. -/
@[simp] theorem put_put (m : FMap α) (k : Nat) (v w : α) : FMap.put (FMap.put m k v) k w = FMap.put m k w := by
  rw [FMap.put, FMap.put, erase_insert_self, erase_erase, FMap.put]

theorem get_erase_self (d : α) (m : FMap α) (k : Nat) : FMap.get d (FMap.erase m k) k = d := by
  induction m with
  | nil => rfl
  | cons p m ih =>
    obtain ⟨j, v⟩ := p
    by_cases h : j = k <;> simp [FMap.erase, FMap.get, h, ih]
theorem get_erase_of_ne (d : α) (m : FMap α) {k j : Nat} (h : j ≠ k) : FMap.get d (FMap.erase m k) j = FMap.get d m j := by
  induction m with
  | nil => rfl
  | cons p m ih =>
    obtain ⟨i, v⟩ := p
    by_cases hk : i = k
    · subst hk; simp [FMap.erase, FMap.get, ih, Ne.symm h]
    · by_cases hj : i = j
      · subst hj; simp [FMap.erase, FMap.get, hk]
      · simp [FMap.erase, FMap.get, hk, hj, ih]
theorem get_insert_erase_self (d : α) (m : FMap α) (k : Nat) (v : α) : FMap.get d (FMap.insert (FMap.erase m k) k v) k = v := by
  induction m with
  | nil => simp [FMap.erase, FMap.insert, FMap.get]
  | cons p m ih =>
    obtain ⟨j, w⟩ := p
    by_cases hj : j = k
    · simp [FMap.erase, hj, ih]
    · by_cases hl : k < j <;> simp [FMap.erase, FMap.insert, FMap.get, hl, hj, ih]
theorem get_insert_of_ne (d : α) (m : FMap α) {k j : Nat} (v : α) (h : j ≠ k) : FMap.get d (FMap.insert m k v) j = FMap.get d m j := by
  induction m with
  | nil => simp [FMap.insert, FMap.get, Ne.symm h]
  | cons p m ih =>
    obtain ⟨i, w⟩ := p
    by_cases hl : k < i
    · simp [FMap.insert, FMap.get, hl, Ne.symm h]
    · by_cases hj : i = j
      · subst hj; simp [FMap.insert, FMap.get, hl]
      · simp [FMap.insert, FMap.get, hl, hj, ih]

variable [DecidableEq α]

/-- The value at a key after it is set. -/
@[simp] theorem get_set_self (d : α) (m : FMap α) (k : Nat) (v : α) : FMap.get d (FMap.set d m k v) k = v := by
  unfold FMap.set
  by_cases h : v = d
  · rw [if_pos h, get_erase_self, h]
  · rw [if_neg h, get_insert_erase_self]
/-- Every other value stays. -/
theorem get_set_of_ne (d : α) (m : FMap α) {k j : Nat} (v : α) (h : j ≠ k) : FMap.get d (FMap.set d m k v) j = FMap.get d m j := by
  unfold FMap.set
  by_cases hv : v = d
  · rw [if_pos hv, get_erase_of_ne _ _ h]
  · rw [if_neg hv, get_insert_of_ne _ _ _ h, get_erase_of_ne _ _ h]

-- The canonical form

theorem wfFrom_mono (d : α) (m : FMap α) {a b : Nat} (h : b ≤ a) (hm : FMap.wfFrom d a m = true) : FMap.wfFrom d b m = true := by
  cases m with
  | nil => rfl
  | cons p m =>
    obtain ⟨k, v⟩ := p
    simp only [FMap.wfFrom, Bool.and_eq_true, decide_eq_true_eq] at hm ⊢
    exact ⟨⟨Nat.le_trans h hm.1.1, hm.1.2⟩, hm.2⟩
theorem wfFrom_filter (d : α) (p : Nat × α → Bool) (m : FMap α) (a : Nat) (h : FMap.wfFrom d a m = true) :
    FMap.wfFrom d a (m.filter p) = true := by
  induction m generalizing a with
  | nil => rfl
  | cons c m ih =>
    obtain ⟨k, v⟩ := c
    simp only [FMap.wfFrom, Bool.and_eq_true, decide_eq_true_eq] at h
    by_cases hp : p (k, v) = true
    · simp only [List.filter_cons, hp, if_true, FMap.wfFrom, Bool.and_eq_true, decide_eq_true_eq]
      exact ⟨h.1, ih _ h.2⟩
    · simp only [List.filter_cons, if_neg hp]
      exact wfFrom_mono d _ (Nat.le_trans h.1.1 (Nat.le_succ k)) (ih _ h.2)
theorem wfFrom_erase (d : α) (m : FMap α) (k a : Nat) (h : FMap.wfFrom d a m = true) : FMap.wfFrom d a (FMap.erase m k) = true := by
  induction m generalizing a with
  | nil => rfl
  | cons c m ih =>
    obtain ⟨j, v⟩ := c
    simp only [FMap.wfFrom, Bool.and_eq_true, decide_eq_true_eq] at h
    by_cases hj : j = k
    · simp only [FMap.erase, if_pos hj]
      exact wfFrom_mono d _ (Nat.le_trans h.1.1 (Nat.le_succ j)) (ih _ h.2)
    · simp only [FMap.erase, if_neg hj, FMap.wfFrom, Bool.and_eq_true, decide_eq_true_eq]
      exact ⟨h.1, ih _ h.2⟩
theorem wfFrom_insert_erase (d : α) (m : FMap α) (k a : Nat) (v : α) (hv : v ≠ d) (ha : a ≤ k) (h : FMap.wfFrom d a m = true) :
    FMap.wfFrom d a (FMap.insert (FMap.erase m k) k v) = true := by
  induction m generalizing a with
  | nil => simp [FMap.erase, FMap.insert, FMap.wfFrom, ha, hv]
  | cons c m ih =>
    obtain ⟨j, w⟩ := c
    simp only [FMap.wfFrom, Bool.and_eq_true, decide_eq_true_eq] at h
    by_cases hj : j = k
    · simp only [FMap.erase, if_pos hj]
      exact ih a ha (wfFrom_mono d _ (Nat.le_trans h.1.1 (Nat.le_succ j)) h.2)
    · by_cases hl : k < j
      · have hm := wfFrom_erase d m k _ h.2
        simp only [FMap.erase, if_neg hj, FMap.insert, if_pos hl, FMap.wfFrom, Bool.and_eq_true, decide_eq_true_eq]
        exact ⟨⟨ha, hv⟩, ⟨hl, h.1.2⟩, hm⟩
      · simp only [FMap.erase, if_neg hj, FMap.insert, if_neg hl, FMap.wfFrom, Bool.and_eq_true, decide_eq_true_eq]
        exact ⟨h.1, ih (j + 1) (by omega) h.2⟩
/-- A change keeps the canonical form. -/
theorem wf_set (d : α) (m : FMap α) (k : Nat) (v : α) (h : FMap.wf d m = true) : FMap.wf d (FMap.set d m k v) = true := by
  unfold FMap.set FMap.wf at *
  by_cases hv : v = d
  · rw [if_pos hv]; exact wfFrom_erase d m k 0 h
  · rw [if_neg hv]; exact wfFrom_insert_erase d m k 0 v hv (Nat.zero_le k) h
/-- Entries dropped keep the canonical form. -/
theorem wf_filter (d : α) (p : Nat × α → Bool) (m : FMap α) (h : FMap.wf d m = true) : FMap.wf d (m.filter p) = true :=
  wfFrom_filter d p m 0 h

end Sys2Proof.Laws
end

