-- ==== Sys2Proof/Laws/State.lean ====
section
/-! SUPPORT. Each field of the state after each named update of it. -/

namespace Sys2Proof.Laws
open Sys2Proof.Machine

variable (s : State)

section
variable (id : Nat) (x : Ctx)
@[simp] theorem setCtx_phase : (setCtx s id x).phase = s.phase := rfl
@[simp] theorem setCtx_pins : (setCtx s id x).pins = s.pins := rfl
@[simp] theorem setCtx_findings : (setCtx s id x).findings = s.findings := rfl
@[simp] theorem setCtx_temp : (setCtx s id x).temp = s.temp := rfl
@[simp] theorem setCtx_cyc : (setCtx s id x).cyc = s.cyc := rfl
@[simp] theorem setCtx_issued : (setCtx s id x).issued = s.issued := rfl
@[simp] theorem setCtx_draws : (setCtx s id x).draws = s.draws := rfl
@[simp] theorem setCtx_uid : (setCtx s id x).uid = s.uid := rfl
@[simp] theorem setCtx_issue : (setCtx s id x).issue = s.issue := rfl
@[simp] theorem setCtx_agenda : (setCtx s id x).agenda = s.agenda := rfl
@[simp] theorem setCtx_mem : (setCtx s id x).mem = s.mem := rfl
@[simp] theorem setCtx_tags : (setCtx s id x).tags = s.tags := rfl
@[simp] theorem setCtx_errs : (setCtx s id x).errs = s.errs := rfl
@[simp] theorem setCtx_zmap : (setCtx s id x).zmap = s.zmap := rfl
@[simp] theorem setCtx_tiles : (setCtx s id x).tiles = s.tiles := rfl
@[simp] theorem setCtx_banks : (setCtx s id x).banks = s.banks := rfl
@[simp] theorem setCtx_drains : (setCtx s id x).drains = s.drains := rfl
@[simp] theorem setCtx_fifos : (setCtx s id x).fifos = s.fifos := rfl
@[simp] theorem setCtx_ways : (setCtx s id x).ways = s.ways := rfl
@[simp] theorem setCtx_rr : (setCtx s id x).rr = s.rr := rfl
@[simp] theorem setCtx_tlb1 : (setCtx s id x).tlb1 = s.tlb1 := rfl
@[simp] theorem setCtx_tlb2 : (setCtx s id x).tlb2 = s.tlb2 := rfl
@[simp] theorem setCtx_waits : (setCtx s id x).waits = s.waits := rfl
@[simp] theorem setCtx_barriers : (setCtx s id x).barriers = s.barriers := rfl
@[simp] theorem setCtx_owed : (setCtx s id x).owed = s.owed := rfl
@[simp] theorem setCtx_copies : (setCtx s id x).copies = s.copies := rfl
@[simp] theorem setCtx_engines : (setCtx s id x).engines = s.engines := rfl
@[simp] theorem setCtx_formats : (setCtx s id x).formats = s.formats := rfl
@[simp] theorem setCtx_blocks : (setCtx s id x).blocks = s.blocks := rfl
@[simp] theorem setCtx_sends : (setCtx s id x).sends = s.sends := rfl
@[simp] theorem setCtx_spillWait : (setCtx s id x).spillWait = s.spillWait := rfl
@[simp] theorem setCtx_gens : (setCtx s id x).gens = s.gens := rfl
@[simp] theorem setCtx_kennels : (setCtx s id x).kennels = s.kennels := rfl
@[simp] theorem setCtx_ovf : (setCtx s id x).ovf = s.ovf := rfl
@[simp] theorem setCtx_ovfWait : (setCtx s id x).ovfWait = s.ovfWait := rfl
@[simp] theorem setCtx_arrivals : (setCtx s id x).arrivals = s.arrivals := rfl
@[simp] theorem setCtx_ready : (setCtx s id x).ready = s.ready := rfl
@[simp] theorem setCtx_emptied : (setCtx s id x).emptied = s.emptied := rfl
@[simp] theorem setCtx_swaps : (setCtx s id x).swaps = s.swaps := rfl
@[simp] theorem setCtx_ports : (setCtx s id x).ports = s.ports := rfl
@[simp] theorem setCtx_ctxs : (setCtx s id x).ctxs = FMap.put s.ctxs id x := rfl
@[simp] theorem setCtx_parts : (setCtx s id x).parts = s.parts := rfl
@[simp] theorem setCtx_spills : (setCtx s id x).spills = s.spills := rfl
@[simp] theorem setCtx_wakes : (setCtx s id x).wakes = s.wakes := rfl
@[simp] theorem setCtx_latched : (setCtx s id x).latched = s.latched := rfl
@[simp] theorem setCtx_wayMaps : (setCtx s id x).wayMaps = s.wayMaps := rfl
@[simp] theorem setCtx_live : (setCtx s id x).live = s.live := rfl
@[simp] theorem setCtx_shadow : (setCtx s id x).shadow = s.shadow := rfl
@[simp] theorem setCtx_windows : (setCtx s id x).windows = s.windows := rfl
@[simp] theorem setCtx_versions : (setCtx s id x).versions = s.versions := rfl
@[simp] theorem setCtx_counters : (setCtx s id x).counters = s.counters := rfl
@[simp] theorem setCtx_repairMap : (setCtx s id x).repairMap = s.repairMap := rfl
@[simp] theorem setCtx_rollback : (setCtx s id x).rollback = s.rollback := rfl
@[simp] theorem setCtx_keyDigest : (setCtx s id x).keyDigest = s.keyDigest := rfl
@[simp] theorem setCtx_flash : (setCtx s id x).flash = s.flash := rfl
@[simp] theorem setCtx_measures : (setCtx s id x).measures = s.measures := rfl
@[simp] theorem setCtx_quote : (setCtx s id x).quote = s.quote := rfl
@[simp] theorem setCtx_faultLog : (setCtx s id x).faultLog = s.faultLog := rfl
@[simp] theorem setCtx_logNext : (setCtx s id x).logNext = s.logNext := rfl
@[simp] theorem setCtx_ethTable : (setCtx s id x).ethTable = s.ethTable := rfl
@[simp] theorem setCtx_ethPorts : (setCtx s id x).ethPorts = s.ethPorts := rfl
@[simp] theorem setCtx_msi : (setCtx s id x).msi = s.msi := rfl
@[simp] theorem setCtx_heads : (setCtx s id x).heads = s.heads := rfl
@[simp] theorem setCtx_vigil : (setCtx s id x).vigil = s.vigil := rfl
@[simp] theorem setCtx_standby : (setCtx s id x).standby = s.standby := rfl
@[simp] theorem setCtx_heldFrame : (setCtx s id x).heldFrame = s.heldFrame := rfl
@[simp] theorem setCtx_restoring : (setCtx s id x).restoring = s.restoring := rfl
@[simp] theorem setCtx_restored : (setCtx s id x).restored = s.restored := rfl
@[simp] theorem setCtx_sentFrames : (setCtx s id x).sentFrames = s.sentFrames := rfl
@[simp] theorem setCtx_alertFrom : (setCtx s id x).alertFrom = s.alertFrom := rfl
@[simp] theorem setCtx_graphs : (setCtx s id x).graphs = s.graphs := rfl
@[simp] theorem setCtx_feWait : (setCtx s id x).feWait = s.feWait := rfl
@[simp] theorem setCtx_fePark : (setCtx s id x).fePark = s.fePark := rfl
@[simp] theorem setCtx_rung : (setCtx s id x).rung = s.rung := rfl
@[simp] theorem setCtx_uploadBell : (setCtx s id x).uploadBell = s.uploadBell := rfl
end

section
variable (p : Nat) (bs : List Byte)
@[simp] theorem writeBytes_phase : (writeBytes s p bs).phase = s.phase := rfl
@[simp] theorem writeBytes_pins : (writeBytes s p bs).pins = s.pins := rfl
@[simp] theorem writeBytes_findings : (writeBytes s p bs).findings = s.findings := rfl
@[simp] theorem writeBytes_temp : (writeBytes s p bs).temp = s.temp := rfl
@[simp] theorem writeBytes_cyc : (writeBytes s p bs).cyc = s.cyc := rfl
@[simp] theorem writeBytes_issued : (writeBytes s p bs).issued = s.issued := rfl
@[simp] theorem writeBytes_draws : (writeBytes s p bs).draws = s.draws := rfl
@[simp] theorem writeBytes_uid : (writeBytes s p bs).uid = s.uid := rfl
@[simp] theorem writeBytes_issue : (writeBytes s p bs).issue = s.issue := rfl
@[simp] theorem writeBytes_agenda : (writeBytes s p bs).agenda = s.agenda := rfl
@[simp] theorem writeBytes_mem : (writeBytes s p bs).mem = putBytes s.mem p bs := rfl
@[simp] theorem writeBytes_tags : (writeBytes s p bs).tags = s.tags := rfl
@[simp] theorem writeBytes_errs : (writeBytes s p bs).errs = s.errs := rfl
@[simp] theorem writeBytes_zmap : (writeBytes s p bs).zmap = s.zmap := rfl
@[simp] theorem writeBytes_tiles : (writeBytes s p bs).tiles = s.tiles := rfl
@[simp] theorem writeBytes_banks : (writeBytes s p bs).banks = s.banks := rfl
@[simp] theorem writeBytes_drains : (writeBytes s p bs).drains = s.drains := rfl
@[simp] theorem writeBytes_fifos : (writeBytes s p bs).fifos = s.fifos := rfl
@[simp] theorem writeBytes_ways : (writeBytes s p bs).ways = s.ways := rfl
@[simp] theorem writeBytes_rr : (writeBytes s p bs).rr = s.rr := rfl
@[simp] theorem writeBytes_tlb1 : (writeBytes s p bs).tlb1 = s.tlb1 := rfl
@[simp] theorem writeBytes_tlb2 : (writeBytes s p bs).tlb2 = s.tlb2 := rfl
@[simp] theorem writeBytes_waits : (writeBytes s p bs).waits = s.waits := rfl
@[simp] theorem writeBytes_barriers : (writeBytes s p bs).barriers = s.barriers := rfl
@[simp] theorem writeBytes_owed : (writeBytes s p bs).owed = s.owed := rfl
@[simp] theorem writeBytes_copies : (writeBytes s p bs).copies = s.copies := rfl
@[simp] theorem writeBytes_engines : (writeBytes s p bs).engines = s.engines := rfl
@[simp] theorem writeBytes_formats : (writeBytes s p bs).formats = s.formats := rfl
@[simp] theorem writeBytes_blocks : (writeBytes s p bs).blocks = s.blocks := rfl
@[simp] theorem writeBytes_sends : (writeBytes s p bs).sends = s.sends := rfl
@[simp] theorem writeBytes_spillWait : (writeBytes s p bs).spillWait = s.spillWait := rfl
@[simp] theorem writeBytes_gens : (writeBytes s p bs).gens = s.gens := rfl
@[simp] theorem writeBytes_kennels : (writeBytes s p bs).kennels = s.kennels := rfl
@[simp] theorem writeBytes_ovf : (writeBytes s p bs).ovf = s.ovf := rfl
@[simp] theorem writeBytes_ovfWait : (writeBytes s p bs).ovfWait = s.ovfWait := rfl
@[simp] theorem writeBytes_arrivals : (writeBytes s p bs).arrivals = s.arrivals := rfl
@[simp] theorem writeBytes_ready : (writeBytes s p bs).ready = s.ready := rfl
@[simp] theorem writeBytes_emptied : (writeBytes s p bs).emptied = s.emptied := rfl
@[simp] theorem writeBytes_swaps : (writeBytes s p bs).swaps = s.swaps := rfl
@[simp] theorem writeBytes_ports : (writeBytes s p bs).ports = s.ports := rfl
@[simp] theorem writeBytes_ctxs : (writeBytes s p bs).ctxs = s.ctxs := rfl
@[simp] theorem writeBytes_parts : (writeBytes s p bs).parts = s.parts := rfl
@[simp] theorem writeBytes_spills : (writeBytes s p bs).spills = s.spills := rfl
@[simp] theorem writeBytes_wakes : (writeBytes s p bs).wakes = s.wakes := rfl
@[simp] theorem writeBytes_latched : (writeBytes s p bs).latched = s.latched := rfl
@[simp] theorem writeBytes_wayMaps : (writeBytes s p bs).wayMaps = s.wayMaps := rfl
@[simp] theorem writeBytes_live : (writeBytes s p bs).live = s.live := rfl
@[simp] theorem writeBytes_shadow : (writeBytes s p bs).shadow = s.shadow := rfl
@[simp] theorem writeBytes_windows : (writeBytes s p bs).windows = s.windows := rfl
@[simp] theorem writeBytes_versions : (writeBytes s p bs).versions = s.versions := rfl
@[simp] theorem writeBytes_counters : (writeBytes s p bs).counters = s.counters := rfl
@[simp] theorem writeBytes_repairMap : (writeBytes s p bs).repairMap = s.repairMap := rfl
@[simp] theorem writeBytes_rollback : (writeBytes s p bs).rollback = s.rollback := rfl
@[simp] theorem writeBytes_keyDigest : (writeBytes s p bs).keyDigest = s.keyDigest := rfl
@[simp] theorem writeBytes_flash : (writeBytes s p bs).flash = s.flash := rfl
@[simp] theorem writeBytes_measures : (writeBytes s p bs).measures = s.measures := rfl
@[simp] theorem writeBytes_quote : (writeBytes s p bs).quote = s.quote := rfl
@[simp] theorem writeBytes_faultLog : (writeBytes s p bs).faultLog = s.faultLog := rfl
@[simp] theorem writeBytes_logNext : (writeBytes s p bs).logNext = s.logNext := rfl
@[simp] theorem writeBytes_ethTable : (writeBytes s p bs).ethTable = s.ethTable := rfl
@[simp] theorem writeBytes_ethPorts : (writeBytes s p bs).ethPorts = s.ethPorts := rfl
@[simp] theorem writeBytes_msi : (writeBytes s p bs).msi = s.msi := rfl
@[simp] theorem writeBytes_heads : (writeBytes s p bs).heads = s.heads := rfl
@[simp] theorem writeBytes_vigil : (writeBytes s p bs).vigil = s.vigil := rfl
@[simp] theorem writeBytes_standby : (writeBytes s p bs).standby = s.standby := rfl
@[simp] theorem writeBytes_heldFrame : (writeBytes s p bs).heldFrame = s.heldFrame := rfl
@[simp] theorem writeBytes_restoring : (writeBytes s p bs).restoring = s.restoring := rfl
@[simp] theorem writeBytes_restored : (writeBytes s p bs).restored = s.restored := rfl
@[simp] theorem writeBytes_sentFrames : (writeBytes s p bs).sentFrames = s.sentFrames := rfl
@[simp] theorem writeBytes_alertFrom : (writeBytes s p bs).alertFrom = s.alertFrom := rfl
@[simp] theorem writeBytes_graphs : (writeBytes s p bs).graphs = s.graphs := rfl
@[simp] theorem writeBytes_feWait : (writeBytes s p bs).feWait = s.feWait := rfl
@[simp] theorem writeBytes_fePark : (writeBytes s p bs).fePark = s.fePark := rfl
@[simp] theorem writeBytes_rung : (writeBytes s p bs).rung = s.rung := rfl
@[simp] theorem writeBytes_uploadBell : (writeBytes s p bs).uploadBell = s.uploadBell := rfl
end

section
variable (p n : Nat) (v : Reg) (k : BitVec 64)
@[simp] theorem writeMasked_phase : (writeMasked s p n v k).phase = s.phase := rfl
@[simp] theorem writeMasked_pins : (writeMasked s p n v k).pins = s.pins := rfl
@[simp] theorem writeMasked_findings : (writeMasked s p n v k).findings = s.findings := rfl
@[simp] theorem writeMasked_temp : (writeMasked s p n v k).temp = s.temp := rfl
@[simp] theorem writeMasked_cyc : (writeMasked s p n v k).cyc = s.cyc := rfl
@[simp] theorem writeMasked_issued : (writeMasked s p n v k).issued = s.issued := rfl
@[simp] theorem writeMasked_draws : (writeMasked s p n v k).draws = s.draws := rfl
@[simp] theorem writeMasked_uid : (writeMasked s p n v k).uid = s.uid := rfl
@[simp] theorem writeMasked_issue : (writeMasked s p n v k).issue = s.issue := rfl
@[simp] theorem writeMasked_agenda : (writeMasked s p n v k).agenda = s.agenda := rfl
@[simp] theorem writeMasked_mem : (writeMasked s p n v k).mem = putMasked v k p s.mem 0 n := rfl
@[simp] theorem writeMasked_tags : (writeMasked s p n v k).tags = s.tags := rfl
@[simp] theorem writeMasked_errs : (writeMasked s p n v k).errs = s.errs := rfl
@[simp] theorem writeMasked_zmap : (writeMasked s p n v k).zmap = s.zmap := rfl
@[simp] theorem writeMasked_tiles : (writeMasked s p n v k).tiles = s.tiles := rfl
@[simp] theorem writeMasked_banks : (writeMasked s p n v k).banks = s.banks := rfl
@[simp] theorem writeMasked_drains : (writeMasked s p n v k).drains = s.drains := rfl
@[simp] theorem writeMasked_fifos : (writeMasked s p n v k).fifos = s.fifos := rfl
@[simp] theorem writeMasked_ways : (writeMasked s p n v k).ways = s.ways := rfl
@[simp] theorem writeMasked_rr : (writeMasked s p n v k).rr = s.rr := rfl
@[simp] theorem writeMasked_tlb1 : (writeMasked s p n v k).tlb1 = s.tlb1 := rfl
@[simp] theorem writeMasked_tlb2 : (writeMasked s p n v k).tlb2 = s.tlb2 := rfl
@[simp] theorem writeMasked_waits : (writeMasked s p n v k).waits = s.waits := rfl
@[simp] theorem writeMasked_barriers : (writeMasked s p n v k).barriers = s.barriers := rfl
@[simp] theorem writeMasked_owed : (writeMasked s p n v k).owed = s.owed := rfl
@[simp] theorem writeMasked_copies : (writeMasked s p n v k).copies = s.copies := rfl
@[simp] theorem writeMasked_engines : (writeMasked s p n v k).engines = s.engines := rfl
@[simp] theorem writeMasked_formats : (writeMasked s p n v k).formats = s.formats := rfl
@[simp] theorem writeMasked_blocks : (writeMasked s p n v k).blocks = s.blocks := rfl
@[simp] theorem writeMasked_sends : (writeMasked s p n v k).sends = s.sends := rfl
@[simp] theorem writeMasked_spillWait : (writeMasked s p n v k).spillWait = s.spillWait := rfl
@[simp] theorem writeMasked_gens : (writeMasked s p n v k).gens = s.gens := rfl
@[simp] theorem writeMasked_kennels : (writeMasked s p n v k).kennels = s.kennels := rfl
@[simp] theorem writeMasked_ovf : (writeMasked s p n v k).ovf = s.ovf := rfl
@[simp] theorem writeMasked_ovfWait : (writeMasked s p n v k).ovfWait = s.ovfWait := rfl
@[simp] theorem writeMasked_arrivals : (writeMasked s p n v k).arrivals = s.arrivals := rfl
@[simp] theorem writeMasked_ready : (writeMasked s p n v k).ready = s.ready := rfl
@[simp] theorem writeMasked_emptied : (writeMasked s p n v k).emptied = s.emptied := rfl
@[simp] theorem writeMasked_swaps : (writeMasked s p n v k).swaps = s.swaps := rfl
@[simp] theorem writeMasked_ports : (writeMasked s p n v k).ports = s.ports := rfl
@[simp] theorem writeMasked_ctxs : (writeMasked s p n v k).ctxs = s.ctxs := rfl
@[simp] theorem writeMasked_parts : (writeMasked s p n v k).parts = s.parts := rfl
@[simp] theorem writeMasked_spills : (writeMasked s p n v k).spills = s.spills := rfl
@[simp] theorem writeMasked_wakes : (writeMasked s p n v k).wakes = s.wakes := rfl
@[simp] theorem writeMasked_latched : (writeMasked s p n v k).latched = s.latched := rfl
@[simp] theorem writeMasked_wayMaps : (writeMasked s p n v k).wayMaps = s.wayMaps := rfl
@[simp] theorem writeMasked_live : (writeMasked s p n v k).live = s.live := rfl
@[simp] theorem writeMasked_shadow : (writeMasked s p n v k).shadow = s.shadow := rfl
@[simp] theorem writeMasked_windows : (writeMasked s p n v k).windows = s.windows := rfl
@[simp] theorem writeMasked_versions : (writeMasked s p n v k).versions = s.versions := rfl
@[simp] theorem writeMasked_counters : (writeMasked s p n v k).counters = s.counters := rfl
@[simp] theorem writeMasked_repairMap : (writeMasked s p n v k).repairMap = s.repairMap := rfl
@[simp] theorem writeMasked_rollback : (writeMasked s p n v k).rollback = s.rollback := rfl
@[simp] theorem writeMasked_keyDigest : (writeMasked s p n v k).keyDigest = s.keyDigest := rfl
@[simp] theorem writeMasked_flash : (writeMasked s p n v k).flash = s.flash := rfl
@[simp] theorem writeMasked_measures : (writeMasked s p n v k).measures = s.measures := rfl
@[simp] theorem writeMasked_quote : (writeMasked s p n v k).quote = s.quote := rfl
@[simp] theorem writeMasked_faultLog : (writeMasked s p n v k).faultLog = s.faultLog := rfl
@[simp] theorem writeMasked_logNext : (writeMasked s p n v k).logNext = s.logNext := rfl
@[simp] theorem writeMasked_ethTable : (writeMasked s p n v k).ethTable = s.ethTable := rfl
@[simp] theorem writeMasked_ethPorts : (writeMasked s p n v k).ethPorts = s.ethPorts := rfl
@[simp] theorem writeMasked_msi : (writeMasked s p n v k).msi = s.msi := rfl
@[simp] theorem writeMasked_heads : (writeMasked s p n v k).heads = s.heads := rfl
@[simp] theorem writeMasked_vigil : (writeMasked s p n v k).vigil = s.vigil := rfl
@[simp] theorem writeMasked_standby : (writeMasked s p n v k).standby = s.standby := rfl
@[simp] theorem writeMasked_heldFrame : (writeMasked s p n v k).heldFrame = s.heldFrame := rfl
@[simp] theorem writeMasked_restoring : (writeMasked s p n v k).restoring = s.restoring := rfl
@[simp] theorem writeMasked_restored : (writeMasked s p n v k).restored = s.restored := rfl
@[simp] theorem writeMasked_sentFrames : (writeMasked s p n v k).sentFrames = s.sentFrames := rfl
@[simp] theorem writeMasked_alertFrom : (writeMasked s p n v k).alertFrom = s.alertFrom := rfl
@[simp] theorem writeMasked_graphs : (writeMasked s p n v k).graphs = s.graphs := rfl
@[simp] theorem writeMasked_feWait : (writeMasked s p n v k).feWait = s.feWait := rfl
@[simp] theorem writeMasked_fePark : (writeMasked s p n v k).fePark = s.fePark := rfl
@[simp] theorem writeMasked_rung : (writeMasked s p n v k).rung = s.rung := rfl
@[simp] theorem writeMasked_uploadBell : (writeMasked s p n v k).uploadBell = s.uploadBell := rfl
end

section
variable (p : Nat) (full : Bool)
@[simp] theorem setTag_phase : (setTag s p full).phase = s.phase := rfl
@[simp] theorem setTag_pins : (setTag s p full).pins = s.pins := rfl
@[simp] theorem setTag_findings : (setTag s p full).findings = s.findings := rfl
@[simp] theorem setTag_temp : (setTag s p full).temp = s.temp := rfl
@[simp] theorem setTag_cyc : (setTag s p full).cyc = s.cyc := rfl
@[simp] theorem setTag_issued : (setTag s p full).issued = s.issued := rfl
@[simp] theorem setTag_draws : (setTag s p full).draws = s.draws := rfl
@[simp] theorem setTag_uid : (setTag s p full).uid = s.uid := rfl
@[simp] theorem setTag_issue : (setTag s p full).issue = s.issue := rfl
@[simp] theorem setTag_agenda : (setTag s p full).agenda = s.agenda := rfl
@[simp] theorem setTag_mem : (setTag s p full).mem = s.mem := rfl
@[simp] theorem setTag_tags : (setTag s p full).tags = FMap.set true s.tags (p / 8) full := rfl
@[simp] theorem setTag_errs : (setTag s p full).errs = s.errs := rfl
@[simp] theorem setTag_zmap : (setTag s p full).zmap = s.zmap := rfl
@[simp] theorem setTag_tiles : (setTag s p full).tiles = s.tiles := rfl
@[simp] theorem setTag_banks : (setTag s p full).banks = s.banks := rfl
@[simp] theorem setTag_drains : (setTag s p full).drains = s.drains := rfl
@[simp] theorem setTag_fifos : (setTag s p full).fifos = s.fifos := rfl
@[simp] theorem setTag_ways : (setTag s p full).ways = s.ways := rfl
@[simp] theorem setTag_rr : (setTag s p full).rr = s.rr := rfl
@[simp] theorem setTag_tlb1 : (setTag s p full).tlb1 = s.tlb1 := rfl
@[simp] theorem setTag_tlb2 : (setTag s p full).tlb2 = s.tlb2 := rfl
@[simp] theorem setTag_waits : (setTag s p full).waits = s.waits := rfl
@[simp] theorem setTag_barriers : (setTag s p full).barriers = s.barriers := rfl
@[simp] theorem setTag_owed : (setTag s p full).owed = s.owed := rfl
@[simp] theorem setTag_copies : (setTag s p full).copies = s.copies := rfl
@[simp] theorem setTag_engines : (setTag s p full).engines = s.engines := rfl
@[simp] theorem setTag_formats : (setTag s p full).formats = s.formats := rfl
@[simp] theorem setTag_blocks : (setTag s p full).blocks = s.blocks := rfl
@[simp] theorem setTag_sends : (setTag s p full).sends = s.sends := rfl
@[simp] theorem setTag_spillWait : (setTag s p full).spillWait = s.spillWait := rfl
@[simp] theorem setTag_gens : (setTag s p full).gens = s.gens := rfl
@[simp] theorem setTag_kennels : (setTag s p full).kennels = s.kennels := rfl
@[simp] theorem setTag_ovf : (setTag s p full).ovf = s.ovf := rfl
@[simp] theorem setTag_ovfWait : (setTag s p full).ovfWait = s.ovfWait := rfl
@[simp] theorem setTag_arrivals : (setTag s p full).arrivals = s.arrivals := rfl
@[simp] theorem setTag_ready : (setTag s p full).ready = s.ready := rfl
@[simp] theorem setTag_emptied : (setTag s p full).emptied = s.emptied := rfl
@[simp] theorem setTag_swaps : (setTag s p full).swaps = s.swaps := rfl
@[simp] theorem setTag_ports : (setTag s p full).ports = s.ports := rfl
@[simp] theorem setTag_ctxs : (setTag s p full).ctxs = s.ctxs := rfl
@[simp] theorem setTag_parts : (setTag s p full).parts = s.parts := rfl
@[simp] theorem setTag_spills : (setTag s p full).spills = s.spills := rfl
@[simp] theorem setTag_wakes : (setTag s p full).wakes = s.wakes := rfl
@[simp] theorem setTag_latched : (setTag s p full).latched = s.latched := rfl
@[simp] theorem setTag_wayMaps : (setTag s p full).wayMaps = s.wayMaps := rfl
@[simp] theorem setTag_live : (setTag s p full).live = s.live := rfl
@[simp] theorem setTag_shadow : (setTag s p full).shadow = s.shadow := rfl
@[simp] theorem setTag_windows : (setTag s p full).windows = s.windows := rfl
@[simp] theorem setTag_versions : (setTag s p full).versions = s.versions := rfl
@[simp] theorem setTag_counters : (setTag s p full).counters = s.counters := rfl
@[simp] theorem setTag_repairMap : (setTag s p full).repairMap = s.repairMap := rfl
@[simp] theorem setTag_rollback : (setTag s p full).rollback = s.rollback := rfl
@[simp] theorem setTag_keyDigest : (setTag s p full).keyDigest = s.keyDigest := rfl
@[simp] theorem setTag_flash : (setTag s p full).flash = s.flash := rfl
@[simp] theorem setTag_measures : (setTag s p full).measures = s.measures := rfl
@[simp] theorem setTag_quote : (setTag s p full).quote = s.quote := rfl
@[simp] theorem setTag_faultLog : (setTag s p full).faultLog = s.faultLog := rfl
@[simp] theorem setTag_logNext : (setTag s p full).logNext = s.logNext := rfl
@[simp] theorem setTag_ethTable : (setTag s p full).ethTable = s.ethTable := rfl
@[simp] theorem setTag_ethPorts : (setTag s p full).ethPorts = s.ethPorts := rfl
@[simp] theorem setTag_msi : (setTag s p full).msi = s.msi := rfl
@[simp] theorem setTag_heads : (setTag s p full).heads = s.heads := rfl
@[simp] theorem setTag_vigil : (setTag s p full).vigil = s.vigil := rfl
@[simp] theorem setTag_standby : (setTag s p full).standby = s.standby := rfl
@[simp] theorem setTag_heldFrame : (setTag s p full).heldFrame = s.heldFrame := rfl
@[simp] theorem setTag_restoring : (setTag s p full).restoring = s.restoring := rfl
@[simp] theorem setTag_restored : (setTag s p full).restored = s.restored := rfl
@[simp] theorem setTag_sentFrames : (setTag s p full).sentFrames = s.sentFrames := rfl
@[simp] theorem setTag_alertFrom : (setTag s p full).alertFrom = s.alertFrom := rfl
@[simp] theorem setTag_graphs : (setTag s p full).graphs = s.graphs := rfl
@[simp] theorem setTag_feWait : (setTag s p full).feWait = s.feWait := rfl
@[simp] theorem setTag_fePark : (setTag s p full).fePark = s.fePark := rfl
@[simp] theorem setTag_rung : (setTag s p full).rung = s.rung := rfl
@[simp] theorem setTag_uploadBell : (setTag s p full).uploadBell = s.uploadBell := rfl
end

section
variable (p : Nat) (e : Bool)
@[simp] theorem setErr_phase : (setErr s p e).phase = s.phase := rfl
@[simp] theorem setErr_pins : (setErr s p e).pins = s.pins := rfl
@[simp] theorem setErr_findings : (setErr s p e).findings = s.findings := rfl
@[simp] theorem setErr_temp : (setErr s p e).temp = s.temp := rfl
@[simp] theorem setErr_cyc : (setErr s p e).cyc = s.cyc := rfl
@[simp] theorem setErr_issued : (setErr s p e).issued = s.issued := rfl
@[simp] theorem setErr_draws : (setErr s p e).draws = s.draws := rfl
@[simp] theorem setErr_uid : (setErr s p e).uid = s.uid := rfl
@[simp] theorem setErr_issue : (setErr s p e).issue = s.issue := rfl
@[simp] theorem setErr_agenda : (setErr s p e).agenda = s.agenda := rfl
@[simp] theorem setErr_mem : (setErr s p e).mem = s.mem := rfl
@[simp] theorem setErr_tags : (setErr s p e).tags = s.tags := rfl
@[simp] theorem setErr_errs : (setErr s p e).errs = FMap.set false s.errs (p / 8) e := rfl
@[simp] theorem setErr_zmap : (setErr s p e).zmap = s.zmap := rfl
@[simp] theorem setErr_tiles : (setErr s p e).tiles = s.tiles := rfl
@[simp] theorem setErr_banks : (setErr s p e).banks = s.banks := rfl
@[simp] theorem setErr_drains : (setErr s p e).drains = s.drains := rfl
@[simp] theorem setErr_fifos : (setErr s p e).fifos = s.fifos := rfl
@[simp] theorem setErr_ways : (setErr s p e).ways = s.ways := rfl
@[simp] theorem setErr_rr : (setErr s p e).rr = s.rr := rfl
@[simp] theorem setErr_tlb1 : (setErr s p e).tlb1 = s.tlb1 := rfl
@[simp] theorem setErr_tlb2 : (setErr s p e).tlb2 = s.tlb2 := rfl
@[simp] theorem setErr_waits : (setErr s p e).waits = s.waits := rfl
@[simp] theorem setErr_barriers : (setErr s p e).barriers = s.barriers := rfl
@[simp] theorem setErr_owed : (setErr s p e).owed = s.owed := rfl
@[simp] theorem setErr_copies : (setErr s p e).copies = s.copies := rfl
@[simp] theorem setErr_engines : (setErr s p e).engines = s.engines := rfl
@[simp] theorem setErr_formats : (setErr s p e).formats = s.formats := rfl
@[simp] theorem setErr_blocks : (setErr s p e).blocks = s.blocks := rfl
@[simp] theorem setErr_sends : (setErr s p e).sends = s.sends := rfl
@[simp] theorem setErr_spillWait : (setErr s p e).spillWait = s.spillWait := rfl
@[simp] theorem setErr_gens : (setErr s p e).gens = s.gens := rfl
@[simp] theorem setErr_kennels : (setErr s p e).kennels = s.kennels := rfl
@[simp] theorem setErr_ovf : (setErr s p e).ovf = s.ovf := rfl
@[simp] theorem setErr_ovfWait : (setErr s p e).ovfWait = s.ovfWait := rfl
@[simp] theorem setErr_arrivals : (setErr s p e).arrivals = s.arrivals := rfl
@[simp] theorem setErr_ready : (setErr s p e).ready = s.ready := rfl
@[simp] theorem setErr_emptied : (setErr s p e).emptied = s.emptied := rfl
@[simp] theorem setErr_swaps : (setErr s p e).swaps = s.swaps := rfl
@[simp] theorem setErr_ports : (setErr s p e).ports = s.ports := rfl
@[simp] theorem setErr_ctxs : (setErr s p e).ctxs = s.ctxs := rfl
@[simp] theorem setErr_parts : (setErr s p e).parts = s.parts := rfl
@[simp] theorem setErr_spills : (setErr s p e).spills = s.spills := rfl
@[simp] theorem setErr_wakes : (setErr s p e).wakes = s.wakes := rfl
@[simp] theorem setErr_latched : (setErr s p e).latched = s.latched := rfl
@[simp] theorem setErr_wayMaps : (setErr s p e).wayMaps = s.wayMaps := rfl
@[simp] theorem setErr_live : (setErr s p e).live = s.live := rfl
@[simp] theorem setErr_shadow : (setErr s p e).shadow = s.shadow := rfl
@[simp] theorem setErr_windows : (setErr s p e).windows = s.windows := rfl
@[simp] theorem setErr_versions : (setErr s p e).versions = s.versions := rfl
@[simp] theorem setErr_counters : (setErr s p e).counters = s.counters := rfl
@[simp] theorem setErr_repairMap : (setErr s p e).repairMap = s.repairMap := rfl
@[simp] theorem setErr_rollback : (setErr s p e).rollback = s.rollback := rfl
@[simp] theorem setErr_keyDigest : (setErr s p e).keyDigest = s.keyDigest := rfl
@[simp] theorem setErr_flash : (setErr s p e).flash = s.flash := rfl
@[simp] theorem setErr_measures : (setErr s p e).measures = s.measures := rfl
@[simp] theorem setErr_quote : (setErr s p e).quote = s.quote := rfl
@[simp] theorem setErr_faultLog : (setErr s p e).faultLog = s.faultLog := rfl
@[simp] theorem setErr_logNext : (setErr s p e).logNext = s.logNext := rfl
@[simp] theorem setErr_ethTable : (setErr s p e).ethTable = s.ethTable := rfl
@[simp] theorem setErr_ethPorts : (setErr s p e).ethPorts = s.ethPorts := rfl
@[simp] theorem setErr_msi : (setErr s p e).msi = s.msi := rfl
@[simp] theorem setErr_heads : (setErr s p e).heads = s.heads := rfl
@[simp] theorem setErr_vigil : (setErr s p e).vigil = s.vigil := rfl
@[simp] theorem setErr_standby : (setErr s p e).standby = s.standby := rfl
@[simp] theorem setErr_heldFrame : (setErr s p e).heldFrame = s.heldFrame := rfl
@[simp] theorem setErr_restoring : (setErr s p e).restoring = s.restoring := rfl
@[simp] theorem setErr_restored : (setErr s p e).restored = s.restored := rfl
@[simp] theorem setErr_sentFrames : (setErr s p e).sentFrames = s.sentFrames := rfl
@[simp] theorem setErr_alertFrom : (setErr s p e).alertFrom = s.alertFrom := rfl
@[simp] theorem setErr_graphs : (setErr s p e).graphs = s.graphs := rfl
@[simp] theorem setErr_feWait : (setErr s p e).feWait = s.feWait := rfl
@[simp] theorem setErr_fePark : (setErr s p e).fePark = s.fePark := rfl
@[simp] theorem setErr_rung : (setErr s p e).rung = s.rung := rfl
@[simp] theorem setErr_uploadBell : (setErr s p e).uploadBell = s.uploadBell := rfl
end

section
variable (n : Nat) (i : Instr)
@[simp] theorem schedule_phase : (schedule s n i).phase = s.phase := rfl
@[simp] theorem schedule_pins : (schedule s n i).pins = s.pins := rfl
@[simp] theorem schedule_findings : (schedule s n i).findings = s.findings := rfl
@[simp] theorem schedule_temp : (schedule s n i).temp = s.temp := rfl
@[simp] theorem schedule_cyc : (schedule s n i).cyc = s.cyc := rfl
@[simp] theorem schedule_issued : (schedule s n i).issued = s.issued := rfl
@[simp] theorem schedule_draws : (schedule s n i).draws = s.draws := rfl
@[simp] theorem schedule_uid : (schedule s n i).uid = s.uid := rfl
@[simp] theorem schedule_issue : (schedule s n i).issue = s.issue := rfl
@[simp] theorem schedule_agenda : (schedule s n i).agenda = insertDue s.agenda ⟨inOrder s i n, i⟩ := rfl
@[simp] theorem schedule_mem : (schedule s n i).mem = s.mem := rfl
@[simp] theorem schedule_tags : (schedule s n i).tags = s.tags := rfl
@[simp] theorem schedule_errs : (schedule s n i).errs = s.errs := rfl
@[simp] theorem schedule_zmap : (schedule s n i).zmap = s.zmap := rfl
@[simp] theorem schedule_tiles : (schedule s n i).tiles = s.tiles := rfl
@[simp] theorem schedule_banks : (schedule s n i).banks = s.banks := rfl
@[simp] theorem schedule_drains : (schedule s n i).drains = s.drains := rfl
@[simp] theorem schedule_fifos : (schedule s n i).fifos = s.fifos := rfl
@[simp] theorem schedule_ways : (schedule s n i).ways = s.ways := rfl
@[simp] theorem schedule_rr : (schedule s n i).rr = s.rr := rfl
@[simp] theorem schedule_tlb1 : (schedule s n i).tlb1 = s.tlb1 := rfl
@[simp] theorem schedule_tlb2 : (schedule s n i).tlb2 = s.tlb2 := rfl
@[simp] theorem schedule_waits : (schedule s n i).waits = s.waits := rfl
@[simp] theorem schedule_barriers : (schedule s n i).barriers = s.barriers := rfl
@[simp] theorem schedule_owed : (schedule s n i).owed = s.owed := rfl
@[simp] theorem schedule_copies : (schedule s n i).copies = s.copies := rfl
@[simp] theorem schedule_engines : (schedule s n i).engines = s.engines := rfl
@[simp] theorem schedule_formats : (schedule s n i).formats = s.formats := rfl
@[simp] theorem schedule_blocks : (schedule s n i).blocks = s.blocks := rfl
@[simp] theorem schedule_sends : (schedule s n i).sends = s.sends := rfl
@[simp] theorem schedule_spillWait : (schedule s n i).spillWait = s.spillWait := rfl
@[simp] theorem schedule_gens : (schedule s n i).gens = s.gens := rfl
@[simp] theorem schedule_kennels : (schedule s n i).kennels = s.kennels := rfl
@[simp] theorem schedule_ovf : (schedule s n i).ovf = s.ovf := rfl
@[simp] theorem schedule_ovfWait : (schedule s n i).ovfWait = s.ovfWait := rfl
@[simp] theorem schedule_arrivals : (schedule s n i).arrivals = s.arrivals := rfl
@[simp] theorem schedule_ready : (schedule s n i).ready = s.ready := rfl
@[simp] theorem schedule_emptied : (schedule s n i).emptied = s.emptied := rfl
@[simp] theorem schedule_swaps : (schedule s n i).swaps = s.swaps := rfl
@[simp] theorem schedule_ports : (schedule s n i).ports = s.ports := rfl
@[simp] theorem schedule_ctxs : (schedule s n i).ctxs = s.ctxs := rfl
@[simp] theorem schedule_parts : (schedule s n i).parts = s.parts := rfl
@[simp] theorem schedule_spills : (schedule s n i).spills = s.spills := rfl
@[simp] theorem schedule_wakes : (schedule s n i).wakes = s.wakes := rfl
@[simp] theorem schedule_latched : (schedule s n i).latched = s.latched := rfl
@[simp] theorem schedule_wayMaps : (schedule s n i).wayMaps = s.wayMaps := rfl
@[simp] theorem schedule_live : (schedule s n i).live = s.live := rfl
@[simp] theorem schedule_shadow : (schedule s n i).shadow = s.shadow := rfl
@[simp] theorem schedule_windows : (schedule s n i).windows = s.windows := rfl
@[simp] theorem schedule_versions : (schedule s n i).versions = s.versions := rfl
@[simp] theorem schedule_counters : (schedule s n i).counters = s.counters := rfl
@[simp] theorem schedule_repairMap : (schedule s n i).repairMap = s.repairMap := rfl
@[simp] theorem schedule_rollback : (schedule s n i).rollback = s.rollback := rfl
@[simp] theorem schedule_keyDigest : (schedule s n i).keyDigest = s.keyDigest := rfl
@[simp] theorem schedule_flash : (schedule s n i).flash = s.flash := rfl
@[simp] theorem schedule_measures : (schedule s n i).measures = s.measures := rfl
@[simp] theorem schedule_quote : (schedule s n i).quote = s.quote := rfl
@[simp] theorem schedule_faultLog : (schedule s n i).faultLog = s.faultLog := rfl
@[simp] theorem schedule_logNext : (schedule s n i).logNext = s.logNext := rfl
@[simp] theorem schedule_ethTable : (schedule s n i).ethTable = s.ethTable := rfl
@[simp] theorem schedule_ethPorts : (schedule s n i).ethPorts = s.ethPorts := rfl
@[simp] theorem schedule_msi : (schedule s n i).msi = s.msi := rfl
@[simp] theorem schedule_heads : (schedule s n i).heads = s.heads := rfl
@[simp] theorem schedule_vigil : (schedule s n i).vigil = s.vigil := rfl
@[simp] theorem schedule_standby : (schedule s n i).standby = s.standby := rfl
@[simp] theorem schedule_heldFrame : (schedule s n i).heldFrame = s.heldFrame := rfl
@[simp] theorem schedule_restoring : (schedule s n i).restoring = s.restoring := rfl
@[simp] theorem schedule_restored : (schedule s n i).restored = s.restored := rfl
@[simp] theorem schedule_sentFrames : (schedule s n i).sentFrames = s.sentFrames := rfl
@[simp] theorem schedule_alertFrom : (schedule s n i).alertFrom = s.alertFrom := rfl
@[simp] theorem schedule_graphs : (schedule s n i).graphs = s.graphs := rfl
@[simp] theorem schedule_feWait : (schedule s n i).feWait = s.feWait := rfl
@[simp] theorem schedule_fePark : (schedule s n i).fePark = s.fePark := rfl
@[simp] theorem schedule_rung : (schedule s n i).rung = s.rung := rfl
@[simp] theorem schedule_uploadBell : (schedule s n i).uploadBell = s.uploadBell := rfl
end

section
variable (c : Nat) (l : List Nat)
@[simp] theorem setReady_phase : (setReady s c l).phase = s.phase := rfl
@[simp] theorem setReady_pins : (setReady s c l).pins = s.pins := rfl
@[simp] theorem setReady_findings : (setReady s c l).findings = s.findings := rfl
@[simp] theorem setReady_temp : (setReady s c l).temp = s.temp := rfl
@[simp] theorem setReady_cyc : (setReady s c l).cyc = s.cyc := rfl
@[simp] theorem setReady_issued : (setReady s c l).issued = s.issued := rfl
@[simp] theorem setReady_draws : (setReady s c l).draws = s.draws := rfl
@[simp] theorem setReady_uid : (setReady s c l).uid = s.uid := rfl
@[simp] theorem setReady_issue : (setReady s c l).issue = s.issue := rfl
@[simp] theorem setReady_agenda : (setReady s c l).agenda = s.agenda := rfl
@[simp] theorem setReady_mem : (setReady s c l).mem = s.mem := rfl
@[simp] theorem setReady_tags : (setReady s c l).tags = s.tags := rfl
@[simp] theorem setReady_errs : (setReady s c l).errs = s.errs := rfl
@[simp] theorem setReady_zmap : (setReady s c l).zmap = s.zmap := rfl
@[simp] theorem setReady_tiles : (setReady s c l).tiles = s.tiles := rfl
@[simp] theorem setReady_banks : (setReady s c l).banks = s.banks := rfl
@[simp] theorem setReady_drains : (setReady s c l).drains = s.drains := rfl
@[simp] theorem setReady_fifos : (setReady s c l).fifos = s.fifos := rfl
@[simp] theorem setReady_ways : (setReady s c l).ways = s.ways := rfl
@[simp] theorem setReady_rr : (setReady s c l).rr = s.rr := rfl
@[simp] theorem setReady_tlb1 : (setReady s c l).tlb1 = s.tlb1 := rfl
@[simp] theorem setReady_tlb2 : (setReady s c l).tlb2 = s.tlb2 := rfl
@[simp] theorem setReady_waits : (setReady s c l).waits = s.waits := rfl
@[simp] theorem setReady_barriers : (setReady s c l).barriers = s.barriers := rfl
@[simp] theorem setReady_owed : (setReady s c l).owed = s.owed := rfl
@[simp] theorem setReady_copies : (setReady s c l).copies = s.copies := rfl
@[simp] theorem setReady_engines : (setReady s c l).engines = s.engines := rfl
@[simp] theorem setReady_formats : (setReady s c l).formats = s.formats := rfl
@[simp] theorem setReady_blocks : (setReady s c l).blocks = s.blocks := rfl
@[simp] theorem setReady_sends : (setReady s c l).sends = s.sends := rfl
@[simp] theorem setReady_spillWait : (setReady s c l).spillWait = s.spillWait := rfl
@[simp] theorem setReady_gens : (setReady s c l).gens = s.gens := rfl
@[simp] theorem setReady_kennels : (setReady s c l).kennels = s.kennels := rfl
@[simp] theorem setReady_ovf : (setReady s c l).ovf = s.ovf := rfl
@[simp] theorem setReady_ovfWait : (setReady s c l).ovfWait = s.ovfWait := rfl
@[simp] theorem setReady_arrivals : (setReady s c l).arrivals = s.arrivals := rfl
@[simp] theorem setReady_ready : (setReady s c l).ready = FMap.set [] s.ready c l := rfl
@[simp] theorem setReady_emptied : (setReady s c l).emptied = s.emptied := rfl
@[simp] theorem setReady_swaps : (setReady s c l).swaps = s.swaps := rfl
@[simp] theorem setReady_ports : (setReady s c l).ports = s.ports := rfl
@[simp] theorem setReady_ctxs : (setReady s c l).ctxs = s.ctxs := rfl
@[simp] theorem setReady_parts : (setReady s c l).parts = s.parts := rfl
@[simp] theorem setReady_spills : (setReady s c l).spills = s.spills := rfl
@[simp] theorem setReady_wakes : (setReady s c l).wakes = s.wakes := rfl
@[simp] theorem setReady_latched : (setReady s c l).latched = s.latched := rfl
@[simp] theorem setReady_wayMaps : (setReady s c l).wayMaps = s.wayMaps := rfl
@[simp] theorem setReady_live : (setReady s c l).live = s.live := rfl
@[simp] theorem setReady_shadow : (setReady s c l).shadow = s.shadow := rfl
@[simp] theorem setReady_windows : (setReady s c l).windows = s.windows := rfl
@[simp] theorem setReady_versions : (setReady s c l).versions = s.versions := rfl
@[simp] theorem setReady_counters : (setReady s c l).counters = s.counters := rfl
@[simp] theorem setReady_repairMap : (setReady s c l).repairMap = s.repairMap := rfl
@[simp] theorem setReady_rollback : (setReady s c l).rollback = s.rollback := rfl
@[simp] theorem setReady_keyDigest : (setReady s c l).keyDigest = s.keyDigest := rfl
@[simp] theorem setReady_flash : (setReady s c l).flash = s.flash := rfl
@[simp] theorem setReady_measures : (setReady s c l).measures = s.measures := rfl
@[simp] theorem setReady_quote : (setReady s c l).quote = s.quote := rfl
@[simp] theorem setReady_faultLog : (setReady s c l).faultLog = s.faultLog := rfl
@[simp] theorem setReady_logNext : (setReady s c l).logNext = s.logNext := rfl
@[simp] theorem setReady_ethTable : (setReady s c l).ethTable = s.ethTable := rfl
@[simp] theorem setReady_ethPorts : (setReady s c l).ethPorts = s.ethPorts := rfl
@[simp] theorem setReady_msi : (setReady s c l).msi = s.msi := rfl
@[simp] theorem setReady_heads : (setReady s c l).heads = s.heads := rfl
@[simp] theorem setReady_vigil : (setReady s c l).vigil = s.vigil := rfl
@[simp] theorem setReady_standby : (setReady s c l).standby = s.standby := rfl
@[simp] theorem setReady_heldFrame : (setReady s c l).heldFrame = s.heldFrame := rfl
@[simp] theorem setReady_restoring : (setReady s c l).restoring = s.restoring := rfl
@[simp] theorem setReady_restored : (setReady s c l).restored = s.restored := rfl
@[simp] theorem setReady_sentFrames : (setReady s c l).sentFrames = s.sentFrames := rfl
@[simp] theorem setReady_alertFrom : (setReady s c l).alertFrom = s.alertFrom := rfl
@[simp] theorem setReady_graphs : (setReady s c l).graphs = s.graphs := rfl
@[simp] theorem setReady_feWait : (setReady s c l).feWait = s.feWait := rfl
@[simp] theorem setReady_fePark : (setReady s c l).fePark = s.fePark := rfl
@[simp] theorem setReady_rung : (setReady s c l).rung = s.rung := rfl
@[simp] theorem setReady_uploadBell : (setReady s c l).uploadBell = s.uploadBell := rfl
end

section
variable (c : Nat) (l : List (Nat × Nat))
@[simp] theorem setEmptySlots_phase : (setEmptySlots s c l).phase = s.phase := rfl
@[simp] theorem setEmptySlots_pins : (setEmptySlots s c l).pins = s.pins := rfl
@[simp] theorem setEmptySlots_findings : (setEmptySlots s c l).findings = s.findings := rfl
@[simp] theorem setEmptySlots_temp : (setEmptySlots s c l).temp = s.temp := rfl
@[simp] theorem setEmptySlots_cyc : (setEmptySlots s c l).cyc = s.cyc := rfl
@[simp] theorem setEmptySlots_issued : (setEmptySlots s c l).issued = s.issued := rfl
@[simp] theorem setEmptySlots_draws : (setEmptySlots s c l).draws = s.draws := rfl
@[simp] theorem setEmptySlots_uid : (setEmptySlots s c l).uid = s.uid := rfl
@[simp] theorem setEmptySlots_issue : (setEmptySlots s c l).issue = s.issue := rfl
@[simp] theorem setEmptySlots_agenda : (setEmptySlots s c l).agenda = s.agenda := rfl
@[simp] theorem setEmptySlots_mem : (setEmptySlots s c l).mem = s.mem := rfl
@[simp] theorem setEmptySlots_tags : (setEmptySlots s c l).tags = s.tags := rfl
@[simp] theorem setEmptySlots_errs : (setEmptySlots s c l).errs = s.errs := rfl
@[simp] theorem setEmptySlots_zmap : (setEmptySlots s c l).zmap = s.zmap := rfl
@[simp] theorem setEmptySlots_tiles : (setEmptySlots s c l).tiles = s.tiles := rfl
@[simp] theorem setEmptySlots_banks : (setEmptySlots s c l).banks = s.banks := rfl
@[simp] theorem setEmptySlots_drains : (setEmptySlots s c l).drains = s.drains := rfl
@[simp] theorem setEmptySlots_fifos : (setEmptySlots s c l).fifos = s.fifos := rfl
@[simp] theorem setEmptySlots_ways : (setEmptySlots s c l).ways = s.ways := rfl
@[simp] theorem setEmptySlots_rr : (setEmptySlots s c l).rr = s.rr := rfl
@[simp] theorem setEmptySlots_tlb1 : (setEmptySlots s c l).tlb1 = s.tlb1 := rfl
@[simp] theorem setEmptySlots_tlb2 : (setEmptySlots s c l).tlb2 = s.tlb2 := rfl
@[simp] theorem setEmptySlots_waits : (setEmptySlots s c l).waits = s.waits := rfl
@[simp] theorem setEmptySlots_barriers : (setEmptySlots s c l).barriers = s.barriers := rfl
@[simp] theorem setEmptySlots_owed : (setEmptySlots s c l).owed = s.owed := rfl
@[simp] theorem setEmptySlots_copies : (setEmptySlots s c l).copies = s.copies := rfl
@[simp] theorem setEmptySlots_engines : (setEmptySlots s c l).engines = s.engines := rfl
@[simp] theorem setEmptySlots_formats : (setEmptySlots s c l).formats = s.formats := rfl
@[simp] theorem setEmptySlots_blocks : (setEmptySlots s c l).blocks = s.blocks := rfl
@[simp] theorem setEmptySlots_sends : (setEmptySlots s c l).sends = s.sends := rfl
@[simp] theorem setEmptySlots_spillWait : (setEmptySlots s c l).spillWait = s.spillWait := rfl
@[simp] theorem setEmptySlots_gens : (setEmptySlots s c l).gens = s.gens := rfl
@[simp] theorem setEmptySlots_kennels : (setEmptySlots s c l).kennels = s.kennels := rfl
@[simp] theorem setEmptySlots_ovf : (setEmptySlots s c l).ovf = s.ovf := rfl
@[simp] theorem setEmptySlots_ovfWait : (setEmptySlots s c l).ovfWait = s.ovfWait := rfl
@[simp] theorem setEmptySlots_arrivals : (setEmptySlots s c l).arrivals = s.arrivals := rfl
@[simp] theorem setEmptySlots_ready : (setEmptySlots s c l).ready = s.ready := rfl
@[simp] theorem setEmptySlots_emptied : (setEmptySlots s c l).emptied = FMap.set ((List.range 64).map fun i => (0, i)) s.emptied c l := rfl
@[simp] theorem setEmptySlots_swaps : (setEmptySlots s c l).swaps = s.swaps := rfl
@[simp] theorem setEmptySlots_ports : (setEmptySlots s c l).ports = s.ports := rfl
@[simp] theorem setEmptySlots_ctxs : (setEmptySlots s c l).ctxs = s.ctxs := rfl
@[simp] theorem setEmptySlots_parts : (setEmptySlots s c l).parts = s.parts := rfl
@[simp] theorem setEmptySlots_spills : (setEmptySlots s c l).spills = s.spills := rfl
@[simp] theorem setEmptySlots_wakes : (setEmptySlots s c l).wakes = s.wakes := rfl
@[simp] theorem setEmptySlots_latched : (setEmptySlots s c l).latched = s.latched := rfl
@[simp] theorem setEmptySlots_wayMaps : (setEmptySlots s c l).wayMaps = s.wayMaps := rfl
@[simp] theorem setEmptySlots_live : (setEmptySlots s c l).live = s.live := rfl
@[simp] theorem setEmptySlots_shadow : (setEmptySlots s c l).shadow = s.shadow := rfl
@[simp] theorem setEmptySlots_windows : (setEmptySlots s c l).windows = s.windows := rfl
@[simp] theorem setEmptySlots_versions : (setEmptySlots s c l).versions = s.versions := rfl
@[simp] theorem setEmptySlots_counters : (setEmptySlots s c l).counters = s.counters := rfl
@[simp] theorem setEmptySlots_repairMap : (setEmptySlots s c l).repairMap = s.repairMap := rfl
@[simp] theorem setEmptySlots_rollback : (setEmptySlots s c l).rollback = s.rollback := rfl
@[simp] theorem setEmptySlots_keyDigest : (setEmptySlots s c l).keyDigest = s.keyDigest := rfl
@[simp] theorem setEmptySlots_flash : (setEmptySlots s c l).flash = s.flash := rfl
@[simp] theorem setEmptySlots_measures : (setEmptySlots s c l).measures = s.measures := rfl
@[simp] theorem setEmptySlots_quote : (setEmptySlots s c l).quote = s.quote := rfl
@[simp] theorem setEmptySlots_faultLog : (setEmptySlots s c l).faultLog = s.faultLog := rfl
@[simp] theorem setEmptySlots_logNext : (setEmptySlots s c l).logNext = s.logNext := rfl
@[simp] theorem setEmptySlots_ethTable : (setEmptySlots s c l).ethTable = s.ethTable := rfl
@[simp] theorem setEmptySlots_ethPorts : (setEmptySlots s c l).ethPorts = s.ethPorts := rfl
@[simp] theorem setEmptySlots_msi : (setEmptySlots s c l).msi = s.msi := rfl
@[simp] theorem setEmptySlots_heads : (setEmptySlots s c l).heads = s.heads := rfl
@[simp] theorem setEmptySlots_vigil : (setEmptySlots s c l).vigil = s.vigil := rfl
@[simp] theorem setEmptySlots_standby : (setEmptySlots s c l).standby = s.standby := rfl
@[simp] theorem setEmptySlots_heldFrame : (setEmptySlots s c l).heldFrame = s.heldFrame := rfl
@[simp] theorem setEmptySlots_restoring : (setEmptySlots s c l).restoring = s.restoring := rfl
@[simp] theorem setEmptySlots_restored : (setEmptySlots s c l).restored = s.restored := rfl
@[simp] theorem setEmptySlots_sentFrames : (setEmptySlots s c l).sentFrames = s.sentFrames := rfl
@[simp] theorem setEmptySlots_alertFrom : (setEmptySlots s c l).alertFrom = s.alertFrom := rfl
@[simp] theorem setEmptySlots_graphs : (setEmptySlots s c l).graphs = s.graphs := rfl
@[simp] theorem setEmptySlots_feWait : (setEmptySlots s c l).feWait = s.feWait := rfl
@[simp] theorem setEmptySlots_fePark : (setEmptySlots s c l).fePark = s.fePark := rfl
@[simp] theorem setEmptySlots_rung : (setEmptySlots s c l).rung = s.rung := rfl
@[simp] theorem setEmptySlots_uploadBell : (setEmptySlots s c l).uploadBell = s.uploadBell := rfl
end

section
variable (p i : Nat) (v : Dword)
@[simp] theorem setPartReg_phase : (setPartReg s p i v).phase = s.phase := rfl
@[simp] theorem setPartReg_pins : (setPartReg s p i v).pins = s.pins := rfl
@[simp] theorem setPartReg_findings : (setPartReg s p i v).findings = s.findings := rfl
@[simp] theorem setPartReg_temp : (setPartReg s p i v).temp = s.temp := rfl
@[simp] theorem setPartReg_cyc : (setPartReg s p i v).cyc = s.cyc := rfl
@[simp] theorem setPartReg_issued : (setPartReg s p i v).issued = s.issued := rfl
@[simp] theorem setPartReg_draws : (setPartReg s p i v).draws = s.draws := rfl
@[simp] theorem setPartReg_uid : (setPartReg s p i v).uid = s.uid := rfl
@[simp] theorem setPartReg_issue : (setPartReg s p i v).issue = s.issue := rfl
@[simp] theorem setPartReg_agenda : (setPartReg s p i v).agenda = s.agenda := rfl
@[simp] theorem setPartReg_mem : (setPartReg s p i v).mem = s.mem := rfl
@[simp] theorem setPartReg_tags : (setPartReg s p i v).tags = s.tags := rfl
@[simp] theorem setPartReg_errs : (setPartReg s p i v).errs = s.errs := rfl
@[simp] theorem setPartReg_zmap : (setPartReg s p i v).zmap = s.zmap := rfl
@[simp] theorem setPartReg_tiles : (setPartReg s p i v).tiles = s.tiles := rfl
@[simp] theorem setPartReg_banks : (setPartReg s p i v).banks = s.banks := rfl
@[simp] theorem setPartReg_drains : (setPartReg s p i v).drains = s.drains := rfl
@[simp] theorem setPartReg_fifos : (setPartReg s p i v).fifos = s.fifos := rfl
@[simp] theorem setPartReg_ways : (setPartReg s p i v).ways = s.ways := rfl
@[simp] theorem setPartReg_rr : (setPartReg s p i v).rr = s.rr := rfl
@[simp] theorem setPartReg_tlb1 : (setPartReg s p i v).tlb1 = s.tlb1 := rfl
@[simp] theorem setPartReg_tlb2 : (setPartReg s p i v).tlb2 = s.tlb2 := rfl
@[simp] theorem setPartReg_waits : (setPartReg s p i v).waits = s.waits := rfl
@[simp] theorem setPartReg_barriers : (setPartReg s p i v).barriers = s.barriers := rfl
@[simp] theorem setPartReg_owed : (setPartReg s p i v).owed = s.owed := rfl
@[simp] theorem setPartReg_copies : (setPartReg s p i v).copies = s.copies := rfl
@[simp] theorem setPartReg_engines : (setPartReg s p i v).engines = s.engines := rfl
@[simp] theorem setPartReg_formats : (setPartReg s p i v).formats = s.formats := rfl
@[simp] theorem setPartReg_blocks : (setPartReg s p i v).blocks = s.blocks := rfl
@[simp] theorem setPartReg_sends : (setPartReg s p i v).sends = s.sends := rfl
@[simp] theorem setPartReg_spillWait : (setPartReg s p i v).spillWait = s.spillWait := rfl
@[simp] theorem setPartReg_gens : (setPartReg s p i v).gens = s.gens := rfl
@[simp] theorem setPartReg_kennels : (setPartReg s p i v).kennels = s.kennels := rfl
@[simp] theorem setPartReg_ovf : (setPartReg s p i v).ovf = s.ovf := rfl
@[simp] theorem setPartReg_ovfWait : (setPartReg s p i v).ovfWait = s.ovfWait := rfl
@[simp] theorem setPartReg_arrivals : (setPartReg s p i v).arrivals = s.arrivals := rfl
@[simp] theorem setPartReg_ready : (setPartReg s p i v).ready = s.ready := rfl
@[simp] theorem setPartReg_emptied : (setPartReg s p i v).emptied = s.emptied := rfl
@[simp] theorem setPartReg_swaps : (setPartReg s p i v).swaps = s.swaps := rfl
@[simp] theorem setPartReg_ports : (setPartReg s p i v).ports = s.ports := rfl
@[simp] theorem setPartReg_ctxs : (setPartReg s p i v).ctxs = s.ctxs := rfl
@[simp] theorem setPartReg_parts : (setPartReg s p i v).parts = FMap.set (partDefault i) s.parts (16 * p + i) v := rfl
@[simp] theorem setPartReg_spills : (setPartReg s p i v).spills = s.spills := rfl
@[simp] theorem setPartReg_wakes : (setPartReg s p i v).wakes = s.wakes := rfl
@[simp] theorem setPartReg_latched : (setPartReg s p i v).latched = s.latched := rfl
@[simp] theorem setPartReg_wayMaps : (setPartReg s p i v).wayMaps = s.wayMaps := rfl
@[simp] theorem setPartReg_live : (setPartReg s p i v).live = s.live := rfl
@[simp] theorem setPartReg_shadow : (setPartReg s p i v).shadow = s.shadow := rfl
@[simp] theorem setPartReg_windows : (setPartReg s p i v).windows = s.windows := rfl
@[simp] theorem setPartReg_versions : (setPartReg s p i v).versions = s.versions := rfl
@[simp] theorem setPartReg_counters : (setPartReg s p i v).counters = s.counters := rfl
@[simp] theorem setPartReg_repairMap : (setPartReg s p i v).repairMap = s.repairMap := rfl
@[simp] theorem setPartReg_rollback : (setPartReg s p i v).rollback = s.rollback := rfl
@[simp] theorem setPartReg_keyDigest : (setPartReg s p i v).keyDigest = s.keyDigest := rfl
@[simp] theorem setPartReg_flash : (setPartReg s p i v).flash = s.flash := rfl
@[simp] theorem setPartReg_measures : (setPartReg s p i v).measures = s.measures := rfl
@[simp] theorem setPartReg_quote : (setPartReg s p i v).quote = s.quote := rfl
@[simp] theorem setPartReg_faultLog : (setPartReg s p i v).faultLog = s.faultLog := rfl
@[simp] theorem setPartReg_logNext : (setPartReg s p i v).logNext = s.logNext := rfl
@[simp] theorem setPartReg_ethTable : (setPartReg s p i v).ethTable = s.ethTable := rfl
@[simp] theorem setPartReg_ethPorts : (setPartReg s p i v).ethPorts = s.ethPorts := rfl
@[simp] theorem setPartReg_msi : (setPartReg s p i v).msi = s.msi := rfl
@[simp] theorem setPartReg_heads : (setPartReg s p i v).heads = s.heads := rfl
@[simp] theorem setPartReg_vigil : (setPartReg s p i v).vigil = s.vigil := rfl
@[simp] theorem setPartReg_standby : (setPartReg s p i v).standby = s.standby := rfl
@[simp] theorem setPartReg_heldFrame : (setPartReg s p i v).heldFrame = s.heldFrame := rfl
@[simp] theorem setPartReg_restoring : (setPartReg s p i v).restoring = s.restoring := rfl
@[simp] theorem setPartReg_restored : (setPartReg s p i v).restored = s.restored := rfl
@[simp] theorem setPartReg_sentFrames : (setPartReg s p i v).sentFrames = s.sentFrames := rfl
@[simp] theorem setPartReg_alertFrom : (setPartReg s p i v).alertFrom = s.alertFrom := rfl
@[simp] theorem setPartReg_graphs : (setPartReg s p i v).graphs = s.graphs := rfl
@[simp] theorem setPartReg_feWait : (setPartReg s p i v).feWait = s.feWait := rfl
@[simp] theorem setPartReg_fePark : (setPartReg s p i v).fePark = s.fePark := rfl
@[simp] theorem setPartReg_rung : (setPartReg s p i v).rung = s.rung := rfl
@[simp] theorem setPartReg_uploadBell : (setPartReg s p i v).uploadBell = s.uploadBell := rfl
end

section
variable (id r : Nat) (w : Nat → Bool)
@[simp] theorem clearRegErr_phase : (clearRegErr s id r w).phase = s.phase := rfl
@[simp] theorem clearRegErr_pins : (clearRegErr s id r w).pins = s.pins := rfl
@[simp] theorem clearRegErr_findings : (clearRegErr s id r w).findings = s.findings := rfl
@[simp] theorem clearRegErr_temp : (clearRegErr s id r w).temp = s.temp := rfl
@[simp] theorem clearRegErr_cyc : (clearRegErr s id r w).cyc = s.cyc := rfl
@[simp] theorem clearRegErr_issued : (clearRegErr s id r w).issued = s.issued := rfl
@[simp] theorem clearRegErr_draws : (clearRegErr s id r w).draws = s.draws := rfl
@[simp] theorem clearRegErr_uid : (clearRegErr s id r w).uid = s.uid := rfl
@[simp] theorem clearRegErr_issue : (clearRegErr s id r w).issue = s.issue := rfl
@[simp] theorem clearRegErr_agenda : (clearRegErr s id r w).agenda = s.agenda := rfl
@[simp] theorem clearRegErr_mem : (clearRegErr s id r w).mem = s.mem := rfl
@[simp] theorem clearRegErr_tags : (clearRegErr s id r w).tags = s.tags := rfl
@[simp] theorem clearRegErr_errs : (clearRegErr s id r w).errs = s.errs.filter fun e => !(e.1 / 8 == dwErrKey id (48 + 8 * r) / 8 && w (e.1 % 8)) := rfl
@[simp] theorem clearRegErr_zmap : (clearRegErr s id r w).zmap = s.zmap := rfl
@[simp] theorem clearRegErr_tiles : (clearRegErr s id r w).tiles = s.tiles := rfl
@[simp] theorem clearRegErr_banks : (clearRegErr s id r w).banks = s.banks := rfl
@[simp] theorem clearRegErr_drains : (clearRegErr s id r w).drains = s.drains := rfl
@[simp] theorem clearRegErr_fifos : (clearRegErr s id r w).fifos = s.fifos := rfl
@[simp] theorem clearRegErr_ways : (clearRegErr s id r w).ways = s.ways := rfl
@[simp] theorem clearRegErr_rr : (clearRegErr s id r w).rr = s.rr := rfl
@[simp] theorem clearRegErr_tlb1 : (clearRegErr s id r w).tlb1 = s.tlb1 := rfl
@[simp] theorem clearRegErr_tlb2 : (clearRegErr s id r w).tlb2 = s.tlb2 := rfl
@[simp] theorem clearRegErr_waits : (clearRegErr s id r w).waits = s.waits := rfl
@[simp] theorem clearRegErr_barriers : (clearRegErr s id r w).barriers = s.barriers := rfl
@[simp] theorem clearRegErr_owed : (clearRegErr s id r w).owed = s.owed := rfl
@[simp] theorem clearRegErr_copies : (clearRegErr s id r w).copies = s.copies := rfl
@[simp] theorem clearRegErr_engines : (clearRegErr s id r w).engines = s.engines := rfl
@[simp] theorem clearRegErr_formats : (clearRegErr s id r w).formats = s.formats := rfl
@[simp] theorem clearRegErr_blocks : (clearRegErr s id r w).blocks = s.blocks := rfl
@[simp] theorem clearRegErr_sends : (clearRegErr s id r w).sends = s.sends := rfl
@[simp] theorem clearRegErr_spillWait : (clearRegErr s id r w).spillWait = s.spillWait := rfl
@[simp] theorem clearRegErr_gens : (clearRegErr s id r w).gens = s.gens := rfl
@[simp] theorem clearRegErr_kennels : (clearRegErr s id r w).kennels = s.kennels := rfl
@[simp] theorem clearRegErr_ovf : (clearRegErr s id r w).ovf = s.ovf := rfl
@[simp] theorem clearRegErr_ovfWait : (clearRegErr s id r w).ovfWait = s.ovfWait := rfl
@[simp] theorem clearRegErr_arrivals : (clearRegErr s id r w).arrivals = s.arrivals := rfl
@[simp] theorem clearRegErr_ready : (clearRegErr s id r w).ready = s.ready := rfl
@[simp] theorem clearRegErr_emptied : (clearRegErr s id r w).emptied = s.emptied := rfl
@[simp] theorem clearRegErr_swaps : (clearRegErr s id r w).swaps = s.swaps := rfl
@[simp] theorem clearRegErr_ports : (clearRegErr s id r w).ports = s.ports := rfl
@[simp] theorem clearRegErr_ctxs : (clearRegErr s id r w).ctxs = s.ctxs := rfl
@[simp] theorem clearRegErr_parts : (clearRegErr s id r w).parts = s.parts := rfl
@[simp] theorem clearRegErr_spills : (clearRegErr s id r w).spills = s.spills := rfl
@[simp] theorem clearRegErr_wakes : (clearRegErr s id r w).wakes = s.wakes := rfl
@[simp] theorem clearRegErr_latched : (clearRegErr s id r w).latched = s.latched := rfl
@[simp] theorem clearRegErr_wayMaps : (clearRegErr s id r w).wayMaps = s.wayMaps := rfl
@[simp] theorem clearRegErr_live : (clearRegErr s id r w).live = s.live := rfl
@[simp] theorem clearRegErr_shadow : (clearRegErr s id r w).shadow = s.shadow := rfl
@[simp] theorem clearRegErr_windows : (clearRegErr s id r w).windows = s.windows := rfl
@[simp] theorem clearRegErr_versions : (clearRegErr s id r w).versions = s.versions := rfl
@[simp] theorem clearRegErr_counters : (clearRegErr s id r w).counters = s.counters := rfl
@[simp] theorem clearRegErr_repairMap : (clearRegErr s id r w).repairMap = s.repairMap := rfl
@[simp] theorem clearRegErr_rollback : (clearRegErr s id r w).rollback = s.rollback := rfl
@[simp] theorem clearRegErr_keyDigest : (clearRegErr s id r w).keyDigest = s.keyDigest := rfl
@[simp] theorem clearRegErr_flash : (clearRegErr s id r w).flash = s.flash := rfl
@[simp] theorem clearRegErr_measures : (clearRegErr s id r w).measures = s.measures := rfl
@[simp] theorem clearRegErr_quote : (clearRegErr s id r w).quote = s.quote := rfl
@[simp] theorem clearRegErr_faultLog : (clearRegErr s id r w).faultLog = s.faultLog := rfl
@[simp] theorem clearRegErr_logNext : (clearRegErr s id r w).logNext = s.logNext := rfl
@[simp] theorem clearRegErr_ethTable : (clearRegErr s id r w).ethTable = s.ethTable := rfl
@[simp] theorem clearRegErr_ethPorts : (clearRegErr s id r w).ethPorts = s.ethPorts := rfl
@[simp] theorem clearRegErr_msi : (clearRegErr s id r w).msi = s.msi := rfl
@[simp] theorem clearRegErr_heads : (clearRegErr s id r w).heads = s.heads := rfl
@[simp] theorem clearRegErr_vigil : (clearRegErr s id r w).vigil = s.vigil := rfl
@[simp] theorem clearRegErr_standby : (clearRegErr s id r w).standby = s.standby := rfl
@[simp] theorem clearRegErr_heldFrame : (clearRegErr s id r w).heldFrame = s.heldFrame := rfl
@[simp] theorem clearRegErr_restoring : (clearRegErr s id r w).restoring = s.restoring := rfl
@[simp] theorem clearRegErr_restored : (clearRegErr s id r w).restored = s.restored := rfl
@[simp] theorem clearRegErr_sentFrames : (clearRegErr s id r w).sentFrames = s.sentFrames := rfl
@[simp] theorem clearRegErr_alertFrom : (clearRegErr s id r w).alertFrom = s.alertFrom := rfl
@[simp] theorem clearRegErr_graphs : (clearRegErr s id r w).graphs = s.graphs := rfl
@[simp] theorem clearRegErr_feWait : (clearRegErr s id r w).feWait = s.feWait := rfl
@[simp] theorem clearRegErr_fePark : (clearRegErr s id r w).fePark = s.fePark := rfl
@[simp] theorem clearRegErr_rung : (clearRegErr s id r w).rung = s.rung := rfl
@[simp] theorem clearRegErr_uploadBell : (clearRegErr s id r w).uploadBell = s.uploadBell := rfl
end

end Sys2Proof.Laws
end

