-- ==== Sys2Proof/Laws/Issue.lean ====
section
/-! SUPPORT. What the issue of an instruction comes to, and what each operation on operands does: one lemma for each, so
that a claim about an instruction cites these and unfolds its body alone. -/

namespace Sys2Proof.Laws
open Sys2Proof.Machine

variable {s : State} {i : Instr} {id : Nat} {x : Ctx}

@[simp] theorem ctxOf_setCtx_self (s : State) (id : Nat) (x : Ctx) : ctxOf (setCtx s id x) id = some x := find_put_self ..
theorem ctxOf_setCtx_of_ne (s : State) {id j : Nat} (x : Ctx) (h : j ≠ id) : ctxOf (setCtx s id x) j = ctxOf s j := find_put_of_ne _ _ h
@[simp] theorem setCtx_setCtx (s : State) (id : Nat) (x y : Ctx) : setCtx (setCtx s id x) id y = setCtx s id y := by
  simp [setCtx]
theorem updCtx_of_living (h : ctxOf s id = some x) (f : Ctx → Ctx) : updCtx s id f = setCtx s id (f x) := by simp [updCtx, h]
@[simp] theorem updCtx_setCtx (s : State) (id : Nat) (x : Ctx) (f : Ctx → Ctx) : updCtx (setCtx s id x) id f = setCtx s id (f x) := by
  simp [updCtx]
@[simp] theorem conclude_setCtx (s : State) (id : Nat) (x : Ctx) (pc : Dword) :
    conclude (setCtx s id x) id pc = setCtx s id { x with retry := x.retry.filter fun p => p.pc != pc } := by simp [conclude]

/-- The issue of an instruction that nothing stops before its effect: the state after the effect, or its trap. -/
theorem run_of_clear (h : Clear s i id x) (body : Nat → Ctx → M Unit) :
    run i body s = .next (match body id x (setCtx s id (issued s i x)) with
      | .ok (_, t) => conclude t id x.pc
      | .error e => trapped s i id x e) := by
  have hc : (cbArmed x && bits x.cb 31 16 == 0) = false := by
    cases ha : cbArmed x with
    | false => rfl
    | true => simpa using h.candidates ha
  have hr : ((readsOf i).any fun r => decide (r ≤ 127) && regErr s id r) = false := by
    simp only [List.any_eq_false, Bool.and_eq_true, decide_eq_true_eq, not_and]
    exact fun r hm hl => by simp [h.sound r hm hl]
  cases hb : blockOf i with
  | none =>
    simp only [run, h.latched, h.living, h.fresh, issueCtx, h.free, h.legal, h.equipped, h.queues, hb, hc, hr, Bool.false_and, Bool.false_eq_true, if_false]
    rw [show Ctx.advance { x with last := s.cyc, gap := gapOf i } s.issue.words.length = issued s i x from rfl]
    rcases body id x (setCtx s id (issued s i x)) with (e | ⟨_, t⟩)
    · cases e <;> first | rfl | simp [trapped]
    · rfl
  | some b =>
    have hg : decide (x.grant.length ≤ b.toNat) = false := by simpa using h.granted b hb
    simp only [run, h.latched, h.living, h.fresh, issueCtx, h.free, h.legal, h.equipped, h.queues, hb, hg, hc, hr, Bool.false_and, Bool.false_eq_true, if_false]
    rw [show Ctx.advance { x with last := s.cyc, gap := gapOf i } s.issue.words.length = issued s i x from rfl]
    rcases body id x (setCtx s id (issued s i x)) with (e | ⟨_, t⟩)
    · cases e <;> first | rfl | simp [trapped]
    · rfl

/-- A charge that the context can pay. -/
theorem charge_of_pays {y z : Ctx} {ci cm : Nat} (h : y.pays ci cm = some z) : charge id ci cm (setCtx s id y) = .ok ((), setCtx s id z) := by
  simp only [charge, ctxOf_setCtx_self]
  simp only [Ctx.pays] at h
  split at h <;> rename_i hr
  · rw [if_pos hr, Option.some.inj h]
  · rw [if_neg hr, h]; simp
/-- A charge that overdraws the context. -/
theorem charge_of_not_pays {y : Ctx} {ci cm : Nat} (h : y.pays ci cm = none) : charge id ci cm (setCtx s id y) = .error (.exhaust ci cm) := by
  simp only [charge, ctxOf_setCtx_self]
  simp only [Ctx.pays] at h
  split at h <;> rename_i hr <;> simp_all
@[simp] theorem vread_eq (id : Nat) (r : RegNo) (s : State) : vread id r s = .ok (readField s id r) := by
  simp only [vread, readField]
  cases ctxOf s id with
  | none => rfl
  | some x => by_cases h : r.toNat ≤ 127 <;> simp [h]
@[simp] theorem sread_eq (id : Nat) (r : RegNo) (s : State) : sread id r s = .ok (scalarOf (readField s id r).1, (readField s id r).2) := by
  simp [sread, Bind.bind, StateT.bind, Except.bind, Pure.pure, StateT.pure, Except.pure]
theorem readField_reg {r : RegNo} (h : ctxOf s id = some x) (hr : r.toNat ≤ 127) : readField s id r = (x.reg r.toNat, s) := by
  simp [readField, h, hr]


/-- The effect of two effects, the second after the first. -/
theorem bind_of_ok {α β : Type} {m : M α} {f : α → M β} {a : α} {t : State} (h : m s = .ok (a, t)) : (m >>= f) s = f a t := by
  simp [Bind.bind, StateT.bind, h, Except.bind]
theorem bind_of_trap {α β : Type} {m : M α} {f : α → M β} {e : Trap} (h : m s = .error e) : (m >>= f) s = .error e := by
  simp [Bind.bind, StateT.bind, h, Except.bind]
@[simp] theorem upd_eq (f : State → State) (s : State) : upd f s = .ok ((), f s) := rfl
@[simp] theorem updSelf_eq (id : Nat) (f : Ctx → Ctx) (s : State) : updSelf id f s = .ok ((), updCtx s id f) := rfl
@[simp] theorem pure_eq {α : Type} (a : α) (s : State) : (pure a : M α) s = .ok (a, s) := rfl
@[simp] theorem get_eq (s : State) : (get : M State) s = .ok (s, s) := rfl
@[simp] theorem raise_eq {α : Type} (f : Flt) (s : State) : (raise f : M α) s = .error (.fault f) := rfl
@[simp] theorem trap_eq {α : Type} (t : Trap) (s : State) : (trap t : M α) s = .error t := rfl
@[simp] theorem raiseIf_true (f : Flt) (s : State) : raiseIf true f s = .error (.fault f) := rfl
@[simp] theorem raiseIf_false (f : Flt) (s : State) : raiseIf false f s = .ok ((), s) := rfl
@[simp] theorem swrite_eq (id : Nat) (r : RegNo) (v : Dword) (s : State) : swrite id r v s = .ok ((), putReg s id r (withScalar · v)) := rfl
@[simp] theorem vwrite_eq (id : Nat) (r : RegNo) (v : Reg) (m : BitVec 16) (s : State) : vwrite id r v m s = .ok ((), putReg s id r (mergeLanes m v)) := rfl
@[simp] theorem wwrite_eq (id : Nat) (r : RegNo) (v : Reg) (s : State) : wwrite id r v s = .ok ((), putReg s id r fun _ => v) := rfl
@[simp] theorem self_of_living (h : ctxOf s id = some x) : self id s = .ok (x, s) := by simp [self, h]
@[simp] theorem jump_eq (id : Nat) (t : Dword) (s : State) : jump id t s = .ok ((), updCtx s id fun x => { x with pc := t }) := rfl

end Sys2Proof.Laws
end

