-- ==== Sys2Proof/Laws/Agenda.lean ====
section
/-! SUPPORT. What the operations that put steps on the agenda and write registers, tags and error marks do, each said once. -/

namespace Sys2Proof.Laws
open Sys2Proof.Machine

/-- A step put on the agenda is there beside every step that was, and nothing else is. -/
@[simp] theorem mem_insertDue (l : List Due) (d e : Due) : e ∈ insertDue l d ↔ e = d ∨ e ∈ l := by
  induction l with
  | nil => simp [insertDue]
  | cons x t ih =>
    simp only [insertDue]
    split
    · simp
    · simp only [List.mem_cons, ih]
      tauto
/-- A translation, and the packets that a step's arrival is, do not depend on the agenda or the draws. -/
theorem walk_unscheduled (s : State) (l : List Due) (d : FMap Nat) (u : Nat) (ls : List (Nat × Nat)) (n t : Nat) :
    walk { s with agenda := l, draws := d } u ls n t = walk s u ls n t := by
  induction ls generalizing n t with
  | nil => rfl
  | cons p ls ih =>
    obtain ⟨hi, lo⟩ := p
    simp only [walk, ih]
    rfl
theorem engineAt_unscheduled (s : State) (l : List Due) (d : FMap Nat) (p t u : Nat) (r : Rights) :
    engineAt { s with agenda := l, draws := d } p t u r = engineAt s p t u r := by
  have hl : ∀ own core tb, lookup { s with agenda := l, draws := d } own core tb u = lookup s own core tb u := fun own core tb => by
    simp only [lookup, walk_unscheduled]
    rfl
  have ht : ∀ n, tablesFor { s with agenda := l, draws := d } p n u = tablesFor s p n u := fun _ => rfl
  simp only [engineAt, engineSpot, mapFor, mapTables]
  cases regionOf u with
  | paged =>
    simp only [hl, ht]
    cases lookup s false (16 * t) (tablesFor s p (16 * t / 16) u) u with
    | leaf e => by_cases h : leafFault (tablesFor s p (16 * t / 16) u) r e u ≠ 0 <;> by_cases k : (r.w && bit e 54) = true <;> simp only [h, k, if_true, if_false, Bool.false_eq_true, not_false_eq_true, ne_eq]
    | absent e => rfl
    | bad b e => rfl
  | scratch a b => rfl
  | hole => rfl
  | none => rfl
theorem routesOf_unscheduled (s : State) (l : List Due) (d : FMap Nat) (i : Instr) : routesOf { s with agenda := l, draws := d } i = routesOf s i := by
  cases i with
  | copyLineMove t u => simp only [routesOf, engineAt_unscheduled]
  | _ => rfl
@[simp] theorem routesOf_agenda (s : State) (l : List Due) (i : Instr) : routesOf { s with agenda := l } i = routesOf s i := routesOf_unscheduled s l s.draws i
@[simp] theorem routesOf_drawn (s : State) (p n : Nat) (i : Instr) : routesOf (drawn s p n) i = routesOf s i := routesOf_unscheduled s s.agenda _ i
theorem widePort_unscheduled (s : State) (l : List Due) (d : FMap Nat) (i : Instr) : widePort { s with agenda := l, draws := d } i = widePort s i := by
  cases i <;> rfl
/-- Whether two steps may share a route does not depend on the agenda or the draws. -/
theorem mayMeet_unscheduled (s : State) (l : List Due) (d : FMap Nat) (i j : Instr) (m : List Packet) :
    mayMeet { s with agenda := l, draws := d } i m j = mayMeet s i m j := by
  simp only [mayMeet, routesOf_unscheduled, widePort_unscheduled]
@[simp] theorem dueRank_agenda (s : State) (l : List Due) (i : Instr) : dueRank { s with agenda := l } i = dueRank s i := by
  cases i <;> rfl
/-- A step is put on the agenda for its cycle or a later one, and for its own where no packet of its route is to come before. -/
theorem foldl_max_ge (f : Due → Bool) (g : Due → Nat) (l : List Due) (n : Nat) : n ≤ l.foldl (fun m d => if f d then Nat.max m (g d) else m) n := by
  induction l generalizing n with
  | nil => simp
  | cons d t ih =>
    refine Nat.le_trans (?_ : n ≤ if f d then Nat.max n (g d) else n) (ih _)
    split
    · exact Nat.le_max_left ..
    · exact Nat.le_refl _
theorem foldl_max_le (f : Due → Bool) (g : Due → Nat) (l : List Due) (n b : Nat) (hn : n ≤ b) (h : ∀ d ∈ l, f d = true → g d ≤ b) :
    l.foldl (fun m d => if f d then Nat.max m (g d) else m) n ≤ b := by
  induction l generalizing n with
  | nil => simpa using hn
  | cons d t ih =>
    refine ih _ (?_ : (if f d then Nat.max n (g d) else n) ≤ b) fun e he => h e (List.mem_cons_of_mem _ he)
    split
    · exact Nat.max_le.mpr ⟨hn, h d (List.mem_cons_self ..) (by assumption)⟩
    · exact hn
theorem inOrder_ge (s : State) (i : Instr) (n : Nat) : n ≤ inOrder s i n := by
  simp only [inOrder]
  split
  · exact Nat.le_refl _
  · exact foldl_max_ge (fun d => mayMeet s i (routesOf s i) d.step) (fun d => d.at_ + if dueRank s i < dueRank s d.step then 1 else 0) s.agenda n
theorem inOrder_le (s : State) (i : Instr) (n b : Nat) (hn : n ≤ b)
    (h : ∀ d ∈ s.agenda, mayMeet s i (routesOf s i) d.step = true → d.at_ + 1 ≤ b) : inOrder s i n ≤ b := by
  simp only [inOrder]
  split
  · exact hn
  · exact foldl_max_le (fun d => mayMeet s i (routesOf s i) d.step) (fun d => d.at_ + if dueRank s i < dueRank s d.step then 1 else 0) s.agenda n b hn
      (fun d hd hf => by
        have := h d hd hf
        show d.at_ + (if _ then 1 else 0) ≤ b
        split <;> omega)
@[simp] theorem inOrder_of_no_route {s : State} {i : Instr} (n : Nat) (h : routesOf s i = []) (hw : widePort s i = none) : inOrder s i n = n := by
  simp [inOrder, h, hw]
theorem mem_schedule (s : State) (at_ : Nat) (i : Instr) (e : Due) : e ∈ (schedule s at_ i).agenda ↔ e = ⟨inOrder s i at_, i⟩ ∨ e ∈ s.agenda :=
  mem_insertDue ..
/-- A step put on the agenda for a cycle is there from that cycle on. -/
theorem mem_schedule_ge (s : State) (at_ : Nat) (i : Instr) : ∃ due, at_ ≤ due ∧ ⟨due, i⟩ ∈ (schedule s at_ i).agenda :=
  ⟨_, inOrder_ge s i at_, by simp⟩
theorem mem_soon (s : State) (i : Instr) : ∃ due, s.cyc < due ∧ ⟨due, i⟩ ∈ (soon s i).agenda := mem_schedule_ge ..
theorem mem_now (s : State) (i : Instr) : ∃ due, s.cyc ≤ due ∧ ⟨due, i⟩ ∈ (now s i).agenda := mem_schedule_ge ..
/-- A step after an open latency comes in a later cycle, and no earlier than it may. -/
theorem mem_laterFrom (s : State) (n : Nat) (i : Instr) : ∃ due, s.cyc < due ∧ n ≤ due ∧ ⟨due, i⟩ ∈ (laterFrom s n i).agenda := by
  obtain ⟨due, hd, hm⟩ := mem_schedule_ge (openDelay s (drawKey s i)).2 (Nat.max (openDelay s (drawKey s i)).1 n) i
  have h1 : s.cyc + 1 ≤ Nat.max (openDelay s (drawKey s i)).1 n := Nat.le_trans (by simp [openDelay]) (Nat.le_max_left ..)
  have h2 : n ≤ Nat.max (openDelay s (drawKey s i)).1 n := Nat.le_max_right ..
  exact ⟨due, by omega, by omega, hm⟩
theorem mem_later (s : State) (i : Instr) : ∃ due, s.cyc < due ∧ ⟨due, i⟩ ∈ (later s i).agenda := by
  obtain ⟨due, h, _, hm⟩ := mem_laterFrom s 0 i
  exact ⟨due, h, hm⟩
/-- What is hastened comes by its bound, and nothing else changes its cycle. -/
theorem mem_foldl_insertDue (l acc : List Due) (e : Due) : e ∈ l.foldl insertDue acc ↔ e ∈ l ∨ e ∈ acc := by
  induction l generalizing acc with
  | nil => simp
  | cons d t ih => simp only [List.foldl_cons, ih, mem_insertDue, List.mem_cons]; tauto
theorem mem_hasten (s : State) (n : Nat) (f : Instr → Bool) (e : Due) :
    e ∈ (hasten s n f).agenda ↔ ∃ d ∈ s.agenda, (if f d.step then { d with at_ := Nat.min d.at_ n } else d) = e := by
  simp [hasten, mem_foldl_insertDue]
theorem mem_hastenRoutes (s : State) (n : Nat) (f : Instr → Bool) (e : Due) (h : e ∈ (hastenRoutes s n f).agenda) :
    ∃ d ∈ s.agenda, e.step = d.step ∧ (f d.step = true → e.at_ ≤ n) := by
  obtain ⟨d, hd, rfl⟩ := (mem_hasten ..).mp h
  refine ⟨d, hd, by split <;> rfl, fun hf => ?_⟩
  rw [if_pos (by simp [hf])]
  exact Nat.min_le_right ..
/-- A step within n cycles comes in one of the next n, whatever comes before it. -/
theorem mem_withinBehind (s : State) (n : Nat) (f : Instr → Bool) (i : Instr) (h : 0 < n) :
    ∃ due, s.cyc < due ∧ due ≤ s.cyc + n ∧ ⟨due, i⟩ ∈ (withinBehind s n f i).agenda := by
  have hb := Nat.mod_lt (Config.delay (drawKey s i) (drawsOf s (drawKey s i))) h
  have h1 : s.cyc + 1 ≤ (boundedDelay s (drawKey s i) n).1 ∧ (boundedDelay s (drawKey s i) n).1 ≤ s.cyc + n := by simp only [boundedDelay]; omega
  refine ⟨_, Nat.lt_of_lt_of_le (by omega) (inOrder_ge _ i (boundedDelay s (drawKey s i) n).1),
    Nat.le_trans (inOrder_le _ i _ _ (Nat.le_refl _) ?_) h1.2, (mem_schedule ..).mpr (Or.inl rfl)⟩
  intro d hd hr
  obtain ⟨e, _, he, hle⟩ := mem_hastenRoutes _ _ _ d hd
  simp only [hastenRoutes, hasten, boundedDelay, drawn, routesOf_unscheduled, mayMeet_unscheduled] at hr
  rw [he] at hr
  have := hle (by simp [sharesRoute, hr])
  omega
/-- A step within n cycles comes in one of the next n. -/
theorem mem_within (s : State) (n : Nat) (i : Instr) (h : 0 < n) : ∃ due, s.cyc < due ∧ due ≤ s.cyc + n ∧ ⟨due, i⟩ ∈ (within s n i).agenda := by
  exact mem_withinBehind s n (fun _ => false) i h
@[simp] theorem soon_mem (s : State) (i : Instr) : (soon s i).mem = s.mem := rfl
@[simp] theorem now_mem (s : State) (i : Instr) : (now s i).mem = s.mem := rfl
@[simp] theorem later_mem (s : State) (i : Instr) : (later s i).mem = s.mem := rfl
@[simp] theorem within_mem (s : State) (n : Nat) (i : Instr) : (within s n i).mem = s.mem := rfl
@[simp] theorem soon_ctxs (s : State) (i : Instr) : (soon s i).ctxs = s.ctxs := rfl
@[simp] theorem now_ctxs (s : State) (i : Instr) : (now s i).ctxs = s.ctxs := rfl
@[simp] theorem later_ctxs (s : State) (i : Instr) : (later s i).ctxs = s.ctxs := rfl
@[simp] theorem within_ctxs (s : State) (n : Nat) (i : Instr) : (within s n i).ctxs = s.ctxs := rfl

/-- A tag or an error mark changes at the word it is set for, and nowhere else. -/
theorem tagAt_setTag (s : State) (p q : Nat) (b : Bool) : tagAt (setTag s p b) q = if q / 8 = p / 8 then b else tagAt s q := by
  unfold tagAt setTag
  split
  · rename_i h; rw [h]; exact get_set_self ..
  · rename_i h; exact get_set_of_ne _ _ _ h
theorem errAt_setErr (s : State) (p q : Nat) (b : Bool) : errAt (setErr s p b) q = if q / 8 = p / 8 then b else errAt s q := by
  unfold errAt setErr
  split
  · rename_i h; rw [h]; exact get_set_self ..
  · rename_i h; exact get_set_of_ne _ _ _ h
/-- A write of a numbered register of a living context: that register alone, and the error marks of the words written whole cleared (R425). -/
theorem putReg_of_living {s : State} {id : Nat} {x : Ctx} {r : RegNo} (h : ctxOf s id = some x) (hr : r.toNat ≤ 127) (f : Reg → Reg) :
    putReg s id r f = clearRegErr (setCtx s id (x.setReg r.toNat (f (x.reg r.toNat)))) id r.toNat
      (writesWhole f) := by
  simp [putReg, h, hr]

end Sys2Proof.Laws
end

