-- ==== Sys2Proof/Laws/Memory.lean ====
section
/-! SUPPORT. The laws of memory: what a store leaves to be read, and the canonical form that every operation on
memory keeps and that memory at reset has. -/

namespace Sys2Proof.Laws
open Sys2Proof.Machine

theorem putBytes_get (m : List Host.Cell) (p : Nat) (bs : List Byte) (q : Nat) :
    FMap.get blankByte (putBytes m p bs) q = if p ≤ q ∧ q < p + bs.length then bs.getD (q - p) 0 else FMap.get blankByte m q := by
  induction bs generalizing m p with
  | nil => simp [putBytes, show ¬ (p ≤ q ∧ q < p) by omega]
  | cons b t ih =>
    rw [putBytes, ih]
    by_cases hq : q = p
    · subst hq
      simp
    · by_cases h1 : p + 1 ≤ q ∧ q < p + 1 + t.length
      · have h2 : p ≤ q ∧ q < p + (b :: t).length := ⟨by omega, by simp only [List.length_cons]; omega⟩
        rw [if_pos h1, if_pos h2, show q - p = (q - (p + 1)) + 1 by omega]
        rfl
      · have h2 : ¬ (p ≤ q ∧ q < p + (b :: t).length) := by simp only [List.length_cons]; omega
        rw [if_neg h1, if_neg h2, get_set_of_ne _ _ _ hq]
/-- A byte after bytes are stored: the stored one inside them, the old one outside. -/
theorem readByte_writeBytes (s : State) (p : Nat) (bs : List Byte) (q : Nat) :
    readByte (writeBytes s p bs) q = if p ≤ q ∧ q < p + bs.length then bs.getD (q - p) 0 else readByte s q :=
  putBytes_get s.mem p bs q
theorem putMasked_get_outside (v : Reg) (mask : BitVec 64) (p : Nat) (m : List Host.Cell) (i n q : Nat) (h : q < p + i ∨ p + i + n ≤ q) :
    FMap.get blankByte (putMasked v mask p m i n) q = FMap.get blankByte m q := by
  induction n generalizing m i with
  | zero => rfl
  | succ n ih =>
    rw [putMasked, ih _ _ (by omega)]
    split
    · exact get_set_of_ne _ _ _ (by omega)
    · rfl
/-- A masked store changes no byte outside it. -/
theorem readByte_writeMasked_outside (s : State) (p n : Nat) (v : Reg) (mask : BitVec 64) (q : Nat) (h : q < p ∨ p + n ≤ q) :
    readByte (writeMasked s p n v mask) q = readByte s q :=
  putMasked_get_outside v mask p s.mem 0 n q (by omega)

-- The canonical form

theorem putBytes_wf (m : List Host.Cell) (p : Nat) (bs : List Byte) (h : Memory.wf m = true) : Memory.wf (putBytes m p bs) = true := by
  induction bs generalizing m p with
  | nil => exact h
  | cons b t ih => exact ih _ _ (wf_set _ _ _ _ h)
theorem putMasked_wf (v : Reg) (mask : BitVec 64) (p : Nat) (m : List Host.Cell) (i n : Nat) (h : Memory.wf m = true) :
    Memory.wf (putMasked v mask p m i n) = true := by
  induction n generalizing m i with
  | zero => exact h
  | succ n ih =>
    refine ih _ _ ?_
    split
    · exact wf_set _ _ _ _ h
    · exact h
/-- Bytes stored keep the canonical form. -/
theorem writeBytes_wf (s : State) (p : Nat) (bs : List Byte) (h : Memory.wf s.mem = true) : Memory.wf (writeBytes s p bs).mem = true :=
  putBytes_wf s.mem p bs h
/-- A number stored keeps the canonical form. -/
theorem writeLE_wf (s : State) (p n v : Nat) (h : Memory.wf s.mem = true) : Memory.wf (writeLE s p n v).mem = true :=
  writeBytes_wf s p _ h
/-- A doubleword stored keeps the canonical form. -/
theorem writeDw_wf (s : State) (p : Nat) (v : Dword) (h : Memory.wf s.mem = true) : Memory.wf (writeDw s p v).mem = true :=
  writeLE_wf s p 8 _ h
/-- A masked store keeps the canonical form. -/
theorem writeMasked_wf (s : State) (p n : Nat) (v : Reg) (mask : BitVec 64) (h : Memory.wf s.mem = true) :
    Memory.wf (writeMasked s p n v mask).mem = true :=
  putMasked_wf v mask p s.mem 0 n h
/-- Cells dropped, as by a reset, keep the canonical form. -/
theorem memory_filter_wf (m : List Host.Cell) (p : Host.Cell → Bool) (h : Memory.wf m = true) : Memory.wf (m.filter p) = true :=
  wf_filter blankByte p m h
/-- Memory at reset has the canonical form. -/
theorem reset_memory_wf : Memory.wf State.reset.mem = true := rfl

end Sys2Proof.Laws
end

