-- ==== Sys2Proof/Laws/PerInstr.lean ====
section
/-! SUPPORT. The family Build: from the fields that the encoder gives a well-formed instruction, the decoder builds that instruction, or the first of
the rows that share its word; one lemma a constructor, over one round trip a qualifier layout (R130). -/

namespace Sys2Proof

@[simp] theorem mask_ofMask (p : Fin 4) : mask (ofMask p) = p := by revert p; decide
@[simp] theorem nib_ofNib (k : BitVec 4) : nib (ofNib k) = k := by revert k; decide
@[simp] theorem special_num (n : Fin 38) : special (BitVec.ofNat 64 n.val) = n := by revert n; decide
@[simp] theorem MQual.of_bits (q : MQual) : MQual.of? q.bits = some q := by rcases q with ⟨t, p, o, s⟩; cases t <;> cases p <;> cases o <;> cases s <;> rfl
@[simp] theorem AQual.of_bits (q : AQual) : AQual.of? q.bits = some q := by
  rcases q with ⟨p, c, o, s, w⟩; cases p <;> cases c <;> cases o <;> cases s <;> cases w <;> rfl
@[simp] theorem FQual.of_bits (q : FQual) : FQual.of? q.bits = some q := by rcases q with ⟨k, s⟩; cases k <;> cases s <;> rfl
@[simp] theorem VIQual.of_bits (q : VIQual) : VIQual.of? q.bits = some q := by
  rcases q with ⟨e, b, s, u, c⟩; cases e <;> cases b <;> cases s <;> cases u <;> cases c <;> rfl
@[simp] theorem VFQual.of_bits (q : VFQual) (n : Nat) (h : n < 8) : VFQual.of? (q.bits n) = some (q, n) := by
  rcases q with ⟨t, b, r⟩; have : n = 0 ∨ n = 1 ∨ n = 2 ∨ n = 3 ∨ n = 4 ∨ n = 5 ∨ n = 6 ∨ n = 7 := by omega
  rcases this with rfl | rfl | rfl | rfl | rfl | rfl | rfl | rfl <;> cases t <;> cases b <;> cases r <;> rfl
@[simp] theorem FCmp.of_num (o : FCmp) : FCmp.of? o.num = some o := by cases o <;> rfl
@[simp] theorem SgnOp.of_num (o : SgnOp) : SgnOp.of? o.num = some o := by cases o <;> rfl
@[simp] theorem CvtiOp.of_num (o : CvtiOp) : CvtiOp.of? o.num = some o := by cases o <;> rfl
theorem FCmp.num_lt (o : FCmp) : o.num < 8 := by cases o <;> decide
theorem SgnOp.num_lt (o : SgnOp) : o.num < 8 := by cases o <;> decide
theorem CvtiOp.num_lt (o : CvtiOp) : o.num < 8 := by cases o <;> decide
@[simp] theorem LQual.of_bits (q : LQual) : LQual.of? q.bits = some q := by
  cases q with
  | int op => revert op; decide
  | float op rm => cases rm <;> revert op <;> decide
theorem arOf_bits (t : FType) : arOf? (BitVec.ofNat 10 (t.num * 256)) = some t := by cases t <;> decide
theorem mop_bits (fn : BitVec 4) : (BitVec.ofNat 10 (fn.toNat * 64)).toNat % 64 = 0 ∧ (BitVec.ofNat 10 (fn.toNat * 64)).extractLsb' 6 4 = fn := by revert fn; decide
@[simp] theorem MaskTest.of_bits (t : MaskTest) : MaskTest.of? t.bits = some t := by cases t <;> rfl
@[simp] theorem BitOp.of_bits (o : BitOp) : BitOp.of? o.bits = some o := by cases o <;> rfl
@[simp] theorem CQual.of_bits (q : CQual) : CQual.of? q.bits = some q := by
  rcases q with ⟨f, r, m⟩
  cases f with
  | b8 u i p => cases u <;> cases i <;> cases r <;> cases m <;> revert p <;> decide
  | _ => cases r <;> cases m <;> rfl
@[simp] theorem XQual.of_bits (q : XQual) : XQual.of? q.bits = some q := by
  rcases q with ⟨f, r⟩
  cases f with
  | b8 u i p => cases u <;> cases i <;> cases r <;> revert p <;> decide
  | _ => cases r <;> rfl
@[simp] theorem PQual.of_bits (q : PQual) : PQual.of? q.bits = some q := by rcases q with ⟨w, s⟩; cases w <;> cases s <;> rfl
@[simp] theorem ZQual.of_bits (q : ZQual) : ZQual.of? q.bits = some q := by rcases q with ⟨c, n⟩; cases c <;> cases n <;> rfl
theorem vfPlain_of_bits (q : VFQual) (f : VFQual → Instr) : vfPlain (q.bits 0) f = some (f q) := by simp [vfPlain, vfOp]

/-- What the encoder's fields are built into. -/
def Laws.Build.Statement (i : Instr) : Prop :=
  i.wf = true → ∀ e, i.enc = some e → build e.page e.op ⟨e.la, e.q, e.d, e.a, e.b, e.imm⟩ = some i.wordRow

namespace Laws.Build

theorem add (d a b : RegNo) : Statement (.add d a b) := by intro _ e h; cases h; rfl
theorem sub (d a b : RegNo) : Statement (.sub d a b) := by intro _ e h; cases h; rfl
theorem and (d a b : RegNo) : Statement (.and d a b) := by intro _ e h; cases h; rfl
theorem or (d a b : RegNo) : Statement (.or d a b) := by intro _ e h; cases h; rfl
theorem xor (d a b : RegNo) : Statement (.xor d a b) := by intro _ e h; cases h; rfl
theorem shl (d a b : RegNo) : Statement (.shl d a b) := by intro _ e h; cases h; rfl
theorem shr (d a b : RegNo) : Statement (.shr d a b) := by intro _ e h; cases h; rfl
theorem sar (d a b : RegNo) : Statement (.sar d a b) := by intro _ e h; cases h; rfl
theorem addi (d a : RegNo) (imm : Dword) : Statement (.addi d a imm) := by intro _ e h; cases h; rfl
theorem li (d : RegNo) (imm : Dword) : Statement (.li d imm) := by intro _ e h; cases h; rfl
theorem mov (d a : RegNo) : Statement (.mov d a) := by intro _ e h; cases h; rfl
theorem slt (d a b : RegNo) : Statement (.slt d a b) := by intro _ e h; cases h; rfl
theorem sltu (d a b : RegNo) : Statement (.sltu d a b) := by intro _ e h; cases h; rfl
theorem mul (d a b : RegNo) : Statement (.mul d a b) := by intro _ e h; cases h; rfl
theorem mulh (d a b : RegNo) : Statement (.mulh d a b) := by intro _ e h; cases h; rfl
theorem mulhu (d a b : RegNo) : Statement (.mulhu d a b) := by intro _ e h; cases h; rfl
theorem div (la : BitVec 4) (d a b : RegNo) : Statement (.div la d a b) := by intro _ e h; cases h; rfl
theorem divu (la : BitVec 4) (d a b : RegNo) : Statement (.divu la d a b) := by intro _ e h; cases h; rfl
theorem rem (la : BitVec 4) (d a b : RegNo) : Statement (.rem la d a b) := by intro _ e h; cases h; rfl
theorem remu (la : BitVec 4) (d a b : RegNo) : Statement (.remu la d a b) := by intro _ e h; cases h; rfl
theorem min (d a b : RegNo) : Statement (.min d a b) := by intro _ e h; cases h; rfl
theorem max (d a b : RegNo) : Statement (.max d a b) := by intro _ e h; cases h; rfl
theorem minu (d a b : RegNo) : Statement (.minu d a b) := by intro _ e h; cases h; rfl
theorem maxu (d a b : RegNo) : Statement (.maxu d a b) := by intro _ e h; cases h; rfl
theorem shli (d a : RegNo) (imm : Dword) : Statement (.shli d a imm) := by intro _ e h; cases h; rfl
theorem shri (d a : RegNo) (imm : Dword) : Statement (.shri d a imm) := by intro _ e h; cases h; rfl
theorem sari (d a : RegNo) (imm : Dword) : Statement (.sari d a imm) := by intro _ e h; cases h; rfl
theorem bop (op : BitOp) (d a : RegNo) : Statement (.bop op d a) := by intro _ e h; cases h; exact congrArg (Option.map _) (BitOp.of_bits op)
theorem bra (off : Dword) : Statement (.bra off) := by intro _ e h; cases h; rfl
theorem bz (a : RegNo) (off : Dword) : Statement (.bz a off) := by intro _ e h; cases h; rfl
theorem bnz (a : RegNo) (off : Dword) : Statement (.bnz a off) := by intro _ e h; cases h; rfl
theorem beq (a b : RegNo) (off : Dword) : Statement (.beq a b off) := by intro _ e h; cases h; rfl
theorem bne (a b : RegNo) (off : Dword) : Statement (.bne a b off) := by intro _ e h; cases h; rfl
theorem blt (a b : RegNo) (off : Dword) : Statement (.blt a b off) := by intro _ e h; cases h; rfl
theorem bltu (a b : RegNo) (off : Dword) : Statement (.bltu a b off) := by intro _ e h; cases h; rfl
theorem call (d : RegNo) (off : Dword) : Statement (.call d off) := by intro _ e h; cases h; rfl
theorem jmp (a : RegNo) : Statement (.jmp a) := by intro _ e h; cases h; rfl
theorem bmask (t : MaskTest) (off : Dword) : Statement (.bmask t off) := by intro _ e h; cases h; exact congrArg (Option.map _) (MaskTest.of_bits t)
theorem ypoint (off : Dword) : Statement (.ypoint off) := by intro _ e h; cases h; rfl
theorem vadd (q : VIQual) (d a b : RegNo) : Statement (.vadd q d a b) := by intro _ e h; cases h; exact congrArg (Option.map _) (VIQual.of_bits q)
theorem vsub (q : VIQual) (d a b : RegNo) : Statement (.vsub q d a b) := by intro _ e h; cases h; exact congrArg (Option.map _) (VIQual.of_bits q)
theorem vmul (q : VIQual) (d a b : RegNo) : Statement (.vmul q d a b) := by intro _ e h; cases h; exact congrArg (Option.map _) (VIQual.of_bits q)
theorem vmulh (q : VIQual) (d a b : RegNo) : Statement (.vmulh q d a b) := by intro _ e h; cases h; exact congrArg (Option.map _) (VIQual.of_bits q)
theorem vand (q : VIQual) (d a b : RegNo) : Statement (.vand q d a b) := by intro _ e h; cases h; exact congrArg (Option.map _) (VIQual.of_bits q)
theorem vor (q : VIQual) (d a b : RegNo) : Statement (.vor q d a b) := by intro _ e h; cases h; exact congrArg (Option.map _) (VIQual.of_bits q)
theorem vxor (q : VIQual) (d a b : RegNo) : Statement (.vxor q d a b) := by intro _ e h; cases h; exact congrArg (Option.map _) (VIQual.of_bits q)
theorem vshl (q : VIQual) (d a b : RegNo) : Statement (.vshl q d a b) := by intro _ e h; cases h; exact congrArg (Option.map _) (VIQual.of_bits q)
theorem vshr (q : VIQual) (d a b : RegNo) : Statement (.vshr q d a b) := by intro _ e h; cases h; exact congrArg (Option.map _) (VIQual.of_bits q)
theorem vsar (q : VIQual) (d a b : RegNo) : Statement (.vsar q d a b) := by intro _ e h; cases h; exact congrArg (Option.map _) (VIQual.of_bits q)
theorem vmin (q : VIQual) (d a b : RegNo) : Statement (.vmin q d a b) := by intro _ e h; cases h; exact congrArg (Option.map _) (VIQual.of_bits q)
theorem vmax (q : VIQual) (d a b : RegNo) : Statement (.vmax q d a b) := by intro _ e h; cases h; exact congrArg (Option.map _) (VIQual.of_bits q)
theorem vcmp (q : VIQual) (pd : Fin 4) (a b : RegNo) : Statement (.vcmp q pd a b) := by
 intro _ e h; cases h; show (VIQual.of? q.bits).map (fun q => Instr.vcmp q (mask (ofMask pd)) a b) = some (.vcmp q pd a b); simp
theorem vsel (q : VIQual) (d a b : RegNo) : Statement (.vsel q d a b) := by intro _ e h; cases h; exact congrArg (Option.map _) (VIQual.of_bits q)
theorem vfadd (q : VFQual) (d a b : RegNo) : Statement (.vfadd q d a b) := by intro _ e h; cases h; exact vfPlain_of_bits q _
theorem vfsub (q : VFQual) (d a b : RegNo) : Statement (.vfsub q d a b) := by intro _ e h; cases h; exact vfPlain_of_bits q _
theorem vfmul (q : VFQual) (d a b : RegNo) : Statement (.vfmul q d a b) := by intro _ e h; cases h; exact vfPlain_of_bits q _
theorem vfma (q : VFQual) (d a b : RegNo) : Statement (.vfma q d a b) := by intro _ e h; cases h; exact vfPlain_of_bits q _
theorem vfmin (q : VFQual) (d a b : RegNo) : Statement (.vfmin q d a b) := by intro _ e h; cases h; exact vfPlain_of_bits q _
theorem vfmax (q : VFQual) (d a b : RegNo) : Statement (.vfmax q d a b) := by intro _ e h; cases h; exact vfPlain_of_bits q _
theorem vfdiv (la : BitVec 4) (q : VFQual) (d a b : RegNo) : Statement (.vfdiv la q d a b) := by intro _ e h; cases h; exact vfPlain_of_bits q _
theorem vfsqrt (la : BitVec 4) (q : VFQual) (d a : RegNo) : Statement (.vfsqrt la q d a) := by intro _ e h; cases h; exact vfPlain_of_bits q _
theorem vfrcp (la : BitVec 4) (q : VFQual) (d a : RegNo) : Statement (.vfrcp la q d a) := by intro _ e h; cases h; exact vfPlain_of_bits q _
theorem vfcmp (op : FCmp) (q : VFQual) (pd : Fin 4) (a b : RegNo) : Statement (.vfcmp op q pd a b) := by
 intro _ e h; cases h; show vfOp (q.bits op.num) (fun q n => (FCmp.of? n).map fun op => Instr.vfcmp op q (mask (ofMask pd)) a b) = some (.vfcmp op q pd a b); simp [vfOp, FCmp.num_lt]
theorem vfsgn (op : SgnOp) (q : VFQual) (d a b : RegNo) : Statement (.vfsgn op q d a b) := by
 intro _ e h; cases h; show vfOp (q.bits op.num) (fun q n => (SgnOp.of? n).map fun op => Instr.vfsgn op q d a b) = some (.vfsgn op q d a b); simp [vfOp, SgnOp.num_lt]
theorem vfrnd (q : VFQual) (d a : RegNo) : Statement (.vfrnd q d a) := by intro _ e h; cases h; exact vfPlain_of_bits q _
theorem vfcvti (op : CvtiOp) (q : VFQual) (d a : RegNo) : Statement (.vfcvti op q d a) := by
 intro _ e h; cases h; show vfOp (q.bits op.num) (fun q n => (CvtiOp.of? n).map fun op => Instr.vfcvti op q d a) = some (.vfcvti op q d a); simp [vfOp, CvtiOp.num_lt]
theorem vfdot2 (q : VFQual) (d a b : RegNo) : Statement (.vfdot2 q d a b) := by intro _ e h; cases h; exact vfPlain_of_bits q _
theorem vbc (d a : RegNo) : Statement (.vbc d a) := by intro _ e h; cases h; rfl
theorem vget (d a : RegNo) (imm : Dword) : Statement (.vget d a imm) := by intro _ e h; cases h; rfl
theorem vput (d a : RegNo) (imm : Dword) : Statement (.vput d a imm) := by intro _ e h; cases h; rfl
theorem vperm (d a b : RegNo) : Statement (.vperm d a b) := by intro _ e h; cases h; rfl
theorem vrot (d a : RegNo) (imm : Dword) : Statement (.vrot d a imm) := by intro _ e h; cases h; rfl
theorem vred (q : LQual) (d a : RegNo) : Statement (.vred q d a) := by intro _ e h; cases h; exact congrArg (Option.map _) (LQual.of_bits q)
theorem vscan (q : LQual) (d a : RegNo) : Statement (.vscan q d a) := by intro _ e h; cases h; exact congrArg (Option.map _) (LQual.of_bits q)
theorem mop (fn : BitVec 4) (pd pa pb : Fin 4) : Statement (.mop fn pd pa pb) := by
 intro _ e h; cases h; show (if (BitVec.ofNat 10 (fn.toNat * 64)).toNat % 64 = 0 then some (Instr.mop ((BitVec.ofNat 10 (fn.toNat * 64)).extractLsb' 6 4) (mask (ofMask pd)) (mask (ofMask pa)) (mask (ofMask pb))) else none) = some (.mop fn pd pa pb); simp only [mask_ofMask, (mop_bits fn).1, (mop_bits fn).2, if_true]
theorem mget (d : RegNo) (pa : Fin 4) : Statement (.mget d pa) := by
 intro _ e h; cases h; show some (Instr.mget d (mask (ofMask pa))) = some (.mget d pa); simp
theorem mset (pd : Fin 4) (a : RegNo) : Statement (.mset pd a) := by
 intro _ e h; cases h; show some (Instr.mset (mask (ofMask pd)) a) = some (.mset pd a); simp
theorem mcnt (d : RegNo) (pa : Fin 4) : Statement (.mcnt d pa) := by
 intro _ e h; cases h; show some (Instr.mcnt d (mask (ofMask pa))) = some (.mcnt d pa); simp
theorem vlane (d a : RegNo) : Statement (.vlane d a) := by intro _ e h; cases h; rfl
theorem vzip (d a b : RegNo) : Statement (.vzip d a b) := by intro _ e h; cases h; rfl
theorem vuzp (d a b : RegNo) : Statement (.vuzp d a b) := by intro _ e h; cases h; rfl
theorem ld (la : BitVec 4) (q : MQual) (d a : RegNo) (imm : Dword) : Statement (.ld la q d a imm) := by intro _ e h; cases h; exact congrArg (Option.map _) (MQual.of_bits q)
theorem st (q : MQual) (d a : RegNo) (imm : Dword) : Statement (.st q d a imm) := by intro _ e h; cases h; exact congrArg (Option.map _) (MQual.of_bits q)
theorem vld (la : BitVec 4) (q : MQual) (d a : RegNo) (imm : Dword) : Statement (.vld la q d a imm) := by intro _ e h; cases h; exact congrArg (Option.map _) (MQual.of_bits q)
theorem vst (q : MQual) (d a : RegNo) (imm : Dword) : Statement (.vst q d a imm) := by intro _ e h; cases h; exact congrArg (Option.map _) (MQual.of_bits q)
theorem vgath (la : BitVec 4) (q : MQual) (d a b : RegNo) : Statement (.vgath la q d a b) := by intro _ e h; cases h; exact congrArg (Option.map _) (MQual.of_bits q)
theorem vscat (q : MQual) (d a b : RegNo) : Statement (.vscat q d a b) := by intro _ e h; cases h; exact congrArg (Option.map _) (MQual.of_bits q)
theorem pref (q : MQual) (a : RegNo) (imm : Dword) : Statement (.pref q a imm) := by intro _ e h; cases h; exact congrArg (Option.map _) (MQual.of_bits q)
theorem lea (d a : RegNo) (imm : Dword) : Statement (.lea d a imm) := by intro _ e h; cases h; rfl
theorem zline (q : MQual) (a : RegNo) (imm : Dword) : Statement (.zline q a imm) := by intro _ e h; cases h; exact congrArg (Option.map _) (MQual.of_bits q)
theorem ldmx (la : BitVec 4) (q : MQual) (d a : RegNo) (imm : Dword) : Statement (.ldmx la q d a imm) := by intro _ e h; cases h; exact congrArg (Option.map _) (MQual.of_bits q)
theorem ldf (la : BitVec 4) (q : MQual) (d a : RegNo) (imm : Dword) : Statement (.ldf la q d a imm) := by intro _ e h; cases h; exact congrArg (Option.map _) (MQual.of_bits q)
theorem take (la : BitVec 4) (q : MQual) (d a : RegNo) (imm : Dword) : Statement (.take la q d a imm) := by intro _ e h; cases h; exact congrArg (Option.map _) (MQual.of_bits q)
theorem put (la : BitVec 4) (q : MQual) (d a : RegNo) (imm : Dword) : Statement (.put la q d a imm) := by intro _ e h; cases h; exact congrArg (Option.map _) (MQual.of_bits q)
theorem stf (la : BitVec 4) (q : MQual) (d a : RegNo) (imm : Dword) : Statement (.stf la q d a imm) := by intro _ e h; cases h; exact congrArg (Option.map _) (MQual.of_bits q)
theorem sete (la : BitVec 4) (q : MQual) (a : RegNo) (imm : Dword) : Statement (.sete la q a imm) := by intro _ e h; cases h; exact congrArg (Option.map _) (MQual.of_bits q)
theorem fetag (la : BitVec 4) (q : MQual) (d a : RegNo) (imm : Dword) : Statement (.fetag la q d a imm) := by intro _ e h; cases h; exact congrArg (Option.map _) (MQual.of_bits q)
theorem atom (la : BitVec 4) (q : AQual) (d a b : RegNo) : Statement (.atom la q d a b) := by intro _ e h; cases h; exact congrArg (Option.map _) (AQual.of_bits q)
theorem cas (la : BitVec 4) (q : AQual) (d a b : RegNo) : Statement (.cas la q d a b) := by intro _ e h; cases h; exact congrArg (Option.map _) (AQual.of_bits q)
theorem fence (q : FQual) : Statement (.fence q) := by intro _ e h; cases h; exact congrArg (Option.map _) (FQual.of_bits q)
theorem qwait (la : BitVec 4) (d a b : RegNo) (limit : Dword) : Statement (.qwait la d a b limit) := by intro _ e h; cases h; rfl
theorem send (a b : RegNo) : Statement (.send a b) := by intro _ e h; cases h; rfl
theorem recv (d : RegNo) : Statement (.recv d) := by intro _ e h; cases h; rfl
theorem waitm (d : RegNo) (limit : Dword) : Statement (.waitm d limit) := by intro _ e h; cases h; rfl
theorem spawn (d a b : RegNo) : Statement (.spawn d a b) := by intro _ e h; cases h; rfl
theorem migr (a : RegNo) : Statement (.migr a) := by intro _ e h; cases h; rfl
theorem gets (d : RegNo) (n : Fin 38) : Statement (.gets d n) := by
 intro _ e h; cases h; show some (Instr.gets d (special (BitVec.ofNat 64 n.val))) = some (.gets d n); simp
theorem sets (d : RegNo) (n : Fin 38) : Statement (.sets d n) := by
 intro _ e h; cases h; show some (Instr.sets d (special (BitVec.ofNat 64 n.val))) = some (.sets d n); simp
theorem bgive (d a b : RegNo) : Statement (.bgive d a b) := by intro _ e h; cases h; rfl
theorem brk (code : Dword) : Statement (.brk code) := by intro _ e h; cases h; rfl
theorem signal (a : RegNo) : Statement (.signal a) := by intro _ e h; cases h; rfl
theorem cpy (k : BitVec 4) (a : RegNo) : Statement (.cpy k a) := by
 intro _ e h; cases h; show some (Instr.cpy (nib (ofNib k)) a) = some (.cpy k a); simp
theorem cpys (d : RegNo) (a : RegNo) : Statement (.cpys d a) := by intro _ e h; cases h; rfl
theorem binit (k : BitVec 4) (a : RegNo) : Statement (.binit k a) := by
 intro _ e h; cases h; show some (Instr.binit (nib (ofNib k)) a) = some (.binit k a); simp
theorem bwait (k : BitVec 4) (limit : Dword) : Statement (.bwait k limit) := by
 intro _ e h; cases h; show some (Instr.bwait (nib (ofNib k)) limit) = some (.bwait k limit); simp
theorem bpend (d : RegNo) (k : BitVec 4) : Statement (.bpend d k) := by
 intro _ e h; cases h; show some (Instr.bpend d (nib (ofNib k))) = some (.bpend d k); simp
theorem cpyq (d : RegNo) : Statement (.cpyq d) := by intro _ e h; cases h; rfl
theorem bankcfg (a : RegNo) : Statement (.bankcfg a) := by intro _ e h; cases h; rfl
theorem bankst (d : RegNo) : Statement (.bankst d) := by intro _ e h; cases h; rfl
theorem mfmt (a : RegNo) : Statement (.mfmt a) := by intro _ e h; cases h; rfl
theorem mma (blk : RegNo) (a b : RegNo) : Statement (.mma blk a b) := by intro _ e h; cases h; rfl
theorem mmas (blk : RegNo) (a b : RegNo) : Statement (.mmas blk a b) := by intro _ e h; cases h; rfl
theorem acce (blk : RegNo) (a : RegNo) : Statement (.acce blk a) := by intro _ e h; cases h; rfl
theorem accz (blk : RegNo) : Statement (.accz blk) := by intro _ e h; cases h; rfl
theorem accrd (t : FType) (d blk b : RegNo) : Statement (.accrd t d blk b) := by intro _ e h; cases h; exact congrArg (Option.map _) (arOf_bits t)
theorem accwr (blk a b : RegNo) : Statement (.accwr blk a b) := by intro _ e h; cases h; rfl
theorem accst (t : FType) (blk a : RegNo) : Statement (.accst t blk a) := by intro _ e h; cases h; exact congrArg (Option.map _) (arOf_bits t)
theorem accstat (d blk : RegNo) : Statement (.accstat d blk) := by intro _ e h; cases h; rfl
theorem chset (blk a : RegNo) : Statement (.chset blk a) := by intro _ e h; cases h; rfl
theorem chsend (blk a : RegNo) : Statement (.chsend blk a) := by intro _ e h; cases h; rfl
theorem chwait (blk : RegNo) (limit : Dword) : Statement (.chwait blk limit) := by intro _ e h; cases h; rfl
theorem chdrop (blk : RegNo) : Statement (.chdrop blk) := by intro _ e h; cases h; rfl
theorem chstat (d blk : RegNo) : Statement (.chstat d blk) := by intro _ e h; cases h; rfl
theorem rset (d a : RegNo) : Statement (.rset d a) := by intro _ e h; cases h; rfl
theorem rcov (a b : RegNo) : Statement (.rcov a b) := by intro _ e h; cases h; rfl
theorem rbary (d a b : RegNo) : Statement (.rbary d a b) := by intro _ e h; cases h; rfl
theorem rzt (q : ZQual) (a b : RegNo) : Statement (.rzt q a b) := by intro _ e h; cases h; exact congrArg (Option.map _) (ZQual.of_bits q)
theorem rwr (a b : RegNo) : Statement (.rwr a b) := by intro _ e h; cases h; rfl
theorem rblk (d a b : RegNo) : Statement (.rblk d a b) := by intro _ e h; cases h; rfl
theorem trset (d b : RegNo) : Statement (.trset d b) := by intro _ e h; cases h; rfl
theorem trstep (d a : RegNo) : Statement (.trstep d a) := by intro _ e h; cases h; rfl
theorem trtri (d a b : RegNo) : Statement (.trtri d a b) := by intro _ e h; cases h; rfl
theorem trbox (d a b : RegNo) : Statement (.trbox d a b) := by intro _ e h; cases h; rfl
theorem trcmt (d b : RegNo) : Statement (.trcmt d b) := by intro _ e h; cases h; rfl
theorem trinst (d a : RegNo) : Statement (.trinst d a) := by intro _ e h; cases h; rfl
theorem trres (d : RegNo) : Statement (.trres d) := by intro _ e h; cases h; rfl
theorem cvt (q : CQual) (d a : RegNo) : Statement (.cvt q d a) := by intro _ e h; cases h; exact congrArg (Option.map _) (CQual.of_bits q)
theorem cvtw (q : CQual) (d a : RegNo) : Statement (.cvtw q d a) := by intro _ e h; cases h; exact congrArg (Option.map _) (CQual.of_bits q)
theorem cvth (q : CQual) (d a : RegNo) : Statement (.cvth q d a) := by intro _ e h; cases h; exact congrArg (Option.map _) (CQual.of_bits q)
theorem mxq (q : XQual) (d a b : RegNo) : Statement (.mxq q d a b) := by intro _ e h; cases h; exact congrArg (Option.map _) (XQual.of_bits q)
theorem mxx (q : XQual) (d a : RegNo) : Statement (.mxx q d a) := by intro _ e h; cases h; exact congrArg (Option.map _) (XQual.of_bits q)
theorem scalb (q : VFQual) (d a b : RegNo) : Statement (.scalb q d a b) := by intro _ e h; cases h; exact vfPlain_of_bits q _
theorem pack (q : PQual) (d a b : RegNo) : Statement (.pack q d a b) := by intro _ e h; cases h; exact congrArg (Option.map _) (PQual.of_bits q)
theorem unpk (w : PWidth) (d a b : RegNo) : Statement (.unpk w d a b) := by
 intro _ e h; cases h; show (PQual.of? (PQual.bits ⟨w, false⟩)).bind (fun q => if q.sat then none else some (Instr.unpk q.width d a b)) = some (.unpk w d a b); simp
theorem ctxrd (d a : RegNo) : Statement (.ctxrd d a) := by intro _ e h; cases h; rfl
theorem ctxwr (d a b : RegNo) : Statement (.ctxwr d a b) := by intro _ e h; cases h; rfl
theorem ctxctlStop (d a b : RegNo) : Statement (.ctxctlStop d a b) := by intro _ e h; cases h; rfl
theorem ctxctlResume (d a b : RegNo) : Statement (.ctxctlResume d a b) := by intro _ e h; cases h; rfl
theorem ctxctlSwapOut (d a b : RegNo) : Statement (.ctxctlSwapOut d a b) := by intro _ e h; cases h; rfl
theorem ctxctlRetire (d a b : RegNo) : Statement (.ctxctlRetire d a b) := by intro _ e h; cases h; rfl
theorem ctxctlDrop (d a b : RegNo) : Statement (.ctxctlDrop d a b) := by intro _ e h; cases h; rfl
theorem rqput (d a b : RegNo) : Statement (.rqput d a b) := by intro _ e h; cases h; rfl
theorem rqtake (d a b : RegNo) : Statement (.rqtake d a b) := by intro _ e h; cases h; rfl
theorem ksave (d a b : RegNo) : Statement (.ksave d a b) := by intro _ e h; cases h; rfl
theorem kload (d a b : RegNo) : Statement (.kload d a b) := by intro _ e h; cases h; rfl
theorem tlbinvPage (a b : RegNo) : Statement (.tlbinvPage a b) := by intro _ e h; cases h; rfl
theorem tlbinvAll (a b : RegNo) : Statement (.tlbinvAll a b) := by intro _ e h; cases h; rfl
theorem pgwake (d a b : RegNo) : Statement (.pgwake d a b) := by intro _ e h; cases h; rfl
theorem topup (d a b : RegNo) : Statement (.topup d a b) := by intro _ e h; cases h; rfl
theorem cfgrd (d a : RegNo) : Statement (.cfgrd d a) := by intro _ e h; cases h; rfl
theorem cfgwrTileMembership (d a b : RegNo) : Statement (.cfgwrTileMembership d a b) := by intro _ e h; cases h; rfl
theorem cfgwrRepairEnter (d a b : RegNo) : Statement (.cfgwrRepairEnter d a b) := by intro _ e h; cases h; rfl
theorem cfgwrReturnToService (d a b : RegNo) : Statement (.cfgwrReturnToService d a b) := by intro _ e h; cases h; rfl
theorem cfgwrPartitionRegister (d a b : RegNo) : Statement (.cfgwrPartitionRegister d a b) := by intro _ e h; cases h; rfl
theorem cfgwrSpillRing (d a b : RegNo) : Statement (.cfgwrSpillRing d a b) := by intro _ e h; cases h; rfl
theorem cfgwrWakeRegister (d a b : RegNo) : Statement (.cfgwrWakeRegister d a b) := by intro _ e h; cases h; rfl
theorem cfgwrWayMap (d a b : RegNo) : Statement (.cfgwrWayMap d a b) := by intro _ e h; cases h; rfl
theorem cfgwrErrorCounter (d a b : RegNo) : Statement (.cfgwrErrorCounter d a b) := by intro _ e h; cases h; rfl
theorem cfgwrPortEntry (d a b : RegNo) : Statement (.cfgwrPortEntry d a b) := by intro _ e h; cases h; rfl
theorem cfgwrTransmitTail (d a b : RegNo) : Statement (.cfgwrTransmitTail d a b) := by intro _ e h; cases h; rfl
theorem cfgwrPcieMemory (d a b : RegNo) : Statement (.cfgwrPcieMemory d a b) := by intro _ e h; cases h; rfl
theorem cfgwrPcieConfig (d a b : RegNo) : Statement (.cfgwrPcieConfig d a b) := by intro _ e h; cases h; rfl
theorem cfgwrMsiRoute (d a b : RegNo) : Statement (.cfgwrMsiRoute d a b) := by intro _ e h; cases h; rfl
theorem cfgwrScanoutHead (d a b : RegNo) : Statement (.cfgwrScanoutHead d a b) := by intro _ e h; cases h; rfl
theorem cfgwrVigil (d a b : RegNo) : Statement (.cfgwrVigil d a b) := by intro _ e h; cases h; rfl
theorem cfgwrStandby (d a b : RegNo) : Statement (.cfgwrStandby d a b) := by intro _ e h; cases h; rfl
theorem cfgwrQuoteRequest (d a b : RegNo) : Statement (.cfgwrQuoteRequest d a b) := by intro _ e h; cases h; rfl
theorem cfgwrPageRegister (d a b : RegNo) : Statement (.cfgwrPageRegister d a b) := by intro _ e h; cases h; rfl
theorem cfgwrPageUnregister (d a b : RegNo) : Statement (.cfgwrPageUnregister d a b) := by intro _ e h; cases h; rfl
theorem cfgwrReadOnly (d a b : RegNo) : Statement (.cfgwrReadOnly d a b) := by intro _ e h; cases h; rfl
theorem almset (a b : RegNo) : Statement (.almset a b) := by intro _ e h; cases h; rfl
theorem fwset (a b : RegNo) : Statement (.fwset a b) := by intro _ e h; cases h; rfl
theorem coreMoveArrival (ctx core : Nat) : Statement (.coreMoveArrival ctx core) := by intro _ e h; cases h
theorem migrationArrival (ctx tile : Nat) : Statement (.migrationArrival ctx tile) := by intro _ e h; cases h
theorem swapStart (core : Nat) : Statement (.swapStart core) := by intro _ e h; cases h
theorem swapComplete (core : Nat) : Statement (.swapComplete core) := by intro _ e h; cases h
theorem kennelWriteBack (tile : Nat) : Statement (.kennelWriteBack tile) := by intro _ e h; cases h
theorem overflowListMove (tile core : Nat) : Statement (.overflowListMove tile core) := by intro _ e h; cases h
theorem dispatcherPlace (tile : Nat) : Statement (.dispatcherPlace tile) := by intro _ e h; cases h
theorem feDeadlineExpiry (tile uid : Nat) : Statement (.feDeadlineExpiry tile uid) := by intro _ e h; cases h
theorem accessAtHome (a : Access) : Statement (.accessAtHome a) := by intro _ e h; cases h
theorem waitListResend (a : Access) : Statement (.waitListResend a) := by intro _ e h; cases h
theorem longCompletion (ctx seq : Nat) : Statement (.longCompletion ctx seq) := by intro _ e h; cases h
theorem lineFill (t : AtHome) (line : Nat) : Statement (.lineFill t line) := by intro _ e h; cases h
theorem sliceWriteAccept (w : WriteOf) (place : Nat) (watched counts : Bool) : Statement (.sliceWriteAccept w place watched counts) := by intro _ e h; cases h
theorem homeInvalidate (t : AtHome) (line : Nat) : Statement (.homeInvalidate t line) := by intro _ e h; cases h
theorem bankDrainEnd (tile bank : Nat) : Statement (.bankDrainEnd tile bank) := by intro _ e h; cases h
theorem messageArrival (dst : Nat) (msg : Reg) (src : MsgSrc) : Statement (.messageArrival dst msg src) := by intro _ e h; cases h
theorem atomCombine (u v : Nat) : Statement (.atomCombine u v) := by intro _ e h; cases h
theorem combinedReplySplit (a : Access) (old : Dword) : Statement (.combinedReplySplit a old) := by intro _ e h; cases h
theorem mmaStart (tile : Nat) : Statement (.mmaStart tile) := by intro _ e h; cases h
theorem mmaStep (tile : Nat) : Statement (.mmaStep tile) := by intro _ e h; cases h
theorem commandMigration (src dst : Nat) : Statement (.commandMigration src dst) := by intro _ e h; cases h
theorem retrieverFetch (tile uid : Nat) : Statement (.retrieverFetch tile uid) := by intro _ e h; cases h
theorem sumPacketArrival (p : SumPacket) : Statement (.sumPacketArrival p) := by intro _ e h; cases h
theorem acknowledgementArrival (tile entry : Nat) : Statement (.acknowledgementArrival tile entry) := by intro _ e h; cases h
theorem refusalArrival (p : SumPacket) (why : BitVec 3) : Statement (.refusalArrival p why) := by intro _ e h; cases h
theorem remoteBankCheck (ctx : Nat) : Statement (.remoteBankCheck ctx) := by intro _ e h; cases h
theorem copyLineMove (tile uid : Nat) : Statement (.copyLineMove tile uid) := by intro _ e h; cases h
theorem copyLineLand (tile uid line : Nat) (words : List CopyWord) : Statement (.copyLineLand tile uid line words) := by intro _ e h; cases h
theorem copyLandingReport (tile uid : Nat) (l : Landed) : Statement (.copyLandingReport tile uid l) := by intro _ e h; cases h
theorem cpyqComplete (ctx n : Nat) : Statement (.cpyqComplete ctx n) := by intro _ e h; cases h
theorem traversalStepComplete (q : Issued) : Statement (.traversalStepComplete q) := by intro _ e h; cases h
theorem tlbinvComplete (ctx : Nat) : Statement (.tlbinvComplete ctx) := by intro _ e h; cases h
theorem graphUpload (part graph : Nat) : Statement (.graphUpload part graph) := by intro _ e h; cases h
theorem runStart (graph : Nat) : Statement (.runStart graph) := by intro _ e h; cases h
theorem nodeStart (graph node : Nat) : Statement (.nodeStart graph node) := by intro _ e h; cases h
theorem contextPlacement (graph node : Nat) : Statement (.contextPlacement graph node) := by intro _ e h; cases h
theorem nodeLate (graph node : Nat) : Statement (.nodeLate graph node) := by intro _ e h; cases h
theorem nodeComplete (graph node : Nat) : Statement (.nodeComplete graph node) := by intro _ e h; cases h
theorem pipelineStart (graph node : Nat) : Statement (.pipelineStart graph node) := by intro _ e h; cases h
theorem bindingRelease (graph node : Nat) : Statement (.bindingRelease graph node) := by intro _ e h; cases h
theorem queueMap (part k bell desc : Nat) : Statement (.queueMap part k bell desc) := by intro _ e h; cases h
theorem queueUnmap (part k : Nat) : Statement (.queueUnmap part k) := by intro _ e h; cases h
theorem autonegotiation (port rate : Nat) : Statement (.autonegotiation port rate) := by intro _ e h; cases h
theorem frameReceive (port : Nat) (frame : List Byte) : Statement (.frameReceive port frame) := by intro _ e h; cases h
theorem transmitFrame (port : Nat) : Statement (.transmitFrame port) := by intro _ e h; cases h
theorem msiWrite (v : Lane) : Statement (.msiWrite v) := by intro _ e h; cases h
theorem deviceDma (write : Bool) (uaddr : Nat) (data : List Byte) : Statement (.deviceDma write uaddr data) := by intro _ e h; cases h
theorem verticalBlank (head : Nat) : Statement (.verticalBlank head) := by intro _ e h; cases h
theorem vigilMatch (port : Nat) (frame : List Byte) : Statement (.vigilMatch port frame) := by intro _ e h; cases h
theorem saveComplete (ctx : Nat) : Statement (.saveComplete ctx) := by intro _ e h; cases h
theorem contextActionAtTile (q : Issued) (d target : Nat) (act : Action) : Statement (.contextActionAtTile q d target act) := by intro _ e h; cases h
theorem softError (site : ErrSite) (corrected : Bool) : Statement (.softError site corrected) := by intro _ e h; cases h
theorem yield : Statement (.yield) := by intro _ e h; cases h; rfl
theorem halt : Statement (.halt) := by intro _ e h; cases h; rfl
theorem nop : Statement (.nop) := by intro _ e h; cases h; rfl
theorem illegalChain : Statement (.illegalChain) := by intro _ e h; cases h
theorem candidateBudgetReject : Statement (.candidateBudgetReject) := by intro _ e h; cases h
theorem equippedCoreMove : Statement (.equippedCoreMove) := by intro _ e h; cases h
theorem requestedStop : Statement (.requestedStop) := by intro _ e h; cases h
theorem keptFaultStop : Statement (.keptFaultStop) := by intro _ e h; cases h
theorem parkExpiry : Statement (.parkExpiry) := by intro _ e h; cases h
theorem watchdogExpiry : Statement (.watchdogExpiry) := by intro _ e h; cases h
theorem almanacCommit : Statement (.almanacCommit) := by intro _ e h; cases h
theorem boot : Statement (.boot) := by intro _ e h; cases h
theorem restoreComplete : Statement (.restoreComplete) := by intro _ e h; cases h
theorem thermalSample : Statement (.thermalSample) := by intro _ e h; cases h
theorem quoteComplete : Statement (.quoteComplete) := by intro _ e h; cases h
theorem modulePowerLoss : Statement (.modulePowerLoss) := by intro _ e h; cases h

end Laws.Build

end Sys2Proof
end

