-- ==== Sys2Proof/Tests/Kit.lean ====
section
/-! SUPPORT. The small states that the tests act on, and the check by which a test shows that the hypotheses of a statement hold of one. -/

namespace Sys2Proof.Tests
open Sys2Proof.Machine

/-- A Resident context of tile 1 and partition 0, at 0x1000, with a window of 64 registers, every lane in p0, and a budget. -/
def who : Ctx :=
  { state := .resident, tile := 1, core := 0, slot := 0, window := 64, regs := [], pc := 0x1000, pw := 0xFFFF, rnd := 0, ib := 100000, mb := 100000
    yc := 0, ypc := 0, fel := 500, wid := 0, wfw := 0, sup := 0, cb := 0, qacc := 0, rsc := 0, rpx := 0, rwc := 0, tnv := 0, tarea := 0, cbret := 0
    segs := [], graceOn := false, graceI := 0, graceM := 0, priv := false, priority := 0, spawner := 0, part := 0, group := 0, wdog := 0, wcount := 0
    predH := 0, predN := 0, park := none, retry := none, hold := none, holdD := 0, moving := none, saving := none, stopReq := false, outReq := false
    retireReq := false, halting := false, wdogReq := false, longs := [], kept := [], resume := 0, after := 0, inbox := [], grant := []
    last := -1, gap := 0, inMem := false, progress := 0, visits := 0, moved := 0, fenced := 0
    needs := [], credits := [], decided := none, spent := 0, aside := none }
/-- That context with registers. -/
def gs (l : List (Nat × Reg)) : Ctx := { who with regs := l }
/-- The running part in cycle 100, with context 5 about to issue a chain of one halfword. -/
def part (x : Ctx) : State := { State.reset with phase := .running, cyc := 100, issue := ⟨some 5, [0]⟩, ctxs := [(5, x)] }

/-- What context 5 has after a step. -/
def after {α : Type} (o : Host.Outcome State Fault Refusal) (f : State → Ctx → α) : Option α :=
  match o with
  | .next t => (ctxOf t 5).map (f t)
  | .fault _ => none
  | .refused _ => none
/-- A register, a scalar and the pc of context 5 after an instruction of its own. -/
def regAfter (i : Instr) (x : Ctx) (r : Nat) : Option Reg := after (exec i (part x)) fun _ z => z.reg r
def scalarAfter (i : Instr) (x : Ctx) (r : Nat) : Option Dword := (regAfter i x r).map scalarOf
def pcAfter (i : Instr) (x : Ctx) : Option Dword := after (exec i (part x)) fun _ z => z.pc
/-- The first two doublewords of the message on its way to a context. -/
def mailTo (t : State) (dst : Nat) : Option (Dword × Dword) := t.agenda.findSome? fun d => match d.step with
  | .messageArrival j m _ => if j = dst then some (dword m 0, dword m 1) else none
  | _ => none

/-- Clear, as a check. -/
def clearB (s : State) (i : Instr) (id : Nat) (x : Ctx) : Bool :=
  decide (s.issue.ctx = some id) && decide (ctxOf s id = some x) && !heldBy s id x i && (issueCheck i x).isNone
  && (match blockOf i with | some b => decide (b.toNat < x.grant.length) | none => true)
  && !wantsEquipped i x && (!cbArmed x || decide (bits x.cb 31 16 ≠ 0))
  && ((readsOf i).all fun r => decide (127 < r) || !regErr s id r) && (queueLack s id x i).isNone && !x.walks i
theorem clear_of {s : State} {i : Instr} {id : Nat} {x : Ctx} (h : clearB s i id x = true) : Clear s i id x := by
  simp only [clearB, Bool.and_eq_true, decide_eq_true_eq, Bool.not_eq_true', Option.isNone_iff_eq_none, Bool.or_eq_true, List.all_eq_true] at h
  obtain ⟨⟨⟨⟨⟨⟨⟨⟨⟨h1, h2⟩, h3⟩, h4⟩, h5⟩, h6⟩, h7⟩, h8⟩, h9⟩, h10⟩ := h
  refine ⟨h1, h2, h3, h4, ?_, h6, ?_, fun r hr hl => (h8 r hr).resolve_left (by omega), h9, h10⟩
  · intro b hb; rw [hb] at h5; simpa using h5
  · intro hc; rcases h7 with h | h
    · rw [hc] at h; cases h
    · exact h
/-- Begins for some charge, as a check. -/
def beginsB (s : State) (i : Instr) (id : Nat) (x : Ctx) (ci cm : Nat) : Bool := clearB s i id x && ((issued s i x).pays ci cm).isSome
theorem begins_of {s : State} {i : Instr} {id : Nat} {x : Ctx} {ci cm : Nat} (h : beginsB s i id x ci cm = true) : ∃ y, Begins s i id x ci cm y := by
  simp only [beginsB, Bool.and_eq_true, Option.isSome_iff_exists] at h
  exact ⟨h.2.choose, clear_of h.1, h.2.choose_spec⟩
/-- The same of every instruction of a list, each with its charge. -/
theorem begins_all {α : Type} {f : α → Instr} {ci cm : α → Nat} {l : List α} {s : State} {id : Nat} {x : Ctx}
    (h : (l.all fun p => beginsB s (f p) id x (ci p) (cm p)) = true) : ∀ p ∈ l, ∃ y, Begins s (f p) id x (ci p) (cm p) y :=
  fun p hp => begins_of (List.all_eq_true.mp h p hp)
/-- Reaches, and Begins for the charge of the accesses it finds, as a check. -/
def reachesB (s : State) (i : Instr) (id : Nat) (x : Ctx) (q : Ask) (t : State) : Bool :=
  match resolve t x q.as q.n q.align q.r with
  | .spots l _ => (l.all fun p => !p.2.paged || !underRepair t p.2.home) && q.fmt.isNone && (migration t id x q.pol l).1.isNone
      && beginsB s i id x 1 (q.cost x l)
  | .stop _ => false
  | .prot _ => false
theorem reaches_of {s : State} {i : Instr} {id : Nat} {x : Ctx} {q : Ask} {t : State} (h : reachesB s i id x q t = true) :
    ∃ l s' y, Reaches t id x q l s' ∧ Begins s i id x 1 (q.cost x l) y := by
  unfold reachesB at h
  split at h
  · rename_i l u e
    simp only [Bool.and_eq_true, List.all_eq_true, Bool.or_eq_true, Bool.not_eq_true', Option.isNone_iff_eq_none] at h
    obtain ⟨⟨⟨h1, h2⟩, h3⟩, h4⟩ := h
    obtain ⟨y, hy⟩ := begins_of h4
    refine ⟨l, u, y, ⟨e, ?_, h2, h3⟩, hy⟩
    intro p hp hq; rcases h1 p hp with h | h
    · rw [hq] at h; cases h
    · exact h
  · cases h
  · cases h
theorem reaches_all {α : Type} {f : α → Instr} {q : α → Ask} {l : List α} {s : State} {t : α → State} {id : Nat} {x : Ctx}
    (h : (l.all fun p => reachesB s (f p) id x (q p) (t p)) = true) :
    ∀ p ∈ l, ∃ r s' y, Reaches (t p) id x (q p) r s' ∧ Begins s (f p) id x 1 ((q p).cost x r) y :=
  fun p hp => reaches_of (List.all_eq_true.mp h p hp)

/-- ReachesAway for a tile, and Begins for the charge of the move and the accesses, as a check. -/
def awayB (s : State) (i : Instr) (id : Nat) (x : Ctx) (q : Ask) (tile : Nat) (t : State) : Bool :=
  match resolve t x q.as q.n q.align q.r with
  | .spots l _ => (l.all fun p => !p.2.paged || !underRepair t p.2.home) && q.fmt.isNone && decide ((migration t id x q.pol l).1 = some tile)
      && beginsB s i id x 1 (q.cost x l + 1664)
  | .stop _ => false
  | .prot _ => false
theorem away_of {s : State} {i : Instr} {id : Nat} {x : Ctx} {q : Ask} {tile : Nat} {t : State} (h : awayB s i id x q tile t = true) :
    ∃ l s' y, ReachesAway t id x q l tile s' ∧ Begins s i id x 1 (q.cost x l + 1664) y := by
  unfold awayB at h
  split at h
  · rename_i l u e
    simp only [Bool.and_eq_true, List.all_eq_true, Bool.or_eq_true, Bool.not_eq_true', Option.isNone_iff_eq_none, decide_eq_true_eq] at h
    obtain ⟨⟨⟨h1, h2⟩, h3⟩, h4⟩ := h
    obtain ⟨y, hy⟩ := begins_of h4
    refine ⟨l, u, y, ⟨e, ?_, h2, h3⟩, hy⟩
    intro p hp hq; rcases h1 p hp with h | h
    · rw [hq] at h; cases h
    · exact h
  · cases h
  · cases h
theorem away_all {α : Type} {f : α → Instr} {q : α → Ask} {l : List α} {s : State} {t : α → State} {id : Nat} {x : Ctx} {tile : Nat}
    (h : (l.all fun p => awayB s (f p) id x (q p) tile (t p)) = true) :
    ∀ p ∈ l, ∃ r s' y, ReachesAway (t p) id x (q p) r tile s' ∧ Begins s (f p) id x 1 ((q p).cost x r + 1664) y :=
  fun p hp => away_of (List.all_eq_true.mp h p hp)
/-- Stops, and Clear, as a check. -/
def stopsB (s : State) (i : Instr) (id : Nat) (x : Ctx) (q : Ask) (t : State) : Bool :=
  (match resolve t x q.as q.n q.align q.r with
    | .stop _ => true
    | .spots l u => (l.find? fun p => p.2.paged && underRepair u p.2.home).isSome
    | .prot _ => false) && clearB s i id x
theorem stops_of {s : State} {i : Instr} {id : Nat} {x : Ctx} {q : Ask} {t : State} (h : stopsB s i id x q t = true) : ∃ e, Stops t x q e ∧ Clear s i id x := by
  unfold stopsB at h
  rw [Bool.and_eq_true] at h
  obtain ⟨h1, h2⟩ := h
  split at h1
  · exact ⟨_, Or.inl (by assumption), clear_of h2⟩
  · obtain ⟨⟨u, p⟩, hp⟩ := Option.isSome_iff_exists.mp h1
    exact ⟨_, Or.inr ⟨_, _, u, p, by assumption, hp, rfl⟩, clear_of h2⟩
  · cases h1
theorem stops_all {α : Type} {f : α → Instr} {q : α → Ask} {l : List α} {s : State} {t : α → State} {id : Nat} {x : Ctx}
    (h : (l.all fun p => stopsB s (f p) id x (q p) (t p)) = true) : ∀ p ∈ l, ∃ e, Stops (t p) x (q p) e ∧ Clear s (f p) id x :=
  fun p hp => stops_of (List.all_eq_true.mp h p hp)
/-- An ask that meets PROT, and Begins for its charge, as a check. -/
def protB (s : State) (i : Instr) (id : Nat) (x : Ctx) (q : Ask) (t : State) : Bool :=
  (match resolve t x q.as q.n q.align q.r with | .prot _ => true | .stop _ => false | .spots _ _ => false) && beginsB s i id x 1 (protTraffic t x q)
theorem prot_all {α : Type} {f : α → Instr} {q : α → Ask} {l : List α} {s : State} {t : α → State} {id : Nat} {x : Ctx}
    (h : (l.all fun p => protB s (f p) id x (q p) (t p)) = true) : ∀ p ∈ l, ∃ e y,
      resolve (t p) x (q p).as (q p).n (q p).align (q p).r = .prot e ∧ Begins s (f p) id x 1 (protTraffic (t p) x (q p)) y := by
  intro p hp
  have h := List.all_eq_true.mp h p hp
  unfold protB at h
  rw [Bool.and_eq_true] at h
  obtain ⟨h1, h2⟩ := h
  obtain ⟨y, hy⟩ := begins_of h2
  split at h1
  · exact ⟨_, y, by assumption, hy⟩
  · cases h1
  · cases h1

/-- Addresses that are all mapped, and a condition on what they map to, as a check. -/
def spotsB (r : Ready) (q : Nat × Spot → Bool) : Bool := match r with | .spots l _ => l.all q | .stop _ => false | .prot _ => false
theorem spots_of {r : Ready} {q : Nat × Spot → Bool} (h : spotsB r q = true) : ∃ l s', r = .spots l s' ∧ ∀ p ∈ l, q p = true := by
  unfold spotsB at h
  split at h
  · exact ⟨_, _, rfl, List.all_eq_true.mp h⟩
  · cases h
  · cases h
/-- The same with the charge that the addresses found come to. -/
theorem spots_begin {r : Ready} {s : State} {i : Instr} {id : Nat} {x : Ctx} {q : Nat × Spot → Bool} {cm : List (Nat × Spot) → Nat}
    (h : spotsB r q = true) (hb : (match r with | .spots l _ => beginsB s i id x 1 (cm l) | _ => false) = true) :
    ∃ l s' y, r = .spots l s' ∧ (∀ p ∈ l, q p = true) ∧ Begins s i id x 1 (cm l) y := by
  unfold spotsB at h
  split at h
  · obtain ⟨y, hy⟩ := begins_of hb
    exact ⟨_, _, y, rfl, List.all_eq_true.mp h, hy⟩
  · cases h
  · cases h
/-- A result that is there, and a condition on it, as a check. -/
def okB {ε α : Type} (r : Except ε α) (q : α → Bool) : Bool := match r with | .ok a => q a | .error _ => false
theorem ok_of {ε α : Type} {r : Except ε α} {q : α → Bool} (h : okB r q = true) : ∃ a, r = .ok a ∧ q a = true := by
  unfold okB at h
  split at h
  · exact ⟨_, rfl, h⟩
  · cases h

theorem ok_eq {ε α : Type} [DecidableEq α] {r : Except ε α} {a : α} (h : okB r (fun b => decide (b = a)) = true) : r = .ok a := by
  obtain ⟨b, e, hb⟩ := ok_of h
  rw [e, of_decide_eq_true hb]

end Sys2Proof.Tests
end

