-- ==== Sys2Proof/Tests/Slice0.lean ====
section
/-! SUPPORT. The tests: decoding and well-formedness, one step of each family on small states against values worked out from the rules, and for each
statement a state and operands that meet its hypotheses. -/

set_option Elab.async false

namespace Sys2Proof.Tests
open Sys2Proof.Machine

-- Decoding: words written out from the formats of R125, the opcode map of R127 and the layouts of R130

/-- The instruction a chain decodes to, where the chain ends with its last halfword. -/
def reads (ws : List Half) (i : Instr) : Bool := decide (decodeHalves ws = .ok (i, ws.length))
/-- How a chain is refused (R135). -/
def refused (ws : List Half) (c : Code) (reason : Nat) : Bool :=
  match decodeHalves ws with | .error (.illegal e) => decide (e.code = c ∧ e.reason = reason) | _ => false

/-- Page 0 has no prefix: OP, D, A, B. -/
theorem test_decode_page0 : reads [0xB123] (.slt 1 2 3) ∧ reads [0xF00F, 0x2120] (.and 1 2 0xF0) ∧ reads [0xEBFF, 0x9FFF] (.li 15 (-1))
    ∧ reads [0x800F] (.addi 0 0 (-1)) := by decide +kernel
theorem test_decode_page1 : reads [0xE015, 0x5123] (.remu 5 1 2 3) ∧ reads [0xE010, 0xE803, 0xA12F] (.shli 1 2 63)
    ∧ reads [0xE010, 0xE600, 0xD120] (.bop .bswap 1 2) := by decide +kernel
theorem test_decode_page2 : reads [0xE020, 0x7EFF] (.call 14 (-1)) ∧ reads [0xE020, 0xE600, 0x9801] (.bmask .all (-2047))
    ∧ reads [0xE020, 0x3812] (.beq 1 2 (-8)) ∧ reads [0xE020, 0xA000] (.ypoint 0) ∧ reads [0xE020, 0xC000] .halt := by decide +kernel
/-- Layout VI: el 1 h and sat; then uns and cond 4 gt. -/
theorem test_decode_page3 : reads [0xE030, 0xE540, 0x0123] (.vadd ⟨.h, false, true, false, .eq⟩ 1 2 3)
    ∧ reads [0xE030, 0xE430, 0xC213] (.vcmp ⟨.w, false, false, true, .gt⟩ 2 1 3) := by decide +kernel
/-- Layout VF: type 1 fp16, bc, rm 2 rtz; then op 6 uno. -/
theorem test_decode_page4 : reads [0xE040, 0xE5A0, 0x3123] (.vfma ⟨.fp16, true, .rtz⟩ 1 2 3)
    ∧ reads [0xE04A, 0x7120] (.vfsqrt 10 ⟨.fp32, false, .dyn⟩ 1 2)
    ∧ reads [0xE040, 0xE40C, 0x9123] (.vfcmp .uno ⟨.fp32, false, .dyn⟩ 1 2 3) := by decide +kernel
/-- Layout L: op 1, float, rm 6 sr; layout MOP: the function in the top four bits. -/
theorem test_decode_page5 : reads [0xE050, 0xE4CC, 0x5120] (.vred (.float 1 .sr) 1 2) ∧ reads [0xE050, 0xE580, 0x7123] (.mop 6 1 2 3)
    ∧ reads [0xE050, 0x8930] (.mget 9 3) ∧ reads [0xE050, 0x412E] (.vrot 1 2 14) := by decide +kernel
/-- Layout M: order 2 rel, scope 2 dev. -/
theorem test_decode_page6 : reads [0xE060, 0xE414, 0x3A25] (.vst ⟨.ub, .pred, .rel, .dev⟩ 10 2 5)
    ∧ reads [0xE060, 0xE420, 0x6020] (.pref ⟨.ub, .remote, .plain, .core⟩ 2 0) := by decide +kernel
/-- Layout A: combine, order 1 acq, scope 1 tile, word; layout F: kind 1 acq, scope 3 sys; a limit from XI alone. -/
theorem test_decode_page7 : reads [0xE07F, 0xE42B, 0x6123] (.atom 15 ⟨.add, true, .acq, .tile, true⟩ 1 2 3)
    ∧ reads [0xE070, 0xE40E, 0x8000] (.fence ⟨.acq, .sys⟩) ∧ reads [0xE072, 0xEBE8, 0x9123] (.qwait 2 1 2 3 1000) := by decide +kernel
theorem test_decode_page8 : reads [0xE080, 0x5309] (.gets 3 9) ∧ reads [0xE080, 0xE801, 0x80FF] (.brk 0x1FF) ∧ reads [0xE080, 0x0012] (.send 1 2)
    ∧ reads [0xE080, 0x2500] (.waitm 5 0) := by decide +kernel
theorem test_decode_page9 : reads [0xE090, 0xE846, 0x3300] (.bwait 3 70) ∧ reads [0xE090, 0x4150] (.bpend 1 5) ∧ reads [0xE090, 0x0F20] (.cpy 15 2) := by decide +kernel
theorem test_decode_page10 : reads [0xE0A0, 0xF012, 0x1234] (.mma 2 0x13 0x24) ∧ reads [0xE0A0, 0xE500, 0x5123] (.accrd .fp16 1 2 3) := by decide +kernel
theorem test_decode_page11 : reads [0xE0B0, 0x0120] (.chset 1 2) ∧ reads [0xE0B0, 0xE801, 0xEBFF, 0x2700] (.chwait 7 0x7FF) := by decide +kernel
/-- Layout Z: compare 5 ne, nowr. -/
theorem test_decode_page12 : reads [0xE0C0, 0xE6C0, 0x3012] (.rzt ⟨.ne, true⟩ 1 2) ∧ reads [0xE0C0, 0x5123] (.rblk 1 2 3) := by decide +kernel
theorem test_decode_page13 : reads [0xE0D0, 0x0102] (.trset 1 2) ∧ reads [0xE0D0, 0x6500] (.trres 5) := by decide +kernel
/-- Layout C: format 32 + p, binary8 of precision 4 where p is 3, rm 6 sr, from; layout PK: width 2, sat. -/
theorem test_decode_page14 : reads [0xE0E0, 0xE63D, 0x0120] (.cvt ⟨.b8 false false 3, .sr, true⟩ 1 2)
    ∧ reads [0xE0E0, 0xE680, 0x6123] (.pack ⟨.x4, true⟩ 1 2 3) ∧ reads [0xE0E0, 0xE430, 0x3123] (.mxq ⟨.e2m1, .dyn⟩ 1 2 3) := by decide +kernel
theorem test_decode_page15 : reads [0xE0F0, 0xA120] (.cfgrd 1 2) ∧ reads [0xE0F0, 0x9123] (.topup 1 2 3) ∧ reads [0xE0F0, 0xD012] (.fwset 1 2) := by decide +kernel
/-- A long chain follows R113: five halfwords of each kind, and the instruction behind it is not read. -/
theorem test_decode_stops : decodeHalves [0x0123, 0xFFFF] = .ok (.add 1 2 3, 1) := by decide +kernel
/-- The faults of the notes on decoding: prefix kind 3, four XI, five prefixes, L on ADD, page 16, an empty slot. -/
theorem test_decode_refuses : refused [0xEC00] .illenc 1 ∧ refused [0xE800, 0xE800, 0xE800, 0xE800] .illenc 2
    ∧ refused [0xE000, 0xE400, 0xF000, 0xE800, 0xE800] .illenc 3 ∧ refused [0xE001, 0x0312] .illenc 5 ∧ refused [0xE100, 0x0312] .illop 0
    ∧ refused [0xE060, 0xA000] .illop 0 ∧ refused [0xE68A, 0xF120, 0xE806, 0x0414] .illenc 4 := by decide +kernel
/-- An order that the instruction does not allow, a reserved code, an unused field, a mask number above 3, an unassigned special. -/
theorem test_decode_reserved : refused [0xE060, 0xE410, 0x0123] .illenc 6 ∧ refused [0xE030, 0xE700, 0x0123] .illenc 6
    ∧ refused [0xA121] .illenc 7 ∧ refused [0xE050, 0x8140] .illenc 9 ∧ refused [0xE080, 0x5126] .illenc 10 := by decide +kernel
/-- A row of the opcode table with its first halfword in the high bits, as its match gives it. -/
theorem test_decode_table : decodeTableWord 32 0xE0100123 = some (.mulh 1 2 3) ∧ decodeTableWord 16 0x0123 = some (.add 1 2 3) := by decide +kernel
/-- The encoder drops no bit and needs no prefix that it can leave out. -/
theorem test_encode : encode (.ld 3 ⟨.sw, .pred, .acq, .tile⟩ 20 33 100) = some [0xE063, 0xE68A, 0xF120, 0xE806, 0x0414]
    ∧ encode (.addi 1 2 31) = some [0xE801, 0x812F] ∧ encode (.addi 1 2 7) = some [0x8127] := by decide +kernel

-- Well-formedness: one ill-formed term for each check, refused

/-- A qualifier of layout M, of layout VI. -/
def m0 : MQual := ⟨.ub, .pred, .plain, .core⟩
def v0 : VIQual := ⟨.w, false, false, false, .eq⟩
def f0 : VFQual := ⟨.fp32, false, .dyn⟩
theorem test_illformed_qualifiers : ([.vadd { v0 with cond := .ne } 1 2 3, .vmulh { v0 with sat := true } 1 2 3, .vcmp { v0 with sat := true } 1 2 3,
    .vmul { v0 with uns := true } 1 2 3, .vfdot2 f0 1 2 3, .ld 0 { m0 with ord := .rel } 1 2 0, .st { m0 with ord := .acq } 1 2 0,
    .vld 0 { m0 with ty := .sb } 1 2 0, .vst { m0 with ty := .d } 1 2 0, .vgath 0 { m0 with ty := .d } 1 2 3, .vscat { m0 with ord := .acq } 1 2 3,
    .pref { m0 with scope := .dev } 1 0, .ldf 0 { m0 with ord := .acq } 1 2 0, .zline { m0 with ord := .acq } 1 0, .ldmx 0 { m0 with ty := .uw } 1 2 0,
    .atom 0 ⟨.max, true, .plain, .core, false⟩ 1 2 3, .cas 0 ⟨.add, true, .plain, .core, false⟩ 1 2 3, .mxq ⟨.fp32, .dyn⟩ 1 2 3,
    .mxx ⟨.bf16, .dyn⟩ 1 2] : List Instr).all (fun i => !i.wf) = true := by decide +kernel
theorem test_illformed_operands : ([.addi 1 2 (2 ^ 33), .li 1 (2 ^ 37), .shli 1 2 (2 ^ 34), .bra (2 ^ 41), .bz 1 (2 ^ 33), .call 1 (2 ^ 37), .bmask .any (2 ^ 41),
    .ypoint (2 ^ 41), .vfsgn .neg f0 1 2 3, .vget 1 2 (-1), .ld 0 m0 1 2 (2 ^ 33), .st m0 1 2 (-2 ^ 34), .lea 1 2 (2 ^ 33), .sete 0 m0 1 (2 ^ 33),
    .qwait 0 1 2 3 (2 ^ 30), .waitm 1 (2 ^ 30), .brk (2 ^ 38)] : List Instr).all (fun i => !i.wf) = true := by decide +kernel
/-- Events that name a core, tile, bank, partition, queue, port, head or entry that the part does not have. -/
theorem test_illformed_events : ([.coreMoveArrival 5 2048, .migrationArrival 5 128, .swapStart 2048, .kennelWriteBack 128, .overflowListMove 1 16,
    .bankDrainEnd 1 24, .graphUpload 4 0, .queueMap 0 64 0 0, .queueUnmap 4 0, .autonegotiation 2 0, .autonegotiation 0 8, .frameReceive 2 [],
    .verticalBlank 2, .acknowledgementArrival 1 16, .commandMigration 0 128] : List Instr).all (fun i => !i.wf) = true := by decide +kernel
theorem test_wellformed_edges : ([.addi 1 2 (2 ^ 33 - 1), .addi 1 2 (-2 ^ 33), .shli 1 2 (2 ^ 34 - 1), .waitm 1 (2 ^ 30 - 1), .ld 15 { m0 with ord := .acq } 1 2 0,
    .st { m0 with ord := .rel } 1 2 0, .coreMoveArrival 5 2047, .bankDrainEnd 127 23, .queueMap 3 63 0 0] : List Instr).all Instr.wf = true := by decide +kernel

-- One step of the register instructions, against values worked out from their rules

/-- A scalar, and a whole register, after an instruction on given registers. -/
def sc (i : Instr) (l : List (Nat × Reg)) (r : Nat) : Option Dword := scalarAfter i (gs l) r
def rg (i : Instr) (l : List (Nat × Reg)) (r : Nat) : Option Reg := regAfter i (gs l) r
/-- Every lane the same, and lane 0 alone. -/
def allLanes (v : Lane) : Reg := ofLanes fun _ => v
/-- The registers 2 and 3 of most tests. -/
def two (a b : Reg) : List (Nat × Reg) := [(2, a), (3, b)]
/-- −1, −2 and −7 as scalars. -/
def n1 : Reg := 0xFFFFFFFFFFFFFFFF
def n2 : Reg := 0xFFFFFFFFFFFFFFFE
def n7 : Reg := 0xFFFFFFFFFFFFFFF9

theorem test_add_wraps : sc (.add 1 2 3) (two n1 1) 1 = some 0 := by decide +kernel
theorem test_sub_order : sc (.sub 1 2 3) (two 3 5) 1 = some (-2) := by decide +kernel
theorem test_logic : sc (.and 1 2 3) (two 12 10) 1 = some 8 ∧ sc (.or 1 2 3) (two 12 10) 1 = some 14 ∧ sc (.xor 1 2 3) (two 12 10) 1 = some 6 := by decide +kernel
theorem test_shifts_take_six_bits : sc (.shl 1 2 3) (two 3 65) 1 = some 6 ∧ sc (.shr 1 2 3) (two n2 65) 1 = some 0x7FFFFFFFFFFFFFFF
    ∧ sc (.sar 1 2 3) (two n2 65) 1 = some (-1) ∧ sc (.sari 1 2 64) (two n2 0) 1 = some (-2) ∧ sc (.shri 1 2 1) (two 5 0) 1 = some 2
    ∧ sc (.shli 1 2 63) (two 3 0) 1 = some 0x8000000000000000 := by decide +kernel
theorem test_immediates : sc (.addi 1 2 (-1)) (two 0 0) 1 = some (-1) ∧ sc (.li 1 (-3)) [] 1 = some (-3) ∧ sc (.mov 1 2) (two 9 0) 1 = some 9 := by decide +kernel
theorem test_compares : sc (.slt 1 2 3) (two n1 0) 1 = some 1 ∧ sc (.sltu 1 2 3) (two n1 0) 1 = some 0 ∧ sc (.min 1 2 3) (two n1 1) 1 = some (-1)
    ∧ sc (.minu 1 2 3) (two n1 1) 1 = some 1 ∧ sc (.max 1 2 3) (two n1 1) 1 = some 1 ∧ sc (.maxu 1 2 3) (two n1 1) 1 = some (-1) := by decide +kernel
theorem test_products : sc (.mul 1 2 3) (two n2 3) 1 = some (-6) ∧ sc (.mulh 1 2 3) (two n1 n1) 1 = some 0
    ∧ sc (.mulhu 1 2 3) (two n1 n1) 1 = some 0xFFFFFFFFFFFFFFFE := by decide +kernel
theorem test_bop : sc (.bop .clz 1 2) (two 1 0) 1 = some 63 ∧ sc (.bop .ctz 1 2) (two 0 0) 1 = some 64 ∧ sc (.bop .popc 1 2) (two 0xF0F 0) 1 = some 8
    ∧ sc (.bop .brev 1 2) (two 1 0) 1 = some 0x8000000000000000 ∧ sc (.bop .bswap 1 2) (two 0x12 0) 1 = some 0x1200000000000000 := by decide +kernel
/-- A scalar result leaves lanes 2 to 15 (R137); D may be a source. -/
theorem test_scalar_keeps_lanes : rg (.add 2 2 2) (two (2 ^ 511 + 7) 0) 2 = some (2 ^ 511 + 14) := by decide +kernel
/-- The value that an outstanding instruction will write (R144). -/
def longAcc (i : Instr) (l : List (Nat × Reg)) : Option Reg := (after (exec i (part (gs l))) fun _ z => (z.longs.map (·.acc)).headD 0)
theorem test_divisions : (longAcc (.div 0 1 2 3) (two n7 2)).map scalarOf = some (-3) ∧ (longAcc (.rem 0 1 2 3) (two n7 2)).map scalarOf = some (-1)
    ∧ (longAcc (.divu 0 1 2 3) (two 7 0)).map scalarOf = some (-1) ∧ (longAcc (.remu 0 1 2 3) (two 7 0)).map scalarOf = some 7 := by decide +kernel
theorem test_division_overflow : (longAcc (.div 0 1 2 3) (two 0x8000000000000000 n1)).map scalarOf = some 0x8000000000000000
    ∧ (longAcc (.rem 0 1 2 3) (two 0x8000000000000000 n1)).map scalarOf = some 0 := by decide +kernel
/-- A division charges ib 4, an addition 1 (R74). -/
theorem test_charges : after (exec (.div 0 1 2 3) (part (gs (two 1 1)))) (fun _ z => z.ib) = some 99996
    ∧ after (exec (.add 1 2 3) (part (gs (two 1 1)))) (fun _ z => z.ib) = some 99999 := by decide +kernel

-- Page 2: the chain of one halfword stands at 0x1000
theorem test_branches_taken : pcAfter (.bra (-4)) who = some 0xFF8 ∧ pcAfter (.bz 1 3) who = some 0x1006 ∧ pcAfter (.blt 2 3 8) (gs (two n1 0)) = some 0x1010
    ∧ pcAfter (.bmask .all 2) who = some 0x1004 := by decide +kernel
theorem test_branches_not_taken : pcAfter (.bnz 1 3) who = some 0x1002 ∧ pcAfter (.bltu 2 3 8) (gs (two n1 0)) = some 0x1002
    ∧ pcAfter (.bmask .none 2) who = some 0x1002 ∧ pcAfter (.bne 2 2 9) (gs (two 1 1)) = some 0x1002 := by decide +kernel
theorem test_beq_compares_scalars : pcAfter (.beq 2 3 4) (gs (two (2 ^ 64) 0)) = some 0x1008 := by decide +kernel
theorem test_call_links : after (exec (.call 14 8) (part who)) (fun _ z => (z.pc, z.reg 14)) = some (0x1010, 0x1002) := by decide +kernel
theorem test_jmp : pcAfter (.jmp 2) (gs (two 0x2000 0)) = some 0x2000 := by decide +kernel
/-- An odd target faults ALIGN: the context stops where it stands, and its supervisor is told (R152, R412). -/
def boss : Ctx := { who with core := 4 }
def bossed (x : Ctx) : State := { part { x with sup := 6 } with ctxs := [(5, { x with sup := 6 }), (6, boss)] }
theorem test_jmp_odd : after (exec (.jmp 2) (bossed (gs (two 0x2001 0)))) (fun t z => (z.state, z.pc, z.ib, mailTo t 6))
    = some (.stopped, 0x1000, 100000, some (dw (5 * 2 ^ 32 + 8 * 2 ^ 14 + 2 * 2 ^ 8 + 8), 0x1000)) := by decide +kernel
theorem test_ypoint : after (exec (.ypoint 8) (part who)) (fun _ z => z.yc) = some 0x1010
    ∧ after (exec (.ypoint 0) (part { who with yc := 8 })) (fun _ z => z.yc) = some 0 := by decide +kernel
theorem test_halt_leaves : after (exec .halt (part who)) (fun _ z => z.halting) = some true ∧ after (exec .nop (part who)) (fun _ z => (z.halting, z.pc)) = some (false, 0x1002)
    ∧ after (exec .yield (part { who with wcount := 9 })) (fun _ z => z.wcount) = some 0 := by decide +kernel

-- Page 3
def h0 : VIQual := { v0 with el := .h }
theorem test_vadd : rg (.vadd { h0 with sat := true } 1 2 3) (two (allLanes 0x7FFF8000) (allLanes 0x0001FFFF)) 1 = some (allLanes 0x7FFF8000)
    ∧ rg (.vadd h0 1 2 3) (two (allLanes 0x7FFF8000) (allLanes 0x0001FFFF)) 1 = some (allLanes 0x80007FFF) := by decide +kernel
theorem test_vsub : rg (.vsub { v0 with el := .b, sat := true, uns := true } 1 2 3) (two (allLanes 0x01020304) (allLanes 0x02010101)) 1 = some (allLanes 0x00010203) := by decide +kernel
theorem test_vmul : rg (.vmul h0 1 2 3) (two (allLanes 0x00030100) (allLanes 0xFFFF0100)) 1 = some (allLanes 0xFFFD0000)
    ∧ rg (.vmulh h0 1 2 3) (two (allLanes 0x00030100) (allLanes 0xFFFF0100)) 1 = some (allLanes 0xFFFF0001) := by decide +kernel
theorem test_vlogic : rg (.vand v0 1 2 3) (two (allLanes 12) (allLanes 10)) 1 = some (allLanes 8) ∧ rg (.vor v0 1 2 3) (two (allLanes 12) (allLanes 10)) 1 = some (allLanes 14)
    ∧ rg (.vxor v0 1 2 3) (two (allLanes 12) (allLanes 10)) 1 = some (allLanes 6) := by decide +kernel
theorem test_vshifts : rg (.vshl h0 1 2 3) (two (allLanes 0x00018001) (allLanes 0x00110001)) 1 = some (allLanes 0x00020002)
    ∧ rg (.vshr h0 1 2 3) (two (allLanes 0x80008000) (allLanes 0x00010010)) 1 = some (allLanes 0x40008000)
    ∧ rg (.vsar h0 1 2 3) (two (allLanes 0x80008000) (allLanes 0x00010010)) 1 = some (allLanes 0xC0008000) := by decide +kernel
theorem test_vminmax : rg (.vmin v0 1 2 3) (two (allLanes 0xFFFFFFFF) (allLanes 1)) 1 = some (allLanes 0xFFFFFFFF)
    ∧ rg (.vmax { v0 with uns := true } 1 2 3) (two (allLanes 0xFFFFFFFF) (allLanes 1)) 1 = some (allLanes 0xFFFFFFFF) := by decide +kernel
/-- bc takes element 0 of B's scalar; a lane outside p0 keeps D. -/
theorem test_broadcast_and_mask : regAfter (.vadd { v0 with bc := true } 1 2 3) { gs [(1, allLanes 9), (2, allLanes 1), (3, 5)] with pw := 1 } 1
    = some (ofLanes fun l => if l = 0 then 6 else 9) := by decide +kernel
theorem test_vcmp : after (exec (.vcmp { v0 with cond := .lt } 2 2 3) (part { gs (two (ofLanes fun l => BitVec.ofNat 32 l) (allLanes 2)) with pw := 0xFFFD }))
    (fun _ z => z.pw) = some (0xFFFD + 2 ^ 32) := by decide +kernel
theorem test_vsel : regAfter (.vsel v0 1 2 3) { gs (two (allLanes 1) (allLanes 2)) with pw := 0x0001FFFF } 1 = some (ofLanes fun l => if l = 0 then 1 else 2) := by decide +kernel

-- Page 4: 1, 2 and 3 are 0x3F800000, 0x40000000 and 0x40400000; fp16's 1 and 2 are 0x3C00 and 0x4000
def h4 : VFQual := { f0 with ty := .fp16 }
theorem test_vfadd : rg (.vfadd f0 1 2 3) (two (allLanes 0x3F800000) (allLanes 0x40000000)) 1 = some (allLanes 0x40400000)
    ∧ rg (.vfsub f0 1 2 3) (two (allLanes 0x3F800000) (allLanes 0x40000000)) 1 = some (allLanes 0xBF800000) := by decide +kernel
/-- 1 + 2^-24 lies half way between two floats: to even, and up. -/
theorem test_rounding : rg (.vfadd f0 1 2 3) (two (allLanes 0x3F800000) (allLanes 0x33800000)) 1 = some (allLanes 0x3F800000)
    ∧ rg (.vfadd { f0 with rm := .rup } 1 2 3) (two (allLanes 0x3F800000) (allLanes 0x33800000)) 1 = some (allLanes 0x3F800001) := by decide +kernel
theorem test_vfmul : rg (.vfmul h4 1 2 3) (two (allLanes 0x40004000) (allLanes 0x3C004000)) 1 = some (allLanes 0x40004400) := by decide +kernel
/-- D = A × B + D. -/
theorem test_vfma : rg (.vfma f0 1 2 3) [(1, allLanes 0x3F800000), (2, allLanes 0x40000000), (3, allLanes 0x40400000)] 1 = some (allLanes 0x40E00000) := by decide +kernel
theorem test_vfminmax : rg (.vfmin f0 1 2 3) (two (allLanes 0x3F800000) (allLanes 0xC0000000)) 1 = some (allLanes 0xC0000000)
    ∧ rg (.vfmax f0 1 2 3) (two (allLanes 0x80000000) (allLanes 0)) 1 = some (allLanes 0) := by decide +kernel
theorem test_vfcmp : after (exec (.vfcmp .uno f0 1 2 3) (part (gs (two (ofLanes fun l => if l = 4 then 0x7FC00000 else 0) 0)))) (fun _ z => z.pw)
    = some (0xFFFF + 16 * 2 ^ 16) := by decide +kernel
theorem test_vfsgn : rg (.vfsgn .abs f0 1 2 0) (two (allLanes 0xBF800000) 0) 1 = some (allLanes 0x3F800000)
    ∧ rg (.vfsgn .copy f0 1 2 3) (two (allLanes 0x3F800000) (allLanes 0x80000000)) 1 = some (allLanes 0xBF800000) := by decide +kernel
/-- 2.5 to an integer goes to even, and −1 as unsigned to 0. -/
theorem test_vfcvti : rg (.vfcvti .toi f0 1 2) (two (allLanes 0x40200000) 0) 1 = some (allLanes 2)
    ∧ rg (.vfcvti .touns f0 1 2) (two (allLanes 0xBF800000) 0) 1 = some (allLanes 0) ∧ rg (.vfcvti .fromi f0 1 2) (two (allLanes 0xFFFFFFFF) 0) 1 = some (allLanes 0xBF800000)
    ∧ rg (.vfrnd f0 1 2) (two (allLanes 0x40200000) 0) 1 = some (allLanes 0x40000000) := by decide +kernel
/-- 1 × 2 + 2 × 2 + 1. -/
theorem test_vfdot2 : rg (.vfdot2 h4 1 2 3) [(1, allLanes 0x3F800000), (2, allLanes 0x3C004000), (3, allLanes 0x40004000)] 1 = some (allLanes 0x40E00000) := by decide +kernel
theorem test_long_floats : longAcc (.vfdiv 0 f0 1 2 3) (two (allLanes 0x3F800000) (allLanes 0x40000000)) = some (allLanes 0x3F000000)
    ∧ longAcc (.vfsqrt 0 f0 1 2) (two (allLanes 0x40800000) 0) = some (allLanes 0x40000000)
    ∧ longAcc (.vfrcp 0 f0 1 2) (two (allLanes 0x40000000) 0) = some (allLanes 0x3F000000) := by decide +kernel

-- Page 5
/-- Lane l holds l. -/
def ramp : Reg := ofLanes fun l => BitVec.ofNat 32 l
theorem test_lane_moves : rg (.vbc 1 2) (two (ramp + 7) 0) 1 = some (allLanes 7) ∧ sc (.vget 1 2 13) (two ramp 0) 1 = some 13
    ∧ rg (.vput 1 2 3) (two 5 0) 1 = some (5 <<< 96) ∧ rg (.vrot 1 2 15) (two ramp 0) 1 = some (ofLanes fun l => BitVec.ofNat 32 ((l + 15) % 16))
    ∧ rg (.vlane 1 2) (two 3 0) 1 = some (ofLanes fun l => BitVec.ofNat 32 (l + 3)) := by decide +kernel
theorem test_lane_pairs : rg (.vperm 1 2 3) (two ramp (allLanes 0x12)) 1 = some (allLanes 2)
    ∧ rg (.vzip 1 2 3) (two ramp (allLanes 99)) 1 = some (ofLanes fun l => if l % 2 = 0 then BitVec.ofNat 32 (l / 2) else 99)
    ∧ rg (.vuzp 1 2 3) (two ramp ramp) 1 = some (ofLanes fun l => BitVec.ofNat 32 (2 * l % 16)) := by decide +kernel
/-- The sum of the lanes 1 and 3, and each lane's sum up to it; the greatest as unsigned. -/
theorem test_reductions : (after (exec (.vred (.int 0) 1 2) (part { gs (two ramp 0) with pw := 10 })) fun _ z => scalarOf (z.reg 1)) = some 4
    ∧ (after (exec (.vscan (.int 0) 1 2) (part { gs (two ramp 0) with pw := 10 })) fun _ z => z.reg 1) = some ((1 <<< 32) + (4 <<< 96))
    ∧ sc (.vred (.int 4) 1 2) (two (ofLanes fun l => if l = 9 then 0xFFFFFFFF else 1) 0) 1 = some 0xFFFFFFFF := by decide +kernel
theorem test_masks : after (exec (.mop 6 2 0 1) (part { who with pw := 0x0003FFFF })) (fun _ z => z.pw) = some 0x0000FFFC0003FFFF
    ∧ (after (exec (.mget 1 1) (part { who with pw := 0x0003FFFF })) fun _ z => z.reg 1) = some 3
    ∧ (after (exec (.mcnt 1 0) (part who)) fun _ z => z.reg 1) = some 16
    ∧ after (exec (.mset 3 2) (part (gs (two 0x12345 0)))) (fun _ z => z.pw) = some 0x234500000000FFFF := by decide +kernel

-- Page 14: 1 in fp32, bf16 and binary8 of precision 4 is 0x3F800000, 0x3F80 and 0x40
theorem test_conversions : rg (.cvt ⟨.bf16, .rne, false⟩ 1 2) (two (allLanes 0x3F800000) 0) 1 = some (allLanes 0x3F80)
    ∧ rg (.cvt ⟨.b8 false false 3, .rne, true⟩ 1 2) (two (allLanes 0x40) 0) 1 = some (allLanes 0x3F800000)
    ∧ sc (.cvtw ⟨.fp16, .rne, true⟩ 1 2) (two 0x4000 0) 1 = some 0x40000000
    ∧ rg (.cvth ⟨.bf16, .rne, false⟩ 1 2) (two (allLanes 0x3F800000) 0) 1 = some (allLanes 0x3F800000) := by decide +kernel
theorem test_scalb : rg (.scalb f0 1 2 3) (two (allLanes 0x3F800000) (allLanes 0xFFFFFFFF)) 1 = some (allLanes 0x3F000000) := by decide +kernel
/-- Signed saturation to 4 bits of 9 and −9 in group 1: the fields are bits 64 up. -/
theorem test_pack : rg (.pack ⟨.x4, true⟩ 1 2 3) [(1, 5), (2, ofLanes fun l => if l = 0 then 9 else if l = 1 then 0xFFFFFFF7 else 0), (3, 1)] 1
    = some (5 + (0x87 <<< 64)) := by decide +kernel
theorem test_unpk : rg (.unpk .x8 1 2 3) (two (0xAB <<< 128) 1) 1 = some 0xAB := by decide +kernel
/-- Thirty-two ones make a record of e2m1 fours with scale 125 (R282); e2m1 ones with scale 127 expand to bf16 ones. -/
theorem test_mx : rg (.mxq ⟨.e2m1, .rne⟩ 1 2 3) (two (allLanes 0x3F800000) (allLanes 0x3F800000)) 1 = some ((0x7D <<< 128) + ofLanes (fun l => if l < 4 then 0x66666666 else 0))
    ∧ rg (.mxx ⟨.e2m1, .rne⟩ 1 2) (two ((0x7F <<< 128) + ofLanes (fun l => if l < 4 then 0x22222222 else 0)) 0) 1 = some (allLanes 0x3F803F80) := by decide +kernel

-- States and operands that meet the hypotheses of the statements, at the edges of their ranges

/-- A context with no more budget than an instruction of one word, and of four, costs. -/
def poor (ib : Dword) : Ctx := { gs [(1, 1), (2, n1), (3, 0x8000000000000000)] with ib := ib, mb := 0 }
theorem witness_ScalarOperations : ∀ p ∈ scalarOps 1 2 3, ∃ y, Begins (part (poor 1)) p.1 5 (poor 1) 1 0 y := begins_all (ci := fun _ => 1) (cm := fun _ => 0) (by decide +kernel)
theorem witness_ScalarOperations_unary : ∀ p ∈ unaryOps 63 2 (2 ^ 33 - 1), ∃ y, Begins (part (poor 1)) p.1 5 (poor 1) 1 0 y := begins_all (ci := fun _ => 1) (cm := fun _ => 0) (by decide +kernel)
theorem witness_ScalarOperations_li : ∃ y, Begins (part (poor 1)) (.li 0 (-2 ^ 37)) 5 (poor 1) 1 0 y := begins_of (by decide +kernel)
/-- Operands from a neighbour queue: the east port of core 16 holds two entries. -/
def queued (x : Ctx) : State := { part x with tiles := [(1, 8)], ports := [(65, [5, 6])] }
theorem witness_ScalarOperations_queue : ∀ p ∈ scalarOps 1 129 129, ∃ y, Begins (queued (poor 1)) p.1 5 (poor 1) 1 0 y := begins_all (ci := fun _ => 1) (cm := fun _ => 0) (by decide +kernel)
theorem witness_LongArithmetic : ∀ p ∈ divisionOps 15 1 2 3, ∃ y, Begins (part (poor 4)) p.1 5 (poor 4) 4 0 y := begins_all (ci := fun _ => 4) (cm := fun _ => 0) (by decide +kernel)
theorem witness_LongArithmetic_floats : (∀ o ∈ longFloatOps 0 f0 1 2 3, ∃ y, Begins (part (poor 4)) o.1 5 (poor 4) o.2.1 0 y) ∧ fmtFault (poor 4).rnd f0.rm = none :=
  ⟨begins_all (f := Prod.fst) (ci := fun (o : Instr × Nat × Bool × (Exact → Exact → Exact)) => o.2.1) (cm := fun _ => 0) (by decide +kernel), by decide +kernel⟩
theorem witness_ResultsReplaceTheirLanes : (2 ≤ 2 ∧ 2 < 16) ∧ 2 ≤ 15 ∧ 15 < 16 := by decide
theorem witness_BranchesCallsAndJumps : ∀ p ∈ branchOps 1 2 (-2 ^ 33), ∃ y, Begins (part (poor 1)) p.1 5 (poor 1) 1 0 y := begins_all (ci := fun _ => 1) (cm := fun _ => 0) (by decide +kernel)
/-- Contexts in which each branch is taken, and in which each but BRA is not. -/
theorem witness_BranchesCallsAndJumps_taken : (let x := gs [(2, 1)]; x.scalar 1 = 0 ∧ x.scalar 2 ≠ 0 ∧ x.scalar 1 = x.scalar 3 ∧ x.scalar 1 ≠ x.scalar 2
    ∧ (x.scalar 1).toInt < (x.scalar 2).toInt ∧ (x.scalar 1).toNat < (x.scalar 2).toNat ∧ maskP x.pw 0 ≠ 0 ∧ maskP x.pw 0 = 0xFFFF)
    ∧ maskP ({ who with pw := 0 } : Ctx).pw 0 = 0 := by decide +kernel
theorem witness_BranchesCallsAndJumps_call : ∃ y, Begins (part (poor 1)) (.call 63 (2 ^ 37 - 1)) 5 (poor 1) 1 0 y := begins_of (by decide +kernel)
theorem witness_BranchesCallsAndJumps_jmp : (∃ y, Begins (part who) (.jmp 1) 5 who 1 0 y) ∧ bit (who.scalar 1) 0 = false := ⟨begins_of (by decide +kernel), by decide +kernel⟩
theorem witness_BranchesCallsAndJumps_odd : Clear (part (poor 1)) (.jmp 1) 5 (poor 1) ∧ bit ((poor 1).scalar 1) 0 = true := ⟨clear_of (by decide +kernel), by decide +kernel⟩
theorem witness_ContinuationAndLeaving : ∀ i ∈ [Instr.ypoint 0, .ypoint (2 ^ 41 - 1), .nop, .halt, .yield], ∃ y, Begins (part (poor 1)) i 5 (poor 1) 1 0 y :=
  begins_all (f := id) (ci := fun _ => 1) (cm := fun _ => 0) (by decide +kernel)
/-- A context in grace whose last instruction of grace this is. -/
def graced : Ctx := { who with graceOn := true, graceI := 1 }
theorem witness_ContinuationAndLeaving_grace : ∃ y, Begins (part graced) .yield 5 graced 1 0 y ∧ y.graceOn = true := ⟨_, ⟨clear_of (by decide +kernel), rfl⟩, rfl⟩
theorem witness_ElementOperations : (∀ p ∈ vectorOps { v0 with el := .b, bc := true } 1 2 3, ∃ y, Begins (part (poor 1)) p.1 5 (poor 1) 1 0 y)
    ∧ ∀ p ∈ patternOps h4 1 2 3, ∃ y, Begins (part (poor 1)) p.1 5 (poor 1) 1 0 y :=
  ⟨begins_all (ci := fun _ => 1) (cm := fun _ => 0) (by decide +kernel), begins_all (ci := fun _ => 1) (cm := fun _ => 0) (by decide +kernel)⟩
theorem witness_VectorCompares : (∃ y, Begins (part (poor 1)) (.vcmp v0 3 2 3) 5 (poor 1) 1 0 y) ∧ ∃ y, Begins (part (poor 1)) (.vfcmp .ord f0 0 2 3) 5 (poor 1) 1 0 y :=
  ⟨begins_of (by decide +kernel), begins_of (by decide +kernel)⟩
/-- With the mode SR in rnd, and with RNE. -/
def srCtx : Ctx := { poor 1 with rnd := 0x123456780000000D }
def roundedAll (q : VFQual) (c : CQual) (z : XQual) (x : Ctx) : List RoundedOp := roundedOps q c z (maskP x.pw 0) 1 2 3
theorem witness_RoundedOperations : (∀ o ∈ roundedAll f0 ⟨.bf16, .dyn, false⟩ ⟨.e2m1, .dyn⟩ (poor 1), ∃ y, Begins (part (poor 1)) o.instr 5 (poor 1) 1 0 y)
    ∧ ∀ o ∈ roundedAll f0 ⟨.bf16, .dyn, false⟩ ⟨.e2m1, .dyn⟩ (poor 1), fmtFault (poor 1).rnd o.rm = none ∧ (rndOf (poor 1).rnd o.rm).mode ≠ 5 :=
  ⟨begins_all (f := RoundedOp.instr) (ci := fun _ => 1) (cm := fun _ => 0) (by decide +kernel), by decide +kernel⟩
theorem witness_RoundedOperations_sr : (∀ o ∈ roundedAll f0 ⟨.bf16, .sr, false⟩ ⟨.e2m1, .dyn⟩ srCtx, ∃ y, Begins (part srCtx) o.instr 5 srCtx 1 0 y)
    ∧ ∀ o ∈ roundedAll f0 ⟨.bf16, .sr, false⟩ ⟨.e2m1, .dyn⟩ srCtx, fmtFault srCtx.rnd o.rm = none ∧ (rndOf srCtx.rnd o.rm).mode = 5 :=
  ⟨begins_all (f := RoundedOp.instr) (ci := fun _ => 1) (cm := fun _ => 0) (by decide +kernel), by decide +kernel⟩
theorem witness_ScalarAndRecordConversions : (∃ y, Begins (part (poor 1)) (.cvtw ⟨.fp16, .dyn, true⟩ 1 2) 5 (poor 1) 1 0 y)
    ∧ (∃ y, Begins (part (poor 1)) (.mxq ⟨.b8 true true 6, .dyn⟩ 1 2 3) 5 (poor 1) 1 0 y) ∧ fmtFault (poor 1).rnd .dyn = none :=
  ⟨begins_of (by decide +kernel), begins_of (by decide +kernel), by decide +kernel⟩
theorem witness_LaneMovesAndReductions : (∀ p ∈ moveOps2 1 2 3, ∃ y, Begins (part (poor 1)) p.1 5 (poor 1) 1 0 y)
    ∧ ∀ p ∈ moveOps1 1 2 15, ∃ y, Begins (part (poor 1)) p.1 5 (poor 1) 1 0 y :=
  ⟨begins_all (ci := fun _ => 1) (cm := fun _ => 0) (by decide +kernel), begins_all (ci := fun _ => 1) (cm := fun _ => 0) (by decide +kernel)⟩
theorem witness_LaneMovesAndReductions_rest : ∀ i ∈ [Instr.vget 1 2 15, .vput 1 2 0, .vred (.int 7) 1 2, .vscan (.int 0) 1 2, .vred (.float 0 .rne) 1 2,
    .vscan (.float 2 .sr) 1 2], ∃ y, Begins (part (poor 1)) i 5 (poor 1) 1 0 y := begins_all (f := id) (ci := fun _ => 1) (cm := fun _ => 0) (by decide +kernel)
/-- No lane in p0. -/
def nowhere : Ctx := { poor 1 with pw := 0 }
theorem witness_LaneMovesAndReductions_rounding : redRounding (.int 0) = none ∧ (redRounding (.float 0 .rne) = some .rne ∧ fmtFault nowhere.rnd .rne = none) ∧ ∃ y, Begins (part nowhere) (.vred (.int 0) 1 2) 5 nowhere 1 0 y :=
  ⟨by decide +kernel, by decide +kernel, begins_of (by decide +kernel)⟩
theorem witness_MasksAndPacking : ∀ i ∈ [Instr.mop 15 3 0 3, .mget 1 3, .mset 0 2, .mcnt 1 0, .pack ⟨.x16, false⟩ 1 2 3, .unpk .x4 1 2 3],
    ∃ y, Begins (part (poor 1)) i 5 (poor 1) 1 0 y := begins_all (f := id) (ci := fun _ => 1) (cm := fun _ => 0) (by decide +kernel)

-- Pages 6 to 8

/-- Segment 0 maps the first bank of the tile's own scratch; segment 1 maps a page of memory at 0x10000, rights R, W and S. -/
def seg (l : List (Nat × Reg)) : Ctx := { gs l with segs := [(0, ⟨0, 0xD80000000000FFFF⟩), (1, ⟨0x10000, 0xD000000000000FFF⟩)] }
/-- The part with tiles 1 and 2 in partition 0, bank 0 of tile 1 in scratch mode, and the leaf of the page in the TLB of core 16: line 0 of the page
is at home in tile 1, line 1 in tile 2. -/
def tiled (x : Ctx) : State :=
  { part x with
    tiles := [(1, 8), (2, 8)], banks := [(24, .scratch)]
    tlb1 := [(16, [⟨0, 0x10000, 0, 0xC000000000010006, none⟩])] }
/-- Register 2 points at the second line of the page, register 3 at the end of the scratch bank. -/
def far : Ctx := seg [(2, 0x2000000000000040), (3, 0xFFC0), (4, 7)]
def a0 : AQual := ⟨.add, false, .plain, .core, true⟩
theorem witness_LoadsIssue : ∀ p ∈ loadOps 15 m0 a0 far 1 2 5 0 0, ∃ r s' y, Reaches (setCtx (tiled far) 5 (issued (tiled far) p.1 far)) 5 far p.2.1 r s'
    ∧ Begins (tiled far) p.1 5 far 1 (p.2.1.cost far r) y := reaches_all (f := fun (p : Instr × Ask × Long) => p.1) (q := fun (p : Instr × Ask × Long) => p.2.1) (t := fun p => setCtx (tiled far) 5 (issued (tiled far) p.1 far)) (by decide +kernel)
/-- A load in the tile's own scratch, at its last doubleword. -/
theorem witness_LoadsIssue_scratch : ∃ r s' y, Reaches (setCtx (tiled far) 5 (issued (tiled far) (.ld 0 { m0 with ty := .d } 1 3 56) far)) 5 far
    (askOf { m0 with ty := .d } (ea (far.scalar 3) 56) 8 rightsR (.read 8) (.scalar .d)) r s' ∧ Begins (tiled far) (.ld 0 { m0 with ty := .d } 1 3 56) 5 far 1
      ((askOf { m0 with ty := .d } (ea (far.scalar 3) 56) 8 rightsR (.read 8) (.scalar .d)).cost far r) y := reaches_of (by decide +kernel)
theorem witness_LoadsIssue_stores : ∀ p ∈ storeFeOps 0 m0 a0 far 4 2 5 8 7, ∃ r s' y,
    Reaches (readField (setCtx (tiled far) 5 (issued (tiled far) p.1 far)) 5 4).2 5 far p.2.1 r s' ∧ Begins (tiled far) p.1 5 far 1 (p.2.1.cost far r) y :=
  reaches_all (f := fun (p : Instr × Ask × Long) => p.1) (q := fun (p : Instr × Ask × Long) => p.2.1) (t := fun p => (readField (setCtx (tiled far) 5 (issued (tiled far) p.1 far)) 5 4).2) (by decide +kernel)
theorem witness_LoadsIssue_value : ∀ p ∈ storeFeOps 0 m0 a0 far 4 2 5 8 7, scalarOf (readField (setCtx (tiled far) 5 (issued (tiled far) p.1 far)) 5 4).1 = 7 := by decide +kernel
theorem witness_LoadsIssue_ldmx : (∃ r s' y, Reaches (setCtx (tiled far) 5 { issued (tiled far) (.ldmx 0 m0 1 3 0) far with rnd := 0 }) 5 far
    { askOf m0 (ea (far.scalar 3) 0) 64 rightsR (.read 64) .mx with fixed := some 64 } r s' ∧ Begins (tiled far) (.ldmx 0 m0 1 3 0) 5 far 1 64 y)
    ∧ fmtFault far.rnd .dyn = none := ⟨reaches_of (by decide +kernel), by decide +kernel⟩
/-- A rover whose predictor has seen tile 2, the home of register 2's line, twice; an address that is misaligned; the home under repair; a page that is in no
TLB and no table; and a leaf without the right to write or synchronise. -/
def astray : Ctx := { far with window := 24, predH := 2, predN := 2 }
def uneven : Ctx := { far with regs := [(2, 0x2000000000000041), (3, 0xFFC0), (4, 7)] }
def sickly (x : Ctx) : State := { tiled x with tiles := [(1, 8), (2, 0x88)] }
def absent (x : Ctx) : State := { tiled x with tlb1 := [] }
def guarded (x : Ctx) : State := { tiled x with tlb1 := [(16, [⟨0, 0x10000, 0, 0x8000000000010000, none⟩])] }
/-- The state in which the addresses of a load, and of an instruction that reads register 4 first, are checked. -/
def asking (s : State) (i : Instr) (x : Ctx) : State := setCtx s 5 (issued s i x)
def asking4 (s : State) (i : Instr) (x : Ctx) : State := (readField (asking s i x) 5 4).2
def mayMove (q : Ask) : Bool := q.pol == .pred || q.pol == .migrate
theorem witness_LoadsIssue_away : (∀ p ∈ (loadOps 15 m0 a0 astray 1 2 5 0 0).filter (fun p => mayMove p.2.1), ∃ r s' y, ReachesAway (asking (tiled astray) p.1 astray) 5 astray p.2.1 r 2 s'
      ∧ Begins (tiled astray) p.1 5 astray 1 (p.2.1.cost astray r + 1664) y)
    ∧ ∀ p ∈ (storeFeOps 15 m0 a0 astray 4 2 5 0 7).filter (fun p => mayMove p.2.1), ∃ r s' y, ReachesAway (asking4 (tiled astray) p.1 astray) 5 astray p.2.1 r 2 s'
      ∧ Begins (tiled astray) p.1 5 astray 1 (p.2.1.cost astray r + 1664) y :=
  ⟨away_all (f := fun (p : Instr × Ask × Long) => p.1) (q := fun (p : Instr × Ask × Long) => p.2.1) (t := fun p => asking (tiled astray) p.1 astray) (by decide +kernel),
    away_all (f := fun (p : Instr × Ask × Long) => p.1) (q := fun (p : Instr × Ask × Long) => p.2.1) (t := fun p => asking4 (tiled astray) p.1 astray) (by decide +kernel)⟩
/-- The stopping states of a context: misaligned, under repair, absent. -/
def stoppings : List (State × Ctx) := [(tiled uneven, uneven), (sickly far, far), (absent far, far)]
theorem witness_LoadsIssue_stops : ∀ w ∈ stoppings, (∀ p ∈ loadOps 15 { m0 with ty := .d } a0 w.2 1 2 5 0 0, ∃ e, Stops (asking w.1 p.1 w.2) w.2 p.2.1 e ∧ Clear w.1 p.1 5 w.2)
    ∧ ∀ p ∈ storeFeOps 15 m0 a0 w.2 4 2 5 0 7, ∃ e, Stops (asking4 w.1 p.1 w.2) w.2 p.2.1 e ∧ Clear w.1 p.1 5 w.2 := by
  intro w hw
  have h : (stoppings.all fun w => ((loadOps 15 { m0 with ty := .d } a0 w.2 1 2 5 0 0).all fun p => stopsB w.1 p.1 5 w.2 p.2.1 (asking w.1 p.1 w.2))
    && (storeFeOps 15 m0 a0 w.2 4 2 5 0 7).all fun p => stopsB w.1 p.1 5 w.2 p.2.1 (asking4 w.1 p.1 w.2)) = true := by decide +kernel
  have := List.all_eq_true.mp h w hw
  rw [Bool.and_eq_true] at this
  exact ⟨stops_all this.1, stops_all this.2⟩
theorem witness_LoadsIssue_prot : (∀ p ∈ (loadOps 15 m0 a0 far 1 2 5 0 0).filter (fun p => p.2.1.r.s), ∃ e y, resolve (asking (guarded far) p.1 far) far p.2.1.as p.2.1.n p.2.1.align p.2.1.r = .prot e
      ∧ Begins (guarded far) p.1 5 far 1 (protTraffic (asking (guarded far) p.1 far) far p.2.1) y)
    ∧ ∀ p ∈ storeFeOps 15 m0 a0 far 4 2 5 0 7, ∃ e y, resolve (asking4 (guarded far) p.1 far) far p.2.1.as p.2.1.n p.2.1.align p.2.1.r = .prot e
      ∧ Begins (guarded far) p.1 5 far 1 (protTraffic (asking4 (guarded far) p.1 far) far p.2.1) y :=
  ⟨prot_all (f := fun (p : Instr × Ask × Long) => p.1) (q := fun (p : Instr × Ask × Long) => p.2.1) (t := fun p => asking (guarded far) p.1 far) (by decide +kernel),
    prot_all (f := fun (p : Instr × Ask × Long) => p.1) (q := fun (p : Instr × Ask × Long) => p.2.1) (t := fun p => asking4 (guarded far) p.1 far) (by decide +kernel)⟩
/-- LDMX of the same line: its ask, and the state it is checked in. -/
def recordAsk (x : Ctx) : Ask := { askOf m0 (ea (x.scalar 2) 0) 64 rightsR (.read 64) .mx with fixed := some 64 }
def recordIn (s : State) (x : Ctx) : State := setCtx s 5 { issued s (.ldmx 0 m0 1 2 0) x with rnd := withSr x.rnd (srState x.rnd) }
theorem witness_LoadsIssue_ldmx_stops : (∃ l s' y, ReachesAway (recordIn (tiled astray) astray) 5 astray (recordAsk astray) l 2 s' ∧ Begins (tiled astray) (.ldmx 0 m0 1 2 0) 5 astray 1 ((recordAsk astray).cost astray l + 1664) y)
    ∧ (∀ w ∈ stoppings, ∃ e, Stops (recordIn w.1 w.2) w.2 (recordAsk w.2) e ∧ Clear w.1 (.ldmx 0 m0 1 2 0) 5 w.2)
    ∧ (∃ r s' y, Reaches (recordIn (tiled { far with rnd := 6 }) { far with rnd := 6 }) 5 { far with rnd := 6 } (recordAsk far) r s' ∧ Begins (tiled { far with rnd := 6 }) (.ldmx 0 m0 1 2 0) 5 { far with rnd := 6 } 1 ((recordAsk far).cost far r) y)
    ∧ (fmtFault ({ far with rnd := 6 } : Ctx).rnd .dyn).isSome = true := by
  have h : (stoppings.all fun w => stopsB w.1 (.ldmx 0 m0 1 2 0) 5 w.2 (recordAsk w.2) (recordIn w.1 w.2)) = true := by decide +kernel
  exact ⟨away_of (by decide +kernel), fun w hw => stops_of (List.all_eq_true.mp h w hw), reaches_of (by decide +kernel), by decide +kernel⟩
theorem witness_StoresIssue_away : (∀ p ∈ storeOps m0 astray 4 2 5 0 7, ∃ r s' y, ReachesAway (asking4 (tiled astray) p.1 astray) 5 astray p.2 r 2 s'
      ∧ Begins (tiled astray) p.1 5 astray 1 (p.2.cost astray r + 1664) y)
    ∧ (∃ r s' y, ReachesAway (asking (tiled astray) (.zline m0 2 0) astray) 5 astray (askOf m0 (ea (astray.scalar 2) 0) 64 rightsW .zline .none) r 2 s'
      ∧ Begins (tiled astray) (.zline m0 2 0) 5 astray 1 ((askOf m0 (ea (astray.scalar 2) 0) 64 rightsW .zline .none).cost astray r + 1664) y) :=
  ⟨away_all (f := fun (p : Instr × Ask) => p.1) (q := fun (p : Instr × Ask) => p.2) (t := fun p => asking4 (tiled astray) p.1 astray) (by decide +kernel), away_of (by decide +kernel)⟩
theorem witness_StoresIssue_stops : ∀ w ∈ stoppings, (∀ p ∈ storeOps { m0 with ty := .d } w.2 4 2 5 0 7, ∃ e, Stops (asking4 w.1 p.1 w.2) w.2 p.2 e ∧ Clear w.1 p.1 5 w.2)
    ∧ ∃ e, Stops (asking w.1 (.zline m0 2 0) w.2) w.2 (askOf m0 (ea (w.2.scalar 2) 0) 64 rightsW .zline .none) e ∧ Clear w.1 (.zline m0 2 0) 5 w.2 := by
  intro w hw
  have h : (stoppings.all fun w => ((storeOps { m0 with ty := .d } w.2 4 2 5 0 7).all fun p => stopsB w.1 p.1 5 w.2 p.2 (asking4 w.1 p.1 w.2))
    && stopsB w.1 (.zline m0 2 0) 5 w.2 (askOf m0 (ea (w.2.scalar 2) 0) 64 rightsW .zline .none) (asking w.1 (.zline m0 2 0) w.2)) = true := by decide +kernel
  have := List.all_eq_true.mp h w hw
  rw [Bool.and_eq_true] at this
  exact ⟨stops_all this.1, stops_of this.2⟩
theorem witness_StoresIssue_prot : ∀ p ∈ storeOps m0 far 4 2 5 0 7, ∃ e y, resolve (asking4 (guarded far) p.1 far) far p.2.as p.2.n p.2.align p.2.r = .prot e
    ∧ Begins (guarded far) p.1 5 far 1 (protTraffic (asking4 (guarded far) p.1 far) far p.2) y :=
  prot_all (f := fun (p : Instr × Ask) => p.1) (q := fun (p : Instr × Ask) => p.2) (t := fun p => asking4 (guarded far) p.1 far) (by decide +kernel)
theorem witness_StoresIssue : ∀ p ∈ storeOps m0 far 4 2 5 0 7, ∃ r s' y,
    Reaches (readField (setCtx (tiled far) 5 (issued (tiled far) p.1 far)) 5 4).2 5 far p.2 r s' ∧ Begins (tiled far) p.1 5 far 1 (p.2.cost far r) y :=
  reaches_all (f := fun (p : Instr × Ask) => p.1) (q := fun (p : Instr × Ask) => p.2) (t := fun p => (readField (setCtx (tiled far) 5 (issued (tiled far) p.1 far)) 5 4).2) (by decide +kernel)
theorem witness_StoresIssue_zline : ∃ r s' y, Reaches (setCtx (tiled far) 5 (issued (tiled far) (.zline m0 3 0) far)) 5 far
    (askOf m0 (ea (far.scalar 3) 0) 64 rightsW .zline .none) r s' ∧ Begins (tiled far) (.zline m0 3 0) 5 far 1
      ((askOf m0 (ea (far.scalar 3) 0) 64 rightsW .zline .none).cost far r) y := reaches_of (by decide +kernel)
theorem witness_AddressesAndFences : ∀ i ∈ [Instr.lea 1 2 (-2 ^ 33), .pref m0 2 0, .pref m0 3 64, .fence ⟨.full, .sys⟩, .fence ⟨.acq, .core⟩],
    ∃ y, Begins (tiled { far with ib := 1 }) i 5 { far with ib := 1 } 1 0 y := begins_all (f := id) (ci := fun _ => 1) (cm := fun _ => 0) (by decide +kernel)
/-- A load is outstanding: either kind of fence waits for it. -/
def loadingCtx : Ctx := { far with longs := [{ Long.blank with seq := 3, la := 15, d := 1, wr := .scalar, writes := [1], waiting := 1 }] }
theorem witness_AddressesAndFences_wait : (FenceKind.rel ≠ .acq ∧ Scope.tile ≠ .core ∧ (pendingOf (tiled loadingCtx) 5 = true ∨ loadingCtx.longs ≠ []))
    ∧ (FenceKind.acq ≠ .rel ∧ loadingCtx.longs ≠ []) ∧ (tiled loadingCtx).issue.ctx = some 5 ∧ ctxOf (tiled loadingCtx) 5 = some loadingCtx := by decide +kernel
/-- Accesses leave for their homes: a load of the last scratch doubleword, a store of lane 0's low half. -/
def firstAccess (t : State) : Option Access := t.agenda.findSome? fun d => match d.step with | .accessAtHome a => some a | _ => none
theorem test_ld_sends : after (exec (.ld 0 { m0 with ty := .d } 1 3 56) (tiled far)) (fun t z => (z.mb, z.longs.map (fun l => (l.waiting, l.d)), (firstAccess t).map fun a => (a.kind, a.home, a.place)))
    = some (100000, [(1, 1)], some (.read 8, 1, placeOf 1 0xFFF8)) := by decide +kernel
theorem test_st_sends : after (exec (.st { m0 with ty := .uh } 4 2 2) (tiled far)) (fun t z => (z.mb, z.longs, (firstAccess t).map fun a => (a.kind, a.home, a.place)))
    = some (99998, [], some (.write 2 7 3, 2, 0x10042)) := by decide +kernel
theorem test_st_misaligned : after (exec (.st { m0 with ty := .uh } 4 2 1) (tiled { far with sup := 5 })) (fun _ z => (z.state, z.mb)) = some (.stopped, 100000) := by decide +kernel

-- Page 8
def mailed : Ctx := { who with inbox := [⟨7, true⟩, ⟨8, false⟩] }
theorem witness_MessagesBudgetsAndSignals : (∃ y, Begins (part { who with mb := 64 }) (.send 1 2) 5 { who with mb := 64 } 1 64 y)
    ∧ ∀ i ∈ [Instr.recv 1, .waitm 1 (2 ^ 30 - 1)], (∃ y, Begins (part who) i 5 who 1 0 y) ∧ ∃ y, Begins (part mailed) i 5 mailed 1 0 y := by
  refine ⟨begins_of (by decide +kernel), fun i hi => ⟨?_, ?_⟩⟩
  · exact begins_all (f := id) (l := [Instr.recv 1, .waitm 1 (2 ^ 30 - 1)]) (ci := fun _ => 1) (cm := fun _ => 0) (by decide +kernel) i hi
  · exact begins_all (f := id) (l := [Instr.recv 1, .waitm 1 (2 ^ 30 - 1)]) (ci := fun _ => 1) (cm := fun _ => 0) (by decide +kernel) i hi
/-- Context 9 is a child of context 5, which gives it ten instructions and twenty bytes. -/
def giver : Ctx := { gs [(2, 9), (3, 10 + 20 * 2 ^ 64), (4, 6)] with ib := 11, mb := 20 }
def family (x : Ctx) : State := { part x with ctxs := [(5, x), (9, { who with spawner := 5 })] }
theorem witness_MessagesBudgetsAndSignals_bgive : (isChild (family giver) 5 (giver.lane0 2) = true ∧ giver.lane0 2 ≠ 5 ∧ bits (giver.dword 3 0) 47 0 ≠ all1
    ∧ bits (giver.dword 3 1) 47 0 ≠ all1 ∧ ∃ y, Begins (family giver) (.bgive 1 2 3) 5 giver 11 20 y)
    ∧ isChild (family giver) 5 (giver.lane0 4) = false ∧ giver.lane0 4 ≠ 5 ∧ ∃ y, Begins (family giver) (.bgive 1 4 3) 5 giver 1 0 y :=
  ⟨⟨by decide +kernel, by decide +kernel, by decide +kernel, by decide +kernel, begins_of (by decide +kernel)⟩, by decide +kernel, by decide +kernel, begins_of (by decide +kernel)⟩
theorem test_bgive : after (exec (.bgive 1 2 3) (family giver)) (fun t z => (z.ib, z.mb, z.reg 1, (ctxOf t 9).map fun c => (c.ib, c.mb))) = some (0, 0, 1, some (100010, 100020)) := by decide +kernel
theorem witness_MessagesBudgetsAndSignals_rest : Clear (part who) (.brk (2 ^ 38 - 1)) 5 who ∧ ∃ y, Begins (part who) (.signal 1) 5 who 1 0 y :=
  ⟨clear_of (by decide +kernel), begins_of (by decide +kernel)⟩
/-- With an access on its way, and with none. -/
def sending : State := { part who with uid := 2, agenda := [⟨110, .accessAtHome { uid := 1, ctx := 5, seq := 0, ins := 1, kind := .sete, land := .none, src := 1, home := 1, place := placeOf 1 0, uaddr := 0x00FF000000200000, part := 0, watched := false, sys := false, deadline := 0, parkedAt := 0, full := false, rel := false, acq := false, parts := [], comb := none, repair := none, floor := 0 }⟩] }
theorem witness_MessagesBudgetsAndSignals_signal : accessBefore sending 5 sending.uid = true ∧ accessBefore (part who) 5 0 = false ∧ ∃ y, Begins sending (.signal 1) 5 who 1 0 y :=
  ⟨by decide +kernel, by decide +kernel, begins_of (by decide +kernel)⟩
/-- BRK is not charged and tells its code and the address behind it. -/
theorem test_brk : after (exec (.brk 0x123) (bossed who)) (fun t z => (z.state, z.pc, z.ib, t.agenda.map fun d => match d.step with
    | .messageArrival _ m _ => (dword m 2, dword m 3) | _ => (0, 0))) = some (.stopped, 0x1000, 100000, [(0x123, 0x1002)]) := by decide +kernel
theorem test_recv : after (exec (.recv 1) (part mailed)) (fun _ z => (z.reg 1, z.inbox.length)) = some (7, 1) ∧ after (exec (.waitm 1 9) (part who)) (fun _ z => (z.state, z.pc)) = some (.parked, 0x1002) := by decide +kernel
theorem witness_SpecialRegisters : (∃ y, Begins (part who) (.gets 1 37) 5 who 1 0 y) ∧ (∃ y, Begins (part { who with priv := true }) (.sets 1 31) 5 { who with priv := true } 1 0 y)
    ∧ (∃ y, Begins (part who) (.sets 1 5) 5 who 1 0 y) ∧ bit (who.scalar 1) 0 = false ∧ (31 ∈ privilegedSpecials ∧ 5 ∉ privilegedSpecials)
    ∧ (specials (part who) 5 who 0x1000)[37]? = some 0 ∧ (specialWrites 0)[37]?.isSome = true :=
  ⟨begins_of (by decide +kernel), begins_of (by decide +kernel), begins_of (by decide +kernel), by decide +kernel, by decide +kernel, by decide +kernel, by decide +kernel⟩
theorem witness_SpecialRegisters_stops : (Clear (part who) (.sets 1 3) 5 who ∧ 3 ∈ privilegedSpecials ∧ who.priv = false)
    ∧ Clear (part (poor 1)) (.sets 1 5) 5 (poor 1) ∧ bit ((poor 1).scalar 1) 0 = true := ⟨⟨clear_of (by decide +kernel), by decide, rfl⟩, clear_of (by decide +kernel), by decide +kernel⟩
/-- cid of context 5 in slot 0 of core 16; the pc is the instruction's own; a reserved field of fel stays zero. -/
theorem test_specials : scalarAfter (.gets 1 8) who 1 = some (dw (5 * 2 ^ 32 + 1024)) ∧ scalarAfter (.gets 1 0) who 1 = some 0x1000
    ∧ after (exec (.sets 2 7) (part (gs (two n1 0)))) (fun _ z => z.fel) = some 0xFFFFFFFF := by decide +kernel
/-- A descriptor of a context of 24 registers at 0x2000 with one instruction and two bytes. -/
def desc (w : Nat) : Reg := ofDwords [0x2000, 1, 2, dw w, 77, 0, 0, 0]
def maker : Ctx := { gs [(2, desc 24), (3, 99), (4, desc 20)] with ib := 2, mb := 2 }
theorem witness_Creation : (∃ c u, newId (part maker) 1 = some (c, u) ∧ ctxOf (part maker) c = none) ∧ spawnOk (maker.reg 2) = true ∧ bit (dword (maker.reg 2) 0) 0 = false
    ∧ bit (dword (maker.reg 2) 3) 10 = false ∧ bits (dword (maker.reg 2) 1) 47 0 = 1 ∧ bits (dword (maker.reg 2) 2) 47 0 = 2 ∧ (∃ y, Begins (part maker) (.spawn 1 2 3) 5 maker 2 2 y)
    ∧ spawnOk (maker.reg 4) = false ∧ ∃ y, Begins (part maker) (.spawn 1 4 3) 5 maker 1 0 y :=
  ⟨⟨_, _, rfl, by decide +kernel⟩, by decide +kernel, by decide +kernel, by decide +kernel, by decide +kernel, by decide +kernel, begins_of (by decide +kernel), by decide +kernel, begins_of (by decide +kernel)⟩
/-- The first entry of tile 1's table, generation 1. -/
theorem test_spawn : after (exec (.spawn 1 2 3) (part maker)) (fun _ z => (z.reg 1, z.ib, z.mb)) = some (BitVec.ofNat 512 (2 ^ 25 + 1), 0, 0)
    ∧ after (exec (.spawn 1 2 3) (part maker)) (fun t _ => (ctxOf t (2 ^ 25 + 1)).map fun c => (c.state, c.window, c.pc)) = some (some (.queued, 24, 0x2000))
    ∧ after (exec (.spawn 1 2 3) (part maker)) (fun t _ => (ctxOf t (2 ^ 25 + 1)).map fun c => (c.reg 0, c.wid, c.spawner)) = some (some (99, 77, 5)) := by decide +kernel
/-- A rover, whose targets are its own core, core 3 of its tile, tile 2, and tile 3, which is in no partition. -/
def rover : Ctx := { gs [(2, 16), (3, 19), (4, 32), (6, 48)] with window := 24, mb := 1664 }
def moves (x : Ctx) (a : RegNo) : Nat := bitOf (x.window != 24) + bitOf (tileBound (tiled x) 5 x) * 2 + bitOf (partOf (tiled x) (bits (x.scalar a) 10 4) != some x.part) * 4
    + bitOf (underRepair (tiled x) (bits (x.scalar a) 10 4)) * 8
theorem witness_Migration : (∀ a ∈ [(2 : RegNo), 3], bits (rover.scalar a) 10 4 = rover.tile) ∧ (∀ i ∈ [Instr.migr 2, .migr 3], ∃ y, Begins (tiled rover) i 5 rover 1 0 y)
    ∧ (bits (rover.scalar 4) 10 4 ≠ rover.tile ∧ moves rover 4 = 0 ∧ ∃ y, Begins (tiled rover) (.migr 4) 5 rover 1 1664 y)
    ∧ bits (rover.scalar 6) 10 4 ≠ rover.tile ∧ moves rover 6 = 4 ∧ Clear (tiled rover) (.migr 6) 5 rover :=
  ⟨by decide +kernel, begins_all (f := id) (ci := fun _ => 1) (cm := fun _ => 0) (by decide +kernel),
    ⟨by decide +kernel, by decide +kernel, begins_of (by decide +kernel)⟩, by decide +kernel, by decide +kernel, clear_of (by decide +kernel)⟩
theorem test_migr : after (exec (.migr 4) (tiled rover)) (fun _ z => (z.state, z.moving, z.mb)) = some (.inTransit, some 2, 0)
    ∧ after (exec (.migr 3) (tiled rover)) (fun _ z => (z.state, z.moving)) = some (.resident, some 19) := by decide +kernel

-- Pages 9 to 11

/-- Descriptors of a copy of one kilobyte within the tile's scratch, with a message, and of a stream of the first line of scratch. -/
def copier : Ctx := seg [(2, ofDwords [0, 0x8000, 0x1000400, 77, 0, 0, 0, 0]), (3, ofDwords [0x40, 0, 64, 0, 0, 0, 0, 0]), (4, 9)]
/-- The part with a FIFO bank beside the scratch bank, and some bytes counted on barrier 3. -/
def banked (x : Ctx) : State := { tiled x with banks := [(24, .scratch), (25, .fifo)], barriers := [(259, 16)] }
theorem witness_CopiesIssue : checkedCopy (banked copier) 5 copier = none ∧ copyEnd (banked copier) copier (dword (copier.reg 2) 0) 0x400 rightsR = .ok 0x00FF000000200000
    ∧ copyEnd (banked copier) copier (dword (copier.reg 2) 1) 0x400 rightsW = .ok 0x00FF000000208000 ∧ otherTile 1 0x00FF000000200000 = false
    ∧ otherTile 1 0x00FF000000208000 = false ∧ badBank (banked copier) 1 0x00FF000000200000 0x400 = none ∧ badBank (banked copier) 1 0x00FF000000208000 0x400 = none
    ∧ (copiesOf (banked copier) 1).length < 256 ∧ copyCheck copier (copier.reg 2) false = none ∧ countOf (banked copier) (256 + 3) + 0x400 ≤ 0xFFFFFF := by
  refine ⟨by decide +kernel, ok_eq (by decide +kernel), ok_eq (by decide +kernel), by decide +kernel, by decide +kernel, by decide +kernel, by decide +kernel, by decide +kernel, by decide +kernel, by decide +kernel⟩
theorem witness_CopiesIssue_begin : (∃ y, Begins (banked copier) (.cpy 3 2) 5 copier 1 0 y) ∧ ∃ y, Begins (banked copier) (.cpys 132 3) 5 copier 1 0 y :=
  ⟨begins_of (by decide +kernel), begins_of (by decide +kernel)⟩
theorem witness_CopiesIssue_stream : copyEnd (banked copier) copier (dword (copier.reg 3) 0) 64 rightsR = .ok 0x00FF000000200040 ∧ copyCheck copier (copier.reg 3) true = none
    ∧ freeFifo (banked copier) 1 ≠ none := ⟨ok_eq (by decide +kernel), by decide +kernel, by decide +kernel⟩
theorem test_cpy : after (exec (.cpy 3 2) (banked copier)) (fun t _ => (countOf t 259, (copiesOf t 1).map fun c => (c.len, c.dst, c.k, c.msg)))
    = some (16 + 0x400, [(0x400, 0x00FF000000208000, 3, true)]) := by decide +kernel
/-- An odd length faults ALIGN; a stream takes the lowest FIFO bank. -/
theorem test_cpy_align : after (exec (.cpy 3 2) (banked { seg [(2, ofDwords [0, 0x8000, 4])] with sup := 5 })) (fun _ z => (z.state, z.mb)) = some (.stopped, 100000)
    ∧ after (exec (.cpys 135 3) (banked copier)) (fun t _ => fifoOf t 1 5 3) = some (some 1) := by decide +kernel
theorem witness_BarriersAndCancellation : ∀ i ∈ [Instr.binit 15 4, .bwait 3 0, .bwait 4 9, .bpend 1 3, .cpyq 1], ∃ y, Begins (banked copier) i 5 copier 1 0 y :=
  begins_all (f := id) (ci := fun _ => 1) (cm := fun _ => 0) (by decide +kernel)
theorem test_barriers : after (exec (.binit 3 4) (banked copier)) (fun t _ => countOf t 259) = some 9 ∧ after (exec (.bwait 3 7) (banked copier)) (fun _ z => (z.state, z.park.map (·.limit)))
    = some (.parked, some (some 7)) ∧ after (exec (.bwait 4 7) (banked copier)) (fun _ z => z.state) = some .resident
    ∧ after (exec (.bpend 1 3) (banked copier)) (fun _ z => z.reg 1) = some (16 + 3 * 2 ^ 24) ∧ after (exec (.cpyq 1) (banked copier)) (fun _ z => z.hold) = some (some .cpyq) := by decide +kernel
/-- Banks 23 and 0 of the tile to scratch, bank 24, and mode 3. -/
def banker : Ctx := seg [(2, 0x117), (3, 0x100), (4, 24), (6, 0x300), (7, 2)]
/-- The same part with a drain of bank 2 under way. -/
def draining (x : Ctx) : State := { tiled x with drains := [(26, [(9, .fifo)])] }
theorem witness_BankModesAndCaches : (∀ i ∈ [Instr.bankcfg 2, .bankcfg 3, .bankst 1], ∃ y, Begins (tiled banker) i 5 banker 1 0 y)
    ∧ (banker.lane0 2 % 32 < 24 ∧ modeOf (banker.lane0 2 / 256 % 4) = some .scratch ∧ bankMode (tiled banker) 1 23 ≠ .scratch ∧ drainsOf (tiled banker) 1 23 = []
      ∧ bankPending (tiled banker) 1 23 = false ∧ FMap.get [] (tiled banker).waits 1 = [])
    ∧ (modeOf (banker.lane0 3 / 256 % 4) = some .scratch ∧ bankMode (tiled banker) 1 0 = .scratch) :=
  ⟨begins_all (f := id) (ci := fun _ => 1) (cm := fun _ => 0) (by decide +kernel), by decide +kernel, by decide +kernel⟩
def rebanker : Ctx := seg [(7, 0x102)]
theorem witness_BankModesAndCaches_drain : (∃ y, Begins (draining rebanker) (.bankcfg 7) 5 rebanker 1 0 y) ∧ modeOf (rebanker.lane0 7 / 256 % 4) = some .scratch
    ∧ bankMode (draining rebanker) 1 2 ≠ .scratch ∧ drainsOf (draining rebanker) 1 2 ≠ [] := ⟨begins_of (by decide +kernel), by decide +kernel, by decide +kernel, by decide +kernel⟩
theorem witness_BankModesAndCaches_bad : (24 ≤ banker.lane0 4 % 32 ∧ Clear (tiled banker) (.bankcfg 4) 5 banker)
    ∧ modeOf (banker.lane0 6 / 256 % 4) = none ∧ Clear (tiled banker) (.bankcfg 6) 5 banker := ⟨⟨by decide +kernel, clear_of (by decide +kernel)⟩, by decide +kernel, clear_of (by decide +kernel)⟩
theorem witness_BankModesAndCaches_events : (underRepair (draining who) 1 = false ∧ cacheBanks (draining who) 1 ≠ [] ∧ FMap.get 0 (draining who).rr (1024 + 7 % 1024) < (cacheBanks (draining who) 1).length)
    ∧ drainsOf (draining who) 1 2 = [(9, .fifo)] ∧ ctxOf (draining who) 9 = none := by decide +kernel
/-- The issuer of that drain waits for it. -/
def drainer : Ctx := { who with state := .parked, park := some ⟨.drain, 90, none, 2, 0, 0x0FFC, true⟩ }
def drained : State := { draining who with ctxs := [(5, who), (9, drainer)] }
theorem witness_BankModesAndCaches_wakes : drainsOf drained 1 2 = [(9, .fifo)] ∧ ctxOf drained 9 = some drainer ∧ (drainer.park.map fun k => (k.kind, k.arg)) = some (.drain, 2)
    ∧ drainer.state = .parked ∧ drainer.stopReq = false ∧ drainer.longs = [] ∧ drainer.inMem = false ∧ drainer.saving = none ∧ FMap.get [] drained.waits 1 = [] := by decide +kernel
theorem test_bankcfg : after (exec (.bankcfg 2) (tiled banker)) (fun t _ => bankMode t 1 23) = some .scratch
    ∧ after (exec (.bankst 1) (draining { banker with segs := [] })) (fun _ z => (dword (z.reg 1) 0, dword (z.reg 1) 1)) = some (1, 4) := by decide +kernel

/-- Operands of a command in the first bank of scratch, and in a page of 16 kilobytes. -/
def matrixCtx : Ctx :=
  { gs [(2, 0), (3, 0x1800), (4, 0x2000000000000000), (6, 0x2000000000001800), (7, 0x8E3), (8, 0x802)] with
    segs := [(0, ⟨0, 0xD80000000000FFFF⟩), (1, ⟨0x10000, 0xD000000000003FFF⟩)], grant := [7] }
def matrixPart (x : Ctx) : State := { tiled x with tlb1 := [(16, [⟨0, 0x10000, 1, 0xC100000000010006, none⟩])] }
/-- The record of reset is legal; binary8 beside fp16 is not. -/
theorem witness_FormatsAndMatrixCommands : (∃ f g : Fmt, mmaFmt ((matrixCtx.scalar 7).toNat % 64) = some f ∧ mmaFmt ((matrixCtx.scalar 7).toNat / 64 % 64) = some g
      ∧ (fmtInfo f).width = (fmtInfo g).width ∧ ((matrixCtx.scalar 7).toNat / 4096 % 4 = 0 ∨ (matrixCtx.scalar 7).toNat / 4096 % 4 = 1 ∧ (fmtInfo f).width ≠ 16) ∧ (matrixCtx.scalar 7).toNat < 2 ^ 30)
    ∧ (∃ y, Begins (matrixPart matrixCtx) (.mfmt 7) 5 matrixCtx 1 0 y) := ⟨⟨.b8 false false 3, .b8 false false 3, by decide +kernel⟩, begins_of (by decide +kernel)⟩
theorem witness_FormatsAndMatrixCommands_bad : (¬ ∃ f g : Fmt, mmaFmt ((matrixCtx.scalar 8).toNat % 64) = some f ∧ mmaFmt ((matrixCtx.scalar 8).toNat / 64 % 64) = some g
      ∧ (fmtInfo f).width = (fmtInfo g).width) ∧ Clear (matrixPart matrixCtx) (.mfmt 8) 5 matrixCtx := by
  refine ⟨?_, clear_of (by decide +kernel)⟩
  rintro ⟨f, g, h, k, e⟩
  have h' : mmaFmt ((matrixCtx.scalar 8).toNat % 64) = some .bf16 := by decide +kernel
  have k' : mmaFmt ((matrixCtx.scalar 8).toNat / 64 % 64) = some (.b8 false false 0) := by decide +kernel
  rw [h'] at h; rw [k'] at k; cases h; cases k; revert e; decide +kernel
theorem witness_FormatsAndMatrixCommands_mma : (∃ l, regionLines matrixCtx (regionsOf matrixCtx (formatOf (matrixPart matrixCtx) 16) 2 3) = .ok l
      ∧ (l.flatten.all fun u => decide (ownScratch (matrixPart matrixCtx) matrixCtx u = none)) = true) ∧ ∃ y, Begins (matrixPart matrixCtx) (.mma 0 2 3) 5 matrixCtx 8 0 y :=
  ⟨ok_of (by decide +kernel), begins_of (by decide +kernel)⟩
theorem witness_FormatsAndMatrixCommands_mmas : (∃ l, regionLines matrixCtx (regionsOf matrixCtx (formatOf (matrixPart matrixCtx) 16) 4 6) = .ok l
      ∧ (l.flatten.all (fun u => decide (regionOf u = .paged)) && spotsB (mapAll matrixCtx rightsR (setCtx (matrixPart matrixCtx) 5 (issued (matrixPart matrixCtx) (.mmas 0 4 6) matrixCtx)) l.flatten)
        (fun p => !underRepair (matrixPart matrixCtx) p.2.home)) = true) ∧ ∃ y, Begins (matrixPart matrixCtx) (.mmas 0 4 6) 5 matrixCtx 8 12288 y :=
  ⟨ok_of (by decide +kernel), begins_of (by decide +kernel)⟩
theorem test_mfmt : after (exec (.mfmt 7) (matrixPart matrixCtx)) (fun t _ => formatOf t 16) = some 0x8E3
    ∧ after (exec (.mfmt 8) (matrixPart { matrixCtx with sup := 5 })) (fun t z => (z.state, formatOf t 16)) = some (.stopped, 0x8E3) := by decide +kernel
/-- The engine of tile 1 takes the command for the block that the grant maps, and its issuer parks. -/
theorem test_mma : after (exec (.mma 0 2 3) (matrixPart matrixCtx)) (fun _ z => (z.state, z.ib)) = some (.parked, 99992)
    ∧ after (exec (.mma 0 2 3) (matrixPart matrixCtx)) (fun t _ => (engineOf t 1).queue.map fun k => (k.blk, k.lines.length, k.lines.getLast?)) = some [(7, 192, some (0x00FF000000202FC0, placeOf 1 0x2FC0))] := by decide +kernel

/-- A block with a reservation, in physical block 7; the last instruction that its budget pays. -/
def chanCtx : Ctx := { seg [(2, 64 + 9), (3, 3 * 64), (4, 1), (6, 0x20000), (8, 0x3F800000)] with grant := [7], ib := 1, mb := 5120 }
def chan (x : Ctx) (reserved : Bool) : State := { tiled x with blocks := [(71, { Block.reset with owner := some 5, reserved := reserved, tag := 4, expected := 2, arrived := 1 })] }
theorem witness_BlockSetting : ∀ i ∈ [Instr.acce 0 2, .accz 0, .accstat 1 0], ∃ y, Begins (chan chanCtx true) i 5 chanCtx 1 0 y :=
  begins_all (f := id) (ci := fun _ => 1) (cm := fun _ => 0) (by decide +kernel)
theorem witness_BlockReadsAndWrites : (∀ i ∈ [Instr.accrd .fp32 1 0 2, .accrd .bf16 1 0 2, .accwr 0 8 4], ∃ y, Begins (chan chanCtx true) i 5 chanCtx 1 0 y) ∧ fmtFault chanCtx.rnd .dyn = none :=
  ⟨begins_all (f := id) (ci := fun _ => 1) (cm := fun _ => 0) (by decide +kernel), by decide +kernel⟩
theorem witness_BlockReadsAndWrites_accst : ∃ sp s' y, areaLines (setCtx (chan chanCtx true) 5 (issued (chan chanCtx true) (.accst .fp16 0 1) chanCtx)) chanCtx (ea (chanCtx.scalar 1) 0) 512 rightsW = .spots sp s'
    ∧ (∀ p ∈ sp, (!p.2.paged || !underRepair s' p.2.home) = true ∨ p.2.paged = false) ∧ Begins (chan chanCtx true) (.accst .fp16 0 1) 5 chanCtx 1 ((sp.countP fun p => p.2.home != chanCtx.tile) * 64) y := by
  obtain ⟨l, u, y, e, h, b⟩ := spots_begin (s := chan chanCtx true) (i := .accst .fp16 0 1) (id := 5) (x := chanCtx)
    (r := areaLines (setCtx (chan chanCtx true) 5 (issued (chan chanCtx true) (.accst .fp16 0 1) chanCtx)) chanCtx (ea (chanCtx.scalar 1) 0) 512 rightsW)
    (q := fun p => !p.2.paged) (cm := fun sp => (sp.countP fun p => p.2.home != chanCtx.tile) * 64) (by decide +kernel) (by decide +kernel)
  exact ⟨l, u, y, e, fun p hp => Or.inr (by simpa using h p hp), b⟩
theorem witness_AccumulateNetwork : (∀ i ∈ [Instr.chset 0 2, .chdrop 0, .chstat 1 0, .chwait 0 (2 ^ 30 - 1)], ∃ y, Begins (chan chanCtx true) i 5 chanCtx 1 0 y)
    ∧ (blockAt (chan chanCtx true) 1 7).reserved = true ∧ (blockAt (chan chanCtx false) 1 7).reserved = false ∧ Clear (chan chanCtx false) (.chwait 0 0) 5 chanCtx :=
  ⟨begins_all (f := id) (ci := fun _ => 1) (cm := fun _ => 0) (by decide +kernel), by decide +kernel, by decide +kernel, clear_of (by decide +kernel)⟩
/-- To tile 2, two columns on in the same row, and to tile 3, which is in no partition. -/
def sender : Ctx := { chanCtx with regs := [(2, 2 * 64 + 9), (3, 3 * 64)] }
theorem witness_AccumulateNetwork_send : (∀ u ∈ 2 :: route 1 2, partOf (tiled sender) u = some sender.part) ∧ (∃ y, Begins (chan sender true) (.chsend 0 2) 5 sender 1 5120 y)
    ∧ (∃ u ∈ 3 :: route 1 3, partOf (tiled sender) u ≠ some sender.part) ∧ Clear (chan sender true) (.chsend 0 3) 5 sender :=
  ⟨by decide +kernel, begins_of (by decide +kernel), ⟨3, by decide +kernel, by decide +kernel⟩, clear_of (by decide +kernel)⟩
theorem test_chset : after (exec (.chset 0 4) (chan chanCtx true)) (fun t _ => let k := blockAt t 1 7; (k.tag, k.reserved, k.expected, k.arrived)) = some (5, true, 1, 0)
    ∧ after (exec (.chdrop 0) (chan chanCtx true)) (fun t _ => (blockAt t 1 7).reserved) = some false
    ∧ after (exec (.chstat 1 0) (chan chanCtx true)) (fun _ z => z.scalar 1) = some (dw (7 + 64 + 4 * 2 ^ 13 + 2 ^ 23 + 2 * 2 ^ 32 + 2 ^ 48)) := by decide +kernel
theorem test_chwait : after (exec (.chwait 0 5) (chan chanCtx true)) (fun _ z => z.state) = some .parked
    ∧ after (exec (.chwait 0 5) (chan { chanCtx with sup := 5 } false)) (fun _ z => (z.state, z.ib)) = some (.stopped, 1) := by decide +kernel
theorem test_chsend : after (exec (.chsend 0 2) (chan sender true)) (fun t z => (z.mb, (sendAt t 1 0).map fun e => (e.pkt.d, e.refused))) = some (0, some (137, none)) := by decide +kernel
/-- E = 0: the unit is 2^-120, so that 1.0 is 2^120 units. -/
theorem test_accwr : after (exec (.accwr 0 8 4) (chan chanCtx true)) (fun t _ => accElem (blockAt t 1 7).acc 16) = some (2 ^ 120)
    ∧ after (exec (.acce 0 2) (chan chanCtx true)) (fun t _ => (blockAt t 1 7).acc.e) = some 73 ∧ after (exec (.accstat 1 0) (chan chanCtx true)) (fun _ z => z.scalar 1) = some 0 := by decide +kernel
/-- 2^120 units read as 1.0. -/
def full1 (x : Ctx) : State := { chan x true with blocks := [(71, { Block.reset with owner := some 5, acc := { Accum.zero with elems := [(16, 2 ^ 120)] } })] }
theorem test_accrd : after (exec (.accrd .fp32 1 0 4) (full1 chanCtx)) (fun _ z => z.reg 1) = some 0x3F800000
    ∧ after (exec (.accz 0) (full1 chanCtx)) (fun t _ => accElem (blockAt t 1 7).acc 16) = some 0 := by decide +kernel

-- Pages 12 and 13

/-- The right triangle (0, 0), (1024, 0), (0, 1024) in units of 1/256 pixel, under a scissor of 16 pixels each way, and its record as R380 gives it. -/
def tri : Reg := ofLanes fun l => [0, 0, 1024, 0, 0, 1024, 0, 0, 0, 15, 15].getD l 0
def record : Reg := ofLanes fun l => [0, 0, 1024, 0, 0, 1024, 0x100000, 0, 0, 0, 0, 3, 3].getD l 0
def raster : Ctx := { seg [(2, tri), (3, record), (4, 0x40), (6, n1), (7, allLanes 0x3F000000)] with ib := 2 }
theorem witness_TriangleSetup : ∃ y, Begins (tiled raster) (.rset 1 2) 5 raster 2 0 y := begins_of (by decide +kernel)
theorem test_rset : rg (.rset 1 2) [(2, tri)] 1 = some record ∧ after (exec (.rset 1 2) (tiled raster)) (fun _ z => (z.rsc, z.ib)) = some (1, 0) := by decide +kernel
/-- With the last two vertices exchanged the area is negative; culled, the record is empty and not counted. -/
def tri' : Reg := ofLanes fun l => [0, 0, 0, 1024, 1024, 0, 1, 0, 0, 15, 15].getD l 0
theorem test_rset_culled : after (exec (.rset 1 2) (part (gs [(2, tri')]))) (fun _ z => ((dword (z.reg 1) 3).toInt, lane (z.reg 1) 8, z.rsc)) = some (-1048576, 0x13, 0) := by decide +kernel
theorem witness_CoverageAndWeights : (∀ i ∈ [Instr.rcov 3 1, .rbary 10 3 1, .rblk 1 3 6], ∃ y, Begins (tiled raster) i 5 raster 2 0 y) ∧ fmtFault raster.rnd .dyn = none :=
  ⟨begins_all (f := id) (ci := fun _ => 2) (cm := fun _ => 0) (by decide +kernel), by decide +kernel⟩
/-- The centres with X + Y ≤ 2; those with X + Y = 3 lie on the long edge, which is neither top nor left. -/
theorem test_rcov : after (exec (.rcov 3 1) (tiled raster)) (fun _ z => (z.pw, z.rpx)) = some (0x0137, 6) := by decide +kernel
/-- The first centre, half a pixel from both short sides, has weights 1/8 and 1/8. -/
theorem test_rbary : after (exec (.rbary 10 3 1) (tiled raster)) (fun _ z => (lane (z.reg 10) 0, lane (z.reg 11) 0)) = some (0x3E000000, 0x3E000000) := by decide +kernel
theorem test_rblk : after (exec (.rblk 1 3 6) (tiled raster)) (fun _ z => scalarOf (z.reg 1)) = some 0
    ∧ after (exec (.rblk 1 3 1) (tiled raster)) (fun _ z => scalarOf (z.reg 1)) = some (-1) := by decide +kernel
theorem line_of {s : State} {x : Ctx} {a : Dword} {r : Rights} {u : Nat} (h : okB (segMap x (ea a 0) 64 64 r) (fun v => decide (v = u)) = true)
    (h2 : ownScratch s x u = none ∧ errIn s (placeOf x.tile (u % 0x200000)) 64 = false) : Line s x a r u :=
  ⟨ok_eq h, h2.1, fun _ => h2.2⟩
theorem witness_DepthAndColour : (Line (tiled raster) raster (raster.scalar 4) ⟨true, true, false, false⟩ 0x00FF000000200040 ∧ ∃ y, Begins (tiled raster) (.rzt ⟨.gt, false⟩ 4 7) 5 raster 2 0 y)
    ∧ (Line (tiled raster) raster (raster.scalar 4) ⟨true, false, false, false⟩ 0x00FF000000200040 ∧ ∃ y, Begins (tiled raster) (.rzt ⟨.never, true⟩ 4 7) 5 raster 2 0 y)
    ∧ Line (tiled raster) raster (raster.scalar 4) rightsW 0x00FF000000200040 ∧ ∃ y, Begins (tiled raster) (.rwr 4 7) 5 raster 2 0 y :=
  ⟨⟨line_of (by decide +kernel) (by decide +kernel), begins_of (by decide +kernel)⟩, ⟨line_of (by decide +kernel) (by decide +kernel), begins_of (by decide +kernel)⟩,
    line_of (by decide +kernel) (by decide +kernel), begins_of (by decide +kernel)⟩
/-- The part with a context's access on its way to the line it is about to act on; and its context, held until it acts. -/
def behind (x : Ctx) (u : Nat) : State :=
  { tiled x with
    uid := 2
    agenda := [⟨110, .accessAtHome { uid := 1, ctx := 5, seq := 0, ins := 1, kind := .zline, land := .none, src := 1, home := 1, place := placeOf 1 (u % 0x200000), uaddr := u, part := 0, watched := false, sys := false, deadline := 0, parkedAt := 0, full := false, rel := false, acq := false, parts := [], comb := none, repair := none, floor := 0 }⟩] }
def acts (x : Ctx) (i : Instr) : Ctx := { x with hold := some (.acting i), retry := some ⟨.page, 90, none, 2, 0x1002, 0x1001, true⟩ }
theorem witness_DepthAndColour_behind : ∀ e ∈ [(Instr.rzt ⟨.gt, false⟩ 4 7, (⟨true, true, false, false⟩ : Rights)), (.rwr 4 7, rightsW)],
    (mustHold (setCtx (tiled raster) 5 (issued (tiled raster) e.1 raster)) (tiled raster).uid 5 raster e.1 = false
      ∧ mustHold (setCtx (behind raster 0x00FF000000200040) 5 (issued (behind raster 0x00FF000000200040) e.1 raster)) (behind raster 0x00FF000000200040).uid 5 raster e.1 = true)
    ∧ segMap raster (ea (raster.scalar 4) 0) 64 64 e.2 = .ok 0x00FF000000200040 ∧ ownScratch (behind raster 0x00FF000000200040) raster 0x00FF000000200040 = none
    ∧ (∃ y, Begins (behind raster 0x00FF000000200040) e.1 5 raster 2 0 y)
    ∧ (let w := acts raster e.1; Line (tiled w) w (w.scalar 4) e.2 0x00FF000000200040 ∧ ctxOf (tiled w) 5 = some w ∧ w.retry.isSome = true) := by
  intro e he
  have : e = (Instr.rzt ⟨.gt, false⟩ 4 7, (⟨true, true, false, false⟩ : Rights)) ∨ e = (.rwr 4 7, rightsW) := by simpa using he
  rcases this with rfl | rfl <;>
    exact ⟨by decide +kernel, ok_eq (by decide +kernel), by decide +kernel, begins_of (by decide +kernel), line_of (by decide +kernel) (by decide +kernel), by decide +kernel⟩
theorem test_rzt_acts : after (exec (.traversalStepComplete ⟨5, 2⟩) (tiled (acts raster (.rzt ⟨.gt, false⟩ 4 7)))) (fun t z => (z.pc, z.hold, z.qacc, readLE t (placeOf 1 0x7C) 4))
    = some (0x1002, none, 16, 0x3F000000) := by decide +kernel
/-- 0.5 is greater than the zeros of fresh scratch: every lane passes and is written; with lt none is. -/
theorem test_rzt : after (exec (.rzt ⟨.gt, false⟩ 4 7) (tiled raster)) (fun t z => (z.pw, z.qacc, readLE t (placeOf 1 0x7C) 4)) = some (0xFFFF, 16, 0x3F000000)
    ∧ after (exec (.rzt ⟨.lt, false⟩ 4 7) (tiled raster)) (fun t z => (z.pw, z.qacc, readLE t (placeOf 1 0x7C) 4)) = some (0, 0, 0)
    ∧ after (exec (.rzt ⟨.gt, true⟩ 4 7) (tiled raster)) (fun t z => (z.qacc, readLE t (placeOf 1 0x7C) 4)) = some (16, 0) := by decide +kernel
theorem test_rwr : after (exec (.rwr 4 7) (tiled { raster with pw := 2 })) (fun t z => (z.rwc, readLE t (placeOf 1 0x40) 4, readLE t (placeOf 1 0x44) 4)) = some (1, 0, 0x3F000000) := by decide +kernel

/-- The traversal area is the first 16 KiB of scratch; the state group is 8 to 11, the ray group 16 to 23, a result group 24 to 27. -/
def tracer : Ctx := { seg [(2, 0x8100000000010000), (16, allLanes 0x3F000000), (17, allLanes 0x3F000000), (21, allLanes 0x3F800000), (23, allLanes 0x7F800000)] with tarea := 0x00FF000000200000, ib := 2, mb := 4096, pw := 1 }
theorem unwatched {s : State} {home : Nat} (h : FMap.get [] s.waits home = []) (h2 : s.sends = []) : Unwatched s home :=
  ⟨h, fun e he => by rw [h2] at he; cases he⟩
theorem witness_TraversalRecords_behind : ∀ i ∈ [Instr.trset 8 2, .trcmt 24 16, .trres 24],
    (mustHold (setCtx (tiled tracer) 5 (issued (tiled tracer) i tracer)) (tiled tracer).uid 5 tracer i = false
      ∧ mustHold (setCtx (behind tracer 0x00FF000000200000) 5 (issued (behind tracer 0x00FF000000200000) i tracer)) (behind tracer 0x00FF000000200000).uid 5 tracer i = true)
    ∧ Area (behind tracer 0x00FF000000200000) tracer ∧ Unwatched (behind tracer 0x00FF000000200000) 1 ∧ (∃ y, Begins (behind tracer 0x00FF000000200000) i 5 tracer 2 0 y)
    ∧ (let w := acts tracer i; Area (tiled w) w ∧ ctxOf (tiled w) 5 = some w ∧ w.retireReq = false ∧ w.saving = none) := by
  intro i hi
  have : i = .trset 8 2 ∨ i = .trcmt 24 16 ∨ i = .trres 24 := by simpa using hi
  rcases this with rfl | rfl | rfl <;>
    exact ⟨by decide +kernel, (by decide +kernel : ownScratch _ _ _ = none), unwatched rfl rfl, begins_of (by decide +kernel), (by decide +kernel : ownScratch _ _ _ = none), by decide +kernel⟩
theorem witness_TraversalRecords : Area (tiled tracer) tracer ∧ Unwatched (tiled tracer) tracer.tile ∧ (∀ i ∈ [Instr.trset 8 2, .trcmt 24 16, .trres 24], ∃ y, Begins (tiled tracer) i 5 tracer 2 0 y)
    ∧ (∀ l, l < 16 → errIn (tiled tracer) (areaPlace tracer l 584) 4 = false ∧ errIn (tiled tracer) (areaPlace tracer l 512) 20 = false) :=
  ⟨(by decide +kernel : ownScratch (tiled tracer) tracer (areaAddr tracer) = none), unwatched rfl rfl, begins_all (f := id) (ci := fun _ => 2) (cm := fun _ => 0) (by decide +kernel), by decide +kernel⟩
theorem test_trset : after (exec (.trset 8 2) (tiled tracer)) (fun t z => (tlane z 8 0, tlane z 8 1, readDw t (placeOf 1 0), readLE t (placeOf 1 512) 4))
    = some (⟨0, 1, false, 0, 0, 0⟩, ⟨0, 0, false, 0, 0, 3⟩, 0x8100000000010000, 0x7F800000) := by decide +kernel
theorem test_trcmt : after (exec (.trcmt 16 40) (tiled tracer)) (fun t z => (lane (z.reg 47) 0, lane (z.reg 47) 1, readLE t (placeOf 1 512) 4)) = some (0x3F000000, 0, 0x3F000000)
    ∧ after (exec (.trres 24) (tiled tracer)) (fun _ z => z.reg 24) = some 0 := by decide +kernel
theorem witness_TraversalSteps : ∀ p ∈ [(Instr.trstep 8 16, 4096, 1, 0), (Instr.trtri 24 8 16, 1024, 2, 16), (Instr.trinst 8 16, 2048, 5, 0)],
    ∃ y, Begins (tiled tracer) p.1 5 tracer 2 p.2.1 y := begins_all (f := fun (p : Instr × Nat × Nat × Nat) => p.1) (ci := fun _ => 2) (cm := fun (p : Instr × Nat × Nat × Nat) => p.2.1) (by decide +kernel)
theorem witness_TraversalSteps_box : ∃ y, Begins (tiled tracer) (.trbox 1 32 16) 5 tracer 2 0 y := begins_of (by decide +kernel)
theorem test_trstep : after (exec (.trstep 8 16) (tiled tracer)) (fun _ z => (z.hold, z.pc, z.mb)) = some (some .traversal, 0x1000, 0) := by decide +kernel
/-- The ray from (0.5, 0.5, 0) along z meets the box from 0 to 1 in x and y and from 1 to 2 in z at 1; the one from (2, 0.5, 0) misses it. -/
def boxed : Ctx := { tracer with regs := [(16, allLanes 0x3F000000), (17, allLanes 0x3F000000), (21, allLanes 0x3F800000), (23, allLanes 0x7F800000), (34, allLanes 0x3F800000),
  (35, allLanes 0x3F800000), (36, allLanes 0x3F800000), (37, allLanes 0x40000000)] }
theorem test_trbox : after (exec (.trbox 1 32 16) (tiled boxed)) (fun _ z => (z.pw, lane (z.reg 1) 0)) = some (1, 0x3F800000)
    ∧ after (exec (.trbox 1 32 16) (tiled { boxed with regs := FMap.put boxed.regs 16 (allLanes 0x40000000) })) (fun _ z => z.pw) = some 0 := by decide +kernel

-- Page 15

/-- A privileged context of tile 0's firmware, and the contexts 7, 8 and 9: Resident, Stopped and Held, of tile 1. -/
def ruler (l : List (Nat × Reg)) : Ctx := { seg l with priv := true }
def realm (x : Ctx) : State :=
  { tiled x with ctxs := [(5, x), (7, { who with core := 1, regs := [(3, 33)], inbox := [⟨44, false⟩] }), (8, { who with core := 1, slot := 1, state := .stopped }),
    (9, { who with state := .held }), (11, { who with core := 2, state := .parked, sup := 5 })] }
/-- A selector of a register, of pc, of the descriptor, of the first message, and one of group 4, which names nothing. -/
def reader : Ctx := ruler [(1, ofDwords [7, 3]), (2, ofDwords [7, 0x1000]), (3, ofDwords [7, 0x2000]), (4, ofDwords [7, 0x3000]), (6, ofDwords [7, 0x4000]), (7, ofDwords [99, 0])]
theorem witness_ContextReads : (targetOf (realm reader) reader (reader.lane0 7) = none ∧ ∃ y, Begins (realm reader) (.ctxrd 10 7) 5 reader 1 0 y)
    ∧ (targetOf (realm reader) reader 7).isSome = true ∧ (∀ a ∈ [(1 : RegNo), 2, 3, 4], reader.lane0 a = 7 ∧ ((targetOf (realm reader) reader 7).all fun w => selectorOk w (reader.dword a 1) false && decide (readErr (realm reader) 7 w (reader.dword a 1) = none)) = true)
    ∧ ∀ i ∈ [Instr.ctxrd 10 1, .ctxrd 10 2, .ctxrd 10 3, .ctxrd 10 4], ∃ y, Begins (realm reader) i 5 reader 1 0 y :=
  ⟨⟨by decide +kernel, begins_of (by decide +kernel)⟩, by decide +kernel, by decide +kernel, begins_all (f := id) (ci := fun _ => 1) (cm := fun _ => 0) (by decide +kernel)⟩
theorem witness_ContextReads_stops : ((targetOf (realm reader) reader 7).all (fun w => !selectorOk w (reader.dword 6 1) false) = true ∧ Clear (realm reader) (.ctxrd 10 6) 5 reader)
    ∧ (let x := { reader with priv := false }; (targetOf (realm x) x 7).all (fun w => decide (w.sup.toNat ≠ 5)) = true ∧ Clear (realm x) (.ctxrd 10 1) 5 x) :=
  ⟨⟨by decide +kernel, clear_of (by decide +kernel)⟩, by decide +kernel, clear_of (by decide +kernel)⟩
/-- The register of context 7 with an uncorrectable error. -/
def marred : State := { realm reader with errs := [(dwErrKey 7 (48 + 8 * 3), true)] }
theorem witness_ContextReads_error : ((targetOf marred reader 7).all fun w => (readErr marred 7 w 3).isSome) = true ∧ Clear marred (.ctxrd 10 1) 5 reader :=
  ⟨by decide +kernel, clear_of (by decide +kernel)⟩
/-- The issuer, held until the read comes back. -/
def awaiting : Ctx := { reader with hold := some .page15, holdD := 10 }
theorem witness_ContextReads_arrival : ctxOf (realm awaiting) 5 = some awaiting ∧ awaiting.hold = some .page15 ∧ awaiting.retireReq = false ∧ awaiting.saving = none ∧ ctxOf (realm awaiting) 99 = none
    ∧ ((ctxOf (realm awaiting) 7).all fun z => !z.inMem && decide (3 < z.window)) = true := by decide +kernel
def readOf (c : Nat) (sel : Dword) : Option Reg := after (exec (.contextActionAtTile ⟨5, 0⟩ 10 c (.ctxrd sel)) (realm awaiting)) fun _ z => z.reg 10
theorem test_ctxrd : readOf 7 3 = some 33 ∧ readOf 7 0x1000 = some 0x1000 ∧ readOf 7 0x3000 = some 44 ∧ readOf 99 3 = some 0
    ∧ after (exec (.ctxrd 10 7) (realm reader)) (fun _ z => (z.reg 10, z.hold)) = some (0, none)
    ∧ after (exec (.ctxrd 10 1) (realm reader)) (fun _ z => (z.reg 10, z.hold)) = some (0, some .page15) := by decide +kernel
/-- Register 2 names context 7, register 3 pc of context 8, and register 4 nobody. -/
def actor : Ctx := ruler [(2, 7), (3, ofDwords [8, 0x1000]), (4, 99), (6, 0)]
theorem witness_ActionsAndImageMoves : (∀ p ∈ actionOps (realm actor) 5 actor 10 2 6, ∃ y, Begins (realm actor) p.instr 5 actor 1 0 y)
    ∧ targetOf (realm actor) actor 7 ≠ none ∧ targetOf (realm actor) actor 99 = none ∧ (∃ y, Begins (realm actor) (.ctxwr 10 3 6) 5 actor 1 0 y)
    ∧ ((targetOf (realm actor) actor 8).all fun w => selectorOk w 0x1000 true && writable (realm actor) 8 w 0x1000 && decide (writeFault actor 0x1000 (actor.reg 6) (actor.scalar 6) = none)) = true :=
  ⟨begins_all (f := ActionOp.instr) (ci := fun _ => 1) (cm := fun _ => 0) (by decide +kernel), by decide +kernel, by decide +kernel, begins_of (by decide +kernel), by decide +kernel⟩
/-- An area of 64 registers' image in the tile's scratch for context 8, and for context 9, which is Held; context 7 is Resident. -/
def imager (c : Nat) : Ctx := ruler [(2, BitVec.ofNat 512 c), (3, 0)]
theorem witness_ActionsAndImageMoves_image : ∀ c ∈ [8, 9], ∀ load : Bool, let i : Instr := if load then .kload 10 2 3 else .ksave 10 2 3
    ∃ l s' y, areaOf (setCtx (realm (imager c)) 5 (issued (realm (imager c)) i (imager c))) (imager c) ((imager c).scalar 3) (imageBytes who) (if load then rightsR else rightsW) = .spots l s'
      ∧ (∀ p ∈ l, (!p.2.paged) = true) ∧ Begins (realm (imager c)) i 5 (imager c) 1 ((l.countP fun p => p.2.home != (imager c).tile) * 64) y := by
  intro c hc load
  have : c = 8 ∨ c = 9 := by simpa using hc
  rcases this with rfl | rfl <;> cases load <;>
    exact spots_begin (cm := fun l => (l.countP fun p => p.2.home != 1) * 64) (by decide +kernel) (by decide +kernel)
theorem witness_ActionsAndImageMoves_states : (seenState (realm actor) 8 { who with core := 1, slot := 1, state := .stopped } = .stopped)
    ∧ (seenState (realm actor) 9 { who with state := .held } = .held) ∧ (let w : Ctx := { who with core := 1 }; seenState (realm actor) 7 w ≠ .stopped ∧ seenState (realm actor) 7 w ≠ .held)
    ∧ ∃ y, Begins (realm actor) (.ksave 10 2 6) 5 actor 1 0 y := ⟨by decide +kernel, by decide +kernel, by decide +kernel, begins_of (by decide +kernel)⟩
theorem test_ctxctl_holds : after (exec (.ctxctlStop 10 2 6) (realm actor)) (fun _ z => (z.hold, z.holdD)) = some (some .page15, 10)
    ∧ after (exec (.ctxctlStop 10 4 6) (realm actor)) (fun _ z => (z.hold, z.reg 10)) = some (none, 1) ∧ after (exec (.ksave 10 2 6) (realm actor)) (fun _ z => z.reg 10) = some 2 := by decide +kernel
/-- The page of the TLB entry, every page, and a window of port 213; calendar 260, group 31, and a commit. -/
def warden : Ctx := ruler [(2, 0x10000), (3, 0), (4, 1), (6, 213 + 7 * 256), (7, ofDwords [0x8000000000001000, 0x2000]), (8, 214), (9, 260 + 31 * 512), (10, 260 + 2 ^ 16 + 2 ^ 17), (12, 261), (13, 5)]
theorem witness_TranslationsAndCalendars : (∀ i ∈ [Instr.tlbinvPage 2 3, .tlbinvAll 2 4, .fwset 6 7, .fwset 8 7, .almset 9 13, .almset 10 13], ∃ y, Begins (realm warden) i 5 warden 1 0 y)
    ∧ (warden.lane0 4 % 4 = 1 ∧ warden.lane0 3 % 4 = 0 ∧ warden.lane0 3 / 16 % 16 < 12) ∧ (warden.lane0 6 % 256 ≤ 213 ∧ 213 < warden.lane0 8 % 256)
    ∧ (warden.lane0 9 % 512 < 261 ∧ (warden.lane0 10).testBit 16 = true) ∧ 261 ≤ warden.lane0 12 % 512 ∧ Clear (realm warden) (.almset 12 13) 5 warden :=
  ⟨begins_all (f := id) (ci := fun _ => 1) (cm := fun _ => 0) (by decide +kernel), by decide +kernel, by decide +kernel, by decide +kernel, by decide +kernel, clear_of (by decide +kernel)⟩
theorem test_tlbinv : after (exec (.tlbinvPage 2 3) (realm warden)) (fun t z => (FMap.get [] t.tlb1 16, z.hold)) = some ([], some .tlbinv)
    ∧ after (exec (.tlbinvPage 13 3) (realm warden)) (fun t _ => (FMap.get [] t.tlb1 16).length) = some 1 := by decide +kernel
theorem test_fwset : after (exec (.fwset 6 7) (realm warden)) (fun t _ => windowAt t 213 7) = some (0x8000000000001000, 0x2000)
    ∧ after (exec (.almset 9 13) (realm warden)) (fun t z => (FMap.get 0 t.shadow (32 * 260 + 31), z.hold)) = some (5, none)
    ∧ after (exec (.almset 10 13) (realm warden)) (fun t z => (FMap.get 0 t.shadow (32 * 260), z.hold)) = some (0, some .almanac) := by decide +kernel
/-- Partition 3's smem, a PCIe word, and an address of space 0x7F, which names nothing. -/
def configurer : Ctx := ruler [(2, 0x0300000000000305), (3, 0x1200000000000000), (4, 0x7F00000000000000), (6, 0x1234)]
theorem witness_Configuration : (cfgNames (realm configurer) (configurer.scalar 2) = true ∧ cfgErr (realm configurer) (configurer.scalar 2) = none)
    ∧ cfgSpace (configurer.scalar 3) = 0x12 ∧ cfgNames (realm configurer) (configurer.scalar 4) = false
    ∧ (∀ i ∈ [Instr.cfgrd 10 2, .cfgrd 10 3, .cfgwrTileMembership 10 2 6, .cfgwrRepairEnter 10 2 6, .cfgwrReturnToService 10 2 6, .cfgwrPartitionRegister 10 2 6, .cfgwrSpillRing 10 2 6,
      .cfgwrWakeRegister 10 2 6, .cfgwrWayMap 10 2 6, .cfgwrErrorCounter 10 2 6, .cfgwrPortEntry 10 2 6, .cfgwrTransmitTail 10 2 6, .cfgwrPcieMemory 10 2 6, .cfgwrPcieConfig 10 2 6,
      .cfgwrMsiRoute 10 2 6, .cfgwrScanoutHead 10 2 6, .cfgwrVigil 10 2 6, .cfgwrStandby 10 2 6, .cfgwrQuoteRequest 10 2 6, .cfgwrPageRegister 10 2 6, .cfgwrPageUnregister 10 2 6,
      .cfgwrReadOnly 10 2 6], ∃ y, Begins (realm configurer) i 5 configurer 1 0 y)
    ∧ Clear (realm configurer) (.cfgrd 10 4) 5 configurer ∧ Clear (realm configurer) (.cfgwrVigil 10 4 6) 5 configurer ∧ (3 < 4 ∧ 1 < 2 ∧ 63 < 64) :=
  ⟨by decide +kernel, by decide +kernel, by decide +kernel, begins_all (f := id) (ci := fun _ => 1) (cm := fun _ => 0) (by decide +kernel), clear_of (by decide +kernel), clear_of (by decide +kernel), by decide⟩
/-- Its issuer, held until base-die control answers. -/
def told : Ctx := { configurer with hold := some .page15, holdD := 10 }
theorem witness_Configuration_arrival : ctxOf (realm told) 5 = some told ∧ ctxOf (realm told) 0 = none ∧ told.hold = some .page15 ∧ told.retireReq = false ∧ told.saving = none
    ∧ ((ctxOf (cfgWrite (realm told) 5 0x0300000000000305 0x1234).1 5).all fun z => decide (z.hold = some .page15)) = true := by decide +kernel
theorem test_cfgwr : after (exec (.contextActionAtTile ⟨5, 0⟩ 10 0 (.cfgwr 0x0300000000000305 0x1234)) (realm told)) (fun t z => (partReg t 3 5, z.scalar 10, z.hold)) = some (0x1234, 0, none)
    ∧ after (exec (.contextActionAtTile ⟨5, 0⟩ 10 0 (.cfgrd 0x0300000000000305)) { realm told with parts := [(3 * 8 + 5, 9)] }) (fun t z => decide (z.scalar 10 = partReg t 3 5)) = some true
    ∧ after (exec (.cfgrd 10 4) (realm { configurer with sup := 7 })) (fun _ z => z.state) = some .stopped := by decide +kernel
/-- An instruction of page 15 in a context without the privilege bit. -/
theorem witness_TakingAFault_priv : (part who).issue.ctx = some 5 ∧ ctxOf (part who) 5 = some who ∧ heldBy (part who) 5 who (.topup 1 2 3) = false ∧ (Instr.topup 1 2 3).enc.isSome = true
    ∧ (pageOp (.topup 1 2 3)).1 = 15 ∧ 3 ≤ (pageOp (.topup 1 2 3)).2 ∧ who.priv = false := by decide +kernel

-- Events: accesses at their homes

/-- An outstanding load of D = 1 that waits for one value, and an access of it to the last word of bank 0 of tile 1. -/
def lg : Long := { Long.blank with seq := 1, pc := 0x0FF0, page := 6, d := 1, wr := .scalar, waiting := 1, since := 90 }
def pl : Nat := placeOf 1 0xFFF8
def acc (k : AccKind) : Access :=
  { uid := 1, ctx := 5, seq := 1, ins := 1, kind := k, land := .scalar .d, src := 1, home := 1, place := pl, uaddr := 0x00FF00000020FFF8, part := 0, watched := false, sys := false
    deadline := 9, parkedAt := 0, full := false, rel := false, acq := false, parts := [], comb := none, repair := none, floor := 0 }
def loader : Ctx := { who with longs := [lg], regs := [(1, allLanes 9)] }
/-- That word is empty and holds 0x8877665544332211. -/
def emptied : State := writeDw (setTag (tiled loader) pl false) pl 0x8877665544332211
def line (k : AccKind) : Access := { acc k with place := placeOf 1 0xFFC0 }
theorem witness_AccessesAtHome : (∀ a ∈ [acc (.read 8), acc (.write 8 1 0xFF), line (.read 64), line (.write 64 1 1), line .zline, acc (.put 1), acc (.stf 1), acc .sete, acc .fetag,
      acc (.atom .min 8 1), acc (.cas 8 1 2), { acc (.qwait 9) with place := placeOf 1 0xFFF0 }],
    scratchMeets emptied a = none ∧ proceeds emptied a = true ∧ errIn emptied a.place 64 = false ∧ bytesOfKind a.kind ≤ 64 ∧ (a.kind = .zline → a.place % 64 = 0))
    ∧ (∀ a ∈ [acc .ldf, acc .take], scratchMeets (tiled loader) a = none ∧ proceeds (tiled loader) a = true ∧ errIn (tiled loader) a.place 64 = false)
    ∧ ctxOf emptied 5 = some loader ∧ loader.longs.find? (fun m => m.seq == 1) = some lg := by decide +kernel
theorem witness_AccessesAtHome_unwatched : Unwatched emptied 1 ∧ Unwatched (tiled loader) 1 := ⟨unwatched rfl rfl, unwatched rfl rfl⟩
/-- TAKE of a full word empties it; STF fills it with its value; SMIN of −1 over a negative number keeps the smaller. -/
theorem test_home_tags : after (exec (.accessAtHome (acc .take)) (tiled loader)) (fun t _ => tagAt t pl) = some false
    ∧ after (exec (.accessAtHome (acc (.stf 7))) emptied) (fun t _ => (tagAt t pl, readDw t pl)) = some (true, 7)
    ∧ after (exec (.accessAtHome (acc (.atom .min 8 (-1)))) emptied) (fun t z => (readDw t pl, z.longs.map fun l => scalarOf l.acc)) = some (0x8877665544332211, [0x8877665544332211]) := by
  decide +kernel
/-- A byte in the middle of the word. -/
theorem test_home_write : after (exec (.accessAtHome { acc (.write 1 0xAB 1) with place := pl + 2 }) emptied) (fun t _ => readDw t pl) = some 0x8877665544AB2211
    ∧ after (exec (.accessAtHome { acc (.cas 4 0x44332211 5) with place := pl }) emptied) (fun t _ => readDw t pl) = some 0x8877665500000005 := by decide +kernel

/-- The wait list of tile 1 full; the word's access waiting there. -/
def crowded : State := { emptied with waits := [(1, List.replicate 4096 (acc .take))] }
def waiting : State := { bossed { loader with state := .parked, longs := [lg] } with waits := [(1, [acc .take])] }
theorem witness_WaitingAtHome : (∀ a ∈ [acc .ldf, acc .take], scratchMeets emptied a = none ∧ proceeds emptied a = false ∧ a.deadline ≠ 0)
    ∧ (scratchMeets (tiled loader) (acc (.put 1)) = none ∧ proceeds (tiled loader) (acc (.put 1)) = false)
    ∧ (scratchMeets (tiled loader) (acc (.qwait 1)) = none ∧ proceeds (tiled loader) { acc (.qwait 1) with place := placeOf 1 0 } = false)
    ∧ (FMap.get [] emptied.waits 1).length < 4096 ∧ loader.state = .resident ∧ loader.saving = none ∧ loader.moving = none ∧ lg.parked = none ∧ underRepair emptied 1 = false := by decide +kernel
/-- Limit 0, before a supervisor; and a home under repair, for a context with a fel and for one without. -/
def stuck (x : Ctx) : State := { emptied with ctxs := [(5, { x with sup := 6 }), (6, boss)] }
def atOnce : Access := { acc .take with deadline := 0 }
theorem witness_WaitingAtHome_limit : (scratchMeets (stuck loader) atOnce = none ∧ proceeds (stuck loader) atOnce = false ∧ atOnce.deadline = 0 ∧ underRepair (stuck loader) atOnce.home = false)
    ∧ LoneWait (stuck loader) atOnce { loader with sup := 6 } lg ∧ faultTarget (stuck loader) 5 6 0 = some 6 :=
  ⟨by decide +kernel, ⟨by decide +kernel, rfl, rfl, rfl, rfl, rfl, rfl, Or.inl rfl, by decide +kernel⟩, by decide +kernel⟩
theorem witness_WaitingAtHome_full : 4096 ≤ (FMap.get [] crowded.waits 1).length ∧ scratchMeets crowded (acc .take) = none ∧ proceeds crowded (acc .take) = false :=
  ⟨by show 4096 ≤ (List.replicate 4096 (acc .take)).length; rw [List.length_replicate], by decide +kernel, by decide +kernel⟩
theorem witness_WaitingAtHome_expiry : waitingAt waiting 1 1 = some (acc .take) ∧ waitingAt waiting 1 2 = none ∧ (acc .take).land ≠ .frontEnd
    ∧ LoneWait waiting (acc .take) { loader with state := .parked, longs := [lg], sup := 6 } lg ∧ faultTarget waiting 5 6 0 = some 6 :=
  ⟨by decide +kernel, by decide +kernel, by decide, ⟨by decide +kernel, rfl, rfl, rfl, rfl, rfl, rfl, Or.inr rfl, by decide +kernel⟩, by decide +kernel⟩
/-- A store's home under repair, and one that a load of the page goes to. -/
def mending (fel : Dword) : State := { tiled who with ctxs := [(5, { loader with sup := 6, fel := fel }), (6, boss)], tiles := [(1, 8), (2, 0x88)] }
def abroad : Access := { acc (.read 8) with home := 2, place := 0x10040, uaddr := 0x10040 }
theorem witness_WaitingAtHome_repair : (∀ fel ∈ [(0 : Dword), 500], underRepair (mending fel) abroad.home = true ∧ LoneWait (mending fel) abroad { loader with sup := 6, fel := fel } lg ∧ faultTarget (mending fel) 5 6 0 = some 6)
    ∧ isScratch abroad.place = false ∧ splitAdd abroad = [abroad] ∧ abroad.seq ≠ 0 ∧ abroad.land ≠ .frontEnd ∧ abroad.repair = none ∧ loader.longs.find? (fun m => m.seq == abroad.seq) = some lg := by
  refine ⟨fun fel h => ?_, by decide +kernel⟩
  have : fel = 0 ∨ fel = 500 := by simpa using h
  rcases this with rfl | rfl <;> exact ⟨by decide +kernel, ⟨by decide +kernel, rfl, rfl, rfl, rfl, rfl, rfl, Or.inl rfl, by decide +kernel⟩, by decide +kernel⟩
/-- An access that waited for a repair, listed at a home that is back in service, and one whose home is not. -/
def mended : Access := { abroad with repair := some (40, 10) }
theorem witness_WaitingAtHome_repaired : let s := fun (w : Dword) => { mending 10 with tiles := [(1, 8), (2, w)], agenda := [⟨120, .waitListResend mended⟩] }
    (waitingAt (s 8) 2 mended.uid = some mended ∧ mended.repair.isSome = true ∧ underRepair (s 8) mended.home = false) ∧ underRepair (s 0x88) mended.home = true := by decide +kernel
theorem witness_WaitingAtHome_bank : (isScratch (placeOf 1 0x10000) = true ∧ bankMode emptied 1 (scratchBank (placeOf 1 0x10000)) ≠ .scratch)
    ∧ (let s := { emptied with tiles := [(1, 0x88)] }; underRepair s 1 = true ∧ bankMode s 1 (scratchBank pl) = .scratch) ∧ (acc .take).seq ≠ 0 ∧ (acc .take).land ≠ .frontEnd
    ∧ ctxOf emptied 5 = some loader ∧ loader.longs.find? (fun m => m.seq == (acc .take).seq) = some lg := by decide +kernel
/-- FEWAIT of the LDF's own address (its code is 0x0A) with the word's. -/
theorem test_wait_expiry : after (exec (.feDeadlineExpiry 1 1) waiting) (fun t z => (z.state, z.pc, (mailTo t 6).map fun m => (m.1.toNat % 256, m.2))) = some (.stopped, 0x0FF0, some (10, 0x0FF0))
    ∧ after (exec (.accessAtHome atOnce) (stuck loader)) (fun t z => (z.state, t.waits, (mailTo t 6).map fun m => m.1.toNat % 256)) = some (.stopped, [], some 10) := by
  decide +kernel

-- Outstanding instructions

def done : Ctx := { who with longs := [{ lg with waiting := 0, acc := 77 }] }
def failed : Ctx := { who with sup := 6, longs := [{ lg with waiting := 0, fault := some (flt .fewait 8 0 0) }] }
theorem witness_LongCompletions : (∃ l, ctxOf (part done) 5 = some done ∧ done.longs.find? (fun m => m.seq == l.seq) = some l ∧ l.waiting = 0 ∧ l.ended = false ∧ done.inMem = false ∧ l.fault = none
      ∧ done.park = none ∧ done.saving = none ∧ (∀ m ∈ done.longs, m.ended = false) ∧ l.wr = .scalar ∧ l.d.toNat ≤ 127 ∧ done.holdsSlot = true)
    ∧ ∃ l f, ctxOf (bossed failed) 5 = some failed ∧ failed.longs = [l] ∧ l.waiting = 0 ∧ l.ended = false ∧ l.fault = some f ∧ 0 < l.since ∧ failed.hold = none ∧ failed.state = .resident
      ∧ failed.saving = none ∧ failed.park = none ∧ faultTarget (bossed failed) 5 failed.sup.toNat failed.part ≠ none :=
  ⟨⟨{ lg with waiting := 0, acc := 77 }, rfl, rfl, rfl, rfl, rfl, rfl, rfl, rfl, by decide, rfl, by decide, rfl⟩, { lg with waiting := 0, fault := some (flt .fewait 8 0 0) }, _, rfl, rfl, rfl, rfl, rfl, by decide, rfl, rfl, rfl, rfl, by decide +kernel⟩
theorem test_long : after (exec (.longCompletion 5 1) (part done)) (fun _ z => (z.reg 1, z.longs, z.pc)) = some (77, [], 0x1000)
    ∧ after (exec (.longCompletion 5 1) (bossed failed)) (fun _ z => (z.state, z.pc)) = some (.stopped, 0x0FF0) := by decide +kernel
/-- Two adds of tiles 3 and 2 to one word of tile 1 on their way. -/
def add1 : Access := { acc (.atom .add 8 3) with src := 3, comb := some (.plain, .tile) }
def add2 : Access := { add1 with uid := 2, ctx := 6, seq := 2, ins := 2, src := 2, kind := .atom .add 8 4 }
def meeting : State :=
  { tiled who with agenda := [⟨110, .accessAtHome add1⟩, ⟨120, .accessAtHome add2⟩], ctxs := [(5, { who with tile := 3, longs := [lg] }), (6, { who with tile := 2, longs := [{ lg with seq := 2 }] })] }
def both : Access := { add1 with kind := .atom .add 8 7, parts := [⟨6, 2, 3, 2, 2, 0, none⟩] }
theorem witness_LongCompletions_combine : travelling meeting 1 = some (110, add1) ∧ travelling meeting 2 = some (120, add2) ∧ combinable meeting add1 add2 = true ∧ add2.parts = []
    ∧ (ctxOf meeting 5).isSome = true ∧ (ctxOf meeting 6).isSome = true ∧ both.parts = [⟨6, 2, 3, 2, 2, 0, none⟩] ∧ 6 ≠ both.ctx ∧ both.land = .scalar .d := by decide +kernel
theorem test_combine : after (exec (.atomCombine 1 2) meeting) (fun t _ => t.agenda) = some [⟨120, .accessAtHome both⟩]
    ∧ after (exec (.combinedReplySplit both 10) meeting) (fun t z => (z.longs.map fun l => scalarOf l.acc, (ctxOf t 6).map fun y => y.longs.map fun l => scalarOf l.acc)) = some ([10], some [13]) := by
  decide +kernel
/-- An access of a partition that leaves tile 2 for tile 1, due, and one of the same context that stays on tile 1. -/
def leaving (p : Nat) : Access := { add1 with src := 2, home := 1, place := 2 ^ 48 + 0x200000, part := p }
def onItsWay (p : Nat) (live : FMap Dword) : State := { part who with live := live, agenda := [⟨90, .accessAtHome (leaving p)⟩, ⟨95, .accessAtHome { leaving p with uid := 7, src := 1 }⟩] }
def dueAccess (s : State) : Option Nat := match dueStep s false true with | some (.accessAtHome a, _) => some a.uid | _ => none
/-- Every cycle is partition 0's at reset; the last entry of a frame names partition 1. -/
theorem test_waits_for_day : (dueStep (onItsWay 1 []) false true).isNone = true ∧ dueAccess (onItsWay 0 []) = some 1
    ∧ dueAccess (onItsWay 1 [(95, 0x4000000000000000)]) = some 1 := by decide +kernel
theorem witness_TranslationsAndCalendars_day : (dueStep (onItsWay 0 []) false true).map (·.1) = some (.accessAtHome (leaving 0)) ∧ (leaving 0).src ≠ (leaving 0).home := by decide +kernel

-- Moves and swaps

/-- Context 5 on its way to core 17 of its tile, and one on its way to tile 2. -/
def shifting : Ctx := { who with moving := some 17 }
def wandering : Ctx := { who with state := .inTransit, moving := some 2, predN := 3 }
/-- A core with a queued context of 24 registers and a free slot; the same with its swap begun. -/
def sleeper : Ctx := { who with state := .queued, window := 24, core := 1 }
def ringing : State := { tiled who with ctxs := [(5, who), (7, sleeper)], ready := [(17, [4 * 7 + 3])] }
def swapping' : State := { part who with ctxs := [(5, who), (7, sleeper)], swaps := [(17, some ⟨63, 7⟩)] }
theorem witness_ContextsMove : (ctxOf (part shifting) 5 = some shifting ∧ shifting.moving = some 17 ∧ shifting.state ≠ .inTransit ∧ shifting.retireReq = false ∧ shifting.wdogReq = false ∧ shifting.inMem = false)
    ∧ (ctxOf (part wandering) 5 = some wandering ∧ wandering.moving = some 2 ∧ wandering.state = .inTransit ∧ wandering.inMem = false)
    ∧ (swapChoice ringing 17 = some (0, 7)) ∧ (swapOf swapping' 17 = some ⟨63, 7⟩ ∧ ctxOf swapping' 7 = some sleeper ∧ imageBad swapping' 7 = false) := by decide +kernel
def saved (why : SaveWhy) : Ctx := { who with saving := some why, sup := 6 }
theorem witness_ContextsMove_save : ∀ why ∈ [SaveWhy.yield, .swapOut, .report 7], ctxOf (bossed (saved why)) 5 = some (saved why) ∧ (saved why).saving = some why
    ∧ (∀ j, j < 48 → dwErr (bossed (saved why)) 5 j = false) ∧ (saved why).inMem = false ∧ (saved why).core < 16 ∧ (saved why).moving = none
    ∧ faultTarget (bossed (saved why)) 5 (saved why).sup.toNat (saved why).part ≠ none := by decide +kernel
theorem witness_ContextsMove_parkOut : let x : Ctx := { saved .parkOut with state := .parkedOut, park := some ⟨.waitm, 90, none, 1, 0, 0x0FFE, true⟩ }
    ctxOf (part x) 5 = some x ∧ x.saving = some .parkOut ∧ x.park ≠ none ∧ x.inMem = false ∧ x.core < 16 ∧ x.moving = none := by decide +kernel
/-- A Kennel over its high mark: 108 contexts of 128 registers and more than 128 KiB short of its end; the first of them is Held. -/
def stored : Ctx := { who with state := .held, window := 128 }
def kennelled : State := { part who with ctxs := (5, who) :: (List.range 120).map fun i => (7 + i, stored), kennels := [(1, (List.range 120).map fun i => 7 + i)] }
theorem witness_ContextsMove_kennel : writeBackChoice kennelled 1 = some 7 ∧ ctxOf kennelled 7 = some stored ∧ populated (slotAddr kennelled 0 7) = true
    ∧ populated (slotAddr kennelled 0 7 + 8639) = true := by decide +kernel
/-- Context 7 on the overflow list of tile 1, bound to core 1 at level 3; and a context that waits for the dispatcher. -/
def spilled : State := overflowAdd { part who with ctxs := [(5, who), (7, sleeper)] } 1 7 1 3
def arriving : State := { part who with ctxs := [(5, who), (7, { sleeper with priority := 3 })], arrivals := [(1, [⟨7, false, 3, 100, 0, 0⟩])] }
theorem witness_ContextsMove_rest : (overflowList spilled 1).find? (fun e => e.2.1 == 1) = some (7, 1, 3) ∧ (readyOf spilled 17).length < 256
    ∧ nextArrival arriving 1 = some ⟨7, false, 3, 100, 0, 0⟩ ∧ ctxOf arriving 7 = some { sleeper with priority := 3 } := by decide +kernel
theorem test_moves : after (exec (.coreMoveArrival 5 17) (part shifting)) (fun _ z => (z.state, z.core, z.slot)) = some (.resident, 1, 0)
    ∧ after (exec (.saveComplete 5) (bossed (saved .yield))) (fun _ z => (z.state, z.saving)) = some (.queued, none)
    ∧ after (exec (.saveComplete 5) (bossed (saved .swapOut))) (fun t z => (z.state, kennelOf t 1)) = some (.held, [5]) := by decide +kernel
theorem test_swap : after (exec (.swapComplete 17) swapping') (fun t _ => (swapOf t 17, (ctxOf t 7).map fun z => (z.state, z.slot, z.after))) = some (none, some (.resident, 63, 100))
    ∧ after (exec (.overflowListMove 1 1) spilled) (fun t _ => (readyOf t 17, overflowList t 1)) = some ([4 * 7 + 3], []) := by decide +kernel

-- What stops a context

/-- A chain at the pc that is no instruction: EC00 0123, a page that does not exist. -/
def lost : Ctx := { who with sup := 6, pc := 0, segs := [(0, ⟨0, 0xF80000000000FFFF⟩)] }
def spent (c : Nat) : Ctx := { who with sup := 6, cb := BitVec.ofNat 64 (0x00FF * 2 ^ 48 + 8 * 2 ^ 40 + 2 ^ 32 + c * 2 ^ 16), cbret := 0x2000, regs := [(11, ofLanes fun l => if l = 3 then 0x20000005 else 0x10000005)] }
/-- The chain of halfwords at the beginning of the tile's first scratch bank. -/
def coded (x : Ctx) (ws : Dword) : State := writeDw { tiled x with ctxs := [(5, x), (6, boss)] } (placeOf 1 0) ws
theorem witness_ContextsStop_chain : (match fetchChain (coded lost 0x0123EC00) 5 lost with | .illegal e ws _ => decide (e.code = .illenc) && ws.length == 1 | _ => false) = true
    ∧ faultTarget (coded lost 0x0123EC00) 5 lost.sup.toNat lost.part ≠ none ∧ lost.state = .resident := by decide +kernel
theorem witness_ContextsStop_budget : (part (spent 0)).issue.ctx = some 5 ∧ ctxOf (part (spent 0)) 5 = some (spent 0) ∧ cbArmed (spent 0) = true ∧ bits (spent 0).cb 31 16 = 0 := by decide +kernel
theorem test_candidates : after (exec .candidateBudgetReject (part (spent 0))) (fun _ z => (z.pc, z.pw, lane (z.reg 11) 3, lane (z.reg 11) 0)) = some (0x2000, 0xFFFF_FFFF_FFFF_0000 &&& 0 ||| 0x00FF, 5, 0x10000005) := by
  decide +kernel
theorem witness_ContextsStop_equip : equippedRoom (part who) 1 64 = some 0 ∧ equippedRoom { part who with emptied := [(16, []), (20, []), (24, []), (28, [])] } 1 64 = none := by decide +kernel
def parkedOn (k : ParkKind) : Ctx := { who with state := .parked, sup := 6, park := some ⟨k, 90, some 10, 127, 0, 0x0FFE, true⟩ }
theorem witness_ContextsStop_park : (∀ k ∈ [ParkKind.waitm, .bwait], ctxOf (bossed (parkedOn k)) 5 = some (parkedOn k) ∧ (parkedOn k).park.any (fun p => decide (p.kind = k) && decide (p.arg ≤ 127)) = true
      ∧ (parkedOn k).longs = [] ∧ (parkedOn k).inMem = false ∧ (parkedOn k).state = .parked ∧ (parkedOn k).stopReq = false ∧ faultTarget (bossed (parkedOn k)) 5 (parkedOn k).sup.toNat (parkedOn k).part ≠ none)
    ∧ (part { who with stopReq := true }).issue.ctx = some 5 ∧ who.moving = none := by decide +kernel
def keeping : Ctx := { who with sup := 6, kept := [⟨0x0FF0, 6, 0, flt .memerr 8 0 0⟩] }
theorem witness_ContextsStop_kept : ctxOf (bossed keeping) 5 = some keeping ∧ keeping.kept = [⟨0x0FF0, 6, 0, flt .memerr 8 0 0⟩] ∧ keeping.state = .resident
    ∧ faultTarget (bossed keeping) 5 keeping.sup.toNat keeping.part ≠ none := by decide +kernel
theorem test_stops : after (exec .parkExpiry (bossed (parkedOn .waitm))) (fun _ z => (z.state, z.reg 127)) = some (.resident, 0)
    ∧ after (exec .parkExpiry (bossed (parkedOn .bwait))) (fun _ z => (z.state, z.pc)) = some (.stopped, 0x0FFE)
    ∧ after (exec .keptFaultStop (bossed keeping)) (fun _ z => (z.pc, z.resume, z.kept)) = some (0x0FF0, 0x1001, []) := by decide +kernel

-- Holds

/-- A context held by a traversal of operation op: state group 8, ray group 16, results from 24. -/
def holding (op d a b : Nat) (l : List (Nat × Reg)) : Ctx :=
  { tracer with regs := l ++ [(16, allLanes 0x3F000000), (21, allLanes 0x3F800000)], hold := some .traversal, retry := some ⟨.page, 99, none, op + 16 * d + 4096 * a + 2 ^ 20 * b, 0x1002, 0x1001, true⟩ }
/-- Lane 0 with the item at 0x10000 and a status. -/
def item (st : Nat) : List (Nat × Reg) := [(8, n1 &&& 0 ||| 0x10000), (11, BitVec.ofNat 512 (st * 2 ^ 28))]
def stepping : Ctx := holding 1 8 16 0 []
def testing : Ctx := holding 2 24 8 16 (item 1)
def entering : Ctx := holding 5 8 16 0 (item 2)
theorem witness_HoldsEnd : (stepLanes 5 8 16 ((lanesOf (maskP stepping.pw 0)).filter fun l => !inMask stepping.progress l) (tiled stepping)).2.2 = none
    ∧ okB (triLanes testing 8 16 (lanesOf (maskP testing.pw 0)) (tiled testing)) (fun _ => true) = true
    ∧ (instLanes 5 8 16 (List.range 16) (tiled entering)).2 = none ∧ ∀ x ∈ [stepping, testing, entering], x.hold = some .traversal ∧ x.retireReq = false ∧ x.saving = none := by decide +kernel
/-- Lanes that enter their instances, lie outside p0, are inside one, have a full stack, have no instance candidate, and have one place left. -/
def candidate' (l : Nat) : TLane :=
  ([⟨0x8100000000010000, 1, false, 0, 3, 2⟩, ⟨0x8100000000010000, 1, false, 0, 3, 2⟩, ⟨0x8100000000010000, 1, true, 0, 3, 2⟩, ⟨0x8100000000010000, 64, false, 0, 3, 2⟩, ⟨5, 7, true, 2, 3, 1⟩,
    ⟨0x8100000000010040, 63, false, 9, 3, 2⟩] : List TLane).getD l ⟨0, 0, false, 0, 0, 3⟩
def crossing : State := (List.range 16).foldl (fun s l => putTlane s 5 8 l (candidate' l)) (tiled { holding 5 8 16 0 [] with pw := 0x3D })
def crosser : Ctx := (ctxOf crossing 5).getD who
theorem witness_HoldsEnd_lanes : (instLanes 5 8 16 (List.range 16) crossing).2 = none ∧ ctxOf crossing 5 = some crosser ∧ crosser.hold = some .traversal ∧ crosser.retireReq = false ∧ crosser.saving = none
    ∧ (List.range 16).all (fun l => decide (tlane crosser 8 l = candidate' l)) = true ∧ maskP crosser.pw 0 = 0x3D := by decide +kernel
theorem witness_HoldsEnd_area : Area crossing crosser ∧ Unwatched crossing 1 := ⟨by unfold Area; decide +kernel, unwatched (by decide +kernel) (by decide +kernel)⟩
/-- Lane 5 has entered: its root is the topmost of 64 entries, its instance keeps the item. -/
theorem test_inst_lanes : after (exec (.traversalStepComplete ⟨5, 0⟩) (writeDw crossing 0x10070 77)) (fun t z => ((List.range 6).map fun l => ((tlane z 8 l).status, (tlane z 8 l).sp), readDw t (areaPlace z 5 504), readDw t (areaPlace z 5 576)))
    = some ([(0, 2), (0, 1), (5, 1), (4, 64), (1, 7), (0, 64)], 77, 0x8100000000010040) := by decide +kernel
def flushing : Ctx := { who with hold := some .tlbinv, retry := some ⟨.page, 99, none, 2, 0, 0x1000, true⟩ }
theorem witness_HoldsEnd_tlb : ctxOf (part flushing) 5 = some flushing ∧ flushing.retry = some ⟨.page, 99, none, 2, 0, 0x1000, true⟩
    ∧ (∀ d ∈ (part flushing).agenda, ∀ a, (d.step = .accessAtHome a ∨ d.step = .waitListResend a) → 2 ≤ a.uid)
    ∧ ∃ d ∈ { part flushing with agenda := [⟨101, .accessAtHome (acc .take)⟩] }.agenda, ∃ a, (d.step = .accessAtHome a ∨ d.step = .waitListResend a) ∧ a.uid < 2 :=
  ⟨rfl, rfl, fun _ hd => (List.not_mem_nil hd).elim, ⟨101, .accessAtHome (acc .take)⟩, List.mem_singleton.mpr rfl, acc .take, Or.inl rfl, by decide⟩
def setting : Ctx := { who with hold := some .almanac }
theorem witness_HoldsEnd_almanac : (∀ p ∈ (part setting).ctxs, p.2.hold = some .almanac → p.2.retireReq = false) ∧ ctxOf (part setting) 5 = some setting := ⟨by decide +kernel, rfl⟩
/-- A reference of 0 is malformed: status 5, popped, and the lane goes on in no mask. -/
theorem test_step_end : after (exec (.traversalStepComplete ⟨5, 0⟩) (tiled { stepping with regs := (10, 0x02000000) :: stepping.regs })) (fun _ z => (z.pc, z.pw, lane (z.reg 11) 0, z.hold)) = some (0x1002, 1, 0x50000000, none) := by decide +kernel
theorem test_inst_end : after (exec (.traversalStepComplete ⟨5, 0⟩) (tiled entering)) (fun _ z => (lane (z.reg 10) 0, lane (z.reg 11) 0)) = some (0x03000000, 0) := by decide +kernel

-- Actions

def issuer : Ctx := { who with hold := some .page15, holdD := 10 }
def acting (y : Ctx) : State := { tiled issuer with ctxs := [(5, issuer), (7, y)] }
def targets : List Ctx :=
  [{ who with core := 1 }, { who with core := 1, state := .stopped, grant := [3] }, { who with state := .held }, { who with core := 1, state := .queued },
    { who with core := 1, state := .parked, park := some ⟨.page, 90, none, 0x10FFF, 0, 0x1000, true⟩ }]
theorem witness_ActionsAtTheTile : (ctxOf (acting who) 9 = none ∧ ctxOf (acting who) 5 = some issuer ∧ issuer.hold = some .page15 ∧ issuer.retireReq = false ∧ issuer.saving = none)
    ∧ (∀ y ∈ targets, ctxOf (acting y) 7 = some y ∧ swapping (acting y) 7 = false ∧ y.saving = none ∧ y.inMem = false ∧ y.longs = [] ∧ y.spawner ≠ 5 ∧ underRepair (acting y) y.tile = false ∧ partOf (acting y) y.tile ≠ none ∧ (acting y).agenda = []
      ∧ y.stopReq = false ∧ y.hold = none ∧ y.moving = none)
    ∧ targets.map (·.state) = [.resident, .stopped, .held, .queued, .parked] ∧ targets.map (·.park.isSome) = [false, false, false, false, true]
    ∧ (0x10000 / (4096 * 4 ^ 0) = 0x10FFF / (4096 * 4 ^ 0)) ∧ bits (match ([] : List (Nat × Nat × Nat × Bool))[0]? with | some p => readDw (acting who) p.2.1 | none => 0) 31 24 ≠ who.window
    ∧ ctxOf (acting who) 0 = none := by decide +kernel
/-- A target that the issuer spawned; the head of a ready queue; the front end's context, parked by a page; and an image line of a home under repair. -/
def spawned : Ctx := { who with core := 1, spawner := 5, state := .stopped }
def heading : State := { acting { who with core := 1, state := .queued } with ready := [(17, [4 * 7 + 3])] }
def parkedFront : State := { acting who with flash := [(0x1008, 1), (0x1010, 0x51)], ctxs := [(1, { who with tile := 0 }), (5, issuer)], fePark := some (.page 0x10FFF) }
def mendedImage : State := { acting spawned with tiles := [(1, 8), (2, 0x88)], ctxs := [(5, { issuer with retry := some ⟨.repair, 0, none, 0x1000, 0x1002, 1, true⟩ }), (7, spawned)] }
theorem witness_ActionsAtTheTile_forms : (ctxOf (acting spawned) 7 = some spawned ∧ swapping (acting spawned) 7 = false ∧ spawned.longs = [] ∧ spawned.spawner = 5)
    ∧ (ctxOf heading 0 = none ∧ readyOf heading 17 = [4 * 7 + 3] ∧ (ctxOf heading 7).map (·.state) = some .queued ∧ swapping heading 7 = false ∧ readyOf heading 16 = [])
    ∧ (wakesFrontEnd parkedFront 1 0x10000 0 = true ∧ wakesFrontEnd parkedFront 1 0x20000 0 = false ∧ (ctxOf parkedFront 1).map (·.park.isNone) = some true)
    ∧ (isScratch (0x10000, 0x10040, 2, false).2.1 = false ∧ underRepair mendedImage (0x10000, 0x10040, 2, false).2.2.1 = true ∧ issuer.state = .resident ∧ mendedImage.agenda = []) := by decide +kernel
theorem test_action_forms : after (exec (.contextActionAtTile ⟨5, 0⟩ 10 0 (.rqtake 1 1)) heading) (fun t z => (z.reg 10, (ctxOf t 7).map (·.state))) = some (7, some .held)
    ∧ after (exec (.contextActionAtTile ⟨5, 0⟩ 10 1 (.pgwakeCtx 0x10000 0)) parkedFront) (fun t z => (z.reg 10, t.fePark.isNone)) = some (1, true)
    ∧ after (exec (.contextActionAtTile ⟨5, 0⟩ 10 7 (.ksave [(0x10000, 0x10040, 2, false)])) mendedImage) (fun t z => (z.state, z.pc, t.mem.length)) = some (.parked, 0x1000, 0) := by decide +kernel
theorem witness_ActionsAtTheTile_sends : ∀ e ∈ (acting who).sends, ∀ q, e.2 = some q → q.refused = none := fun e h => by cases h
def acted (y : Ctx) (a : Action) : Option (Reg × Option Ctx) := after (exec (.contextActionAtTile ⟨5, 0⟩ 10 7 a) (acting y)) fun t z => (z.reg 10, ctxOf t 7)
theorem test_actions : (acted { who with core := 1 } (.ctl .stop)).map (fun r => (r.1, r.2.map (·.stopReq))) = some (0, some true)
    ∧ (acted who (.ctl .resume)).map (·.1) = some 2 ∧ (acted { who with state := .held } (.rqput 3 false)).map (fun r => (r.1, r.2.map fun y => (y.state, y.core))) = some (0, some (.queued, 3))
    ∧ (acted { who with state := .stopped } (.ctl .retire)).map (fun r => (r.1, r.2.isNone)) = some (0, true) ∧ (acted who (.topup 7 all1)).map (fun r => r.2.map fun y => (y.ib, y.mb)) = some (some (100007, dw all1)) := by
  decide +kernel

-- Matrix engines

def cmd : Cmd := ⟨1, 5, 0, 0x1000, 1, 7, false, 0x8E3, 36, 0, false, [(0x00FF000000200000, placeOf 1 0), (0x00FF000000200040, placeOf 1 0x40)], [], none⟩
def working (r : Option Cmd) (x : Ctx) (t : Option Accum) : State := { tiled x with engines := [(1, { queue := if r.isNone then [cmd] else [], running := r, started := 92, temp := t })] }
def mmaWait : Ctx := { who with state := .parked, park := some ⟨.mma, 90, none, 0, 0, 0x0FFC, true⟩ }
theorem witness_MatrixSteps : ((engineOf (working none who none) 1).running = none ∧ (engineOf (working none who none) 1).queue.find? (operandsHeld (working none who none)) = some cmd)
    ∧ ((engineOf (working (some cmd) mmaWait none) 1).running = some cmd ∧ ∀ l ∈ cmd.lines, errIn (working (some cmd) mmaWait none) l.2 64 = false)
    ∧ ((engineOf (working (some cmd) mmaWait none) 1).temp = none ∧ ctxOf (working (some cmd) mmaWait none) 5 = some mmaWait ∧ mmaWait.state = .parked ∧ mmaWait.stopReq = false)
    ∧ (ctxOf (working (some { cmd with ctx := 6 }) who none) 6 = none ∧ (engineOf (working (some cmd) who (some Accum.zero)) 1).temp = some Accum.zero ∧ cmd.home < 128 ∧ cmd.blk < 64) := by decide +kernel
theorem witness_MatrixSteps_migrated : let k := { cmd with migrated := true }
    (engineOf (working (some k) who (some Accum.zero)) 1).running = some k ∧ (engineOf (working (some k) who (some Accum.zero)) 1).temp = some Accum.zero := by decide +kernel
theorem witness_MatrixSteps_count : { Accum.zero with count := 0xFFFFFF - 384 }.count + elemsOfRow 0x8E3 ≤ 0xFFFFFF := by decide +kernel
theorem witness_MatrixSteps_fetch : ((engineOf (working none who none) 1).queue ++ (engineOf (working none who none) 1).running.toList).find? (fun c => c.uid == cmd.uid) = some cmd ∧ cmd.bad = none
    ∧ cmd.lines[cmd.data.length / 64]? = some (0x00FF000000200000, placeOf 1 0) ∧ errIn (working none who none) (placeOf 1 0) 64 = false ∧ migrant (working none who none) 1 = some cmd
    ∧ ∀ l ∈ cmd.lines, errIn (working none who none) l.2 64 = false := by decide +kernel
def packet : SumPacket := ⟨5, 1, 6, 0x1000, 15, BitVec.ofNat 21 (2 * 2 ^ 14 + 7 * 2 ^ 8 + 9), Accum.zero, false, 0, 0⟩
def receiving (b : Bool) (tag : BitVec 8) (word : Dword) : State := { tiled who with tiles := [(1, 8), (2, 8 + word)], blocks := [(64 * destTile packet.d + destBlock packet.d, { Block.reset with reserved := b, tag := tag, expected := 1, arrived := 1 })] }
theorem witness_MatrixSteps_packets : underRepair { tiled who with tiles := [(destTile packet.d, 0x88)] } (destTile packet.d) = true
    ∧ (∀ p ∈ [(false, (0 : BitVec 8)), (true, destTag packet.d + 1), (true, destTag packet.d)], underRepair (receiving p.1 p.2 0) (destTile packet.d) = false
      ∧ (blockAt (receiving p.1 p.2 0) (destTile packet.d) (destBlock packet.d)).reserved = p.1 ∧ (blockAt (receiving p.1 p.2 0) (destTile packet.d) (destBlock packet.d)).tag = p.2)
    ∧ packet.back = false ∧ (spillRing (tiled who) ((partOf (tiled who) packet.src).getD 0) packet.src).2 = 0 := by decide +kernel
/-- A spill ring of one record at 0x4000 of tile 1's scratch, empty or full. -/
def spillHead : Nat := 0x00FF000000204000
def spilling (tail : Nat) : State := writeDw { tiled who with spills := [(1, (dw spillHead, 1))] } (placeOf 1 0x4008) (dw tail)
def refusedThere (tail : Nat) : State := setSend (spilling tail) 1 15 (some ⟨packet, some 2, 100, false⟩)
def headSpot (tail : Nat) : Option (Nat × State) := match engineSpot (refusedThere tail) 0 1 spillHead rightsR with | .spot p u => some (p.place, u) | _ => none
theorem witness_MatrixSteps_refusal : (partOf (spilling 0) packet.src).getD 0 = 0 ∧ bits (spillRing (spilling 0) 0 1).1 55 0 = spillHead ∧ (spillRing (spilling 0) 0 1).2.toNat = 1
    ∧ (∀ tail ∈ [0, 1], (headSpot tail).all (fun r => r.1 == placeOf 1 0x4000 && !errIn r.2 r.1 16 && readDw r.2 r.1 == 0 && readDw r.2 (r.1 + 8) == dw tail) = true ∧ (headSpot tail).isSome = true)
    ∧ (headSpot 0).all (fun r => okB (spillSpots 0 1 r.2 ((spillHead + 8) :: (List.range 81).map (spillHead + 64 + 64 * ·))) fun _ => true) = true := by decide +kernel
theorem witness_MatrixSteps_days : (∀ tail ∈ [0, 1], spillDay (refusedThere tail) 1 = true) ∧ spillDay { refusedThere 0 with parts := [(16, 6)], tiles := [(1, 9)], spills := [(129, (0x10000, 1))] } 1 = false := by decide +kernel
/-- The ring is full: the packet stays, with the cycle of its refusal. -/
theorem test_spill : after (exec (.refusalArrival packet 2) (spilling 1)) (fun t _ => (readDw t (placeOf 1 0x4008), (sendAt t 1 15).map (·.since))) = some (1, some 100) := by decide +kernel
theorem test_sum : after (exec (.sumPacketArrival packet) (receiving true (destTag packet.d) 0)) (fun t _ => let b := blockAt t (destTile packet.d) (destBlock packet.d); (b.arrived, b.x)) = some (2, true)
    ∧ after (exec (.refusalArrival packet 2) (tiled who)) (fun t _ => (sendAt t 1 15).map fun e => (e.refused, e.told)) = some (some (some 2, false))
    ∧ after (exec (.acknowledgementArrival 1 15) { tiled who with sends := [(31, some ⟨packet, none, 0, false⟩)] }) (fun t _ => sendAt t 1 15) = some none := by decide +kernel

-- Copies

def copy : Copy := { uid := 1, ctx := 5, part := 0, sup := 0, pc := 0x1000, src := 0x00FF000000200000, dst := 0x00FF000000208000, dstSeg := 0x8000, len := 128, msg := true, tags := true, user := 7
                     k := 255, stream := none, next := 0, flying := 0, unreported := 0, held := none, cancelled := false, ended := false, checking := false }
def flowing (c : Copy) : State := { banked who with copies := [(1, [c])], fifos := [(25, ⟨some (5, 3), []⟩)], barriers := [(511, 128)] }
theorem witness_CopySteps : (checkedCopy (flowing { copy with checking := true }) 5 who = some { copy with checking := true } ∧ ∀ u ∈ [copy.src, copy.dst], badBank (flowing copy) 1 u 128 = none)
    ∧ (copyAt (flowing { copy with stream := some (5, 3) }) 1 1 = some { copy with stream := some (5, 3) } ∧ copy.next < copy.len
      ∧ (match engineSpot (flowing copy) 0 1 copy.src rightsR with | .spot p u => !errIn u p.place 64 | _ => false) = true)
    ∧ (fifoOf (flowing copy) 1 5 3 = some 1 ∧ copyAt (flowing copy) 1 1 = some copy ∧ isScratch (placeOf 1 0x8000) = true ∧ copy.ended = false ∧ who.saving = none) := by
  decide +kernel
/-- A line whose words go to scratch, and words that land in two lines of a page. -/
theorem witness_CopySteps_line : copyAt (flowing copy) 1 1 = some copy ∧ copy.stream = none ∧ copy.src % 8 = 0 ∧ copy.next % 8 = 0 ∧ copy.len % 8 = 0
    ∧ (List.range 8).all (fun i => match engineSpot (flowing copy) 0 1 (copy.dst + 8 * i) rightsW with | .spot q _ => decide (q.place = placeOf 1 (0x8000 + 8 * i)) | _ => false) = true := by decide +kernel
def paged8 : List CopyWord := (List.range 8).map fun i => ⟨0x10068 + 8 * i, 2, dw (i + 1), i % 2 == 0, false, 1, 0⟩
theorem witness_CopySteps_paged : paged8 ≠ [] ∧ 0x10068 % 8 = 0 ∧ (List.range 8).all (fun i => match paged8[i]? with | some w => decide (w.place = 0x10068 + 8 * i) && w.home == 2 | none => false) = true := by decide +kernel
theorem witness_CopySteps_home : Unwatched (flowing copy) 2 := unwatched rfl rfl
theorem test_copy_line : after (exec (.copyLineLand 1 1 64 paged8) (flowing { copy with flying := 2 })) (fun t _ => ((List.range 10).map fun i => ((readDw t (0x10060 + 8 * i)).toNat, tagAt t (0x10060 + 8 * i)), (copyAt t 1 1).map fun c => (c.flying, c.unreported)))
    = some ([(0, true), (1, true), (2, false), (3, true), (4, false), (5, true), (6, false), (7, true), (8, false), (0, true)], some (1, 8)) := by decide +kernel
def landed : Copy := { copy with next := 128, unreported := 8 }
theorem witness_CopySteps_rest : Unwatched (flowing copy) (scratchTile (placeOf 1 0x8000)) ∧ (landed.cancelled = false ∧ landed.len ≤ landed.next ∧ landed.flying = 0 ∧ landed.k < 256 ∧ landed.stream = none ∧ landed.ctx ≠ 0)
    ∧ (∃ c ∈ FMap.get [] (flowing { copy with cancelled := true, flying := 1 }).copies 1, c.ctx = 5 ∧ c.checking = false ∧ c.cancelled = true ∧ c.flying ≠ 0)
    ∧ (∀ c ∈ FMap.get [] (flowing { copy with cancelled := true }).copies 1, c.flying = 0) ∧ landed.ended = false ∧ landed.unreported = 8
    ∧ ∀ e ∈ FMap.get [] (flowing landed).copies 1, e.uid = 1 → e = landed :=
  ⟨unwatched rfl rfl, by decide +kernel, by decide +kernel, by decide +kernel, by decide +kernel, by decide +kernel, by decide +kernel⟩
theorem test_copy_steps : after (exec (.copyLineLand 1 1 0 [⟨placeOf 1 0x8000, 1, 9, false, false, 1, 0⟩]) (flowing copy)) (fun t _ => (readDw t (placeOf 1 0x8000), tagAt t (placeOf 1 0x8000))) = some (9, false)
    ∧ after (exec (.copyLandingReport 1 1 ⟨0, 8, 1⟩) (flowing landed)) (fun t _ => (countOf t 511, (mailTo t 5).map (·.1.toNat % 4096))) = some (64, some 0x400)
    ∧ after (exec (.cpyqComplete 5 3) (flowing { copy with cancelled := true })) (fun t z => (z.reg 0, (copiesOf t 1).length)) = some (3, 0) := by decide +kernel

-- The front end: roles 1 and 5 on tiles 0 and 8, a graph of two nodes in tile 1's scratch

def gAt : Nat := 0x00FF000000200000
def put (s : State) (l : List (Nat × Nat)) : State := l.foldl (fun s w => writeDw s (placeOf 1 w.1) (dw w.2)) s
/-- Node 0 with the doubleword d2 and 20 work items over tile 1; its header at 0x2000 asks for 24 registers, one block, level 3 and core `place` of its tile. -/
def front (d2 : Nat) (policies : Nat) : State :=
  put { tiled who with flash := [(0x1008, 1), (0x1010, 0x51)], parts := [(4, 6), (6, 0x00FFFFFFFFFFFFFF)] }
    [(0, 2), (8, gAt + 0x1000), (16, gAt + 0x1008), (24, policies), (32, 6), (64, gAt + 0x2000), (72, 20 + 50 * 2 ^ 32), (80, d2), (88, 2), (184, gAt + 0x3000), (208, 0xFFFF + 2 ^ 16 + 7 * 2 ^ 32),
     (0x2000, 0x4000), (0x2008, 24 + 3 * 256 + 2 ^ 16 + 2 ^ 24), (0x2010, 1000), (0x2018, 1000), (0x2020, 4 + 10 * 2 ^ 7 + 2 ^ 45), (0x2108, 128), (0x2120, 4), (0x2110, 0xFFFFFFFFFFFF)]
def node0 (q kind opt : Nat) : Nat := 0xFFFF + opt * 2 ^ 23 + q * 2 ^ 28 + kind * 2 ^ 32
def fresh : NodeRun := ⟨.waiting, 0, [], false, false, []⟩
def graph (r : Bool) (n : List NodeRun) : Graph := ⟨gAt, 0, some 0, r, 40, n, 0, 0, 0xFFFF, 0⟩
def running (d2 policies : Nat) (n : NodeRun) : State := { front d2 policies with graphs := [graph true [n, { fresh with status := .completed }]] }
def idle : State := { front (node0 8 0 0) 0 with graphs := [graph false []], wakes := [(0, (dw (3 * 2 ^ 62 + gAt + 0x1000), 0))], rung := [(0, true)] }
def spotIs (s : State) (u : Nat) (r : Rights) (off : Nat) : Bool := decide ((feSpot s u r).map (·.place) = some (placeOf 1 off))
theorem quiet {s : State} (h : s.waits = []) (h2 : s.sends = []) : Quiet s := ⟨h, fun e he => by rw [h2] at he; cases he⟩
/-- The spot of a word, which its home serves, as a check. -/
def servedIs (s : State) (u : Nat) (r : Rights) (off : Nat) : Bool := match feSpot s u r with
  | some p => decide (p.place = placeOf 1 off) && !underRepair s p.home && (!isScratch p.place || decide (bankMode s p.home (scratchBank p.place) = .scratch))
  | none => false
theorem served_of {s : State} {u : Nat} {r : Rights} {off : Nat} (h : servedIs s u r off = true) : ∃ p, feSpot s u r = some p ∧ p.place = placeOf 1 off ∧ Serves s p := by
  unfold servedIs at h
  split at h
  · rename_i p e
    simp only [Bool.and_eq_true, decide_eq_true_eq, Bool.not_eq_true', Bool.or_eq_true] at h
    exact ⟨p, e, h.1.1, h.1.2, fun hs => h.2.resolve_left (by rw [hs]; decide)⟩
  · cases h
theorem witness_GraphRuns_start : (graphAt idle 0 = some (graph false []) ∧ idle.feWait = none ∧ bit (wakeReg idle 0 0).1 62 = true ∧ hasRung idle 0 0 = true ∧ (graphDw idle (graph false []) 1).toNat = gAt + 0x1000
      ∧ tagAt idle (placeOf 1 0x1000) = true ∧ errAt idle (placeOf 1 0x1000) = false ∧ readDw idle (placeOf 1 0x1000) = 0)
    ∧ (∃ p, feSpot idle (gAt + 0x1000) rightsRWS = some p ∧ p.place = placeOf 1 0x1000 ∧ Serves idle p) ∧ Quiet idle := ⟨by decide +kernel, served_of (by decide +kernel), quiet (by decide +kernel) (by decide +kernel)⟩
/-- The trigger word empty; the front end's TAKE waits there past a fel of 50 cycles, or has been performed in cycle 40: its context is that of tile 0's core 0. -/
def unarmed (w : Option FeWait) : State :=
  { setTag idle (placeOf 1 0x1000) false with feWait := w, ctxs := [(1, { who with tile := 0, fel := 50, sup := 6 }), (6, who)] }
def feTake : Access := { acc .take with ctx := 0, seq := 0, land := .frontEnd, place := placeOf 1 0x1000, uaddr := gAt + 0x1000, deadline := 50, parkedAt := 49 }
def feWaiting : State := { unarmed (some ⟨.run 0, none⟩) with waits := [(1, [feTake])] }
theorem witness_GraphRuns_taking : (frontEndId (unarmed none) = 1 ∧ frontEndFel (unarmed none) = 50 ∧ tagAt (unarmed none) (placeOf 1 0x1000) = false ∧ FMap.get [] (unarmed none).waits 1 = []
      ∧ bit (wakeReg (unarmed none) 0 0).1 62 = true ∧ hasRung (unarmed none) 0 0 = true)
    ∧ (∃ p, feSpot (unarmed none) (gAt + 0x1000) rightsRWS = some p ∧ p.place = placeOf 1 0x1000 ∧ Serves (unarmed none) p)
    ∧ (unarmed (some ⟨.run 0, some (0, 40)⟩)).feWait = some ⟨.run 0, some (0, 40)⟩ ∧ Quiet (unarmed (some ⟨.run 0, some (0, 40)⟩)) :=
  ⟨by decide +kernel, served_of (by decide +kernel), rfl, quiet (by decide +kernel) (by decide +kernel)⟩
/-- The trigger word named a patch list: of two pairs at the edges of the record, of a pair beyond it, and of too many. -/
def patching (l : List Nat) : State := put (unarmed (some ⟨.run 0, some (dw (gAt + 0x3100), 40)⟩)) ((List.range l.length).map fun k => (0x3100 + 8 * k, l.getD k 0))
def pairsOf (s : State) : List Nat × Nat := let u := feStore { s with feWait := none } 0 (gAt + 40) 40
  let n := (feRead u (gAt + 0x3100)).toNat % 65536
  ((List.range (min n 3)).map fun j => (feRead u (gAt + 0x3100 + 8 * (1 + 2 * j))).toNat, n)
theorem witness_GraphRuns_patches : pairsOf (patching [2, 0, 77, 15, 88]) = ([0, 15], 2) ∧ pairsOf (patching [1, 16, 88]) = ([16], 1) ∧ (pairsOf (patching [4097])).2 = 4097
    ∧ (∀ l ∈ [[2, 0, 77, 15, 88], [1, 16, 88], [4097]], (patching l).feWait = some ⟨.run 0, some (dw (gAt + 0x3100), 40)⟩ ∧ graphAt (patching l) 0 = some (graph false []) ∧ (patching l).waits = [] ∧ (patching l).sends = []
      ∧ spotIs (patching l) (gAt + 0x1008) rightsRWS 0x1008 = true) := by decide +kernel
theorem test_patches : (match exec (.runStart 0) (patching [2, 0, 77, 15, 88]) with | .next t => decide (readDw t (placeOf 1 128) = 77) && decide (readDw t (placeOf 1 (64 + 128 + 64 + 56)) = 88) && decide ((graphAt t 0).map (fun x => (x.running, x.t0)) = some (true, 40)) | _ => false) = true
    ∧ (match exec (.runStart 0) (patching [1, 16, 88]) with | .next t => decide (readDw t (placeOf 1 0x1008) = 0xFFFF0803) && decide ((graphAt t 0).map (·.running) = some false) | _ => false) = true := by decide +kernel
theorem witness_GraphRuns_expiry : waitingAt feWaiting 1 1 = some feTake ∧ feTake.land = .frontEnd ∧ frontEndId feWaiting = 1 ∧ (ctxOf feWaiting 1).map (·.state) = some .resident ∧ faultTarget feWaiting 1 6 0 = some 6 := by
  decide +kernel
theorem test_fewait : (match exec (.feDeadlineExpiry 1 1) feWaiting with | .next t => (ctxOf t 1).map (·.state) == some .stopped && (mailTo t 6).map (·.1.toNat % 256) == some 10 && decide (t.waits = []) | _ => false) = true
    ∧ (match exec (.runStart 0) (unarmed (some ⟨.run 0, some (0, 40)⟩)) with | .next t => decide ((graphAt t 0).map (fun x => (x.running, x.t0)) = some (true, 40)) | _ => false) = true := by decide +kernel
theorem witness_GraphRuns_nodes : ∀ p ∈ [(8, 0, none), (8, 1, some 7), (8, 2, none), (8, 3, none), (8, 4, none), (15, 5, some 6), (7, 0, none)],
    let s := running (node0 p.1 p.2.1 0) 0 fresh
    let x := graph true [fresh, { fresh with status := .completed }]
    graphAt s 0 = some x ∧ statusOf x 0 = .waiting ∧ nodeAfter s x 0 = none ∧ bit (nodeDw s x 0 2) 22 = false ∧ nodeReason s x 0 = p.2.2 ∧ nodeKind s x 0 = p.2.1 ∧ (nodeDw s x 0 2).toNat / 2 ^ 28 % 16 = p.1
      ∧ nodeWork s x 0 ≠ 0 ∧ (nodeDw s x 0 15).toNat = gAt + 0x3000 ∧ spotIs s (gAt + 0x3000) rightsRWS 0x3000 = true ∧ spotIs s (nodeAddr x 0 + 64 + 8 * p.1) rightsW (128 + 8 * p.1) = true
      ∧ netService s ≠ 0 ∧ s.waits = [] ∧ s.sends = [] := by decide +kernel
theorem witness_GraphRuns_service : (partReg (running (node0 8 4 0) 0 fresh) 0 4).toNat % 2 ^ 32 ≠ 0 := by decide +kernel
/-- Deadline 50 cycles after t0 = 40: late in cycle 100, by each policy of its priority. -/
theorem witness_GraphRuns_late : ∀ p ∈ [(0, 0), (1, 0), (1, 1), (1, 2), (1, 3)], let s := running (node0 8 0 p.1 + 2 ^ 24) p.2 fresh
    let x := graph true [fresh, { fresh with status := .completed }]
    graphAt s 0 = some x ∧ x.nodes[0]? = some fresh ∧ nodeDeadline s x 0 ≠ 0 ∧ x.t0 + nodeDeadline s x 0 ≤ s.cyc ∧ nodeOptional s x 0 = decide (p.1 = 1) ∧ (graphDw s x 3).toNat / 4 ^ (nodePrio s x 0) % 4 = p.2
      ∧ (nodeDw s x 0 2).toNat / 2 ^ 24 % 4 ≠ 0 ∧ spotIs s (nodeAddr x 0 + 16) rightsW 80 = true := by decide +kernel
/-- A node all of whose contexts have retired, beside a node that has completed and beside one that waits. -/
def gone : NodeRun := { fresh with status := .started, placed := 2, live := [7, 8] }
def ending (st : NodeStatus) : State := { front (node0 8 0 0) 0 with graphs := [graph true [gone, { fresh with status := st }]] }
theorem witness_GraphRuns_end : ∀ st ∈ [NodeStatus.completed, .dropped, .rejected, .skipped, .waiting], let x := graph true [gone, { fresh with status := st }]
    graphAt (ending st) 0 = some x ∧ nodeKind (ending st) x 0 = 0 ∧ gone.placed = (nodeWork (ending st) x 0 + 15) / 16 ∧ (∀ id ∈ gone.live, ctxOf (ending st) id = none ∧ (pendingAccesses (ending st)).any (carries · id) = false ∧ acceptPending (ending st) id = false) ∧ (ending st).waits = [] ∧ (ending st).sends = []
      ∧ spotIs (ending st) (graphDw (ending st) x 2).toNat rightsRWS 0x1008 = true := by decide +kernel
def nodeAfterStep (i : Instr) (s : State) (n : Nat) : Option NodeStatus := after (exec i s) fun t _ => ((graphAt t 0).map fun x => statusOf x n).getD .waiting
theorem test_graph : nodeAfterStep (.nodeStart 0 0) (running (node0 8 0 0) 0 fresh) 0 = some .chosen ∧ nodeAfterStep (.nodeStart 0 0) (running (node0 8 5 0) 0 fresh) 0 = some .rejected
    ∧ nodeAfterStep (.nodeLate 0 0) (running (node0 8 0 1) 1 fresh) 0 = some .dropped
    ∧ after (exec (.nodeComplete 0 0) (ending .completed)) (fun t _ => (readDw t (placeOf 1 0x1008), (graphAt t 0).map (·.running))) = some (dw (1 + 0xFFFF * 2 ^ 16), some false) := by decide +kernel
theorem test_run_start : after (exec (.runStart 0) idle) (fun t _ => (tagAt t (placeOf 1 0x1000), (graphAt t 0).map fun x => (x.t0, x.nodes.length))) = some (false, some (100, 2)) := by decide +kernel

-- Contexts of nodes

def chosen : NodeRun := { fresh with status := .chosen, placed := 1 }
def placing : State := running (node0 8 0 0) 0 chosen
theorem witness_NodesAtTheirTiles : let x := graph true [chosen, { fresh with status := .completed }]
    graphAt placing 0 = some x ∧ nodeKind placing x 0 = 0 ∧ chosen.placed < (nodeWork placing x 0 + 15) / 16 ∧ contextTile placing x 0 1 = 1 ∧ partOf placing 1 = some x.part ∧ underRepair placing 1 = false ∧ (newId placing 1).isSome = true
    ∧ (headerDw placing x 0 0 1).toNat / 2 ^ 16 % 128 ≤ (freeBlocksOf placing 1).length ∧ widthOf (headerDw placing x 0 0 4) 2 = 0 ∧ placing.waits = [] := by decide +kernel
/-- Two stages from place 14 of the snake. -/
def pipe : Nat := node0 8 1 0 + 2 * 2 ^ 35 + 14 * 2 ^ 40
def piped : State := running pipe 0 { chosen with placed := 0 }
theorem witness_NodesAtTheirTiles_pipe : let x := graph true [{ chosen with placed := 0 }, { fresh with status := .completed }]
    graphAt piped 0 = some x ∧ nodeKind piped x 0 = 1 ∧ (nodeDw piped x 0 2).toNat / 2 ^ 35 % 32 = 2 ∧ (nodeDw piped x 0 2).toNat / 2 ^ 40 % 16 = 14 ∧ (nodeTiles piped x 0).headD 0 = 1 ∧ partOf piped 1 = some x.part ∧ underRepair piped 1 = false
    ∧ ((List.range 2).map fun k => (headerDw piped x 0 k 1).toNat / 2 ^ 16 % 128).sum ≤ (freeBlocksOf piped 1).length
    ∧ ∀ k, k < 2 → let core := 16 * 1 + snake.getD (14 + k) 0; coreBound piped core = false ∧ coreHasRoom piped core ((headerDw piped x 0 k 1).toNat % 256) = true ∧ (readyOf piped core).length < 256 := by decide +kernel
theorem witness_NodesAtTheirTiles_room : 2 ≤ freeContexts piped 1 ∧ ∀ k, FMap.get 0 piped.gens k ≤ 4095 := ⟨by decide +kernel, fun _ => Nat.zero_le _⟩
def bound : NodeRun := { fresh with status := .started, bound := [28, 29] }
def unbinding (l : List Nat) : State := running pipe 0 { bound with bound := l }
theorem witness_NodesAtTheirTiles_release : (∀ id ∈ bound.live, ctxOf (unbinding [28]) id = none ∧ (pendingAccesses (unbinding [28])).any (carries · id) = false ∧ acceptPending (unbinding [28]) id = false) ∧ bound.bound = [28] ++ [29] ∧ peerCore 29 (match (List.range 4).find? fun p => peerCore 29 p == some 28 with | some p => p | none => 4) = some 28
    ∧ (graphAt (unbinding [28]) 0).isSome = true ∧ (unbinding [28]).waits = [] ∧ (unbinding [28]).sends = [] := by decide +kernel
theorem test_release : nodeAfterStep (.bindingRelease 0 0) (unbinding [28]) 0 = some .completed ∧ nodeAfterStep (.bindingRelease 0 0) (unbinding [28, 29]) 0 = some .started := by decide +kernel
theorem test_placement : after (exec (.contextPlacement 0 0) placing) (fun t _ => (ctxOf t (2 ^ 25 + 1)).map fun c => (c.state, c.window, c.pc)) = some (some (.queued, 24, 0x4000))
    ∧ after (exec (.contextPlacement 0 0) placing) (fun t _ => (ctxOf t (2 ^ 25 + 1)).map fun c => (c.wid, c.pw, c.grant)) = some (some (16, 0xF, [0])) := by decide +kernel

-- Uploads and queues

def uploading (policies : Nat) : State := front (node0 8 0 0) policies
theorem witness_QueuesAndUploads : let s := uploading 0x1B
    let x := fun (addr : Nat) => { graph false [] with addr := addr, reg := none, t0 := 0 }
    let r := uploading (gAt + 0x1008)
    ((graphDw s (x gAt) 0).toNat % 4096 = 2 ∧ gAt % 64 = 0 ∧ (graphDw s (x gAt) 1).toNat = gAt + 0x1000 ∧ (graphDw s (x gAt) 2).toNat = gAt + 0x1008 ∧ (partReg s 0 5).toNat ≤ gAt
      ∧ gAt + 64 + 128 * 2 - 1 ≤ (partReg s 0 6).toNat ∧ spotIs s (gAt + 0x1000) rightsRWS 0x1000 = true ∧ spotIs s (gAt + 0x1008) rightsRWS 0x1008 = true ∧ freeWake s 0 = some 1 ∧ bit (wakeReg s 0 1).1 63 = false
      ∧ (graphDw s (x gAt) 0).toNat < 4096 ∧ (graphDw s (x gAt) 3).toNat < 256 ∧ (graphDw s (x gAt) 4).toNat < 2 ^ 32 ∧ graphDw s (x gAt) 6 = 0 ∧ graphDw s (x gAt) 7 = 0)
    ∧ (gAt + 8) % 64 ≠ 0 ∧ (graphDw r (x (gAt + 8)) 2).toNat = gAt + 0x1008 ∧ s.waits = [] ∧ s.sends = [] ∧ s.feWait = none ∧ uploadWord s 0 = none ∧ uploadWord r 0 = none := by decide +kernel
/-- The address of that record in the upload doorbell, its latch set; and every register mapped to a doorbell that has rung. -/
def doorbell : State := { put (uploading (gAt + 0x1008)) [(0x3000, gAt + 8)] with wakes := [(0, (dw (3 * 2 ^ 62 + gAt + 0x3000), 0))], uploadBell := [(0, some (gAt + 0x3000))] }
def taken : State := { uploading 0 with wakes := (List.range 64).map fun k => (k, (dw (3 * 2 ^ 62), 0)) }
theorem witness_QueuesAndUploads_doorbell : uploadWord doorbell 0 = some (0, gAt + 8) ∧ servedIs doorbell ((wakeReg doorbell 0 0).1.toNat % 2 ^ 56) rightsRWS 0x3000 = true
    ∧ errAt doorbell (placeOf 1 0x3000) = false ∧ tagAt doorbell (placeOf 1 0x3000) = true ∧ doorbell.waits = [] ∧ doorbell.sends = [] ∧ freeWake doorbell 0 = some 1 ∧ freeWake taken 0 = none := by decide +kernel
def descr (full : Bool) : State := { setTag (uploading 0) (placeOf 1 0x3000) full with ctxs := [(1, { who with tile := 0, fel := 50 }), (5, who)] }
def mapped : State := { uploading 0 with wakes := [(63, (dw (3 * 2 ^ 62 + gAt + 0x1000), dw (gAt + 0x3000)))] }
/-- A malformed record is answered where every register is mapped. -/
theorem test_upload_rejected : (match exec (.graphUpload 0 (gAt + 8)) { uploading (gAt + 0x1008) with wakes := taken.wakes } with
    | .next t => decide (t.graphs = []) && tagAt t (placeOf 1 0x1008) && bit (readDw t (placeOf 1 0x1008)) 1 | _ => false) = true := by decide +kernel
theorem witness_QueuesAndUploads_queues : (∀ b, servedIs (descr b) (gAt + 0x3000) rightsRWS 0x3000 = true ∧ (descr b).feWait = none ∧ frontEndFel (descr b) = 50 ∧ tagAt (descr b) (placeOf 1 0x3000) = b ∧ errAt (descr b) (placeOf 1 0x3000) = false ∧ FMap.wf (0, 0) (descr b).wakes = true
      ∧ bit (wakeReg (descr b) 0 63).1 63 = false ∧ (descr b).waits = [] ∧ (descr b).sends = []
      ∧ spotIs (descr b) (gAt + 0x1000) rightsRS 0x1000 = true)
    ∧ bit (wakeReg mapped 0 63).1 63 = true ∧ isTrigger mapped 0 63 = false ∧ isTrigger { idle with wakes := idle.wakes } 0 0 = true ∧ spotIs mapped ((wakeReg mapped 0 63).2.toNat % 2 ^ 56) rightsRWS 0x3000 = true := by decide +kernel
theorem test_queues : after (exec (.queueMap 0 63 (gAt + 0x1000) (gAt + 0x3000)) (descr true)) (fun t _ => (tagAt t (placeOf 1 0x3000), readDw t (placeOf 1 0x3000), (wakeReg t 0 63).1)) = some (false, 2 + 4 * 63, dw (3 * 2 ^ 62 + gAt + 0x1000))
    ∧ after (exec (.queueUnmap 0 63) mapped) (fun t _ => (readDw t (placeOf 1 0x3000), wakeReg t 0 63)) = some (1, (dw (gAt + 0x1000), dw (gAt + 0x3000)))
    ∧ after (exec (.graphUpload 0 gAt) (uploading 0)) (fun t _ => (t.graphs.length, tagAt t (placeOf 1 0x1000))) = some (1, false) := by decide +kernel

-- Messages and soft errors

def full2 (n : Nat) : Ctx := { who with sup := 6, inbox := List.replicate n ⟨0, true⟩ }
theorem witness_MessagesAndSoftErrors : ((full2 255).inbox.filter fun e => e.sent).length < 256 ∧ 256 ≤ ((full2 256).inbox.filter fun e => e.sent).length ∧ (full2 256).sup ≠ 0
    ∧ ctxOf (part (full2 256)) 5 = some (full2 256) ∧ ctxOf (part who) 6 = none ∧ (dword 0x19 0).toNat % 256 ≠ 0 ∧ 0x19 < (dword 0x1A 0).toNat % 256
    ∧ (∀ p ∈ [0, 0x3000000000 - 8, placeOf 127 0x17FFF8], placeOk p = true) ∧ 63 < who.window ∧ who.inMem = false ∧ (∃ p, some 1 = some p ∧ p ≠ who.part) ∧ ∀ p, some 0 = some p → p = who.part := by
  refine ⟨by decide +kernel, by decide +kernel, by decide +kernel, by decide +kernel, by decide +kernel, by decide +kernel, by decide +kernel, by decide +kernel, by decide, rfl, ⟨1, rfl, by decide⟩, fun p h => ?_⟩
  cases h; rfl
theorem test_messages : after (exec (.messageArrival 5 7 (.send 9 (some 0) 1 0)) (part who)) (fun _ z => z.inbox) = some [⟨7, true⟩] ∧ after (exec (.messageArrival 5 7 (.send 9 (some 1) 1 0)) (part who)) (fun _ z => z.inbox) = some []
    ∧ after (exec (.softError (.reg 5 63 7) false) (part who)) (fun t _ => (counterAt t 1 1, dwErr t 5 (48 + 8 * 63 + 7))) = some (1, true) := by decide +kernel

-- Links and devices

/-- Port 0 with rate 1: entry 1 names the destination at 0x4000 of tile 1's scratch, a context, and a bounce ring of two records at 0x5000. -/
def linked (id tail len : Nat) : State :=
  put { tiled who with ethTable := [(8, dw (2 ^ 63 + gAt + 0x4000)), (9, dw id), (10, 16), (12, dw (gAt + 0x5000)), (13, 2)], ethPorts := [(1, dw (gAt + 0x7000)), (2, 1), (3, 1), (4, 1)] }
    [(0x5008, tail), (0x7040, gAt + 0x4000), (0x7048, len)]
def frame : List Byte := [1, 2, 3, 4, 0, 0, 0, 0]
theorem witness_LinksAndDevices : (∀ id ∈ [5, 9], let s := linked id 0 64
      s.standby = false ∧ ((frame.take 4).getD ((ethReg s 0 0).toNat % 16384) 0).toNat = 1 ∧ ethReg s 0 4 ≠ 0 ∧ bit (ethEntry s 0 1 0) 63 = true ∧ 4 ≤ (ethEntry s 0 1 2).toNat % 16384 ∧ (ethReg s 0 0).toNat % 16384 + 1 ≤ 4
        ∧ (ethEntry s 0 1 1).toNat % 2 ^ 32 = id) ∧ ctxOf (linked 5 0 64) 5 = some who ∧ who.state = .resident ∧ ctxOf (linked 9 0 64) 9 = none
    ∧ (∀ tail ∈ [0, 1, 2], portDw (linked 9 tail 64) 208 (gAt + 0x5000) = some 0 ∧ portDw (linked 9 tail 64) 208 (gAt + 0x5008) = some (dw tail))
    ∧ ethReg (tiled who) 0 4 = 0 ∧ bit (ethEntry (linked 5 0 64) 0 2 0) 63 = false := by decide +kernel
theorem witness_LinksAndDevices_ring : ∀ tail ∈ [0, 1], let s := linked 9 tail 64
    ((portPut s 208 (gAt + 0x5000 + 64 + 10304 * (tail % 2)) (dwBytes [0x600, 9, dw (gAt + 0x4000), 4, 0, dw s.cyc, 0, 0] ++ frame.take 4)).bind fun s1 => portPut s1 208 (gAt + 0x5008) (bytesLE 8 (dw tail + 1).toNat)).isSome = true := by
  decide +kernel
theorem witness_LinksAndDevices_transmit : (∀ len ∈ [1, 10240, 0, 10241], let s := linked 5 0 len
      portDw s 208 (gAt + 0x7000) = some 0 ∧ ((0 : Dword)).toNat < (ethReg s 0 3).toNat ∧ portDw s 208 (gAt + 0x7040) = some (dw (gAt + 0x4000)) ∧ portDw s 208 (gAt + 0x7048) = some (dw len)
        ∧ (portPut (setEthReg s 0 6 (ethReg s 0 6 + 1)) 208 (gAt + 0x7000) (bytesLE 8 1)).isSome = true)
    ∧ (∀ len ∈ [1, 10240], let s := linked 5 0 len; ((portGet s 208 (gAt + 0x4000) len).bind fun bs => portPut { s with sentFrames := FMap.set [] s.sentFrames 0 (bs ++ Config.fcsBytes bs) } 208 (gAt + 0x7000) (bytesLE 8 1)).isSome = true) ∧ ((ethReg (setEthReg (linked 5 0 64) 0 3 0) 0 3).toNat ≤ ((0 : Dword)).toNat) := by decide +kernel
/-- In standby, with pattern 0 on that takes any frame, and with none, on port 1. -/
def asleep (v : List (Nat × Dword)) : State := { part who with standby := true, vigil := v }
theorem witness_LinksAndDevices_vigil : (∃ v, (asleep v).standby = true ∧ (if bit (vigilControl (asleep v)) 16 then 1 else 0) = 1 ∧ (asleep v).restoring = false ∧ bit (vigilControl (asleep v)) 0 = true
      ∧ ∀ i, i < 128 → ((frame.take 4).getD i 0) &&& vigilByte (asleep v) 0 0 i = vigilByte (asleep v) 0 16 i &&& vigilByte (asleep v) 0 0 i)
    ∧ (if bit (vigilControl (asleep [])) 16 then 1 else 0) ≠ 1 ∧ ∀ k, k < 16 → bit (vigilControl (asleep [])) k = false := ⟨⟨[(1024, 0x10001)], by decide +kernel⟩, by decide +kernel, by decide +kernel⟩
/-- Tables that map the first 256 MiB onto themselves, and a window of the PCIe port over them. -/
def device : State :=
  [(0x20000, 2 ^ 63 + 0x21000), (0x21000, 2 ^ 63 + 0x22000), (0x22000, 2 ^ 63 + 0x23000), (0x23000, 2 ^ 63 + 2 ^ 62 + 8 * 2 ^ 56 + 7)].foldl (fun s w => writeDw s w.1 (dw w.2))
    { tiled who with parts := [(0, 0x20000)], windows := [(8 * 210, (0xF000000000000000, 0xFFFFF000))], msi := [(63, 5)] }
theorem witness_LinksAndDevices_dma : regionOf 0x40000 = .paged ∧ portSpot device 210 0x100000000 rightsW = none ∧ (portSpot device 210 0x40000 rightsW).map (·.place) = some 0x40000 ∧ device.waits = [] ∧ device.sends = []
    ∧ (FMap.get 0 device.msi ((63 : Lane).toNat % 64)).toNat ≠ 0 := by decide +kernel
def blanking (w : List (Nat × Nat)) : State := { running (node0 8 2 0) 0 { fresh with status := .started } with heads := [(1, { Head.reset with pending := some 0x5000, waiters := w })] }
theorem witness_LinksAndDevices_heads : (headAt (blanking []) 1).pending = some 0x5000 ∧ (headAt (blanking []) 1).waiters = [] ∧ (headAt (blanking [(0, 0)]) 1).waiters = [(0, 0)]
    ∧ (graphAt (blanking []) 0).all (fun x => decide (0 < x.nodes.length)) = true ∧ (blanking []).waits = [] ∧ (blanking []).sends = [] ∧ ({ part who with heldFrame := some (1, frame) } : State).heldFrame = some (1, frame) := by decide +kernel
theorem test_devices : after (exec (.deviceDma true 0x40000 (bytesLE 8 0x1122)) device) (fun t _ => readDw t 0x40000) = some 0x1122 ∧ after (exec (.msiWrite 63) device) (fun t _ => (mailTo t 5).map (·.2)) = some (some 63)
    ∧ after (exec (.verticalBlank 1) (blanking [])) (fun t _ => ((headAt t 1).surface, (headAt t 1).pending)) = some (0x5000, none)
    ∧ nodeAfterStep (.verticalBlank 1) (blanking [(0, 0)]) 0 = some .completed := by decide +kernel
theorem test_frames : after (exec (.frameReceive 0 frame) (tiled who)) (fun t _ => ethReg t 0 5) = some 0
    ∧ after (exec (.transmitFrame 0) (linked 5 0 0)) (fun t _ => (ethReg t 0 6, readDw t (placeOf 1 0x7000))) = some (1, 1) := by decide +kernel

-- Boot, heat and power

/-- The repair map of 34_platform_notes, and a physical tile of row 5 that fails its self-test. -/
def fused (map : List (Nat × Nat)) : State := { State.reset with repairMap := map, findings := ⟨[9 * 5 + 2], [], true⟩ }
/-- 34_platform_notes: tile 42 is under repair and the rows are good; with column 2 unused every tile passes. -/
theorem test_discovery : ((List.range 128).filter (failedTest (fused [(1, 3), (2, 0), (5, 6)])) = [42])
    ∧ (List.range 16).all (rowGood (fused [(1, 3), (2, 0), (5, 6)])) = true ∧ (List.range 128).filter (failedTest (fused [(5, 2)])) = []
    ∧ rowGood { State.reset with findings := ⟨[], [9 * 15 + 8], true⟩ } 15 = false := by decide +kernel

theorem witness_BootHeatAndPower : State.reset.phase = .reset ∧ State.reset.ctxs = [] ∧ State.reset.gens = [] ∧ (∀ t ∈ [1760, 1759, 1600], 1760 ≤ ({ part who with temp := t } : State).temp ∨ ({ part who with temp := t } : State).temp < 1760)
    ∧ (partReg { part who with temp := 1600, parts := [(2, 6)] } 0 2).toNat % 2 ^ 32 ≠ 0 := by decide +kernel
/-- With no good part of a row, boot fails with a code of its own, and the next sample is on its way. -/
theorem test_boot_fails : (bootCode State.reset).isSome = true ∧ (match exec .boot State.reset with | .next t => decide (t.agenda = [⟨1900000, .thermalSample⟩]) && decide (t.pins ≠ 0) | _ => false) = true := by decide +kernel
def quoting : State := { tiled who with quote := some (gAt, 5) }
theorem witness_BootHeatAndPower_quote : quoting.quote = some (gAt, 5) ∧ (portGet quoting 213 gAt 32).isSome = true ∧ (portSpots quoting 213 (gAt + 64) ((32 + 64 + 8 + 64 + 29792) / 8) rightsW).isSome = true := by decide +kernel
theorem test_power : after (exec .modulePowerLoss (tiled who)) (fun t _ => t.phase) = none ∧ (match exec .modulePowerLoss { tiled who with flash := [(3, 4)] } with | .next t => decide (t.phase = .off) && decide (t.mem = []) && decide (t.flash = [(3, 4)]) | _ => false) = true := by
  decide +kernel
theorem test_heat : (match exec .thermalSample { part who with temp := 1760 } with | .next t => decide (t.phase = .reset) && decide (FMap.get [] t.faultLog 0 = [1, 100]) | _ => false) = true
    ∧ after (exec .thermalSample { part who with temp := 1600 }) (fun t _ => t.alertFrom) = some 190000100 ∧ after (exec .thermalSample { part who with temp := 1599 }) (fun t _ => t.alertFrom) = some 0 := by decide +kernel

-- Frames, faults and charges

theorem witness_RegisterAndMemoryFrames : (∀ i ∈ [Instr.add 1 2 3, .div 0 1 2 3, .bop .clz 1 2, .vadd v0 1 2 3, .vfsqrt 0 ⟨.fp32, false, .rne⟩ 1 2], registersOnly i = true ∧ ∃ y, Begins (part who) i 5 who (costOf i) 0 y) ∧ ∀ rm, fmtFault who.rnd rm = none :=
  ⟨fun i hi => ⟨(by decide +kernel : ∀ i ∈ [Instr.add 1 2 3, .div 0 1 2 3, .bop .clz 1 2, .vadd v0 1 2 3, .vfsqrt 0 ⟨.fp32, false, .rne⟩ 1 2], registersOnly i = true) i hi,
    begins_all (f := id) (ci := costOf) (cm := fun _ => 0) (by decide +kernel) i hi⟩, fun rm => by cases rm <;> decide +kernel⟩
theorem witness_RegisterAndMemoryFrames_stores : Clear (tiled far) (.st { m0 with ty := .uh } 4 2 2) 5 far ∧ far.inMem = false
    ∧ after (exec (.st { m0 with ty := .uh } 4 2 2) (tiled far)) (fun _ z => z.state) = some .resident := ⟨clear_of (by decide +kernel), rfl, by decide +kernel⟩
theorem witness_TakingAFault : let x : Ctx := { who with sup := 6 }
    ctxOf (bossed who) 5 = some x ∧ x.state = .resident ∧ bit (flt .prot 0 0 0).dw5 0 = false ∧ faultTarget (bossed who) 5 x.sup.toNat x.part = some 6 := by decide +kernel
/-- A context with nothing left: without a continuation, with one, and in grace with nothing left of that. -/
def empty (yc : Dword) (g : Bool) : Ctx := { poor 0 with yc := yc, ypc := 0x3000, graceOn := g }
def empties : List Ctx := [empty 0 false, empty 0 true, empty 0x2000 false, empty 0x2000 true]
theorem witness_Exhaustion : ∀ x ∈ empties, Clear (part x) (.add 1 2 3) 5 x ∧ (issued (part x) (.add 1 2 3) x).pays 1 0 = none := by
  have h : (empties.all fun x => clearB (part x) (.add 1 2 3) 5 x && ((issued (part x) (.add 1 2 3) x).pays 1 0).isNone) = true := by decide +kernel
  intro x hx
  have := List.all_eq_true.mp h x hx
  rw [Bool.and_eq_true, Option.isNone_iff_eq_none] at this
  exact ⟨clear_of this.1, this.2⟩
theorem witness_Exhaustion_cost : registersOnly (.add 1 2 3) = true ∧ costOf (.add 1 2 3) = 1 ∧ fmtFault (empty 0 true).rnd .dyn = none := by decide +kernel
theorem test_grace : after (exec (.add 1 2 3) (part (empty 0x2000 false))) (fun _ z => (z.pc, z.ypc, z.graceOn, z.graceI, z.graceM)) = some (0x2000, 0x1000, true, 1024, 65536)
    ∧ after (exec (.add 1 2 3) (part (empty 0x2000 true))) (fun _ z => (z.pc, z.graceOn, z.saving.isSome)) = some (0x1000, false, true) := by decide +kernel

-- Encoding, fetch and step

theorem witness_DecodeOfEncode : (Instr.ld 3 ⟨.sw, .pred, .acq, .tile⟩ 20 33 100).wf = true ∧ encode (.ld 3 ⟨.sw, .pred, .acq, .tile⟩ 20 33 100) = some [0xE063, 0xE68A, 0xF120, 0xE806, 0x0414] := by decide +kernel
/-- SUB 0x13 0x24 5 at the beginning of scratch, in slot 36 of its core in cycle 100. -/
def fetching : Ctx := { lost with slot := 36 }
def ready : State := { tiled fetching with mem := (coded fetching 0x1345F120).mem }
theorem witness_FetchedChains : decodeHalves [0xF120, 0x1345] = .ok (.sub 0x13 0x24 5, [(0xF120 : Half), 0x1345].length) ∧ fetchHalf ready 5 fetching (fetching.pc + BitVec.ofNat 64 (2 * 0)) = .ok (0xF120, ready)
    ∧ fetchHalf ready 5 fetching (fetching.pc + BitVec.ofNat 64 (2 * 1)) = .ok (0x1345, ready) := ⟨by decide +kernel, ok_eq (by decide +kernel), ok_eq (by decide +kernel)⟩
theorem witness_StepRunsDecoded : Selecting ready ∧ (5, fetching) ∈ ready.ctxs ∧ inRotation ready fetching = true ∧ fetching.slot = ready.cyc % 64 ∧ ((partOf ready (fetching.at_ / 16)).isSome = true ∧ (Instr.sub 0x13 0x24 5).enc.isSome = true) ∧ ready.issued.contains fetching.at_ = false ∧ (∀ p ∈ ready.ctxs, p.2.holdsSlot = true → p = (5, fetching))
    ∧ fetchChain ready 5 fetching = .instr (.sub 0x13 0x24 5) [0xF120, 0x1345] ready ∧ heldBy ready 5 fetching (.sub 0x13 0x24 5) = false ∧ issueCheck (.sub 0x13 0x24 5) fetching = none ∧ fetching.stopReq = false ∧ fetching.kept = []
    ∧ blockOf (.sub 0x13 0x24 5) = none ∧ wantsEquipped (.sub 0x13 0x24 5) fetching = false ∧ cbArmed fetching = false ∧ bouncedFor ready 5 fetching = []
    ∧ issueRank (selectRow ready fetching (.sub 0x13 0x24 5)) ≠ 2 ∧ comesBack fetching = false ∧ ready.restored = none ∧ topupFirst ready 5 (.sub 0x13 0x24 5) = none :=
  ⟨⟨rfl, rfl, by decide +kernel, by decide +kernel, by decide +kernel, by decide +kernel, by decide +kernel, by decide +kernel, by decide +kernel, fun _ => by decide +kernel⟩, by decide +kernel, by decide +kernel, by decide +kernel, by decide +kernel, by decide +kernel, by decide +kernel, by decide +kernel, by decide +kernel, by decide +kernel, rfl, rfl,
    by decide +kernel, by decide +kernel, by decide +kernel, by decide +kernel, by decide +kernel, by decide +kernel, rfl, by decide +kernel⟩
theorem test_step : after (step ready) (fun t z => (z.pc, z.reg 0x13, t.issued)) = some (4, 0, [16]) := by decide +kernel
theorem canonical_ready : Canonical ready := ⟨by decide +kernel, fun _ => Nat.zero_le _⟩
theorem witness_StepKeepsCanonical : ∃ t, Canonical ready ∧ step ready = .next t ∧ (ctxOf ready 5).isSome = true ∧ (ctxOf t 5).isSome = true := by
  have h : (match step ready with | .next t => (ctxOf t 5).isSome | _ => false) = true := by decide +kernel
  split at h
  · exact ⟨_, canonical_ready, by assumption, by decide +kernel, h⟩
  · cases h


end Sys2Proof.Tests
end

/-! The state at reset and the layout of the scratch apertures (R21). -/

namespace Sys2Proof.Proofs
open Sys2Proof.Machine

-- The aperture of a tile: an address or a place in it divides into the tile and the offset

theorem aperture_div (t off : Nat) (hoff : off < 0x200000) : (t * 0x200000 + off) / 0x200000 = t := by omega
theorem aperture_mod (t off : Nat) (hoff : off < 0x200000) : (t * 0x200000 + off) % 0x200000 = off := by omega

theorem placeOf_sub_scratchPlace (t off : Nat) : placeOf t off - scratchPlace = t * 0x200000 + off := by
  rw [placeOf, Nat.add_assoc, Nat.add_sub_cancel_left]

/-- The tile of a place is the one whose aperture the offset was taken in. -/
theorem scratchTile_placeOf (t off : Nat) (hoff : off < 0x200000) : scratchTile (placeOf t off) = t := by
  rw [scratchTile, placeOf_sub_scratchPlace, aperture_div t off hoff]

/-- A bank holds 64 KiB of the offsets of an aperture. -/
theorem scratchBank_placeOf (t off : Nat) (hoff : off < 0x200000) : scratchBank (placeOf t off) = off / 0x10000 := by
  rw [scratchBank, placeOf_sub_scratchPlace, aperture_mod t off hoff]

/-- What a unified address in the aperture of a tile selects: one of the 24 banks below 0x18_0000, none from there on. -/
theorem regionOf_aperture (t off : Nat) (ht : t < 128) (hoff : off < 0x200000) :
    regionOf (0x00FF000000000000 + t * 0x200000 + off) = if off < 0x180000 then .scratch t off else .hole := by
  have hbase : ¬ 0x00FF000000000000 + (t * 0x200000 + off) < 0x00FF000000000000 := by omega
  have hend : t * 0x200000 + off < 0x10000000 := by omega
  rw [Nat.add_assoc, regionOf, if_neg hbase]
  simp only [Nat.add_sub_cancel_left, if_pos hend, aperture_div t off hoff, aperture_mod t off hoff]

theorem regionOf_bank (t off : Nat) (ht : t < 128) (hoff : off < 0x180000) :
    regionOf (0x00FF000000000000 + t * 0x200000 + off) = .scratch t off := by
  rw [regionOf_aperture t off ht (by omega), if_pos hoff]

theorem regionOf_hole (t off : Nat) (ht : t < 128) (hlow : 0x180000 ≤ off) (hhigh : off < 0x200000) :
    regionOf (0x00FF000000000000 + t * 0x200000 + off) = .hole := by
  rw [regionOf_aperture t off ht hhigh, if_neg (Nat.not_lt.mpr hlow)]

-- The part at reset: every map is empty, so what is read is the default

@[simp] theorem bankMode_reset (t b : Nat) : bankMode State.reset t b = .cache := rfl
@[simp] theorem blockAt_reset (t b : Nat) : blockAt State.reset t b = Block.reset := rfl
@[simp] theorem waits_reset (t : Nat) : FMap.get [] State.reset.waits t = [] := rfl
@[simp] theorem readyOf_reset (c : Nat) : readyOf State.reset c = [] := rfl
@[simp] theorem portQueue_reset (c p : Nat) : portQueue State.reset c p = [] := rfl

theorem block_reset_unreserved (t b : Nat) : (blockAt State.reset t b).reserved = false := by
  rw [blockAt_reset, Block.reset]

/-- Settles O57: the maps of the state at reset are empty, and an address in an aperture divides into its tile and its
offset. -/
theorem resetAndScratch : Obligations.ResetAndScratch := by
  refine ⟨bankMode_reset, block_reset_unreserved, waits_reset, readyOf_reset, portQueue_reset, fun t off ht => ⟨?_, ?_⟩⟩
  · intro hoff
    have hin : off < 0x200000 := by omega
    exact ⟨regionOf_bank t off ht hoff, scratchTile_placeOf t off hin, scratchBank_placeOf t off hin⟩
  · exact regionOf_hole t off ht

end Sys2Proof.Proofs

/-! Pages 10 and 11: what the instructions that act on one accumulator block do to it (R312, R316). -/

namespace Sys2Proof.Proofs
open Sys2Proof.Machine Sys2Proof.Laws

section
variable {s t : State} {i : Instr} {id : Nat} {x y : Ctx} {ci cm : Nat}

/-- An instruction that begins, pays its charge first and then has an effect that no trap ends: the state after the effect. -/
theorem run_charge_of_begins {effect : Nat → Ctx → M Unit} (h : Begins s i id x ci cm y)
    (he : effect id x (setCtx s id y) = .ok ((), t)) :
    run i (fun id x => do charge id ci cm; effect id x) s = .next (conclude t id x.pc) := by
  obtain ⟨hclear, hpays⟩ := h
  rw [run_of_clear hclear, bind_of_ok (charge_of_pays hpays), he]

/-- The accumulator blocks do not depend on the contexts. -/
@[simp] theorem blockAt_setCtx (s : State) (id : Nat) (x : Ctx) (tile b : Nat) :
    blockAt (setCtx s id x) tile b = blockAt s tile b := rfl

@[simp] theorem updBlock_eq (x : Ctx) (blk : RegNo) (f : Block → Block) (s : State) :
    updBlock x blk f s = .ok ((), setBlock s x.tile (physical x blk) (f (blockAt s x.tile (physical x blk)))) := rfl

@[simp] theorem readBlock_eq (x : Ctx) (blk : RegNo) (s : State) :
    readBlock x blk s = .ok (blockAt s x.tile (physical x blk), s) := rfl

-- The three instructions on the physical block that their grant maps

/-- R312: the elements, the count and the flags are cleared, and E is set from lane 0. -/
theorem exec_acce_of_begins {blk a : RegNo} (h : Begins s (.acce blk a) id x 1 0 y) :
    exec (.acce blk a) s = .next (conclude (setBlock (setCtx s id y) x.tile (physical x blk)
      { blockAt s x.tile (physical x blk) with acc := { Accum.zero with e := BitVec.ofNat 10 (x.lane0 a) } }) id x.pc) :=
  run_charge_of_begins h (updBlock_eq ..)

/-- R312: the same with E kept. -/
theorem exec_accz_of_begins {blk : RegNo} (h : Begins s (.accz blk) id x 1 0 y) :
    exec (.accz blk) s = .next (conclude (setBlock (setCtx s id y) x.tile (physical x blk)
      { blockAt s x.tile (physical x blk) with
        acc := { Accum.zero with e := (blockAt s x.tile (physical x blk)).acc.e } }) id x.pc) :=
  run_charge_of_begins h (updBlock_eq ..)

/-- R316: the block is only read. -/
theorem exec_accstat_of_begins {d blk : RegNo} (h : Begins s (.accstat d blk) id x 1 0 y) :
    exec (.accstat d blk) s = .next (conclude (putReg (setCtx s id y) id d
      (withScalar · (statusWord (blockAt s x.tile (physical x blk)).acc))) id x.pc) :=
  run_charge_of_begins h (by rw [bind_of_ok (readBlock_eq ..), blockAt_setCtx, swrite_eq])

end

/-- Settles O23: each of the three pays its charge and then acts on the block that `physical` names, the one its grant maps. -/
theorem blockSetting : Obligations.BlockSetting := fun _ _ _ _ _ _ _ =>
  ⟨exec_acce_of_begins, exec_accz_of_begins, exec_accstat_of_begins⟩

end Sys2Proof.Proofs
